-- ==== Sys2Proof/Word.lean ====
section
/-! DEFINITION. The words of the part: bytes, the numbered places of its tables, and the widths the manual names. -/

namespace Sys2Proof

/-- A byte of a frame, a presentation or a record (chapter 11). -/
abbrev Byte := BitVec 8

/-- A value of the 48-bit lease clock, and so a deadline (R75, R76). -/
abbrev Tick := BitVec 48

/-- A resource's 32-bit fencing number (R15). -/
abbrev Epoch := BitVec 32

/-- A resource's 16-bit name (R3). -/
abbrev ResName := BitVec 16

/-- A session number (R89). -/
abbrev Session := BitVec 16

/-- The generation part of a lease handle (R19, section 11.2). -/
abbrev Generation := BitVec 9

/-- A wait serial (R51). -/
abbrev Serial := BitVec 16

/-- A slot number (section 5.1). -/
abbrev SlotIx := Fin 8

/-- A tag of a slot (section 7.6). -/
abbrev TagIx := Fin 8

/-- The index of a catalog entry (section 1.1). -/
abbrev ResIx := Fin 64

/-- The index of a lease record (section 2.1). -/
abbrev RecIx := Fin 128

/-- The index of a wait entry (section 3.1). -/
abbrev WaitIx := Fin 96

end Sys2Proof
end

