-- ==== Sys2Proof/Config.lean ====
section
/-! DEFINITION. The named value sets of the manual (section 11.2 lists their codes): ports, request kinds, statuses, reasons and states. The part has no free value: nothing in the manual leaves a result open. -/

namespace Sys2Proof

/-- The two host ports: TWP, the two-wire target port, and FWP, the four-wire target port. -/
inductive Port where
  | twp
  | fwp
  deriving DecidableEq, Repr

/-- A source of ticks (R74): one period of the internal oscillator, or one rising edge on TBI. -/
inductive TickSource where
  | oscillator
  | tbi
  deriving DecidableEq, Repr

/-- What ends a TWP segment (section 9.2): a repeated start, or the STOP that ends the transaction. -/
inductive SegmentEnd where
  | repeatedStart
  | stop
  deriving DecidableEq, Repr

/-- The 22 request kinds (section 11.2). Kind NONE stands in EMPTY completions only and is no member. -/
inductive ReqKind where
  | attach | detach | ping | querySlot
  | acquire | release | renew | downgrade | upgrade | cancel | breakLease | notices | queryLease
  | queryResource | define | retire | tokenCheck
  | profileRead | profileSet | profileRestore | profileFreeze | config
  deriving DecidableEq, Repr

/-- The outcome codes of completions (section 11.2). -/
inductive Status where
  | ok | granted | more | replaced | current | stale
  | busy | timedOut | cancelled | tooLate | notParked
  | lapsed | revoked | unknownLease | notHolder
  | unknownResource | denied | modeNotAllowed | alreadyHeld
  | quota | tableFull | waitFull | renewLimit | epochSpent | catalogFull
  | upgradeConflict | notShared | notExclusive
  | retired | nameTaken | badOperand | profileRefused | empty
  deriving DecidableEq, Repr

/-- The reasons of the refusal record (R121, R123, section 11.2). -/
inductive RefusalReason where
  | none | badLead | badLength | shortFrame | checkFailed | badKind
  | staleSession | portMismatch | tagBusy | intakeFull | busClear
  deriving DecidableEq, Repr

/-- The reasons of a BAD_OPERAND completion (R5, R164). -/
inductive OperandReason where
  | range | relation | notZero | length
  deriving DecidableEq, Repr

/-- The reasons of a PROFILE_REFUSED completion (R110, R111). -/
inductive ProfileReason where
  | frozen | aboveCeiling | belowUse | selfLockout | badSlot
  deriving DecidableEq, Repr

/-- The answers to a check-only query (section 11.2). -/
inductive CheckAnswer where
  | current | stale | unknownResource | checkFailed
  deriving DecidableEq, Repr

/-- Mode of a lease and holder mode of a resource. NONE is a holder mode, and the cleared mode of a FREE record. -/
inductive Mode where
  | none | shared | exclusive
  deriving DecidableEq, Repr

/-- States of a lease record (R21). -/
inductive LeaseState where
  | free | reserved | held | lapsed | revoked
  deriving DecidableEq, Repr

/-- States of a catalog entry (R1). `opened` is the manual's OPEN. -/
inductive CatState where
  | vacant | opened | draining
  deriving DecidableEq, Repr

/-- States of a slot (R88). -/
inductive SlotState where
  | vacant | active | lost
  deriving DecidableEq, Repr

/-- Why the last session of a slot ended (R100). -/
inductive EndCause where
  | none | detached | keepalive | reset | replaced
  deriving DecidableEq, Repr

/-- States of a tag (R129). `opened` is the manual's OPEN. -/
inductive TagState where
  | free | opened | done
  deriving DecidableEq, Repr

/-- The seven rights, in the order of their numbers 0 to 6 (section 6.2). -/
inductive Right where
  | acquireX | acquireS | wait | breakLease | catalog | check | profile
  deriving DecidableEq, Repr

/-- An accepted request frame as an intake queue holds it, whole (R120). The operand length is the length of `operands`. -/
structure Frame where
  slot     : SlotIx
  session  : Session
  tag      : TagIx
  kind     : ReqKind
  operands : List Byte
  deriving DecidableEq, Repr

/-- A completion record (R130). Its slot is the list it stands in. -/
structure Completion where
  tag     : TagIx
  kind    : ReqKind
  status  : Status
  payload : List Byte
  deriving DecidableEq, Repr

/-- A port's refusal record (R123). -/
structure RefusalRecord where
  reason  : RefusalReason
  lead    : Byte
  tagKind : Byte
  deriving DecidableEq, Repr

/-- A check-only query: name, epoch and mode byte (R141, R142). -/
structure Query where
  name  : ResName
  epoch : Epoch
  mode  : Byte
  deriving DecidableEq, Repr

end Sys2Proof
end

