-- ==== Sys2Proof/Syntax.lean ====
section
/-! DEFINITION. The commands of the part: one constructor for each row of spec/opcode_table.json, in the table's order. A step that a block takes from a path, a queue or a list has no content of its own: what it takes stands at the head in State (log 1, log 4). -/

namespace Sys2Proof

/-- One step of the part, each whole and indivisible (95_what_each_step_holds.md). -/
inductive Instr where
  /-- VDD is applied (R137). -/
  | powerOnReset
  /-- POR is released with the TBSEL strap at `tbsel` and the address straps at `adr` (R74, R145). -/
  | porRelease (tbsel : Bool) (adr : Fin 4)
  /-- RSTN is asserted (R138). -/
  | pinReset
  /-- RSTN is released with the straps at these levels (R104). -/
  | pinResetRelease (tbsel : Bool) (adr : Fin 4)
  /-- One oscillator period or one TBI edge (R74, R75). -/
  | tick (source : TickSource)
  /-- LCK removes the due head of the deadline list and sends its expiry (R81). -/
  | deadlineExpiry
  /-- LCK takes an insert request (R78). -/
  | deadlineInsert
  /-- LCK takes a removal request (R79). -/
  | deadlineRemove
  /-- LEN takes a LEASE expiry message (R42). -/
  | leaseExpiry
  /-- LEN takes a WAIT expiry message (R59). -/
  | waitExpiry
  /-- LEN takes a KEEPALIVE expiry message (R84). -/
  | keepaliveExpiry
  /-- LEN takes an ATTACH frame (R91). -/
  | attach
  /-- LEN takes a DETACH frame (R93). -/
  | detach
  /-- LEN takes a PING frame (R95). -/
  | ping
  /-- LEN takes a QUERY_SLOT frame (R101). -/
  | querySlot
  /-- LEN takes an ACQUIRE frame (R31). -/
  | acquire
  /-- LEN takes a RELEASE frame (R33). -/
  | release
  /-- LEN takes a RENEW frame (R37). -/
  | renew
  /-- LEN takes a DOWNGRADE frame (R38). -/
  | downgrade
  /-- LEN takes an UPGRADE frame (R66). -/
  | upgrade
  /-- LEN takes a CANCEL frame (R63). -/
  | cancel
  /-- LEN takes a BREAK frame (R41). -/
  | breakLease
  /-- LEN takes a NOTICES frame (R45). -/
  | notices
  /-- LEN takes a QUERY_LEASE frame (R46). -/
  | queryLease
  /-- LEN takes a QUERY_RESOURCE frame (R13). -/
  | queryResource
  /-- LEN takes a DEFINE frame (R4). -/
  | define
  /-- LEN takes a RETIRE frame (R7). -/
  | retire
  /-- LEN takes a TOKEN_CHECK frame (R140). -/
  | tokenCheck
  /-- LEN takes a PROFILE_READ frame (R109). -/
  | profileRead
  /-- LEN takes a PROFILE_SET frame (R110). -/
  | profileSet
  /-- LEN takes a PROFILE_RESTORE frame (R114). -/
  | profileRestore
  /-- LEN takes a PROFILE_FREEZE frame (R118). -/
  | profileFreeze
  /-- LEN takes a CONFIG frame (R115). -/
  | config
  /-- TWP takes the check-only enable LEN sent (R116). -/
  | checkOnlyEnableTake
  /-- LEN takes TWP's report that it has taken the enable (R116). -/
  | configReport
  /-- LEN takes a check-only query (R142). -/
  | checkOnlyQuery
  /-- TWP takes LEN's answer to a check-only query (R154). -/
  | checkOnlyAnswer
  /-- A port takes a take-time refusal from LEN (R123). -/
  | takeTimeRefusal (p : Port)
  /-- RQU takes a port's intake claim (R120). -/
  | intakeClaim (p : Port)
  /-- RQU takes a port's end-of-frame checks 7 to 9 (R121). -/
  | arrivalCheck (p : Port)
  /-- RQU takes a completion from LEN (R130). -/
  | completionFiled
  /-- RQU takes a "session begun" notice (R124). -/
  | sessionBegun
  /-- RQU takes a "session ended" notice (R131). -/
  | sessionEnded
  /-- RQU takes a "slot lost" notice (R124). -/
  | slotLost
  /-- RQU takes a "slot news on" notice (R135). -/
  | slotNewsOn
  /-- RQU takes a "slot news off" notice (R135). -/
  | slotNewsOff
  /-- RQU takes a port's collect select (R132). -/
  | collectSelect (p : Port)
  /-- RQU takes the end of a port's collect (R133). -/
  | collectEnd (p : Port)
  /-- A START or repeated start on the two-wire bus, with its address byte (R145). -/
  | twpAddress (b : Byte)
  /-- A byte written on the two-wire bus (R148). -/
  | twpWriteByte (b : Byte)
  /-- The repeated start or STOP that ends a two-wire segment (R149). -/
  | twpSegmentEnd (e : SegmentEnd)
  /-- SCL has been low for 25 ms (R155). -/
  | busClear
  /-- SSN falls, with SCK high or low (R157, R158). -/
  | ssnFall (sckHigh : Bool)
  /-- The rising edge of SCK that completes a byte on SDI (R159). -/
  | fwpByteReceived (b : Byte)
  /-- SSN rises (R160). -/
  | ssnRise
  /-- The controller clocks out one byte of a two-wire read segment and answers acknowledge (`true`) or not-acknowledge (R146). -/
  | byteClockedOut (ack : Bool)
  deriving DecidableEq, Repr

end Sys2Proof
end

