-- ==== Sys2Proof/WellFormed.lean ====
section
/-! DEFINITION. The checks that a command, a frame and a completion must meet to be one of the manual's. -/

namespace Sys2Proof

/-- Every operand of a command is of a type that holds the manual's values and no other (a port, a byte, a strap value 0 to 3, a level), so no command is ill-formed. -/
def Instr.wellFormed (_ : Instr) : Bool := true

/-- A frame carries at most 16 operand bytes (R121 check 3, section 11.1). -/
def Frame.wellFormed (f : Frame) : Bool := decide (f.operands.length ≤ 16)

/-- A completion carries at most 16 payload bytes (R130, section 11.1). -/
def Completion.wellFormed (c : Completion) : Bool := decide (c.payload.length ≤ 16)

end Sys2Proof
end

