-- ==== Sys2Proof/Decode.lean ====
section
/-! DEFINITION. The commands that a word of spec/opcode_table.json spells. No row of the table gives bits, so no word spells a command. -/

namespace Sys2Proof

/-- The command that the word `w` of `nbits` bits spells: the table numbers no bit of any row, so there is none. -/
def decodeTableWord (_nbits _w : Nat) : Option Instr := none

end Sys2Proof
end

