-- ==== Sys2Proof/Machine/State.lean ====
section
/-! DEFINITION. The state of the part: the five blocks, the paths between them with the messages in flight, and the queue of commands. All of it is plain data. -/

namespace Sys2Proof.Machine

/-- The reasons for which a command stops the machine. There is none: the manual describes every refusal as a status, a record or a not-acknowledge, all of them effects on State. -/
inductive Fault where
  deriving DecidableEq, Repr

/-- The reasons for which the model refuses a command. -/
inductive Refusal where
  /-- Raised by an arm of exec whose command has no meaning yet. Safe: the run stops. No arm raises it. -/
  | notModelled (mnemonic : String)
  deriving DecidableEq, Repr

/-! ## LEN, the lease engine -/

/-- A catalog entry (section 1.1): the parameters that DEFINE gives it and its holding state. -/
structure Entry where
  state          : CatState
  name           : ResName
  shareLimit     : Nat
  termCap        : Nat
  defaultTerm    : Nat
  renewLimit     : Nat
  waitingAllowed : Bool
  breakAllowed   : Bool
  admission      : BitVec 8
  epoch          : Epoch
  holderMode     : Mode
  holderCount    : Nat
  /-- The waits parked on the resource, the head first (R52). -/
  queue          : List WaitIx
  upgradePending : Bool
  deriving DecidableEq, Repr

/-- A VACANT entry whose epoch field holds `e`: every other field is cleared (R2). -/
def Entry.vacant (e : Epoch) : Entry where
  state := .vacant
  name := 0
  shareLimit := 0
  termCap := 0
  defaultTerm := 0
  renewLimit := 0
  waitingAllowed := false
  breakAllowed := false
  admission := 0
  epoch := e
  holderMode := .none
  holderCount := 0
  queue := []
  upgradePending := false

/-- A lease record (section 2.1). Its handle is its index with `generation`. -/
structure Lease where
  generation : Generation
  state      : LeaseState
  resource   : ResIx
  slot       : SlotIx
  session    : Session
  mode       : Mode
  epoch      : Epoch
  term       : Nat
  deadline   : Tick
  renewCount : Nat
  changeMark : Bool
  deriving DecidableEq, Repr

/-- A FREE record of the given generation, its state fields and its change mark cleared (R23). -/
def Lease.cleared (g : Generation) : Lease where
  generation := g
  state := .free
  resource := 0
  slot := 0
  session := 0
  mode := .none
  epoch := 0
  term := 0
  deadline := 0
  renewCount := 0
  changeMark := false

/-- What a wait asks for (section 3.1). The mode, term and priority class are an ACQUIRE wait's alone. -/
inductive WaitKind where
  | acquire (mode : Mode) (term : Nat) (priority : Nat)
  | upgrade
  deriving DecidableEq, Repr

/-- A PARKED wait entry (section 3.1). -/
structure Wait where
  kind     : WaitKind
  slot     : SlotIx
  session  : Session
  tag      : TagIx
  resource : ResIx
  /-- The record reserved for an ACQUIRE wait, or the lease an UPGRADE wait would change. -/
  lease    : RecIx
  serial   : Serial
  /-- Absent for a wait without limit. -/
  deadline : Option Tick
  deriving DecidableEq, Repr

/-- A profile (section 6.1). Bit n of `rights` is the right numbered n. -/
structure Profile where
  rights     : BitVec 7
  leaseQuota : Nat
  waitQuota  : Nat
  priority   : Nat
  deriving DecidableEq, Repr

/-- A slot of the slot table (section 5.1). -/
structure Slot where
  state             : SlotState
  session           : Session
  /-- `none` is the manual's bound port NONE. -/
  port              : Option Port
  keepaliveTerm     : Nat
  keepaliveDeadline : Option Tick
  endCause          : EndCause
  answered          : Vector Bool 8
  news              : Bool
  profile           : Profile
  deriving DecidableEq, Repr

/-- The slot and tag of a CONFIG whose event is open (R116). -/
structure OpenConfig where
  slot : SlotIx
  tag  : TagIx
  deriving DecidableEq, Repr

/-- The state the lease engine owns. -/
structure Len where
  catalog       : Vector Entry 64
  leases        : Vector Lease 128
  /-- `none` is a FREE wait entry, which has no meaning in any field (R50). -/
  waits         : Vector (Option Wait) 96
  slots         : Vector Slot 8
  waitSerial    : Serial
  frozen        : Bool
  checkOnly     : Bool
  lastPort      : Port
  configOpen    : Option OpenConfig
  deriving DecidableEq, Repr

/-! ## LCK, the lease clock -/

/-- The kind and owner stamp of a deadline list entry (section 4.3). -/
inductive Stamp where
  | lease (record : RecIx) (generation : Generation)
  | wait (wait : WaitIx) (serial : Serial)
  | keepalive (slot : SlotIx) (session : Session)
  deriving DecidableEq, Repr

/-- A deadline list entry; the same data is an expiry message (R81). -/
structure Deadline where
  deadline : Tick
  stamp    : Stamp
  deriving DecidableEq, Repr

/-- The state the lease clock owns. -/
structure Lck where
  /-- The time-base selection: TBI when set, the internal oscillator when clear (R74). -/
  tbsel        : Bool
  clock        : Tick
  deadlines    : List Deadline
  /-- The last tick counted has not ended: entries due at it still stand in the list (R81, log 6). -/
  tickOpen     : Bool
  deriving DecidableEq, Repr

/-! ## RQU, the request unit -/

/-- RQU's view of a slot (R124). An ACTIVE view has no session number between a replacing ATTACH's two notices; that it then has no bound port either is the model's choice, log 28. -/
inductive SlotView where
  | vacant
  | active (session : Option (Session × Port))
  | lost
  deriving DecidableEq, Repr

/-- What RQU keeps for a slot: tags (R129), completion list (R130), view (R124), news and attention line (R135). -/
structure RquSlot where
  view        : SlotView
  tags        : Vector TagState 8
  completions : List Completion
  news        : Bool
  /-- The attention line is driven low. -/
  attention   : Bool
  deriving DecidableEq, Repr

/-- What RQU keeps for a port: the intake queue and its claim (R120), and the slot whose head completion the port's collect presents (R132, R133). -/
structure RquPort where
  queue : List Frame
  claim : Bool
  mark  : Option SlotIx
  deriving DecidableEq, Repr

/-- The state the request unit owns. -/
structure Rqu where
  slots : Vector RquSlot 8
  twp   : RquPort
  fwp   : RquPort
  deriving DecidableEq, Repr

/-! ## The ports -/

/-- The status items and refusal record of a port (R123, R136). -/
structure PortStatus where
  record          : RefusalRecord
  refusalUnread   : Bool
  resetIndication : Bool
  /-- A refusal has been written since the status presentation was fixed (R136). -/
  refusedSince    : Bool
  deriving DecidableEq, Repr

/-- The states of a front end (R146). -/
inductive FrontState where
  | idle | receiving | refusing | presenting
  deriving DecidableEq, Repr

/-- The kinds of frame a front end receives (R146, section 11.1). -/
inductive FrameKind where
  | request | collectSelect | statusSelect | checkOnlyQuery
  deriving DecidableEq, Repr

/-- What a front end shifts out. `nothing` is a read segment outside any presentation. -/
inductive Presentation where
  | nothing | completion | status | answer
  deriving DecidableEq, Repr

/-- The part of a front end that both ports have (R146, R157). -/
structure Front where
  state        : FrontState
  /-- `none` until a lead byte has told the kind. -/
  kind         : Option FrameKind
  bytes        : List Byte
  /-- The running frame check over `bytes` (R147). -/
  check        : Byte
  /-- A byte after the frame's check byte has arrived. -/
  extra        : Bool
  presentation : Presentation
  /-- The bytes of the presentation, its check byte the last. -/
  outgoing     : List Byte
  /-- How many of `outgoing` have been shifted out. -/
  sent         : Nat
  deriving DecidableEq, Repr

/-- A front end that is IDLE. -/
def Front.idle : Front where
  state := .idle
  kind := none
  bytes := []
  check := 0xFF
  extra := false
  presentation := .nothing
  outgoing := []
  sent := 0

/-- Where a held check-only query stands (R153). -/
inductive QueryState where
  | waiting
  | passed
  | answered (a : CheckAnswer)
  deriving DecidableEq, Repr

/-- The item a TWP front end holds for the read segment that follows (R146). -/
inductive Held where
  | collect (slot : SlotIx) (session : Session)
  | status
  | query (q : Query) (stage : QueryState)
  deriving DecidableEq, Repr

/-- The state the two-wire port owns. -/
structure Twp where
  front     : Front
  /-- The controller has given a not-acknowledge in this read segment (R150). -/
  nacked    : Bool
  held      : Option Held
  /-- A query TWP passed to LEN has not been answered yet (R141). -/
  queryOut  : Bool
  /-- TWP's copy of the check-only enable (R116). -/
  checkOnly : Bool
  /-- The value of the address straps (R145). -/
  adr       : Fin 4
  /-- TWP held SDA low at the last acknowledge bit that was its own. -/
  sdaAck    : Bool
  /-- The byte last shifted out on SDA. -/
  sdaOut    : Byte
  status    : PortStatus
  deriving DecidableEq, Repr

/-- The state the four-wire port owns. -/
structure Fwp where
  front      : Front
  /-- The level of the SSN pin is low. -/
  ssnLow     : Bool
  /-- SDO is driven; otherwise it is at high impedance (R157). -/
  sdoDriven  : Bool
  /-- The port status byte fixed when SSN fell (R158). -/
  statusByte : Byte
  /-- The byte last shifted out in full on SDO. -/
  sdoOut     : Byte
  /-- SCK was high when SSN fell: the controller reads every outgoing byte one bit late (R157). -/
  readLate   : Bool
  status     : PortStatus
  deriving DecidableEq, Repr

/-! ## The paths -/

/-- Port to RQU (section 2.2). -/
inductive PortMsg where
  | claim
  | arrival (f : Frame)
  | select (slot : SlotIx) (session : Session)
  | collectEnd (full : Bool)
  deriving DecidableEq, Repr

/-- LEN to RQU (section 2.2). -/
inductive RquMsg where
  | completion (slot : SlotIx) (c : Completion)
  | begun (slot : SlotIx) (session : Session) (port : Port)
  | ended (slot : SlotIx) (newState : SlotState)
  | lost (slot : SlotIx)
  | newsOn (slot : SlotIx)
  | newsOff (slot : SlotIx)
  deriving DecidableEq, Repr

/-- LEN to LCK (R80). -/
inductive LckReq where
  | insert (d : Deadline)
  | remove (d : Deadline)
  deriving DecidableEq, Repr

/-- LEN to TWP: the check-only enable, with whether an open CONFIG waits for its report (log 8), and answers to queries. -/
inductive TwpMsg where
  | enable (on : Bool) (forConfig : Bool)
  | answer (a : CheckAnswer)
  deriving DecidableEq, Repr

/-- The messages in flight, each list in the order sent, the oldest first (section 2.2). -/
structure Paths where
  twpToRqu    : List PortMsg
  fwpToRqu    : List PortMsg
  lenToRqu    : List RquMsg
  lenToLck    : List LckReq
  lckToLen    : List Deadline
  twpRefusals : List RefusalRecord
  fwpRefusals : List RefusalRecord
  lenToTwp    : List TwpMsg
  queries     : List Query
  /-- Each report carries whether it answers an enable of an open CONFIG. -/
  reports     : List Bool
  deriving DecidableEq, Repr

/-- No message is in flight. -/
def Paths.empty : Paths where
  twpToRqu := []
  fwpToRqu := []
  lenToRqu := []
  lenToLck := []
  lckToLen := []
  twpRefusals := []
  fwpRefusals := []
  lenToTwp := []
  queries := []
  reports := []

/-! ## The whole part -/

/-- The state of the FZ240 and the queue of the commands that wait. -/
structure State where
  /-- Power-on reset has begun and has not been released. -/
  por     : Bool
  /-- RSTN is asserted. -/
  rstnLow : Bool
  len     : Len
  lck     : Lck
  rqu     : Rqu
  twp     : Twp
  fwp     : Fwp
  paths   : Paths
  pending : List Instr
  deriving DecidableEq, Repr

/-- The ceiling of a slot (section 6.1): every right but PROFILE, and PROFILE for slot 0 alone. -/
def ceiling (n : SlotIx) : Profile where
  rights := if n = 0 then 0x7F else 0x3F
  leaseQuota := 32
  waitQuota := 16
  priority := 3

/-- A slot after POR (R103): VACANT, never attached, its profile at its ceiling (R105). -/
def Slot.afterPor (n : SlotIx) : Slot where
  state := .vacant
  session := 0
  port := none
  keepaliveTerm := 0
  keepaliveDeadline := none
  endCause := .none
  answered := Vector.replicate 8 false
  news := false
  profile := ceiling n

/-- LEN after POR (R17, R47, R72, R103, R117, R119, R137). -/
def Len.afterPor : Len where
  catalog := Vector.replicate 64 (Entry.vacant 0)
  leases := Vector.replicate 128 (Lease.cleared 1)
  waits := Vector.replicate 96 none
  slots := Vector.ofFn Slot.afterPor
  waitSerial := 0
  frozen := false
  checkOnly := false
  lastPort := .fwp
  configOpen := none

/-- LCK after POR (R86). -/
def Lck.afterPor : Lck where
  tbsel := false
  clock := 0
  deadlines := []
  tickOpen := false

/-- What RQU keeps for a slot after either reset (R137, R138). -/
def RquSlot.afterReset : RquSlot where
  view := .vacant
  tags := Vector.replicate 8 .free
  completions := []
  news := false
  attention := false

/-- What RQU keeps for a port after either reset (R137, R138). -/
def RquPort.afterReset : RquPort where
  queue := []
  claim := false
  mark := none

/-- RQU after either reset (R137, R138). -/
def Rqu.afterReset : Rqu where
  slots := Vector.replicate 8 RquSlot.afterReset
  twp := RquPort.afterReset
  fwp := RquPort.afterReset

/-- A port's status items at either reset, before its release sets the reset indication (R137, R138). -/
def PortStatus.inReset : PortStatus where
  record := ⟨.none, 0, 0⟩
  refusalUnread := false
  resetIndication := false
  refusedSince := false

/-- A port's status items after the release of either reset (R136). -/
def PortStatus.released : PortStatus := { PortStatus.inReset with resetIndication := true }

/-- The machine right after power-on reset and its release, with every strap sampled low and SSN high (R137; the pin levels are log 3). -/
def State.reset : State where
  por := false
  rstnLow := false
  len := Len.afterPor
  lck := Lck.afterPor
  rqu := Rqu.afterReset
  twp :=
    { front := Front.idle
      nacked := false
      held := none
      queryOut := false
      checkOnly := false
      adr := 0
      sdaAck := false
      sdaOut := 0xFF
      status := PortStatus.released }
  fwp :=
    { front := Front.idle
      ssnLow := false
      sdoDriven := false
      statusByte := 0
      sdoOut := 0xFF
      readLate := false
      status := PortStatus.released }
  paths := Paths.empty
  pending := []

end Sys2Proof.Machine
end

