-- ==== Sys2Proof/Machine/Operands.lean ====
section
/-! DEFINITION. Bytes, codes and layouts (chapter 11): the operand forms of the request kinds, the payloads of the completions, the lead byte, the tag and kind byte, and the frame check. -/

namespace Sys2Proof.Machine

/-! ## Numbers in bytes -/

/-- The unsigned number that bytes spell, most significant byte first (chapter 11). -/
def bytesToNat (bs : List Byte) : Nat := bs.foldl (fun n b => n * 256 + b.toNat) 0

/-- The low `width` bytes of a number, most significant byte first (chapter 11). -/
def natToBytes (n : Nat) : (width : Nat) → List Byte
  | 0 => []
  | w + 1 => BitVec.ofNat 8 (n / 256 ^ w) :: natToBytes n w

/-- The operand of `width` bytes at an offset, counted from 0 at the first operand byte (section 11.3). -/
def operandAt (ops : List Byte) (offset width : Nat) : Nat := bytesToNat ((ops.drop offset).take width)

/-- One operand byte. -/
def operandByte (ops : List Byte) (offset : Nat) : Byte := ops.getD offset 0

/-! ## The frame check -/

/-- One shift of the check: the polynomial 9Bh goes in when the top bit falls out (R147). -/
def checkShift (c : Byte) : Byte := if c.msb then (c <<< 1) ^^^ 0x9B else c <<< 1

/-- The check after one more byte (R147). -/
def checkStep (c b : Byte) : Byte :=
  checkShift (checkShift (checkShift (checkShift
    (checkShift (checkShift (checkShift (checkShift (c ^^^ b))))))))

/-- The check byte of the bytes it covers, started at FFh, without inversion (R147, section 11.5). -/
def frameCheck (bs : List Byte) : Byte := bs.foldl checkStep 0xFF

/-- Bytes followed by their check byte, as every presentation ends (R147). -/
def withCheck (bs : List Byte) : List Byte := bs ++ [frameCheck bs]

/-! ## Codes (section 11.2) -/

/-- The kind codes. -/
def kindCode : ReqKind → Nat
  | .attach => 0x01
  | .detach => 0x02
  | .ping => 0x03
  | .querySlot => 0x04
  | .acquire => 0x08
  | .release => 0x09
  | .renew => 0x0A
  | .downgrade => 0x0B
  | .upgrade => 0x0C
  | .cancel => 0x0D
  | .breakLease => 0x0E
  | .notices => 0x0F
  | .queryLease => 0x10
  | .queryResource => 0x11
  | .define => 0x12
  | .retire => 0x13
  | .tokenCheck => 0x14
  | .profileRead => 0x18
  | .profileSet => 0x19
  | .profileRestore => 0x1A
  | .profileFreeze => 0x1B
  | .config => 0x1C

/-- Every assigned kind, in the order of the codes. -/
def allKinds : List ReqKind :=
  [.attach, .detach, .ping, .querySlot, .acquire, .release, .renew, .downgrade, .upgrade, .cancel, .breakLease, .notices,
    .queryLease, .queryResource, .define, .retire, .tokenCheck, .profileRead, .profileSet, .profileRestore, .profileFreeze,
    .config]

/-- The kind of a code, if it is assigned. -/
def kindOfCode (c : Nat) : Option ReqKind := allKinds.find? (fun k => kindCode k == c)

/-- The status codes. -/
def statusCode : Status → Byte
  | .ok => 0x00
  | .granted => 0x01
  | .more => 0x02
  | .replaced => 0x03
  | .current => 0x04
  | .stale => 0x05
  | .busy => 0x10
  | .timedOut => 0x11
  | .cancelled => 0x12
  | .tooLate => 0x13
  | .notParked => 0x14
  | .lapsed => 0x20
  | .revoked => 0x21
  | .unknownLease => 0x22
  | .notHolder => 0x23
  | .unknownResource => 0x28
  | .denied => 0x29
  | .modeNotAllowed => 0x2A
  | .alreadyHeld => 0x2B
  | .quota => 0x30
  | .tableFull => 0x31
  | .waitFull => 0x32
  | .renewLimit => 0x33
  | .epochSpent => 0x34
  | .catalogFull => 0x35
  | .upgradeConflict => 0x38
  | .notShared => 0x39
  | .notExclusive => 0x3A
  | .retired => 0x40
  | .nameTaken => 0x41
  | .badOperand => 0x48
  | .profileRefused => 0x49
  | .empty => 0x50

/-- The refusal reason codes. -/
def refusalCode : RefusalReason → Byte
  | .none => 0x00
  | .badLead => 0x01
  | .badLength => 0x02
  | .shortFrame => 0x03
  | .checkFailed => 0x04
  | .badKind => 0x05
  | .staleSession => 0x06
  | .portMismatch => 0x07
  | .tagBusy => 0x08
  | .intakeFull => 0x09
  | .busClear => 0x0A

/-- The operand reason codes. -/
def operandReasonCode : OperandReason → Byte
  | .range => 0x01
  | .relation => 0x02
  | .notZero => 0x03
  | .length => 0x04

/-- The profile reason codes. -/
def profileReasonCode : ProfileReason → Byte
  | .frozen => 0x01
  | .aboveCeiling => 0x02
  | .belowUse => 0x03
  | .selfLockout => 0x04
  | .badSlot => 0x05

/-- The check-only answer codes. -/
def answerCode : CheckAnswer → Byte
  | .current => 0x01
  | .stale => 0x02
  | .unknownResource => 0x03
  | .checkFailed => 0x04

/-- The codes of modes and holder modes. -/
def modeCode : Mode → Byte
  | .none => 0x00
  | .shared => 0x01
  | .exclusive => 0x02

/-- The mode a request may ask for: SHARED or EXCLUSIVE (R25, R140). -/
def modeOfCode (c : Byte) : Option Mode :=
  if c = 0x01 then some .shared else if c = 0x02 then some .exclusive else none

/-- The codes of the lease states a requester can see. -/
def leaseStateCode : LeaseState → Byte
  | .held => 0x01
  | .lapsed => 0x02
  | .revoked => 0x03
  | .free => 0x00
  | .reserved => 0x00

/-- The codes of the catalog states a requester can see. -/
def catStateCode : CatState → Byte
  | .opened => 0x01
  | .draining => 0x02
  | .vacant => 0x00

/-- The slot state codes. -/
def slotStateCode : SlotState → Byte
  | .vacant => 0x00
  | .active => 0x01
  | .lost => 0x02

/-- The bound port codes, NONE being 00h. -/
def portCode : Option Port → Byte
  | none => 0x00
  | some .twp => 0x01
  | some .fwp => 0x02

/-- The end cause codes. -/
def endCauseCode : EndCause → Byte
  | .none => 0x00
  | .detached => 0x01
  | .keepalive => 0x02
  | .reset => 0x03
  | .replaced => 0x04

/-- The number of a right (section 6.2). -/
def rightNumber : Right → Nat
  | .acquireX => 0
  | .acquireS => 1
  | .wait => 2
  | .breakLease => 3
  | .catalog => 4
  | .check => 5
  | .profile => 6

/-! ## Handles (section 11.2) -/

/-- The handle of a record index and generation: bits 15-9 and bits 8-0. -/
def packHandle (i : RecIx) (g : Generation) : Nat := i.val * 512 + g.toNat

/-- The record index of a 16-bit handle. -/
def handleRecord (h : Nat) : RecIx := Fin.ofNat 128 (h / 512)

/-- The generation of a 16-bit handle. -/
def handleGeneration (h : Nat) : Generation := BitVec.ofNat 9 h

/-! ## Lead byte, tag and kind byte -/

/-- The kind of frame a lead byte begins: `none` where the type is 00b or a must-be-zero bit is set (R121 check 1, section 11.1). -/
def leadKind (b : Byte) : Option FrameKind :=
  if b &&& 0x07 ≠ 0 then none
  else if b >>> 6 = 1 then some .request
  else if b >>> 6 = 2 then some .collectSelect
  else if b >>> 6 = 3 then some .statusSelect
  else none

/-- The slot in bits 5-3 of a lead byte. -/
def leadSlot (b : Byte) : SlotIx := Fin.ofNat 8 (b.toNat / 8)

/-- The lead byte of a REQUEST frame of a slot. -/
def requestLead (n : SlotIx) : Byte := BitVec.ofNat 8 (0x40 + n.val * 8)

/-- The tag and kind byte: the tag in bits 7-5, the kind code in bits 4-0. -/
def tagKindByte (t : TagIx) (k : ReqKind) : Byte := BitVec.ofNat 8 (t.val * 32 + kindCode k)

/-- The lead byte of an accepted frame, as it was received (its must-be-zero bits passed check 1). -/
def frameLead (f : Frame) : Byte := requestLead f.slot

/-- The tag and kind byte of an accepted frame, as it was received. -/
def frameTagKind (f : Frame) : Byte := tagKindByte f.tag f.kind

/-- The session number in bytes 1-2 of a request frame or collect select (section 11.1). -/
def frameSession (bytes : List Byte) : Session := BitVec.ofNat 16 (operandAt bytes 1 2)

/-- The request frame that complete bytes spell, or nothing where the kind code is not assigned (R121 check 6). -/
def parseFrame (bytes : List Byte) : Option Frame :=
  let tk := operandByte bytes 3
  (kindOfCode (tk.toNat % 32)).map fun k =>
    { slot := leadSlot (operandByte bytes 0)
      session := frameSession bytes
      tag := Fin.ofNat 8 (tk.toNat / 32)
      kind := k
      operands := (bytes.drop 5).take (operandByte bytes 4).toNat }

/-- The bytes a REQUEST frame has, given its operand length byte: the length plus 6 (R148). -/
def requestTotal (bytes : List Byte) : Nat := (operandByte bytes 4).toNat + 6

/-! ## Operand lengths and forms (section 11.3) -/

/-- The operand lengths of a kind. -/
def operandLengths : ReqKind → List Nat
  | .attach => [2]
  | .detach => [0]
  | .ping => [0]
  | .notices => [0]
  | .profileFreeze => [0]
  | .querySlot => [1]
  | .profileRead => [1]
  | .acquire => [9, 7]
  | .release => [2]
  | .downgrade => [2]
  | .queryLease => [2]
  | .renew => [5]
  | .upgrade => [5]
  | .cancel => [1]
  | .breakLease => [3]
  | .queryResource => [2]
  | .define => [16]
  | .retire => [3]
  | .tokenCheck => [7]
  | .profileSet => [5]
  | .profileRestore => [1]
  | .config => [1]

/-- The longest term, and the wait limit that means no limit: 1,048,575 (section 2.3). -/
def termMax : Nat := 1048575

/-- A name operand. -/
def nameAt (ops : List Byte) (offset : Nat) : ResName := BitVec.ofNat 16 (operandAt ops offset 2)

/-- The operands of an ACQUIRE. -/
structure AcquireOperands where
  name      : ResName
  mode      : Byte
  term      : Nat
  waitLimit : Nat
  deriving DecidableEq, Repr

/-- ACQUIRE in its full form of 9 bytes, or in its short form of 7 with 16-bit term and wait limit (R25). -/
def acquireOperands (ops : List Byte) : AcquireOperands :=
  if ops.length = 7 then
    { name := nameAt ops 0, mode := operandByte ops 2, term := operandAt ops 3 2, waitLimit := operandAt ops 5 2 }
  else
    { name := nameAt ops 0, mode := operandByte ops 2, term := operandAt ops 3 3, waitLimit := operandAt ops 6 3 }

/-- The operands of a DEFINE (section 11.3). -/
structure DefineOperands where
  name        : ResName
  shareLimit  : Nat
  termCap     : Nat
  defaultTerm : Nat
  renewLimit  : Nat
  flags       : Byte
  admission   : BitVec 8
  floor       : Epoch
  deriving DecidableEq, Repr

/-- DEFINE's 16 operand bytes. -/
def defineOperands (ops : List Byte) : DefineOperands :=
  { name := nameAt ops 0
    shareLimit := operandAt ops 2 1
    termCap := operandAt ops 3 3
    defaultTerm := operandAt ops 6 3
    renewLimit := operandAt ops 9 1
    flags := operandByte ops 10
    admission := operandByte ops 11
    floor := BitVec.ofNat 32 (operandAt ops 12 4) }

/-! ## Payloads (section 11.4) -/

/-- The GRANTED payload of ACQUIRE and UPGRADE. -/
def grantedPayload (handle : Nat) (m : Mode) (e : Epoch) (term : Nat) : List Byte :=
  natToBytes handle 2 ++ [modeCode m] ++ natToBytes e.toNat 4 ++ natToBytes term 3

/-- The ATTACH payload. -/
def attachPayload (s : Session) (c : EndCause) (term : Nat) : List Byte :=
  natToBytes s.toNat 2 ++ [endCauseCode c] ++ natToBytes term 2

/-- The BAD_OPERAND payload. -/
def badOperandPayload (r : OperandReason) (location : Nat) : List Byte :=
  [operandReasonCode r, BitVec.ofNat 8 location]

/-- The PROFILE_REFUSED payload (R111). -/
def profileRefusedPayload (r : ProfileReason) (fieldId detail : Nat) : List Byte :=
  [profileReasonCode r, BitVec.ofNat 8 fieldId, BitVec.ofNat 8 detail]

/-- The four bytes of a profile in the PROFILE_READ payload: its rights byte has bit 7 zero (section 11.2). -/
def profileBytes (p : Profile) : List Byte :=
  [p.rights.setWidth 8, BitVec.ofNat 8 p.leaseQuota, BitVec.ofNat 8 p.waitQuota, BitVec.ofNat 8 p.priority]

/-- A flag as the byte 01h or 00h. -/
def flagByte (b : Bool) : Byte := if b then 1 else 0

/-! ## Presentations (section 11.1) -/

/-- A completion frame, check byte included. -/
def completionFrame (c : Completion) : List Byte :=
  withCheck ([tagKindByte c.tag c.kind, statusCode c.status, BitVec.ofNat 8 c.payload.length] ++ c.payload)

/-- An EMPTY completion frame with status EMPTY or STALE: tag 0, kind NONE, no payload (R132). -/
def emptyFrame (st : Status) : List Byte := withCheck [0, statusCode st, 0]

/-- A check-only answer, check byte included. -/
def answerFrame (a : CheckAnswer) : List Byte := withCheck [answerCode a]

/-- What a check-only read segment presents while no answer has returned: FFh and its check byte 00h (R153). -/
def noAnswerFrame : List Byte := withCheck [0xFF]

/-- The query that the eight bytes of a check-only write segment carry (section 11.1). -/
def parseQuery (bytes : List Byte) : Query :=
  { name := nameAt bytes 0
    epoch := BitVec.ofNat 32 (operandAt bytes 2 4)
    mode := operandByte bytes 6 }

end Sys2Proof.Machine
end

