-- ==== Sys2Proof/Machine/Flags.lean ====
section
/-! DEFINITION. The flags and tests that are computed from State: rights, counts in use, change marks and news, the currency test, the free count, the port status byte and the attention lines. -/

namespace Sys2Proof.Machine

/-! ## LEN's tests -/

/-- Whether a profile holds a right (R107). -/
def Profile.holds (p : Profile) (r : Right) : Bool := p.rights.getLsbD (rightNumber r)

/-- The name lookup (R3): the non-VACANT entry of that name. The names 0000h and FFFFh match none. -/
def Len.lookup (len : Len) (name : ResName) : Option ResIx :=
  if name = 0x0000 ∨ name = 0xFFFF then none
  else (List.finRange 64).find? fun r => len.catalog[r].state ≠ .vacant ∧ len.catalog[r].name = name

/-- The lease use of a slot: its RESERVED, HELD, LAPSED and REVOKED records (R106). -/
def Len.leaseUse (len : Len) (n : SlotIx) : Nat :=
  len.leases.toList.countP fun l => l.state ≠ .free ∧ l.slot = n

/-- The wait use of a slot: its PARKED waits of both kinds (R106). -/
def Len.waitUse (len : Len) (n : SlotIx) : Nat :=
  len.waits.toList.countP fun
    | some w => w.slot = n
    | none => false

/-- The number of non-FREE records that refer to an entry (R8, R12). -/
def Len.recordsOn (len : Len) (r : ResIx) : Nat :=
  len.leases.toList.countP fun l => l.state ≠ .free ∧ l.resource = r

/-- Whether the slot has a non-FREE record on the entry (R28). -/
def Len.hasRecordOn (len : Len) (n : SlotIx) (r : ResIx) : Bool :=
  len.leases.toList.any fun l => l.state ≠ .free ∧ l.slot = n ∧ l.resource = r

/-- The lowest FREE lease record (R22). -/
def Len.freeLease? (len : Len) : Option RecIx :=
  (List.finRange 128).find? fun i => len.leases[i].state = .free

/-- The lowest FREE wait entry (R51). -/
def Len.freeWait? (len : Len) : Option WaitIx :=
  (List.finRange 96).find? fun w => len.waits[w].isNone

/-- The lowest VACANT catalog entry (R6). -/
def Len.vacantEntry? (len : Len) : Option ResIx :=
  (List.finRange 64).find? fun r => len.catalog[r].state = .vacant

/-- The UPGRADE wait for a record in its resource's queue, if one stands there (R34, R40, R43). -/
def Len.upgradeWaitOf (len : Len) (i : RecIx) : Option WaitIx :=
  len.catalog[len.leases[i].resource].queue.find? fun w =>
    match len.waits[w] with
    | some x => x.kind = .upgrade ∧ x.lease = i
    | none => false

/-- Whether a record of the slot has its change mark set: the slot's news (R24). -/
def Len.marked (len : Len) (n : SlotIx) : Bool :=
  len.leases.toList.any fun l => l.changeMark && decide (l.slot = n)

/-- The highest epoch: with it no further holding period can begin (R16). -/
def epochSpent : Epoch := 0xFFFFFFFF

/-- Whether a grant in this mode, the holder mode being as given, begins a new holding period and so needs an advance (R15). -/
def needsAdvance (m holder : Mode) : Bool := decide (m = .exclusive ∨ holder = .none)

/-- Whether the holders of an entry admit a grant in this mode (R29, R56). -/
def Entry.admits (en : Entry) (m : Mode) : Bool :=
  decide (en.holderMode = .none ∨
    (m = .shared ∧ en.holderMode = .shared ∧ en.holderCount < en.shareLimit ∧ en.upgradePending = false))

/-- Whether a grant in this mode would need an advance of a spent epoch (R16). -/
def Entry.spentFor (en : Entry) (m : Mode) : Bool :=
  needsAdvance m en.holderMode && decide (en.epoch = epochSpent)

/-- Whether a frame's session is the one in force at LEN (R127). -/
def Len.live (len : Len) (f : Frame) : Bool :=
  decide (len.slots[f.slot].state = .active ∧ len.slots[f.slot].session = f.session)

/-- The currency test (R139). The mode is the byte received: any byte but the two mode codes answers STALE (R142). -/
def Len.currency (len : Len) (q : Query) : CheckAnswer :=
  match len.lookup q.name with
  | none => .unknownResource
  | some r =>
    match modeOfCode q.mode with
    | none => .stale
    | some m => if len.catalog[r].holderMode = m ∧ len.catalog[r].epoch = q.epoch then .current else .stale

/-! ## Port and attention flags -/

/-- The intake free count of a port: 4 less the frames queued and less the claim (R120). -/
def RquPort.freeCount (q : RquPort) : Nat := 4 - q.queue.length - (if q.claim then 1 else 0)

/-- The port status byte (section 11.1): free count, refusal unread, reset indication, check-only enabled. -/
def portStatusByte (free : Nat) (st : PortStatus) (checkOnly : Bool) : Byte :=
  BitVec.ofNat 8 (free % 8 + (if st.refusalUnread then 8 else 0) + (if st.resetIndication then 16 else 0)
    + (if checkOnly then 32 else 0))

/-- A status presentation, check byte included: the status byte and the three bytes of the refusal record (section 11.1). -/
def statusFrame (statusByte : Byte) (st : PortStatus) : List Byte :=
  withCheck [statusByte, refusalCode st.record.reason, st.record.lead, st.record.tagKind]

/-- Whether an attention line is driven low (R135). -/
def attentionLow (view : SlotView) (list : List Completion) (news : Bool) : Bool :=
  match view with
  | .vacant => false
  | .active _ => !list.isEmpty || news
  | .lost => true

end Sys2Proof.Machine
end

