-- ==== Sys2Proof/Machine/Ops.lean ====
section
/-! DEFINITION. The named operations: register access, the messages of an event of LEN, freeing a record, ending a wait, granting, the grant pass, revocation and lapse, the purge, sessions, the take of a frame, and the operations RQU and the ports share. -/

namespace Sys2Proof.Machine

/-! ## Register access -/

/-- Replace a catalog entry. -/
def Len.setEntry (len : Len) (r : ResIx) (x : Entry) : Len := { len with catalog := len.catalog.set r x }

/-- Replace a lease record. -/
def Len.setLease (len : Len) (i : RecIx) (x : Lease) : Len := { len with leases := len.leases.set i x }

/-- Replace a wait entry. -/
def Len.setWait (len : Len) (w : WaitIx) (x : Option Wait) : Len := { len with waits := len.waits.set w x }

/-- Replace a slot. -/
def Len.setSlot (len : Len) (n : SlotIx) (x : Slot) : Len := { len with slots := len.slots.set n x }

/-! ## An event of LEN -/

/-- An event of LEN in progress: the clock it read at the take, LEN's state so far, and what it has sent so far. An event of LEN reaches nothing else. -/
structure LenEvent where
  now   : Tick
  len   : Len
  toLck : List LckReq
  toRqu : List RquMsg
  toTwp : List TwpMsg
  deriving DecidableEq, Repr

/-- Change a catalog entry. -/
def LenEvent.modEntry (e : LenEvent) (r : ResIx) (f : Entry → Entry) : LenEvent :=
  { e with len := e.len.setEntry r (f e.len.catalog[r]) }

/-- Change a lease record. -/
def LenEvent.modLease (e : LenEvent) (i : RecIx) (f : Lease → Lease) : LenEvent :=
  { e with len := e.len.setLease i (f e.len.leases[i]) }

/-- Change a slot. -/
def LenEvent.modSlot (e : LenEvent) (n : SlotIx) (f : Slot → Slot) : LenEvent :=
  { e with len := e.len.setSlot n (f e.len.slots[n]) }

/-- Send LCK the insert of a deadline entry (R80). -/
def LenEvent.insertDeadline (e : LenEvent) (d : Deadline) : LenEvent := { e with toLck := e.toLck ++ [.insert d] }

/-- Send LCK the removal of a deadline entry (R80). -/
def LenEvent.removeDeadline (e : LenEvent) (d : Deadline) : LenEvent := { e with toLck := e.toLck ++ [.remove d] }

/-- Send RQU a message. -/
def LenEvent.notify (e : LenEvent) (m : RquMsg) : LenEvent := { e with toRqu := e.toRqu ++ [m] }

/-- Send a completion and set the answer mark of its tag (R61, R130). -/
def LenEvent.complete (e : LenEvent) (n : SlotIx) (c : Completion) : LenEvent :=
  (e.modSlot n fun s => { s with answered := s.answered.set c.tag true }).notify (.completion n c)

/-- Complete a taken frame with a payload. -/
def LenEvent.replyWith (e : LenEvent) (f : Frame) (st : Status) (payload : List Byte) : LenEvent :=
  e.complete f.slot ⟨f.tag, f.kind, st, payload⟩

/-- Complete a taken frame with no payload. -/
def LenEvent.reply (e : LenEvent) (f : Frame) (st : Status) : LenEvent := e.replyWith f st []

/-- Complete a taken frame BAD_OPERAND (R5). -/
def LenEvent.badOperand (e : LenEvent) (f : Frame) (r : OperandReason) (location : Nat) : LenEvent :=
  e.replyWith f .badOperand (badOperandPayload r location)

/-- Complete a taken frame PROFILE_REFUSED (R111). -/
def LenEvent.profileRefused (e : LenEvent) (f : Frame) (r : ProfileReason) (fieldId detail : Nat) : LenEvent :=
  e.replyWith f .profileRefused (profileRefusedPayload r fieldId detail)

/-- The change of news that an event brings about for a slot, if any (R24): what the marks were before and are after, not what happened between. -/
def newsChange (before after : Len) (n : SlotIx) : Option Bool :=
  if before.marked n = after.marked n then none else some (after.marked n)

/-- The news notices an event sends, at most one for each slot (R24). Slots in ascending order (log 10). -/
def newsNotices (before after : Len) : List RquMsg :=
  (List.finRange 8).filterMap fun n =>
    (newsChange before after n).map fun on => if on then .newsOn n else .newsOff n

/-- A slot whose news is brought up to date. -/
def Slot.withNews (x : Slot) : Option Bool → Slot
  | none => x
  | some on => { x with news := on }

/-- LEN's news flags after an event (R24). -/
def Len.withNews (after before : Len) : Len :=
  { after with slots := Vector.ofFn fun n : SlotIx => after.slots[n].withNews (newsChange before after n) }

/-- Run one event of LEN on the machine: the clock is read as it stands, LEN changes, and what the event sent joins the paths. Every news notice is sent before the event's other messages (R24). -/
def State.runLen (s : State) (event : LenEvent → LenEvent) : State :=
  let e := event { now := s.lck.clock, len := s.len, toLck := [], toRqu := [], toTwp := [] }
  { s with
    len := e.len.withNews s.len
    paths :=
      { s.paths with
        lenToLck := s.paths.lenToLck ++ e.toLck
        lenToRqu := s.paths.lenToRqu ++ (newsNotices s.len e.len ++ e.toRqu)
        lenToTwp := s.paths.lenToTwp ++ e.toTwp } }

/-! ## Deadlines, generations, terms -/

/-- A deadline: the clock at the take plus a number of ticks, held at the clock's last value (R76). -/
def deadlineAfter (now : Tick) (ticks : Nat) : Tick := BitVec.ofNat 48 (min (now.toNat + ticks) (2 ^ 48 - 1))

/-- The generation after a freeing: 1 more, and 1 after 511 (R19). -/
def nextGeneration (g : Generation) : Generation := if g = 511 then 1 else g + 1

/-- The deadline entry LEN keeps in LCK for a HELD record. -/
def Len.leaseDeadline (len : Len) (i : RecIx) : Deadline :=
  ⟨len.leases[i].deadline, .lease i len.leases[i].generation⟩

/-- A requested term against an entry's cap: a value above the cap takes the cap (R26, R37). -/
def clampTerm (en : Entry) (term : Nat) : Nat := min term en.termCap

/-! ## Holders and records -/

/-- A HELD record leaves HELD: the holder count goes down, and the mode becomes NONE at 0 (R14). -/
def LenEvent.lowerHolders (e : LenEvent) (r : ResIx) : LenEvent :=
  e.modEntry r fun en =>
    { en with
      holderCount := en.holderCount - 1
      holderMode := if en.holderCount - 1 = 0 then .none else en.holderMode }

/-- A DRAINING entry to which no record refers becomes VACANT (R12). -/
def LenEvent.vacateIfDrained (e : LenEvent) (r : ResIx) : LenEvent :=
  if e.len.catalog[r].state = .draining ∧ e.len.recordsOn r = 0 then e.modEntry r fun en => Entry.vacant en.epoch else e

/-- Free a record: fields and mark cleared, generation raised, a DRAINING entry without records vacated (R19, R23). A record that is HELD goes through `freeRecord`. -/
def LenEvent.clearRecord (e : LenEvent) (i : RecIx) : LenEvent :=
  (e.modLease i fun l => Lease.cleared (nextGeneration l.generation)).vacateIfDrained e.len.leases[i].resource

/-- Free a record of any state: of a HELD one the deadline's removal is sent and the holders are lowered (R23, R14, R33, R97). -/
def LenEvent.freeRecord (e : LenEvent) (i : RecIx) : LenEvent :=
  if e.len.leases[i].state = .held then
    ((e.removeDeadline (e.len.leaseDeadline i)).lowerHolders e.len.leases[i].resource).clearRecord i
  else e.clearRecord i

/-- Take a FREE record into use for a slot (R22). Its generation is left as it stands. -/
def LenEvent.takeRecord (e : LenEvent) (i : RecIx) (n : SlotIx) (r : ResIx) (m : Mode) (term : Nat) : LenEvent :=
  e.modLease i fun l =>
    { Lease.cleared l.generation with
      state := .reserved, resource := r, slot := n, session := e.len.slots[n].session, mode := m, term := term }

/-! ## Ending a wait -/

/-- The request kind of a wait, under which its completion is filed. -/
def WaitKind.reqKind : WaitKind → ReqKind
  | .acquire _ _ _ => .acquire
  | .upgrade => .upgrade

/-- The removal of a wait's WAIT entry, if the wait has a deadline (R58, R80). -/
def Wait.removal (x : Wait) (w : WaitIx) : List LckReq :=
  match x.deadline with
  | none => []
  | some d => [.remove ⟨d, .wait w x.serial⟩]

/-- The insert of a wait's WAIT entry, if the wait has a deadline (R53, R69). -/
def Wait.insertion (x : Wait) (w : WaitIx) : List LckReq :=
  match x.deadline with
  | none => []
  | some d => [.insert ⟨d, .wait w x.serial⟩]

/-- The wait leaves its queue and the pool; its deadline's removal is sent unless it timed out; an UPGRADE's pending mark is cleared (R58). What becomes of its record is the caller's. -/
def LenEvent.endWait (e : LenEvent) (w : WaitIx) (timedOut : Bool) : LenEvent :=
  match e.len.waits[w] with
  | none => e
  | some x =>
    let e := e.modEntry x.resource fun en =>
      { en with
        queue := en.queue.erase w
        upgradePending := if x.kind = .upgrade then false else en.upgradePending }
    { e with len := e.len.setWait w none, toLck := e.toLck ++ if timedOut then [] else x.removal w }

/-- End a wait other than by a grant: an ACQUIRE wait's reserved record is freed, an UPGRADE wait's lease is left (R58). -/
def LenEvent.dropWait (e : LenEvent) (w : WaitIx) (timedOut : Bool) : LenEvent :=
  match e.len.waits[w] with
  | none => e
  | some x =>
    match x.kind with
    | .acquire _ _ _ => (e.endWait w timedOut).freeRecord x.lease
    | .upgrade => e.endWait w timedOut

/-- End a wait other than by a grant and complete it under its own tag, with no payload (R58). -/
def LenEvent.finishWait (e : LenEvent) (w : WaitIx) (timedOut : Bool) (st : Status) : LenEvent :=
  match e.len.waits[w] with
  | none => e
  | some x => (e.dropWait w timedOut).complete x.slot ⟨x.tag, x.kind.reqKind, st, []⟩

/-- End the UPGRADE wait of a record, if one stands in its resource's queue (R34, R40, R43). -/
def LenEvent.endUpgradeOf (e : LenEvent) (i : RecIx) (st : Status) : LenEvent :=
  match e.len.upgradeWaitOf i with
  | none => e
  | some w => e.finishWait w false st

/-! ## Granting -/

/-- Make a record in use HELD in a mode: the epoch advances if the grant needs it, the holders rise, and the deadline runs from the take (R14, R15, R31, R57). -/
def LenEvent.grantRecord (e : LenEvent) (i : RecIx) (r : ResIx) (m : Mode) (term : Nat) : LenEvent :=
  let en := e.len.catalog[r]
  let epoch := if needsAdvance m en.holderMode then en.epoch + 1 else en.epoch
  let e := e.modEntry r fun en =>
    { en with
      epoch := epoch
      holderCount := en.holderCount + 1
      holderMode := if en.holderMode = .none then m else en.holderMode }
  e.modLease i fun l =>
    { l with state := .held, mode := m, epoch := epoch, term := term, deadline := deadlineAfter e.now term }

/-- The GRANTED completion of a record (R31, R57, R67). -/
def LenEvent.completeGrant (e : LenEvent) (i : RecIx) (n : SlotIx) (t : TagIx) (k : ReqKind) : LenEvent :=
  let l := e.len.leases[i]
  e.complete n ⟨t, k, .granted, grantedPayload (packHandle i l.generation) l.mode l.epoch l.term⟩

/-- A HELD SHARED lease becomes EXCLUSIVE with a new epoch; deadline, term, renew count and handle stay (R57, R67). -/
def LenEvent.makeExclusive (e : LenEvent) (i : RecIx) (r : ResIx) : LenEvent :=
  let epoch := e.len.catalog[r].epoch + 1
  let e := e.modEntry r fun en => { en with epoch := epoch, holderMode := .exclusive }
  e.modLease i fun l => { l with mode := .exclusive, epoch := epoch }

/-- Grant an ACQUIRE wait at the head of a resource's queue (R57): the LEASE insert follows the WAIT removal. -/
def LenEvent.grantAcquireWait (e : LenEvent) (r : ResIx) (w : WaitIx) (x : Wait) (m : Mode) (term : Nat) : LenEvent :=
  let e := (e.grantRecord x.lease r m term).endWait w false
  (e.insertDeadline (e.len.leaseDeadline x.lease)).completeGrant x.lease x.slot x.tag .acquire

/-- Grant an UPGRADE wait at the head of a resource's queue (R57). -/
def LenEvent.grantUpgradeWait (e : LenEvent) (r : ResIx) (w : WaitIx) (x : Wait) : LenEvent :=
  ((e.makeExclusive x.lease r).endWait w false).completeGrant x.lease x.slot x.tag .upgrade

/-- One step of a grant pass on the head of a queue: the event after the head was granted or completed EPOCH_SPENT, or nothing where the pass stops (R56, R16). -/
def LenEvent.passStep (e : LenEvent) (r : ResIx) : Option LenEvent :=
  let en := e.len.catalog[r]
  match en.queue with
  | [] => none
  | w :: _ =>
    match e.len.waits[w] with
    | none => none
    | some x =>
      match x.kind with
      | .upgrade =>
        if en.holderCount = 1 then
          some (if en.epoch = epochSpent then e.finishWait w false .epochSpent else e.grantUpgradeWait r w x)
        else none
      | .acquire m term _ =>
        if en.admits m then
          some (if en.spentFor m then e.finishWait w false .epochSpent else e.grantAcquireWait r w x m term)
        else none

/-- The steps of a grant pass: each takes the head from the queue, so the queue's length bounds them (R56). -/
def LenEvent.passSteps (e : LenEvent) (r : ResIx) : (fuel : Nat) → LenEvent
  | 0 => e
  | fuel + 1 =>
    match e.passStep r with
    | none => e
    | some e' => e'.passSteps r fuel

/-- The grant pass (R55, R56). -/
def LenEvent.grantPass (e : LenEvent) (r : ResIx) : LenEvent := e.passSteps r e.len.catalog[r].queue.length

/-! ## Parking -/

/-- Whether a PARKED wait carries the serial. -/
def Len.serialInUse (len : Len) (n : Serial) : Bool :=
  len.waits.toList.any fun
    | some w => w.serial = n
    | none => false

/-- The first serial from `n` on that no PARKED wait carries (R51). At most 96 waits are PARKED, so 96 steps suffice. -/
def Len.freshSerial (len : Len) (n : Serial) : (fuel : Nat) → Serial
  | 0 => n
  | fuel + 1 => if len.serialInUse n then len.freshSerial (n + 1) fuel else n

/-- Whether the wait at `w` stands ahead of a new ACQUIRE wait of a priority class: an UPGRADE wait does, and an ACQUIRE wait of an equal or higher class (R52). -/
def Len.standsAhead (len : Len) (priority : Nat) (w : WaitIx) : Bool :=
  match len.waits[w] with
  | none => false
  | some x =>
    match x.kind with
    | .upgrade => true
    | .acquire _ _ p => decide (priority ≤ p)

/-- Insert a wait after the last wait of the queue that stands ahead of it (R52). -/
def insertBehind (ahead : WaitIx → Bool) (w : WaitIx) : List WaitIx → List WaitIx
  | [] => [w]
  | x :: xs => if (x :: xs).any ahead then x :: insertBehind ahead w xs else w :: x :: xs

/-- The deadline of a wait with a limit: absent for a wait without limit (R53, R69). -/
def waitDeadline (now : Tick) (limit : Nat) : Option Tick :=
  if limit = termMax then none else some (deadlineAfter now limit)

/-- Park a wait at an entry of the pool: it gets the next serial, its WAIT deadline is inserted if it has a limit, and the counter moves past the serial given (R51, R53, R69). The queue is the caller's. -/
def LenEvent.parkWait (e : LenEvent) (w : WaitIx) (f : Frame) (k : WaitKind) (r : ResIx) (i : RecIx) (limit : Nat) :
    LenEvent :=
  let serial := e.len.freshSerial e.len.waitSerial 96
  let x : Wait :=
    { kind := k, slot := f.slot, session := e.len.slots[f.slot].session, tag := f.tag, resource := r, lease := i,
      serial := serial, deadline := waitDeadline e.now limit }
  { e with len := { e.len.setWait w (some x) with waitSerial := serial + 1 }, toLck := e.toLck ++ x.insertion w }

/-! ## The ends of a HELD lease other than release -/

/-- Revoke a HELD record (R40): the revocation of BREAK and of a forced RETIRE. -/
def LenEvent.revokeRecord (e : LenEvent) (i : RecIx) : LenEvent :=
  let r := e.len.leases[i].resource
  (((e.modLease i fun l => { l with state := .revoked, changeMark := true }).removeDeadline
    (e.len.leaseDeadline i)).lowerHolders r).endUpgradeOf i .revoked

/-- Lapse a HELD record (R43, steps 1 to 4): LCK has already removed its deadline. -/
def LenEvent.lapseRecord (e : LenEvent) (i : RecIx) : LenEvent :=
  let r := e.len.leases[i].resource
  ((e.modLease i fun l => { l with state := .lapsed, changeMark := true }).lowerHolders r).endUpgradeOf i .lapsed

/-- The HELD records of an entry, in ascending index (R9, R41). -/
def Len.heldOn (len : Len) (r : ResIx) : List RecIx :=
  (List.finRange 128).filter fun i => len.leases[i].state = .held ∧ len.leases[i].resource = r

/-- Revoke every HELD record of an entry, in ascending index, with no grant pass between them (R9, R41). -/
def LenEvent.revokeAll (e : LenEvent) (r : ResIx) : LenEvent := (e.len.heldOn r).foldl LenEvent.revokeRecord e

/-! ## Sessions -/

/-- The keepalive term that an ATTACH asks for, resolved (R91). -/
def resolveKeepalive (ticks : Nat) : Nat := if ticks < 50 then 50 else if 60000 < ticks then 60000 else ticks

/-- The number of a slot's next session (R89). -/
def nextSession (n : Session) : Session := if n = 65535 then 1 else n + 1

/-- The removal of a slot's KEEPALIVE entry, if it has a deadline (R80). -/
def Len.keepaliveRemoval (len : Len) (n : SlotIx) : List LckReq :=
  match len.slots[n].keepaliveDeadline with
  | none => []
  | some d => [.remove ⟨d, .keepalive n len.slots[n].session⟩]

/-- Send the removal of a slot's KEEPALIVE entry, if it has a deadline (R80). -/
def LenEvent.removeKeepalive (e : LenEvent) (n : SlotIx) : LenEvent :=
  { e with toLck := e.toLck ++ e.len.keepaliveRemoval n }

/-- Move a session's keepalive deadline: the removal of the old entry, then the insert of the new (R94). -/
def LenEvent.refreshKeepalive (e : LenEvent) (n : SlotIx) : LenEvent :=
  let d := deadlineAfter e.now e.len.slots[n].keepaliveTerm
  let session := e.len.slots[n].session
  (((e.removeKeepalive n).modSlot n fun s => { s with keepaliveDeadline := some d }).insertDeadline
    ⟨d, .keepalive n session⟩)

/-- Set up a new session of a slot (R91 steps 1 and 2). -/
def LenEvent.beginSession (e : LenEvent) (n : SlotIx) (p : Port) (ticks : Nat) : LenEvent :=
  let term := resolveKeepalive ticks
  let session := nextSession e.len.slots[n].session
  let d := deadlineAfter e.now term
  (e.modSlot n fun s =>
    { s with
      state := .active, session := session, port := some p, keepaliveTerm := term, keepaliveDeadline := some d }).insertDeadline
    ⟨d, .keepalive n session⟩

/-- Clear a slot's answer marks (R61). -/
def LenEvent.clearAnswered (e : LenEvent) (n : SlotIx) : LenEvent :=
  e.modSlot n fun s => { s with answered := Vector.replicate 8 false }

/-- Whether a wait belongs to a session of a slot. -/
def Wait.ofSession (x : Wait) (n : SlotIx) (session : Session) : Bool := decide (x.slot = n ∧ x.session = session)

/-- Whether a record that is not FREE belongs to a session of a slot. -/
def Lease.ofSession (l : Lease) (n : SlotIx) (session : Session) : Bool :=
  decide (l.state ≠ .free ∧ l.slot = n ∧ l.session = session)

/-- The waits of a session, in ascending index (R97 step 1). -/
def Len.waitsOf (len : Len) (n : SlotIx) (session : Session) : List WaitIx :=
  (List.finRange 96).filter fun w =>
    match len.waits[w] with
    | none => false
    | some x => x.ofSession n session

/-- The non-FREE records of a session, in ascending index (R97 step 2). -/
def Len.recordsOf (len : Len) (n : SlotIx) (session : Session) : List RecIx :=
  (List.finRange 128).filter fun i => len.leases[i].ofSession n session

/-- The entries that a purge touches, in ascending index: those from whose queue it removes a wait and those of which it frees a HELD record (R98). -/
def Len.touchedBy (len : Len) (n : SlotIx) (session : Session) : List ResIx :=
  (List.finRange 64).filter fun r =>
    (len.waits.toList.any fun
      | none => false
      | some x => x.ofSession n session && decide (x.resource = r)) ||
    len.leases.toList.any fun l => l.ofSession n session && decide (l.state = .held ∧ l.resource = r)

/-- The purge, steps 1 and 2 (R97): the session's waits are ended, then its records are freed, with no completion. -/
def LenEvent.purge (e : LenEvent) (n : SlotIx) (session : Session) : LenEvent :=
  let e := (e.len.waitsOf n session).foldl (fun e w => e.dropWait w false) e
  (e.len.recordsOf n session).foldl LenEvent.freeRecord e

/-- The grant passes of a purge on the entries it touched that are still non-VACANT (R98). -/
def LenEvent.purgePasses (e : LenEvent) (touched : List ResIx) : LenEvent :=
  touched.foldl (fun e r => if e.len.catalog[r].state = .vacant then e else e.grantPass r) e

/-! ## The take of a request frame -/

/-- RQU's record of a port. -/
def Rqu.port (q : Rqu) : Port → RquPort
  | .twp => q.twp
  | .fwp => q.fwp

/-- Replace RQU's record of a port. -/
def Rqu.setPort (q : Rqu) (p : Port) (x : RquPort) : Rqu :=
  match p with
  | .twp => { q with twp := x }
  | .fwp => { q with fwp := x }

/-- The port LEN takes its next frame from: the one that holds frames, and of two the one not taken from last (R126). -/
def State.arbiter (s : State) : Option Port :=
  match s.rqu.twp.queue, s.rqu.fwp.queue with
  | [], [] => none
  | _ :: _, [] => some .twp
  | [], _ :: _ => some .fwp
  | _ :: _, _ :: _ => some (match s.len.lastPort with | .twp => .fwp | .fwp => .twp)

/-- The frame LEN takes next and its port, if LEN is free to take one: while a CONFIG is open it takes no other frame (R116, R126). -/
def State.nextFrame (s : State) : Option (Port × Frame) :=
  if s.len.configOpen.isSome then none
  else
    match s.arbiter with
    | none => none
    | some p => (s.rqu.port p).queue.head?.map fun f => (p, f)

/-- The frame LEN takes next, if it is of the given kind. -/
def State.frameOf (s : State) (k : ReqKind) : Option (Port × Frame) :=
  match s.nextFrame with
  | none => none
  | some (p, f) => if f.kind = k then some (p, f) else none

/-- The take removes the frame from the head of its queue, and the port becomes the one taken from last (R126). -/
def State.popFrame (s : State) (p : Port) : State :=
  { s with
    rqu := s.rqu.setPort p { s.rqu.port p with queue := (s.rqu.port p).queue.tail }
    len := { s.len with lastPort := p } }

/-- Send a take-time refusal to the refusal record of a port (R127, R165). -/
def State.refuseAtTake (s : State) (p : Port) (reason : RefusalReason) (f : Frame) : State :=
  let r : RefusalRecord := ⟨reason, frameLead f, frameTagKind f⟩
  match p with
  | .twp => { s with paths := { s.paths with twpRefusals := s.paths.twpRefusals ++ [r] } }
  | .fwp => { s with paths := { s.paths with fwpRefusals := s.paths.fwpRefusals ++ [r] } }

/-- A frame that passed the take-time check, before its kind's own rules: its answer mark is cleared, the keepalive is refreshed unless it is a DETACH (R128, R94), and a wrong operand length completes BAD_OPERAND (R164). -/
def LenEvent.performFrame (e : LenEvent) (f : Frame) (request : LenEvent → LenEvent) : LenEvent :=
  let e := e.modSlot f.slot fun s => { s with answered := s.answered.set f.tag false }
  let e := if f.kind = .detach then e else e.refreshKeepalive f.slot
  if f.operands.length ∈ operandLengths f.kind then request e else e.badOperand f .length f.operands.length

/-- LEN takes the next frame if it is of kind `k` and not an ATTACH, checks its session (R127) and performs it (R128). Where LEN has no such frame to take, nothing happens (log 1). -/
def State.takeRequest (s : State) (k : ReqKind) (request : Frame → LenEvent → LenEvent) : State :=
  match s.frameOf k with
  | none => s
  | some (p, f) =>
    let s := s.popFrame p
    if s.len.live f then s.runLen fun e => e.performFrame f (request f) else s.refuseAtTake p .staleSession f

/-! ## Handles -/

/-- Resolve a handle for a request of a slot (R20). -/
def Len.resolve (len : Len) (n : SlotIx) (handle : Nat) : Except Status RecIx :=
  let i := handleRecord handle
  let l := len.leases[i]
  if (l.state = .held ∨ l.state = .lapsed ∨ l.state = .revoked) ∧ handleGeneration handle ≠ 0 ∧
      l.generation = handleGeneration handle then
    if l.slot = n then .ok i else .error .notHolder
  else .error .unknownLease

/-- The status of a request on a resolved record that must be HELD and is not (R36, R38, R66). -/
def endedStatus (l : Lease) : Option Status :=
  match l.state with
  | .lapsed => some .lapsed
  | .revoked => some .revoked
  | _ => none

/-! ## RQU and the ports -/

/-- Part of a port's state: its front end. -/
def State.front (s : State) : Port → Front
  | .twp => s.twp.front
  | .fwp => s.fwp.front

/-- Replace a port's front end. -/
def State.setFront (s : State) (p : Port) (x : Front) : State :=
  match p with
  | .twp => { s with twp := { s.twp with front := x } }
  | .fwp => { s with fwp := { s.fwp with front := x } }

/-- Part of a port's state: its status items. -/
def State.portStatus (s : State) : Port → PortStatus
  | .twp => s.twp.status
  | .fwp => s.fwp.status

/-- Replace a port's status items. -/
def State.setPortStatus (s : State) (p : Port) (x : PortStatus) : State :=
  match p with
  | .twp => { s with twp := { s.twp with status := x } }
  | .fwp => { s with fwp := { s.fwp with status := x } }

/-- The messages in flight from a port to RQU. -/
def State.toRqu (s : State) : Port → List PortMsg
  | .twp => s.paths.twpToRqu
  | .fwp => s.paths.fwpToRqu

/-- Replace the messages in flight from a port to RQU. -/
def State.setToRqu (s : State) (p : Port) (ms : List PortMsg) : State :=
  match p with
  | .twp => { s with paths := { s.paths with twpToRqu := ms } }
  | .fwp => { s with paths := { s.paths with fwpToRqu := ms } }

/-- A port sends RQU a message. -/
def State.sendToRqu (s : State) (p : Port) (m : PortMsg) : State := s.setToRqu p (s.toRqu p ++ [m])

/-- Whether the part is in either reset (R74, R145, R163). -/
def State.inReset (s : State) : Bool := s.por || s.rstnLow

/-- Change RQU's record of a port. -/
def State.modRquPort (s : State) (p : Port) (f : RquPort → RquPort) : State :=
  { s with rqu := s.rqu.setPort p (f (s.rqu.port p)) }

/-- Change what RQU keeps for a slot, and drive its attention line by what stands after (R135). -/
def State.modRquSlot (s : State) (n : SlotIx) (f : RquSlot → RquSlot) : State :=
  let x := f s.rqu.slots[n]
  { s with
    rqu := { s.rqu with slots := s.rqu.slots.set n { x with attention := attentionLow x.view x.completions x.news } } }

/-- Write a port's refusal record and set refusal unread (R123). -/
def State.writeRefusal (s : State) (p : Port) (r : RefusalRecord) : State :=
  s.setPortStatus p { s.portStatus p with record := r, refusalUnread := true, refusedSince := true }

/-- Release a port's intake claim (R120). -/
def State.releaseClaim (s : State) (p : Port) : State := s.modRquPort p fun q => { q with claim := false }

/-- A port refuses a frame: the record is written and the claim, if one was made, is released (R121, R123). -/
def State.refuseFrame (s : State) (p : Port) (r : RefusalRecord) : State := (s.writeRefusal p r).releaseClaim p

/-- The lead byte of the frame being received as far as it arrived (R123). A check-only query has none. -/
def Front.lead (x : Front) : Byte := if x.kind = some .checkOnlyQuery then 0 else operandByte x.bytes 0

/-- The tag and kind byte of the frame being received as far as it arrived (R123). A select has none (log 11). -/
def Front.tagKind (x : Front) : Byte := if x.kind = some .request then operandByte x.bytes 3 else 0

/-- The refusal record of the frame a front end is receiving. -/
def Front.refusal (x : Front) (reason : RefusalReason) : RefusalRecord := ⟨reason, x.lead, x.tagKind⟩

/-- The front end takes a byte into its frame and runs the check over it (R146, R147). -/
def Front.take (x : Front) (b : Byte) : Front := { x with bytes := x.bytes ++ [b], check := checkStep x.check b }

/-- The byte the front end shifts out next: FFh outside any presentation and after its end (R150, R161). -/
def Front.nextOut (x : Front) : Byte := x.outgoing.getD x.sent 0xFF

/-- The front end has shifted out one byte more. -/
def Front.advance (x : Front) : Front := { x with sent := if x.sent < x.outgoing.length then x.sent + 1 else x.sent }

/-- The presentation has been read out in full, its check byte included (R133, R136). -/
def Front.readInFull (x : Front) : Bool := decide (x.sent = x.outgoing.length)

/-- The front end begins to shift out a presentation. -/
def Front.present (x : Front) (k : Presentation) (out : List Byte) : Front :=
  { x with state := .presenting, presentation := k, outgoing := out, sent := 0 }

/-- A port's status presentation as its items stand (R136, R152, R162). -/
def State.statusPresentation (s : State) (p : Port) : List Byte :=
  statusFrame (portStatusByte (s.rqu.port p).freeCount (s.portStatus p) (p = .twp && s.twp.checkOnly)) (s.portStatus p)

/-- A port fixes a status presentation: no refusal has been written since (R136). -/
def State.fixStatus (s : State) (p : Port) : State :=
  let out := s.statusPresentation p
  (s.setPortStatus p { s.portStatus p with refusedSince := false }).setFront p ((s.front p).present .status out)

/-- The end of a status transaction: read in full, it clears the reset indication, and refusal unread if no refusal was written since (R136). -/
def State.endStatus (s : State) (p : Port) : State :=
  if (s.front p).readInFull then
    let st := s.portStatus p
    s.setPortStatus p
      { st with resetIndication := false, refusalUnread := st.refusalUnread && st.refusedSince }
  else s

/-- Drop the mark of every collect that presents the head of a slot's list: the completion has left it (R133). -/
def State.dropMarks (s : State) (n : SlotIx) : State :=
  let drop (q : RquPort) : RquPort := if q.mark = some n then { q with mark := none } else q
  { s with rqu := { s.rqu with twp := drop s.rqu.twp, fwp := drop s.rqu.fwp } }

/-! ## Judging a frame -/

/-- The bytes a frame has, check byte included; the most a front end takes of it (section 11.1, R148, R150, R152, R153). -/
def Front.total (x : Front) : Nat :=
  match x.kind with
  | some .request => requestTotal x.bytes
  | some .collectSelect => 4
  | some .statusSelect => 2
  | some .checkOnlyQuery => 8
  | none => 1

/-- Every byte of the frame has been received. -/
def Front.complete (x : Front) : Bool := decide (x.total ≤ x.bytes.length)

/-- Whether a byte is the operand length of a REQUEST and above 16 (R121 check 3). -/
def Front.badLength (x : Front) (b : Byte) : Bool :=
  decide (x.kind = some .request ∧ x.bytes.length = 4 ∧ 16 < b.toNat)

/-- The first check that a frame fails at its end, of checks 4 and 5 (R121, R149, R150, R152, R160). -/
def Front.fault (x : Front) : Option RefusalReason :=
  if x.complete = false then some .shortFrame
  else if x.extra then some .badLength
  else if x.check ≠ 0 then some .checkFailed
  else none

/-- The end of a REQUEST frame: checks 4 to 6, and the passing of checks 7 to 9 to RQU (R121, R149, R160). -/
def State.judgeRequest (s : State) (p : Port) : State :=
  let x := s.front p
  match x.fault with
  | some reason => s.refuseFrame p (x.refusal reason)
  | none =>
    match parseFrame x.bytes with
    | none => s.refuseFrame p (x.refusal .badKind)
    | some f => s.sendToRqu p (.arrival f)

/-- The end of a presentation: a collect is reported to RQU, a status presentation is applied to the status items (R133, R136). -/
def State.endPresentation (s : State) (p : Port) : State :=
  match (s.front p).presentation with
  | .completion => s.sendToRqu p (.collectEnd (s.front p).readInFull)
  | .status => s.endStatus p
  | .nothing => s
  | .answer => s

end Sys2Proof.Machine
end

