-- ==== Sys2Proof/Machine/Catalog.lean ====
section
/-! DEFINITION. The requests on the catalog itself: QUERY_RESOURCE, DEFINE, RETIRE. -/

namespace Sys2Proof.Machine

/-! ## QUERY_RESOURCE -/

/-- The QUERY_RESOURCE payload of an entry (R13, section 11.4). -/
def Len.resourcePayload (len : Len) (r : ResIx) : List Byte :=
  let en := len.catalog[r]
  [BitVec.ofNat 8 r.val, catStateCode en.state, modeCode en.holderMode, BitVec.ofNat 8 en.holderCount,
    BitVec.ofNat 8 en.queue.length, flagByte en.upgradePending] ++
    natToBytes en.epoch.toNat 4 ++ [BitVec.ofNat 8 en.shareLimit] ++ natToBytes en.termCap 3

/-- A QUERY_RESOURCE (R13): no right is needed. -/
def LenEvent.queryResource (e : LenEvent) (f : Frame) : LenEvent :=
  match e.len.lookup (nameAt f.operands 0) with
  | none => e.reply f .unknownResource
  | some r => e.replyWith f .ok (e.len.resourcePayload r)

/-! ## DEFINE -/

/-- The first operand of a DEFINE that fails, in frame order, with its reason and location (R5). A default term above 1,048,575 under a valid term cap is refused RELATION, by the table of R5, where R166 can be read to say RANGE: the model's reading, log 30. -/
def defineFault (d : DefineOperands) : Option (OperandReason × Nat) :=
  if d.name = 0x0000 ∨ d.name = 0xFFFF then some (.range, 0)
  else if 15 < d.shareLimit then some (.range, 2)
  else if d.termCap = 0 ∨ termMax < d.termCap then some (.range, 3)
  else if d.defaultTerm = 0 then some (.range, 6)
  else if d.termCap < d.defaultTerm then some (.relation, 6)
  else if d.flags &&& 0xFC ≠ 0 then some (.notZero, 10)
  else if d.floor = epochSpent then some (.range, 12)
  else none

/-- The entry that a DEFINE enters (R6). -/
def DefineOperands.entry (d : DefineOperands) : Entry where
  state := .opened
  name := d.name
  shareLimit := d.shareLimit
  termCap := d.termCap
  defaultTerm := d.defaultTerm
  renewLimit := d.renewLimit
  waitingAllowed := d.flags.getLsbD 0
  breakAllowed := d.flags.getLsbD 1
  admission := d.admission
  epoch := d.floor
  holderMode := .none
  holderCount := 0
  queue := []
  upgradePending := false

/-- The DEFINE payload (R6, section 11.4). -/
def DefineOperands.payload (d : DefineOperands) : List Byte :=
  natToBytes d.name.toNat 2 ++ natToBytes d.floor.toNat 4

/-- A DEFINE (R4 to R6): the right, the operands, the name, and room in the catalog. -/
def LenEvent.define (e : LenEvent) (f : Frame) : LenEvent :=
  let d := defineOperands f.operands
  if e.len.slots[f.slot].profile.holds .catalog = false then e.reply f .denied
  else
    match defineFault d with
    | some (reason, location) => e.badOperand f reason location
    | none =>
      if (e.len.lookup d.name).isSome then e.reply f .nameTaken
      else
        match e.len.vacantEntry? with
        | none => e.reply f .catalogFull
        | some r => (e.modEntry r fun _ => d.entry).replyWith f .ok d.payload

/-! ## RETIRE -/

/-- Complete every wait still in the queue RETIRED, head first (R7 step 2). -/
def LenEvent.retireWaits (e : LenEvent) (r : ResIx) : LenEvent :=
  e.len.catalog[r].queue.foldl (fun e w => e.finishWait w false .retired) e

/-- The entry leaves OPEN: VACANT where no record refers to it, DRAINING otherwise (R8). -/
def LenEvent.leaveOpen (e : LenEvent) (r : ResIx) : LenEvent :=
  if e.len.recordsOn r = 0 then e.modEntry r fun en => Entry.vacant en.epoch
  else e.modEntry r fun en => { en with state := .draining }

/-- The RETIRE payload: the outcome, 01h vacant or 02h draining, the leases revoked and the waits ended (R8, section 11.4). -/
def retirePayload (vacant : Bool) (revoked waits : Nat) : List Byte :=
  [if vacant then 0x01 else 0x02, BitVec.ofNat 8 revoked, BitVec.ofNat 8 waits]

/-- RETIRE of an entry: the forced revocations, the ends of the waits, the entry's new state and the completion, with no grant pass (R7 to R10). -/
def LenEvent.retireEntry (e : LenEvent) (f : Frame) (r : ResIx) (force : Bool) : LenEvent :=
  let revoked := if force then (e.len.heldOn r).length else 0
  let e := if force then e.revokeAll r else e
  let waits := e.len.catalog[r].queue.length
  let e := e.retireWaits r
  (e.leaveOpen r).replyWith f .ok (retirePayload (e.len.recordsOn r = 0) revoked waits)

/-- A RETIRE (R7): the right, the options byte, the name. -/
def LenEvent.retire (e : LenEvent) (f : Frame) : LenEvent :=
  let options := operandByte f.operands 2
  if e.len.slots[f.slot].profile.holds .catalog = false then e.reply f .denied
  else if options &&& 0xFE ≠ 0 then e.badOperand f .notZero 2
  else
    match e.len.lookup (nameAt f.operands 0) with
    | none => e.reply f .unknownResource
    | some r => e.retireEntry f r (options.getLsbD 0)

/-! ## The commands -/

/-- QUERY_RESOURCE (R13). -/
def execQueryResource (s : State) : Host.Outcome State Fault Refusal :=
  .next (s.takeRequest .queryResource fun f e => e.queryResource f)

/-- DEFINE (R4 to R6). -/
def execDefine (s : State) : Host.Outcome State Fault Refusal := .next (s.takeRequest .define fun f e => e.define f)

/-- RETIRE (R7 to R10). -/
def execRetire (s : State) : Host.Outcome State Fault Refusal := .next (s.takeRequest .retire fun f e => e.retire f)

end Sys2Proof.Machine
end

