-- ==== Sys2Proof/Machine/Check.lean ====
section
/-! DEFINITION. Epoch checks: TOKEN_CHECK, CHECK_ONLY_QUERY, CHECK_ONLY_ANSWER. -/

namespace Sys2Proof.Machine

/-- The completion status of a currency answer to a TOKEN_CHECK (R140). -/
def answerStatus : CheckAnswer → Status
  | .current => .current
  | .stale => .stale
  | .unknownResource => .unknownResource
  | .checkFailed => .stale

/-- TOKEN_CHECK's operands: name, epoch and mode (section 11.3). -/
def tokenOperands (ops : List Byte) : Query :=
  { name := nameAt ops 0
    epoch := BitVec.ofNat 32 (operandAt ops 2 4)
    mode := operandByte ops 6 }

/-- A TOKEN_CHECK (R140): the right, the mode, and the test of R139, whose lookup is check 3. -/
def LenEvent.tokenCheck (e : LenEvent) (f : Frame) : LenEvent :=
  let q := tokenOperands f.operands
  if e.len.slots[f.slot].profile.holds .check = false then e.reply f .denied
  else if (modeOfCode q.mode).isNone then e.badOperand f .range 6
  else e.reply f (answerStatus (e.len.currency q))

/-- TOKEN_CHECK (R139, R140). -/
def execTokenCheck (s : State) : Host.Outcome State Fault Refusal :=
  .next (s.takeRequest .tokenCheck fun f e => e.tokenCheck f)

/-- CHECK_ONLY_QUERY (R142): LEN answers the query at the head of its path, unless a CONFIG is open (R116). Nothing else changes at LEN. -/
def execCheckOnlyQuery (s : State) : Host.Outcome State Fault Refusal :=
  .next
    (if s.len.configOpen.isSome then s
    else
      match s.paths.queries with
      | [] => s
      | q :: rest =>
        { s with
          paths := { s.paths with queries := rest, lenToTwp := s.paths.lenToTwp ++ [.answer (s.len.currency q)] } })

/-- TWP passes a query to LEN and holds it until its answer returns (R141, R153). -/
def State.passQuery (s : State) (q : Query) : State :=
  { s with
    twp := { s.twp with held := some (.query q .passed), queryOut := true }
    paths := { s.paths with queries := s.paths.queries ++ [q] } }

/-- What TWP does with an answer: it belongs to the query held and passed, or, where that one was dropped, it is discarded and a query that waited for its return is passed (R153, R154). -/
def State.takeAnswer (s : State) (a : CheckAnswer) : State :=
  let s := { s with twp := { s.twp with queryOut := false } }
  match s.twp.held with
  | some (.query q .passed) => { s with twp := { s.twp with held := some (.query q (.answered a)) } }
  | some (.query q .waiting) => s.passQuery q
  | _ => s

/-- CHECK_ONLY_ANSWER (R153, R154): TWP takes the message at the head of LEN's path, if it is an answer. -/
def execCheckOnlyAnswer (s : State) : Host.Outcome State Fault Refusal :=
  .next
    (match s.paths.lenToTwp with
    | .answer a :: rest => ({ s with paths := { s.paths with lenToTwp := rest } } : State).takeAnswer a
    | _ => s)

end Sys2Proof.Machine
end

