-- ==== Sys2Proof/Machine/Clock.lean ====
section
/-! DEFINITION. The lease clock and its deadline list: TICK, DEADLINE_EXPIRY, DEADLINE_INSERT, DEADLINE_REMOVE. -/

namespace Sys2Proof.Machine

/-- Whether an entry is due at the clock (R81). -/
def Lck.due (k : Lck) (d : Deadline) : Bool := decide (d.deadline ≤ k.clock)

/-- Whether the head of a deadline list is due. -/
def Lck.headDue (k : Lck) (ds : List Deadline) : Bool :=
  match ds with
  | [] => false
  | d :: _ => k.due d

/-- Place an entry after every entry whose deadline is equal or earlier, and before every later one (R78). -/
def insertDeadlineSorted (d : Deadline) : List Deadline → List Deadline
  | [] => [d]
  | x :: xs => if d.deadline < x.deadline then d :: x :: xs else x :: insertDeadlineSorted d xs

/-- The end of the tick in progress: every entry due leaves the list at the head, and its expiry is sent, before LCK takes anything else (R81, log 6). -/
def State.finishTick (s : State) : State :=
  if s.lck.tickOpen then
    { s with
      lck := { s.lck with deadlines := s.lck.deadlines.dropWhile s.lck.due, tickOpen := false }
      paths := { s.paths with lckToLen := s.paths.lckToLen ++ s.lck.deadlines.takeWhile s.lck.due } }
  else s

/-- Whether a source is the one the time-base selection counts (R74). -/
def Lck.selects (k : Lck) : TickSource → Bool
  | .oscillator => !k.tbsel
  | .tbi => k.tbsel

/-- LCK counts a tick: the clock rises unless it stands at its last value, and the tick is open while an entry is due (R75, R81). -/
def Lck.count (k : Lck) : Lck :=
  let k := { k with clock := if k.clock = BitVec.allOnes 48 then k.clock else k.clock + 1 }
  { k with tickOpen := k.headDue k.deadlines }

/-- TICK (R74, R75): not counted in reset, nor from the source that is not selected. -/
def execTick (source : TickSource) (s : State) : Host.Outcome State Fault Refusal :=
  .next
    (if s.inReset || !s.lck.selects source then s
    else
      let s := s.finishTick
      { s with lck := s.lck.count })

/-- DEADLINE_EXPIRY (R81): within a tick, the head of the list, if it is due, leaves it and its expiry is sent; the tick ends when no head is due. -/
def execDeadlineExpiry (s : State) : Host.Outcome State Fault Refusal :=
  .next
    (if s.lck.tickOpen then
      match s.lck.deadlines with
      | [] => { s with lck := { s.lck with tickOpen := false } }
      | d :: ds =>
        if s.lck.due d then
          { s with
            lck := { s.lck with deadlines := ds, tickOpen := s.lck.headDue ds }
            paths := { s.paths with lckToLen := s.paths.lckToLen ++ [d] } }
        else { s with lck := { s.lck with tickOpen := false } }
    else s)

/-- DEADLINE_INSERT (R78): LCK takes the request at the head of its path, if it is an insert. -/
def execDeadlineInsert (s : State) : Host.Outcome State Fault Refusal :=
  .next
    (match s.paths.lenToLck with
    | .insert d :: rest =>
      let s := s.finishTick
      { s with
        lck := { s.lck with deadlines := insertDeadlineSorted d s.lck.deadlines }
        paths := { s.paths with lenToLck := rest } }
    | _ => s)

/-- DEADLINE_REMOVE (R79): LCK takes the request at the head of its path, if it is a removal. Without a matching entry the list stays. -/
def execDeadlineRemove (s : State) : Host.Outcome State Fault Refusal :=
  .next
    (match s.paths.lenToLck with
    | .remove d :: rest =>
      let s := s.finishTick
      { s with
        lck := { s.lck with deadlines := s.lck.deadlines.erase d }
        paths := { s.paths with lenToLck := rest } }
    | _ => s)

end Sys2Proof.Machine
end

