-- ==== Sys2Proof/Machine/Expiry.lean ====
section
/-! DEFINITION. The takes of expiry messages by LEN: LEASE_EXPIRY, WAIT_EXPIRY, KEEPALIVE_EXPIRY. -/

namespace Sys2Proof.Machine

/-- The expiry message LEN takes next: the head of its path, unless a CONFIG is open (R82, R116). -/
def State.nextExpiry (s : State) : Option Deadline :=
  if s.len.configOpen.isSome then none else s.paths.lckToLen.head?

/-- LEN takes the expiry message at the head of its path. -/
def State.popExpiry (s : State) : State := { s with paths := { s.paths with lckToLen := s.paths.lckToLen.tail } }

/-- Whether a LEASE expiry still matches the record it names (R42, R83). -/
def Len.leaseExpiryGenuine (len : Len) (d : Tick) (i : RecIx) (g : Generation) : Bool :=
  decide (len.leases[i].state = .held ∧ len.leases[i].generation = g ∧ len.leases[i].deadline = d)

/-- Whether a WAIT expiry still matches the wait it names (R59, R83). -/
def Len.waitExpiryGenuine (len : Len) (d : Tick) (w : WaitIx) (serial : Serial) : Bool :=
  match len.waits[w] with
  | none => false
  | some x => decide (x.serial = serial ∧ x.deadline = some d)

/-- Whether a KEEPALIVE expiry still matches the session it names (R83). -/
def Len.keepaliveExpiryGenuine (len : Len) (d : Tick) (n : SlotIx) (session : Session) : Bool :=
  decide (len.slots[n].state = .active ∧ len.slots[n].session = session ∧ len.slots[n].keepaliveDeadline = some d)

/-- A genuine LEASE expiry lapses the lease and runs a grant pass (R43). -/
def LenEvent.lapse (e : LenEvent) (i : RecIx) : LenEvent := (e.lapseRecord i).grantPass e.len.leases[i].resource

/-- A genuine WAIT expiry times the wait out and runs a grant pass (R59). -/
def LenEvent.timeOut (e : LenEvent) (w : WaitIx) : LenEvent :=
  match e.len.waits[w] with
  | none => e
  | some x => (e.finishWait w true .timedOut).grantPass x.resource

/-- A genuine KEEPALIVE expiry ends the session of the slot (R84, R96): no removal of its own entry is sent. -/
def LenEvent.loseSession (e : LenEvent) (n : SlotIx) : LenEvent :=
  let session := e.len.slots[n].session
  let touched := e.len.touchedBy n session
  let e := (e.purge n session).modSlot n fun s =>
    { s with state := .lost, endCause := .keepalive, keepaliveDeadline := none }
  ((e.clearAnswered n).notify (.ended n .lost)).purgePasses touched

/-- LEASE_EXPIRY (R42, R43, R83). -/
def execLeaseExpiry (s : State) : Host.Outcome State Fault Refusal :=
  .next
    (match s.nextExpiry with
    | some ⟨d, .lease i g⟩ =>
      if s.len.leaseExpiryGenuine d i g then s.popExpiry.runLen fun e => e.lapse i else s.popExpiry
    | _ => s)

/-- WAIT_EXPIRY (R59, R83). -/
def execWaitExpiry (s : State) : Host.Outcome State Fault Refusal :=
  .next
    (match s.nextExpiry with
    | some ⟨d, .wait w serial⟩ =>
      if s.len.waitExpiryGenuine d w serial then s.popExpiry.runLen fun e => e.timeOut w else s.popExpiry
    | _ => s)

/-- KEEPALIVE_EXPIRY (R83, R84, R96). -/
def execKeepaliveExpiry (s : State) : Host.Outcome State Fault Refusal :=
  .next
    (match s.nextExpiry with
    | some ⟨d, .keepalive n session⟩ =>
      if s.len.keepaliveExpiryGenuine d n session then s.popExpiry.runLen fun e => e.loseSession n else s.popExpiry
    | _ => s)

end Sys2Proof.Machine
end

