-- ==== Sys2Proof/Machine/Rqu.lean ====
section
/-! DEFINITION. The request unit, and a port's take of a refusal from LEN: TAKE_TIME_REFUSAL, INTAKE_CLAIM, ARRIVAL_CHECK, COMPLETION_FILED, SESSION_BEGUN, SESSION_ENDED, SLOT_LOST, SLOT_NEWS_ON, SLOT_NEWS_OFF, COLLECT_SELECT, COLLECT_END. -/

namespace Sys2Proof.Machine

/-! ## Intake -/

/-- The front end enters REFUSING (R146, R159). -/
def State.enterRefusing (s : State) (p : Port) : State := s.setFront p { s.front p with state := .refusing }

/-- TWP gives or withholds the acknowledge of a byte; FWP has no acknowledge (R148). -/
def State.setAck (s : State) (p : Port) (ack : Bool) : State :=
  match p with
  | .twp => { s with twp := { s.twp with sdaAck := ack } }
  | .fwp => s

/-- RQU's answer to an intake claim: the place is reserved where fewer than 4 frames stand in the queue, and the frame is refused INTAKE_FULL otherwise (R120, R148, R159). -/
def State.answerClaim (s : State) (p : Port) : State :=
  if (s.rqu.port p).queue.length < 4 then (s.modRquPort p fun q => { q with claim := true }).setAck p true
  else ((s.writeRefusal p ((s.front p).refusal .intakeFull)).enterRefusing p).setAck p false

/-- Arrival checks 7 to 9, in order: the reason of the first that fails (R121, R124). -/
def Rqu.arrivalRefusal (q : Rqu) (p : Port) (f : Frame) : Option RefusalReason :=
  if f.kind = .attach then (if f.session = 0 then none else some .staleSession)
  else
    match q.slots[f.slot].view with
    | .active (some (session, bound)) =>
      if session ≠ f.session then some .staleSession
      else if bound ≠ p then some .portMismatch
      else if q.slots[f.slot].tags[f.tag] ≠ .free then some .tagBusy
      else none
    | _ => some .staleSession

/-- A frame is accepted: it takes the claimed place at the tail of its queue, and its tag becomes OPEN unless it is an ATTACH (R122). -/
def State.acceptFrame (s : State) (p : Port) (f : Frame) : State :=
  let s := s.modRquPort p fun q => { q with queue := q.queue ++ [f], claim := false }
  if f.kind = .attach then s else s.modRquSlot f.slot fun x => { x with tags := x.tags.set f.tag .opened }

/-- RQU's answer to the end-of-frame checks 7 to 9 (R121, R122). -/
def State.answerArrival (s : State) (p : Port) (f : Frame) : State :=
  match s.rqu.arrivalRefusal p f with
  | none => s.acceptFrame p f
  | some reason => s.refuseFrame p ⟨reason, frameLead f, frameTagKind f⟩

/-! ## Collects -/

/-- What a collect select of a slot and session presents (R132): the head of the list, EMPTY, or STALE. -/
def RquSlot.presents (x : RquSlot) (session : Session) : Status × Option Completion :=
  match x.view with
  | .active (some (current, _)) => if current = session then (.empty, x.completions.head?) else (.stale, none)
  | _ => (.stale, none)

/-- RQU's answer to a collect select: the presentation is fixed, and the head presented is marked (R132). -/
def State.answerSelect (s : State) (p : Port) (n : SlotIx) (session : Session) : State :=
  let shown := s.rqu.slots[n].presents session
  let out := match shown.2 with
    | some c => completionFrame c
    | none => emptyFrame shown.1
  let mark := if shown.2.isSome then some n else none
  (s.modRquPort p fun q => { q with mark := mark }).setFront p ((s.front p).present .completion out)

/-- The head of a slot's list is removed and its tag made FREE; no collect presents it any more (R133). -/
def State.removeHead (s : State) (n : SlotIx) : State :=
  match s.rqu.slots[n].completions with
  | [] => s
  | c :: rest => (s.modRquSlot n fun x => { x with completions := rest, tags := x.tags.set c.tag .free }).dropMarks n

/-- RQU takes the end of a collect: read in full, it removes the completion still marked; the mark is dropped in every case (R133). -/
def State.answerCollectEnd (s : State) (p : Port) (full : Bool) : State :=
  let s := match full, (s.rqu.port p).mark with
    | true, some n => s.removeHead n
    | _, _ => s
  s.modRquPort p fun q => { q with mark := none }

/-! ## The port's path -/

/-- RQU takes a message of a port. -/
def State.takePortMsg (s : State) (p : Port) (m : PortMsg) : State :=
  match m with
  | .claim => s.answerClaim p
  | .arrival f => s.answerArrival p f
  | .select n session => s.answerSelect p n session
  | .collectEnd full => s.answerCollectEnd p full

/-- Whether the port awaits an answer to a message: every one but the end of a collect (R120, R121, R132, R133). -/
def PortMsg.awaited : PortMsg → Bool
  | .claim => true
  | .arrival _ => true
  | .select _ _ => true
  | .collectEnd _ => false

/-- A port acts on its next event with every answer it awaits in hand: RQU has taken what the port sent, in order (R120, R132, R149; log 5). -/
def State.settle (s : State) (p : Port) : State :=
  if (s.toRqu p).any PortMsg.awaited then (s.toRqu p).foldl (fun s m => s.takePortMsg p m) (s.setToRqu p []) else s

/-! ## LEN's notices -/

/-- The message LEN's path to RQU has at its head is taken. -/
def State.popRquMsg (s : State) : State := { s with paths := { s.paths with lenToRqu := s.paths.lenToRqu.tail } }

/-- A completion joins the tail of its slot's list, and its tag becomes DONE (R130). -/
def State.fileCompletion (s : State) (n : SlotIx) (c : Completion) : State :=
  s.modRquSlot n fun x => { x with completions := x.completions ++ [c], tags := x.tags.set c.tag .done }

/-- A slot's view changes: every tag becomes FREE, the list is emptied, and no collect presents its head any more (R124, R131). -/
def State.changeView (s : State) (n : SlotIx) (view : SlotView) : State :=
  (s.modRquSlot n fun x =>
    { x with view := view, tags := Vector.replicate 8 .free, completions := [] }).dropMarks n

/-- The view after "session ended" (R124). One that is ACTIVE with no session number holds no bound port either: the model's choice, log 28. -/
def endedView : SlotState → SlotView
  | .vacant => .vacant
  | .lost => .lost
  | .active => .active none

/-! ## The commands -/

/-- TAKE_TIME_REFUSAL (R123, R127, R165): the port writes the oldest refusal LEN sent it. -/
def execTakeTimeRefusal (p : Port) (s : State) : Host.Outcome State Fault Refusal :=
  .next
    (match p with
    | .twp =>
      match s.paths.twpRefusals with
      | [] => s
      | r :: rest => ({ s with paths := { s.paths with twpRefusals := rest } } : State).writeRefusal .twp r
    | .fwp =>
      match s.paths.fwpRefusals with
      | [] => s
      | r :: rest => ({ s with paths := { s.paths with fwpRefusals := rest } } : State).writeRefusal .fwp r)

/-- INTAKE_CLAIM (R120). -/
def execIntakeClaim (p : Port) (s : State) : Host.Outcome State Fault Refusal :=
  .next
    (match s.toRqu p with
    | .claim :: rest => (s.setToRqu p rest).answerClaim p
    | _ => s)

/-- ARRIVAL_CHECK (R121, R122). -/
def execArrivalCheck (p : Port) (s : State) : Host.Outcome State Fault Refusal :=
  .next
    (match s.toRqu p with
    | .arrival f :: rest => (s.setToRqu p rest).answerArrival p f
    | _ => s)

/-- COMPLETION_FILED (R130, R135). -/
def execCompletionFiled (s : State) : Host.Outcome State Fault Refusal :=
  .next
    (match s.paths.lenToRqu with
    | .completion n c :: _ => s.popRquMsg.fileCompletion n c
    | _ => s)

/-- SESSION_BEGUN (R124, R131, R135). -/
def execSessionBegun (s : State) : Host.Outcome State Fault Refusal :=
  .next
    (match s.paths.lenToRqu with
    | .begun n session port :: _ => s.popRquMsg.changeView n (.active (some (session, port)))
    | _ => s)

/-- SESSION_ENDED (R124, R131, R135). -/
def execSessionEnded (s : State) : Host.Outcome State Fault Refusal :=
  .next
    (match s.paths.lenToRqu with
    | .ended n newState :: _ => s.popRquMsg.changeView n (endedView newState)
    | _ => s)

/-- SLOT_LOST (R124, R131, R135, R138). -/
def execSlotLost (s : State) : Host.Outcome State Fault Refusal :=
  .next
    (match s.paths.lenToRqu with
    | .lost n :: _ => s.popRquMsg.changeView n .lost
    | _ => s)

/-- SLOT_NEWS_ON (R135). -/
def execSlotNewsOn (s : State) : Host.Outcome State Fault Refusal :=
  .next
    (match s.paths.lenToRqu with
    | .newsOn n :: _ => s.popRquMsg.modRquSlot n fun x => { x with news := true }
    | _ => s)

/-- SLOT_NEWS_OFF (R135). -/
def execSlotNewsOff (s : State) : Host.Outcome State Fault Refusal :=
  .next
    (match s.paths.lenToRqu with
    | .newsOff n :: _ => s.popRquMsg.modRquSlot n fun x => { x with news := false }
    | _ => s)

/-- COLLECT_SELECT (R132). -/
def execCollectSelect (p : Port) (s : State) : Host.Outcome State Fault Refusal :=
  .next
    (match s.toRqu p with
    | .select n session :: rest => (s.setToRqu p rest).answerSelect p n session
    | _ => s)

/-- COLLECT_END (R133). -/
def execCollectEnd (p : Port) (s : State) : Host.Outcome State Fault Refusal :=
  .next
    (match s.toRqu p with
    | .collectEnd full :: rest => (s.setToRqu p rest).answerCollectEnd p full
    | _ => s)

end Sys2Proof.Machine
end

