-- ==== Sys2Proof/Machine/Fwp.lean ====
section
/-! DEFINITION. The four-wire target port: SSN_FALL, FWP_BYTE_RECEIVED, SSN_RISE. -/

namespace Sys2Proof.Machine

/-! ## Received bytes -/

/-- FWP refuses a frame and enters REFUSING: the record is written and a claim released (R159, R161, R162). -/
def State.refuseFwp (s : State) (r : RefusalRecord) : State := (s.refuseFrame .fwp r).enterRefusing .fwp

/-- The lead byte of a transaction (R158, R159): FFh is held unjudged, a REQUEST asks RQU for a claim. -/
def State.leadFwp (s : State) (b : Byte) : State :=
  let x := s.fwp.front.take b
  if b = 0xFF then s.setFront .fwp x
  else
    match leadKind b with
    | none => (s.setFront .fwp x).refuseFwp (x.refusal .badLead)
    | some .request => (s.setFront .fwp { x with kind := some .request }).sendToRqu .fwp .claim
    | some k => s.setFront .fwp { x with kind := some k }

/-- A byte of a REQUEST after its lead byte (R159). A byte past the frame's last is judged at the SSN rise (R160). -/
def State.requestFwp (s : State) (b : Byte) : State :=
  let x := s.fwp.front
  if x.complete then s.setFront .fwp { x with extra := true }
  else if x.badLength b then (s.setFront .fwp (x.take b)).refuseFwp ((x.take b).refusal .badLength)
  else s.setFront .fwp (x.take b)

/-- A byte of a collect or status select: the check byte completes it, and it is judged there (R161, R162). -/
def State.selectFwp (s : State) (b : Byte) : State :=
  let x := s.fwp.front.take b
  let s := s.setFront .fwp x
  if x.complete = false then s
  else if x.check ≠ 0 then s.refuseFwp (x.refusal .checkFailed)
  else if x.kind = some .collectSelect then
    (s.setFront .fwp (x.present .completion [])).sendToRqu .fwp
      (.select (leadSlot (operandByte x.bytes 0)) (frameSession x.bytes))
  else s.fixStatus .fwp

/-- A byte received while the frame is being received (R158 to R162). -/
def State.receiveFwp (s : State) (b : Byte) : State :=
  let x := s.fwp.front
  if x.bytes = [] then s.leadFwp b
  else if x.kind = none then s.refuseFwp (x.refusal .badLead)
  else if x.kind = some .request then s.requestFwp b
  else s.selectFwp b

/-- The byte FWP shifts out in this position: the status byte in the first, the presentation's bytes after a select, FFh elsewhere (R157, R158, R161). -/
def Fwp.outByte (w : Fwp) : Byte :=
  if w.front.bytes = [] then w.statusByte else if w.front.state = .presenting then w.front.nextOut else 0xFF

/-- A byte position of a transaction in progress (R157): a byte goes out and the byte received is judged, ignored after a select (R161) or discarded (R159). -/
def State.clockFwp (s : State) (b : Byte) : State :=
  let s := { s with fwp := { s.fwp with sdoOut := s.fwp.outByte } }
  match s.fwp.front.state with
  | .receiving => s.receiveFwp b
  | .presenting => s.setFront .fwp s.fwp.front.advance
  | .refusing => s
  | .idle => s

/-! ## The end of a transaction -/

/-- The judgement at the SSN rise of a frame being received: an early select release of a select, checks 4 to 9 of a request (R160 to R162). A transaction of no byte, or of FFh alone, is not judged (R157, R158). -/
def State.judgeFwp (s : State) : State :=
  match s.fwp.front.kind with
  | none => s
  | some .request => s.judgeRequest .fwp
  | some _ =>
    match s.fwp.front.fault with
    | some reason => s.refuseFrame .fwp (s.fwp.front.refusal reason)
    | none => s

/-- The end of a transaction (R157, R160 to R162). -/
def State.endTransaction (s : State) : State :=
  let s := match s.fwp.front.state with
    | .receiving => s.judgeFwp
    | .presenting => s.endPresentation .fwp
    | .refusing => s
    | .idle => s
  { s with fwp := { s.fwp with front := Front.idle, sdoDriven := false } }

/-! ## The commands -/

/-- SSN_FALL (R157, R158, R163): SSN at low already is no falling edge; in reset only the level is followed. -/
def execSsnFall (sckHigh : Bool) (s : State) : Host.Outcome State Fault Refusal :=
  .next
    (if s.fwp.ssnLow then s
    else if s.inReset then { s with fwp := { s.fwp with ssnLow := true } }
    else
      let s := s.settle .fwp
      { s with
        fwp :=
          { s.fwp with
            front := { Front.idle with state := .receiving }
            ssnLow := true
            sdoDriven := true
            statusByte := portStatusByte (s.rqu.port .fwp).freeCount s.fwp.status false
            readLate := sckHigh } })

/-- FWP_BYTE_RECEIVED (R157 to R162): ignored while SSN is high, in reset, and from a reset to the next falling edge of SSN (R163). -/
def execFwpByteReceived (b : Byte) (s : State) : Host.Outcome State Fault Refusal :=
  .next
    (if s.inReset || !s.fwp.ssnLow || s.fwp.front.state = .idle then s else (s.settle .fwp).clockFwp b)

/-- SSN_RISE (R157, R160 to R163). -/
def execSsnRise (s : State) : Host.Outcome State Fault Refusal :=
  .next
    (if s.fwp.ssnLow then
      let s := if s.inReset then s else (s.settle .fwp).endTransaction
      { s with fwp := { s.fwp with ssnLow := false } }
    else s)

end Sys2Proof.Machine
end

