-- ==== Sys2Proof/Machine/Leases.lean ====
section
/-! DEFINITION. The lease requests: ACQUIRE, RELEASE, RENEW, DOWNGRADE, UPGRADE, CANCEL, BREAK, NOTICES, QUERY_LEASE. -/

namespace Sys2Proof.Machine

/-! ## ACQUIRE -/

/-- The right an ACQUIRE in a mode needs (R27 check 4). -/
def acquireRight (m : Mode) : Right := if m = .exclusive then .acquireX else .acquireS

/-- Checks 2 to 6 of an ACQUIRE on the entry found, in order (R27): the status of the first that fails. -/
def Len.acquireRefusal (len : Len) (n : SlotIx) (r : ResIx) (m : Mode) : Option Status :=
  let en := len.catalog[r]
  if en.state = .draining then some .retired
  else if en.admission.getLsbD n.val = false then some .denied
  else if len.slots[n].profile.holds (acquireRight m) = false then some .denied
  else if m ≠ .exclusive ∧ en.shareLimit = 0 then some .modeNotAllowed
  else if len.hasRecordOn n r then some .alreadyHeld
  else none

/-- Whether an ACQUIRE that passed its checks is immediately grantable (R29). -/
def Entry.grantable (en : Entry) (m : Mode) : Bool := en.queue.isEmpty && en.admits m

/-- The checks of an immediate grant, in order (R30). -/
def Len.grantRefusal (len : Len) (n : SlotIx) (r : ResIx) (m : Mode) : Option Status :=
  if len.catalog[r].spentFor m then some .epochSpent
  else if len.freeLease?.isNone then some .tableFull
  else if len.slots[n].profile.leaseQuota ≤ len.leaseUse n then some .quota
  else none

/-- The checks of a request that would park, in order (R32). -/
def Len.parkRefusal (len : Len) (n : SlotIx) (r : ResIx) (limit : Nat) : Option Status :=
  if limit = 0 then some .busy
  else if len.catalog[r].waitingAllowed = false then some .busy
  else if len.slots[n].profile.holds .wait = false then some .denied
  else if len.freeWait?.isNone then some .waitFull
  else if len.slots[n].profile.waitQuota ≤ len.waitUse n then some .quota
  else if len.freeLease?.isNone then some .tableFull
  else if len.slots[n].profile.leaseQuota ≤ len.leaseUse n then some .quota
  else none

/-- The granted term of an ACQUIRE: 0 takes the default term, and the cap bounds the rest (R26). -/
def resolveTerm (en : Entry) (term : Nat) : Nat := if term = 0 then en.defaultTerm else clampTerm en term

/-- Grant an immediately grantable ACQUIRE (R31). -/
def LenEvent.grantNow (e : LenEvent) (f : Frame) (i : RecIx) (r : ResIx) (m : Mode) (term : Nat) : LenEvent :=
  let e := (e.takeRecord i f.slot r m term).grantRecord i r m term
  (e.insertDeadline (e.len.leaseDeadline i)).completeGrant i f.slot f.tag f.kind

/-- Park an ACQUIRE (R53): the wait, its reserved record and its place in the queue. -/
def LenEvent.parkAcquire (e : LenEvent) (f : Frame) (w : WaitIx) (i : RecIx) (r : ResIx) (m : Mode) (term limit : Nat) :
    LenEvent :=
  let priority := e.len.slots[f.slot].profile.priority
  let ahead := e.len.standsAhead priority
  let e := e.parkWait w f (.acquire m term priority) r i limit
  (e.takeRecord i f.slot r m term).modEntry r fun en => { en with queue := insertBehind ahead w en.queue }

/-- An ACQUIRE whose operands and entry passed their checks is granted, refused or parked (R29 to R32). -/
def LenEvent.acquireOn (e : LenEvent) (f : Frame) (r : ResIx) (m : Mode) (a : AcquireOperands) : LenEvent :=
  let term := resolveTerm e.len.catalog[r] a.term
  if e.len.catalog[r].grantable m then
    match e.len.grantRefusal f.slot r m, e.len.freeLease? with
    | some st, _ => e.reply f st
    | none, none => e.reply f .tableFull
    | none, some i => e.grantNow f i r m term
  else
    match e.len.parkRefusal f.slot r a.waitLimit, e.len.freeWait?, e.len.freeLease? with
    | some st, _, _ => e.reply f st
    | none, some w, some i => e.parkAcquire f w i r m term a.waitLimit
    | none, none, _ => e.reply f .waitFull
    | none, some _, none => e.reply f .tableFull

/-- An ACQUIRE (R25 to R32): operands, then the resource and the slot, then grantability. -/
def LenEvent.acquire (e : LenEvent) (f : Frame) : LenEvent :=
  let a := acquireOperands f.operands
  match modeOfCode a.mode with
  | none => e.badOperand f .range 2
  | some m =>
    if termMax < a.term then e.badOperand f .range 3
    else if termMax < a.waitLimit then e.badOperand f .range 6
    else
      match e.len.lookup a.name with
      | none => e.reply f .unknownResource
      | some r =>
        match e.len.acquireRefusal f.slot r m with
        | some st => e.reply f st
        | none => e.acquireOn f r m a

/-! ## RELEASE, RENEW, DOWNGRADE -/

/-- A RELEASE (R33, R34, R35): a HELD record ends with OK and a grant pass, a LAPSED or REVOKED one reports how it ended. -/
def LenEvent.release (e : LenEvent) (f : Frame) : LenEvent :=
  match e.len.resolve f.slot (operandAt f.operands 0 2) with
  | .error st => e.reply f st
  | .ok i =>
    match endedStatus e.len.leases[i] with
    | some st => (e.freeRecord i).reply f st
    | none =>
      let r := e.len.leases[i].resource
      (((e.endUpgradeOf i .cancelled).freeRecord i).reply f .ok).grantPass r

/-- Checks 3 to 5 of a RENEW on the record its handle names, in order (R36). -/
def Len.renewRefusal (len : Len) (i : RecIx) : Option Status :=
  let l := len.leases[i]
  let en := len.catalog[l.resource]
  match endedStatus l with
  | some st => some st
  | none =>
    if en.state ≠ .opened then some .retired
    else if en.renewLimit ≠ 255 ∧ en.renewLimit ≤ l.renewCount then some .renewLimit
    else none

/-- The resolved term of a RENEW: 0 keeps the record's term (R37). -/
def Len.renewTerm (len : Len) (i : RecIx) (term : Nat) : Nat :=
  if term = 0 then len.leases[i].term else clampTerm len.catalog[len.leases[i].resource] term

/-- Renew a HELD lease (R37). -/
def LenEvent.renewRecord (e : LenEvent) (i : RecIx) (term : Nat) : LenEvent :=
  let e := (e.removeDeadline (e.len.leaseDeadline i)).modLease i fun l =>
    { l with term := term, deadline := deadlineAfter e.now term, renewCount := min (l.renewCount + 1) 254 }
  e.insertDeadline (e.len.leaseDeadline i)

/-- A RENEW (R36, R37). -/
def LenEvent.renew (e : LenEvent) (f : Frame) : LenEvent :=
  let term := operandAt f.operands 2 3
  if termMax < term then e.badOperand f .range 2
  else
    match e.len.resolve f.slot (operandAt f.operands 0 2) with
    | .error st => e.reply f st
    | .ok i =>
      match e.len.renewRefusal i with
      | some st => e.reply f st
      | none =>
        let term := e.len.renewTerm i term
        (e.renewRecord i term).replyWith f .ok (natToBytes term 3)

/-- Checks 2 to 4 of a DOWNGRADE, in order (R38). -/
def Len.downgradeRefusal (len : Len) (i : RecIx) : Option Status :=
  let l := len.leases[i]
  match endedStatus l with
  | some st => some st
  | none =>
    if l.mode ≠ .exclusive then some .notExclusive
    else if len.catalog[l.resource].shareLimit = 0 then some .modeNotAllowed
    else none

/-- A DOWNGRADE (R38): the lease and its resource become SHARED with the same epoch, and a grant pass follows. -/
def LenEvent.downgrade (e : LenEvent) (f : Frame) : LenEvent :=
  match e.len.resolve f.slot (operandAt f.operands 0 2) with
  | .error st => e.reply f st
  | .ok i =>
    match e.len.downgradeRefusal i with
    | some st => e.reply f st
    | none =>
      let r := e.len.leases[i].resource
      let e := (e.modLease i fun l => { l with mode := .shared }).modEntry r fun en => { en with holderMode := .shared }
      (e.reply f .ok).grantPass r

/-! ## UPGRADE -/

/-- Checks 4 to 6 of an UPGRADE, in order (R66). -/
def Len.upgradeRefusal (len : Len) (i : RecIx) : Option Status :=
  let l := len.leases[i]
  match endedStatus l with
  | some st => some st
  | none =>
    if l.mode ≠ .shared then some .notShared
    else if len.catalog[l.resource].state ≠ .opened then some .retired
    else none

/-- The checks of an UPGRADE that is not immediate, in order (R68). -/
def Len.upgradeParkRefusal (len : Len) (n : SlotIx) (r : ResIx) (limit : Nat) : Option Status :=
  if len.catalog[r].upgradePending then some .upgradeConflict
  else if limit = 0 then some .busy
  else if len.catalog[r].waitingAllowed = false then some .busy
  else if len.slots[n].profile.holds .wait = false then some .denied
  else if len.freeWait?.isNone then some .waitFull
  else if len.slots[n].profile.waitQuota ≤ len.waitUse n then some .quota
  else none

/-- Park an UPGRADE at the head of the queue and set the pending mark (R69). -/
def LenEvent.parkUpgrade (e : LenEvent) (f : Frame) (w : WaitIx) (i : RecIx) (limit : Nat) : LenEvent :=
  let r := e.len.leases[i].resource
  (e.parkWait w f .upgrade r i limit).modEntry r fun en => { en with queue := w :: en.queue, upgradePending := true }

/-- An UPGRADE whose lease passed its checks: granted at once to a sole holder (R67), otherwise refused or parked (R68, R69). -/
def LenEvent.upgradeLease (e : LenEvent) (f : Frame) (i : RecIx) (limit : Nat) : LenEvent :=
  let r := e.len.leases[i].resource
  if e.len.catalog[r].holderCount = 1 then
    if e.len.catalog[r].epoch = epochSpent then e.reply f .epochSpent
    else (e.makeExclusive i r).completeGrant i f.slot f.tag f.kind
  else
    match e.len.upgradeParkRefusal f.slot r limit, e.len.freeWait? with
    | some st, _ => e.reply f st
    | none, some w => e.parkUpgrade f w i limit
    | none, none => e.reply f .waitFull

/-- An UPGRADE (R66 to R69). -/
def LenEvent.upgrade (e : LenEvent) (f : Frame) : LenEvent :=
  let limit := operandAt f.operands 2 3
  if termMax < limit then e.badOperand f .range 2
  else if e.len.slots[f.slot].profile.holds .acquireX = false then e.reply f .denied
  else
    match e.len.resolve f.slot (operandAt f.operands 0 2) with
    | .error st => e.reply f st
    | .ok i =>
      match e.len.upgradeRefusal i with
      | some st => e.reply f st
      | none => e.upgradeLease f i limit

/-! ## CANCEL -/

/-- Whether a wait entry is PARKED for a slot's current session under a tag (R62). -/
def Len.standsUnder (len : Len) (n : SlotIx) (t : TagIx) (w : WaitIx) : Bool :=
  match len.waits[w] with
  | none => false
  | some x => decide (x.slot = n ∧ x.session = len.slots[n].session ∧ x.tag = t)

/-- The PARKED wait of a slot's current session under a tag (R62). -/
def Len.waitUnder (len : Len) (n : SlotIx) (t : TagIx) : Option WaitIx := (List.finRange 96).find? (len.standsUnder n t)

/-- The resource of a parked wait. -/
def Len.waitResource (len : Len) (w : WaitIx) : ResIx :=
  match len.waits[w] with
  | none => 0
  | some x => x.resource

/-- A CANCEL of a target tag (R62 to R64). -/
def LenEvent.cancelTag (e : LenEvent) (f : Frame) (t : TagIx) : LenEvent :=
  match e.len.waitUnder f.slot t with
  | some w => ((e.finishWait w false .cancelled).reply f .ok).grantPass (e.len.waitResource w)
  | none => e.reply f (if e.len.slots[f.slot].answered[t] then .tooLate else .notParked)

/-- A CANCEL: the check of its operand, and then the target tag (R62). -/
def LenEvent.cancel (e : LenEvent) (f : Frame) : LenEvent :=
  let target := operandByte f.operands 0
  if target &&& 0xF8 ≠ 0 then e.badOperand f .notZero 0 else e.cancelTag f (Fin.ofNat 8 target.toNat)

/-! ## BREAK -/

/-- The record a BREAK's handle names, if it is HELD and of that generation, whatever its holder (R39 check 3a). -/
def Len.resolveHeld (len : Len) (handle : Nat) : Option RecIx :=
  let i := handleRecord handle
  if len.leases[i].state = .held ∧ handleGeneration handle ≠ 0 ∧ len.leases[i].generation = handleGeneration handle then
    some i
  else none

/-- A BREAK of one lease by handle, or of every HELD lease of a resource by name (R39 to R41). -/
def LenEvent.breakLease (e : LenEvent) (f : Frame) : LenEvent :=
  let options := operandByte f.operands 0
  if e.len.slots[f.slot].profile.holds .breakLease = false then e.reply f .denied
  else if options &&& 0xFE ≠ 0 then e.badOperand f .notZero 0
  else if options = 0 then
    match e.len.resolveHeld (operandAt f.operands 1 2) with
    | none => e.reply f .unknownLease
    | some i =>
      let r := e.len.leases[i].resource
      if e.len.catalog[r].breakAllowed then ((e.revokeRecord i).replyWith f .ok [1]).grantPass r
      else e.reply f .denied
  else
    match e.len.lookup (nameAt f.operands 1) with
    | none => e.reply f .unknownResource
    | some r =>
      if e.len.catalog[r].breakAllowed then
        ((e.revokeAll r).replyWith f .ok [BitVec.ofNat 8 (e.len.heldOn r).length]).grantPass r
      else e.reply f .denied

/-! ## NOTICES, QUERY_LEASE -/

/-- The records of a slot with the change mark set, in ascending index (R45). -/
def Len.markedRecords (len : Len) (n : SlotIx) : List RecIx :=
  (List.finRange 128).filter fun i => len.leases[i].changeMark ∧ len.leases[i].slot = n

/-- The entry of a NOTICES payload for a record: its handle and its state (section 11.4). -/
def Len.noticeEntry (len : Len) (i : RecIx) : List Byte :=
  natToBytes (packHandle i len.leases[i].generation) 2 ++ [leaseStateCode len.leases[i].state]

/-- A NOTICES (R45): up to four marks are reported and cleared. -/
def LenEvent.notices (e : LenEvent) (f : Frame) : LenEvent :=
  let marked := e.len.markedRecords f.slot
  let taken := marked.take 4
  let payload := [BitVec.ofNat 8 taken.length] ++ taken.flatMap e.len.noticeEntry
  let e := taken.foldl (fun e i => e.modLease i fun l => { l with changeMark := false }) e
  e.replyWith f (if marked.length ≤ 4 then .ok else .more) payload

/-- The QUERY_LEASE payload of a record at a clock value (R46, section 11.4). -/
def Len.leasePayload (len : Len) (now : Tick) (i : RecIx) : List Byte :=
  let l := len.leases[i]
  let remaining := if l.state = .held then l.deadline.toNat - now.toNat else 0
  [leaseStateCode l.state, modeCode l.mode] ++ natToBytes len.catalog[l.resource].name.toNat 2 ++
    natToBytes l.epoch.toNat 4 ++ natToBytes remaining 3 ++ [BitVec.ofNat 8 l.renewCount] ++ natToBytes l.term 3

/-- A QUERY_LEASE (R46). -/
def LenEvent.queryLease (e : LenEvent) (f : Frame) : LenEvent :=
  match e.len.resolve f.slot (operandAt f.operands 0 2) with
  | .error st => e.reply f st
  | .ok i => e.replyWith f .ok (e.len.leasePayload e.now i)

/-! ## The commands -/

/-- ACQUIRE (R25 to R32, R53). -/
def execAcquire (s : State) : Host.Outcome State Fault Refusal := .next (s.takeRequest .acquire fun f e => e.acquire f)

/-- RELEASE (R33 to R35). -/
def execRelease (s : State) : Host.Outcome State Fault Refusal := .next (s.takeRequest .release fun f e => e.release f)

/-- RENEW (R36, R37). -/
def execRenew (s : State) : Host.Outcome State Fault Refusal := .next (s.takeRequest .renew fun f e => e.renew f)

/-- DOWNGRADE (R38). -/
def execDowngrade (s : State) : Host.Outcome State Fault Refusal :=
  .next (s.takeRequest .downgrade fun f e => e.downgrade f)

/-- UPGRADE (R66 to R69). -/
def execUpgrade (s : State) : Host.Outcome State Fault Refusal := .next (s.takeRequest .upgrade fun f e => e.upgrade f)

/-- CANCEL (R62 to R64). -/
def execCancel (s : State) : Host.Outcome State Fault Refusal := .next (s.takeRequest .cancel fun f e => e.cancel f)

/-- BREAK (R39 to R41). -/
def execBreakLease (s : State) : Host.Outcome State Fault Refusal :=
  .next (s.takeRequest .breakLease fun f e => e.breakLease f)

/-- NOTICES (R45). -/
def execNotices (s : State) : Host.Outcome State Fault Refusal := .next (s.takeRequest .notices fun f e => e.notices f)

/-- QUERY_LEASE (R46). -/
def execQueryLease (s : State) : Host.Outcome State Fault Refusal :=
  .next (s.takeRequest .queryLease fun f e => e.queryLease f)

end Sys2Proof.Machine
end

