-- ==== Sys2Proof/Machine/Sessions.lean ====
section
/-! DEFINITION. The session requests: ATTACH, DETACH, PING, QUERY_SLOT. -/

namespace Sys2Proof.Machine

/-- An ATTACH to a VACANT or LOST slot (R91). The end cause reported is the one the slot holds. -/
def LenEvent.attachFresh (e : LenEvent) (p : Port) (f : Frame) (ticks : Nat) : LenEvent :=
  let n := f.slot
  let session := nextSession e.len.slots[n].session
  let cause := e.len.slots[n].endCause
  let e := (((e.beginSession n p ticks).clearAnswered n).notify (.begun n session p))
  e.replyWith f .ok (attachPayload session cause (resolveKeepalive ticks))

/-- An ATTACH to an ACTIVE slot ends its session and begins a new one in the same event (R92). -/
def LenEvent.attachReplacing (e : LenEvent) (p : Port) (f : Frame) (ticks : Nat) : LenEvent :=
  let n := f.slot
  let old := e.len.slots[n].session
  let session := nextSession old
  let touched := e.len.touchedBy n old
  let e := ((e.purge n old).removeKeepalive n).modSlot n fun s => { s with endCause := .replaced }
  let e := e.beginSession n p ticks
  let e := ((e.notify (.ended n .active)).notify (.begun n session p)).clearAnswered n
  (e.replyWith f .replaced (attachPayload session .replaced (resolveKeepalive ticks))).purgePasses touched

/-- A DETACH of the session in force (R93): it sends no completion. -/
def LenEvent.detach (e : LenEvent) (f : Frame) : LenEvent :=
  let n := f.slot
  let session := e.len.slots[n].session
  let touched := e.len.touchedBy n session
  let e := ((e.purge n session).removeKeepalive n).modSlot n fun s =>
    { s with state := .vacant, endCause := .detached, keepaliveDeadline := none }
  ((e.clearAnswered n).notify (.ended n .vacant)).purgePasses touched

/-- A PING answers the low 32 bits of the clock (R95). -/
def LenEvent.ping (e : LenEvent) (f : Frame) : LenEvent :=
  e.replyWith f .ok (natToBytes e.now.toNat 4)

/-- The QUERY_SLOT payload of a slot (R101, section 11.4). -/
def Len.slotPayload (len : Len) (n : SlotIx) : List Byte :=
  let s := len.slots[n]
  [slotStateCode s.state] ++ natToBytes s.session.toNat 2 ++ [portCode s.port] ++ natToBytes s.keepaliveTerm 2 ++
    [BitVec.ofNat 8 (len.leaseUse n), BitVec.ofNat 8 (len.waitUse n), endCauseCode s.endCause]

/-- A slot operand that names a slot: 0 to 7 (R101, R109, R110, R114). -/
def slotOperand (v : Nat) : Option SlotIx := if h : v < 8 then some ⟨v, h⟩ else none

/-- Whether a request may look at another slot: it is its own, or its profile holds PROFILE (R101, R109). -/
def Len.mayRead (len : Len) (asking named : SlotIx) : Bool :=
  decide (named = asking) || len.slots[asking].profile.holds .profile

/-- A QUERY_SLOT (R101). -/
def LenEvent.querySlot (e : LenEvent) (f : Frame) : LenEvent :=
  match slotOperand (operandAt f.operands 0 1) with
  | none => e.badOperand f .range 0
  | some n => if e.len.mayRead f.slot n then e.replyWith f .ok (e.len.slotPayload n) else e.reply f .denied

/-- ATTACH (R91, R92, R165): taken whatever the slot's state, unless its operand length is not 2. -/
def execAttach (s : State) : Host.Outcome State Fault Refusal :=
  .next
    (match s.frameOf .attach with
    | none => s
    | some (p, f) =>
      let s := s.popFrame p
      if f.operands.length ∈ operandLengths .attach then
        s.runLen fun e =>
          if e.len.slots[f.slot].state = .active then e.attachReplacing p f (operandAt f.operands 0 2)
          else e.attachFresh p f (operandAt f.operands 0 2)
      else s.refuseAtTake p .badLength f)

/-- DETACH (R93). -/
def execDetach (s : State) : Host.Outcome State Fault Refusal := .next (s.takeRequest .detach fun f e => e.detach f)

/-- PING (R95). -/
def execPing (s : State) : Host.Outcome State Fault Refusal := .next (s.takeRequest .ping fun f e => e.ping f)

/-- QUERY_SLOT (R101). -/
def execQuerySlot (s : State) : Host.Outcome State Fault Refusal :=
  .next (s.takeRequest .querySlot fun f e => e.querySlot f)

end Sys2Proof.Machine
end

