-- ==== Sys2Proof/Machine/Profiles.lean ====
section
/-! DEFINITION. Profiles, freezing and the check-only enable: PROFILE_READ, PROFILE_SET, PROFILE_RESTORE, PROFILE_FREEZE, CONFIG, CHECK_ONLY_ENABLE_TAKE, CONFIG_REPORT. -/

namespace Sys2Proof.Machine

/-! ## PROFILE_READ -/

/-- The flags byte of a PROFILE_READ answer: bit 0 frozen, bit 1 check-only enable (section 11.4). -/
def Len.configByte (len : Len) : Byte :=
  BitVec.ofNat 8 ((if len.frozen then 1 else 0) + (if len.checkOnly then 2 else 0))

/-- The PROFILE_READ payload: profile, ceiling and flags (R109, section 11.4). -/
def Len.profilePayload (len : Len) (n : SlotIx) : List Byte :=
  profileBytes len.slots[n].profile ++ profileBytes (ceiling n) ++ [len.configByte]

/-- A PROFILE_READ (R109). -/
def LenEvent.profileRead (e : LenEvent) (f : Frame) : LenEvent :=
  match slotOperand (operandAt f.operands 0 1) with
  | none => e.badOperand f .range 0
  | some n => if e.len.mayRead f.slot n then e.replyWith f .ok (e.len.profilePayload n) else e.reply f .denied

/-! ## PROFILE_SET -/

/-- The four profile fields of a PROFILE_SET; bit 7 of its rights byte has been checked (R110, section 11.3). -/
def profileOperands (ops : List Byte) : Profile :=
  { rights := (operandByte ops 1).setWidth 7
    leaseQuota := operandAt ops 2 1
    waitQuota := operandAt ops 3 1
    priority := operandAt ops 4 1 }

/-- The lowest-numbered right that one set holds and another does not (R111). -/
def firstRightAbove (asked allowed : BitVec 7) : Option Nat :=
  (List.range 7).find? fun k => asked.getLsbD k && !allowed.getLsbD k

/-- Checks 5 to 11 of a PROFILE_SET of a slot, in order, with the field id and detail of the first that fails (R110, R111). -/
def Len.profileFault (len : Len) (n : SlotIx) (p : Profile) : Option (ProfileReason × Nat × Nat) :=
  let top := ceiling n
  match firstRightAbove p.rights top.rights with
  | some k => some (.aboveCeiling, 2, k)
  | none =>
    if n = 0 ∧ p.holds .profile = false then some (.selfLockout, 2, 6)
    else if top.leaseQuota < p.leaseQuota then some (.aboveCeiling, 3, top.leaseQuota)
    else if p.leaseQuota < len.leaseUse n then some (.belowUse, 3, len.leaseUse n)
    else if top.waitQuota < p.waitQuota then some (.aboveCeiling, 4, top.waitQuota)
    else if p.waitQuota < len.waitUse n then some (.belowUse, 4, len.waitUse n)
    else if top.priority < p.priority then some (.aboveCeiling, 5, top.priority)
    else none

/-- A PROFILE_SET (R110 to R112). -/
def LenEvent.profileSet (e : LenEvent) (f : Frame) : LenEvent :=
  let target := operandAt f.operands 0 1
  if e.len.slots[f.slot].profile.holds .profile = false then e.reply f .denied
  else if (operandByte f.operands 1).msb then e.badOperand f .notZero 1
  else if e.len.frozen then e.profileRefused f .frozen 0 0
  else
    match slotOperand target with
    | none => e.profileRefused f .badSlot 1 target
    | some n =>
      let p := profileOperands f.operands
      match e.len.profileFault n p with
      | some (reason, fieldId, detail) => e.profileRefused f reason fieldId detail
      | none => (e.modSlot n fun s => { s with profile := p }).reply f .ok

/-! ## PROFILE_RESTORE, PROFILE_FREEZE -/

/-- Set a slot's profile to its ceiling (R114). -/
def LenEvent.restoreProfile (e : LenEvent) (n : SlotIx) : LenEvent :=
  e.modSlot n fun s => { s with profile := ceiling n }

/-- A PROFILE_RESTORE of one slot or, with FFh, of all (R114). -/
def LenEvent.profileRestore (e : LenEvent) (f : Frame) : LenEvent :=
  let target := operandAt f.operands 0 1
  if e.len.slots[f.slot].profile.holds .profile = false then e.reply f .denied
  else if e.len.frozen then e.profileRefused f .frozen 0 0
  else if target = 0xFF then ((List.finRange 8).foldl LenEvent.restoreProfile e).reply f .ok
  else
    match slotOperand target with
    | none => e.profileRefused f .badSlot 1 target
    | some n => (e.restoreProfile n).reply f .ok

/-- A PROFILE_FREEZE (R118). -/
def LenEvent.profileFreeze (e : LenEvent) (f : Frame) : LenEvent :=
  if e.len.slots[f.slot].profile.holds .profile = false then e.reply f .denied
  else if e.len.frozen then e.profileRefused f .frozen 0 0
  else ({ e with len := { e.len with frozen := true } } : LenEvent).reply f .ok

/-! ## CONFIG -/

/-- A CONFIG (R115, R116): it sets the enable, sends it to TWP and stays open; its completion comes with TWP's report. -/
def LenEvent.config (e : LenEvent) (f : Frame) : LenEvent :=
  let options := operandByte f.operands 0
  if e.len.slots[f.slot].profile.holds .profile = false then e.reply f .denied
  else if options &&& 0xFE ≠ 0 then e.badOperand f .notZero 0
  else if e.len.frozen then e.profileRefused f .frozen 0 0
  else
    let on := options.getLsbD 0
    { e with
      len := { e.len with checkOnly := on, configOpen := some ⟨f.slot, f.tag⟩ }
      toTwp := e.toTwp ++ [.enable on true] }

/-- The end of a CONFIG's event: it completes OK with no payload (R115, R116). -/
def LenEvent.closeConfig (e : LenEvent) (c : OpenConfig) : LenEvent :=
  ({ e with len := { e.len with configOpen := none } } : LenEvent).complete c.slot ⟨c.tag, .config, .ok, []⟩

/-! ## The commands -/

/-- PROFILE_READ (R109). -/
def execProfileRead (s : State) : Host.Outcome State Fault Refusal :=
  .next (s.takeRequest .profileRead fun f e => e.profileRead f)

/-- PROFILE_SET (R110 to R113). -/
def execProfileSet (s : State) : Host.Outcome State Fault Refusal :=
  .next (s.takeRequest .profileSet fun f e => e.profileSet f)

/-- PROFILE_RESTORE (R114). -/
def execProfileRestore (s : State) : Host.Outcome State Fault Refusal :=
  .next (s.takeRequest .profileRestore fun f e => e.profileRestore f)

/-- PROFILE_FREEZE (R118, R119). -/
def execProfileFreeze (s : State) : Host.Outcome State Fault Refusal :=
  .next (s.takeRequest .profileFreeze fun f e => e.profileFreeze f)

/-- CONFIG (R115, R116). -/
def execConfig (s : State) : Host.Outcome State Fault Refusal := .next (s.takeRequest .config fun f e => e.config f)

/-- CHECK_ONLY_ENABLE_TAKE (R116, R117): TWP writes the enable at the head of its path into its copy and reports that it has. -/
def execCheckOnlyEnableTake (s : State) : Host.Outcome State Fault Refusal :=
  .next
    (match s.paths.lenToTwp with
    | .enable on forConfig :: rest =>
      { s with
        twp := { s.twp with checkOnly := on }
        paths := { s.paths with lenToTwp := rest, reports := s.paths.reports ++ [forConfig] } }
    | _ => s)

/-- CONFIG_REPORT (R116): LEN takes TWP's report and, where it answers the open CONFIG (log 8), completes it. -/
def execConfigReport (s : State) : Host.Outcome State Fault Refusal :=
  .next
    (match s.paths.reports with
    | [] => s
    | forConfig :: rest =>
      let s := { s with paths := { s.paths with reports := rest } }
      match forConfig, s.len.configOpen with
      | true, some c => s.runLen fun e => e.closeConfig c
      | _, _ => s)

end Sys2Proof.Machine
end

