-- ==== Sys2Proof/Machine/Reset.lean ====
section
/-! DEFINITION. Power-on reset and pin reset, their assertion and their release: POWER_ON_RESET, POR_RELEASE, PIN_RESET, PIN_RESET_RELEASE. -/

namespace Sys2Proof.Machine

/-- A catalog entry after a pin reset (R18): an OPEN entry keeps its name, parameters and epoch and loses its holders and queue, a DRAINING one becomes VACANT, and a VACANT one stays so. -/
def Entry.afterPinReset (en : Entry) : Entry :=
  match en.state with
  | .opened => { en with holderMode := .none, holderCount := 0, queue := [], upgradePending := false }
  | .draining => Entry.vacant en.epoch
  | .vacant => Entry.vacant en.epoch

/-- A lease record after a pin reset (R48): FREE, the generation raised only where it was in use. -/
def Lease.afterPinReset (l : Lease) : Lease :=
  match l.state with
  | .free => { l with changeMark := false }
  | _ => Lease.cleared (nextGeneration l.generation)

/-- A slot after a pin reset (R104): an ACTIVE one becomes LOST with end cause RESET; number, port, term and profile are kept. -/
def Slot.afterPinReset (s : Slot) : Slot :=
  let s := { s with answered := Vector.replicate 8 false, news := false }
  match s.state with
  | .active => { s with state := .lost, endCause := .reset, keepaliveDeadline := none }
  | _ => s

/-- LEN after a pin reset (R18, R48, R73, R104, R105, R117, R119, R138): serial counter, profiles, freeze and enable are kept, an open CONFIG is abandoned (R116). -/
def Len.afterPinReset (len : Len) : Len :=
  { catalog := len.catalog.map Entry.afterPinReset
    leases := len.leases.map Lease.afterPinReset
    waits := Vector.replicate 96 none
    slots := len.slots.map Slot.afterPinReset
    waitSerial := len.waitSerial
    frozen := len.frozen
    checkOnly := len.checkOnly
    lastPort := .fwp
    configOpen := none }

/-- TWP in either reset (R156): IDLE, nothing held, the copy of the enable off (R117, log 9), the strap value kept until the release (R145). -/
def Twp.inReset (t : Twp) : Twp :=
  { front := Front.idle
    nacked := false
    held := none
    queryOut := false
    checkOnly := false
    adr := t.adr
    sdaAck := false
    sdaOut := 0xFF
    status := PortStatus.inReset }

/-- FWP in either reset (R163): IDLE, SDO at high impedance. The level of SSN is the controller's. -/
def Fwp.inReset (w : Fwp) : Fwp :=
  { front := Front.idle
    ssnLow := w.ssnLow
    sdoDriven := false
    statusByte := 0
    sdoOut := 0xFF
    readLate := false
    status := PortStatus.inReset }

/-- Both ports set their reset indications at a release, and the straps are sampled (R74, R136, R145). -/
def State.releaseReset (s : State) (tbsel : Bool) (adr : Fin 4) : State :=
  { s with
    lck := { s.lck with tbsel := tbsel }
    twp := { s.twp with adr := adr, status := { s.twp.status with resetIndication := true } }
    fwp := { s.fwp with status := { s.fwp.status with resetIndication := true } } }

/-- What LEN sends at the release of a pin reset, before it takes any work: "slot lost" for each LOST slot and its check-only enable (R104, R117, R138). No rule orders the "slot lost" of several slots: the model sends them in ascending slot number (log 27). -/
def State.sendReleaseReports (s : State) : State :=
  let lost := (List.finRange 8).filter fun n => s.len.slots[n].state = .lost
  { s with
    paths :=
      { s.paths with
        lenToRqu := s.paths.lenToRqu ++ lost.map RquMsg.lost
        lenToTwp := s.paths.lenToTwp ++ [.enable s.len.checkOnly false] } }

/-- POWER_ON_RESET (R17, R47, R72, R86, R103, R117, R119, R137, R156, R163). -/
def execPowerOnReset (s : State) : Host.Outcome State Fault Refusal :=
  .next
    { s with
      por := true
      len := Len.afterPor
      lck := { Lck.afterPor with tbsel := s.lck.tbsel }
      rqu := Rqu.afterReset
      twp := s.twp.inReset
      fwp := s.fwp.inReset
      paths := Paths.empty }

/-- POR_RELEASE (R74, R86, R137, R145). Outside POR there is no release. -/
def execPorRelease (tbsel : Bool) (adr : Fin 4) (s : State) : Host.Outcome State Fault Refusal :=
  .next (if s.por then { s.releaseReset tbsel adr with por := false } else s)

/-- PIN_RESET (R18, R48, R73, R87, R104, R117, R138, R144, R156, R163): the lease clock keeps its value. -/
def execPinReset (s : State) : Host.Outcome State Fault Refusal :=
  .next
    { s with
      rstnLow := true
      len := s.len.afterPinReset
      lck := { s.lck with deadlines := [], tickOpen := false }
      rqu := Rqu.afterReset
      twp := s.twp.inReset
      fwp := s.fwp.inReset
      paths := Paths.empty }

/-- PIN_RESET_RELEASE (R74, R104, R117, R136, R138, R145). While POR goes on, the part stays in reset and only RSTN is released (log 13). -/
def execPinResetRelease (tbsel : Bool) (adr : Fin 4) (s : State) : Host.Outcome State Fault Refusal :=
  .next
    (if s.rstnLow then
      if s.por then { s with rstnLow := false }
      else { (s.releaseReset tbsel adr).sendReleaseReports with rstnLow := false }
    else s)

end Sys2Proof.Machine
end

