-- ==== Sys2Proof/Machine/Twp.lean ====
section
/-! DEFINITION. The two-wire target port: TWP_ADDRESS, TWP_WRITE_BYTE, TWP_SEGMENT_END, BUS_CLEAR, BYTE_CLOCKED_OUT. -/

namespace Sys2Proof.Machine

/-! ## The end of a segment -/

/-- The end of a check-only write segment: the query is passed, held until an earlier answer returns, or answered CHECK_FAILED (R141, R153). -/
def State.judgeQuery (s : State) : State :=
  let x := s.twp.front
  let q := parseQuery x.bytes
  if x.fault.isNone then
    if s.twp.queryOut then { s with twp := { s.twp with held := some (.query q .waiting) } } else s.passQuery q
  else { s with twp := { s.twp with held := some (.query q (.answered .checkFailed)) } }

/-- The end of a select's write segment: it is held, or it fails into the refusal record (R150, R152). -/
def State.judgeSelect (s : State) (item : Held) : State :=
  match s.twp.front.fault with
  | some reason => s.refuseFrame .twp (s.twp.front.refusal reason)
  | none => { s with twp := { s.twp with held := some item } }

/-- The judgement at the end of a write segment (R149, R150, R152, R153). A segment without a byte, and one whose refusal was written at its byte, is not judged. -/
def State.judgeTwp (s : State) : State :=
  let x := s.twp.front
  match x.kind with
  | none => s
  | some .checkOnlyQuery => s.judgeQuery
  | some k =>
    if x.state = .refusing ∧ x.extra = false then s
    else
      match k with
      | .request => s.judgeRequest .twp
      | .collectSelect =>
        s.judgeSelect (.collect (leadSlot (operandByte x.bytes 0)) (frameSession x.bytes))
      | _ => s.judgeSelect .status

/-- TWP's front end goes IDLE. -/
def State.idleTwp (s : State) : State := { s with twp := { s.twp with front := Front.idle, nacked := false } }

/-- Every held item is dropped (R151, R154). -/
def State.dropHeld (s : State) : State := { s with twp := { s.twp with held := none } }

/-- The end of a segment: the frame is judged or the presentation reported, the front end goes IDLE, and a STOP drops what is held (R146, R151, R154). -/
def State.endSegment (s : State) (e : SegmentEnd) : State :=
  let s := match s.twp.front.state with
    | .receiving => s.judgeTwp
    | .refusing => s.judgeTwp
    | .presenting => s.endPresentation .twp
    | .idle => s
  match e with
  | .stop => s.idleTwp.dropHeld
  | .repeatedStart => s.idleTwp

/-! ## Addresses -/

/-- The primary address: 58h plus the strap value (R145). -/
def Twp.primaryAddress (t : Twp) : Byte := 0x58 + BitVec.ofNat 8 t.adr.val

/-- The check-only address: 5Ch plus the strap value (R145). -/
def Twp.checkAddress (t : Twp) : Byte := 0x5C + BitVec.ofNat 8 t.adr.val

/-- Whether TWP holds a check-only query or its answer. -/
def Twp.holdsQuery (t : Twp) : Bool :=
  match t.held with
  | some (.query _ _) => true
  | _ => false

/-- An address TWP does not acknowledge: IDLE, and what is held is dropped (R145, R146). -/
def State.ignoreSegment (s : State) : State := (s.idleTwp.dropHeld).setAck .twp false

/-- A write segment begins: the address is acknowledged and what is held is dropped (R146, R151, R154). -/
def State.beginWrite (s : State) (kind : Option FrameKind) : State :=
  let x : Front := { Front.idle with state := .receiving, kind := kind }
  ((s.idleTwp.dropHeld).setFront .twp x).setAck .twp true

/-- A read segment begins that shifts out these bytes. -/
def State.beginRead (s : State) (k : Presentation) (out : List Byte) : State :=
  (s.idleTwp.setFront .twp (Front.idle.present k out)).setAck .twp true

/-- A read segment at the primary address: it uses the select held, and presents nothing otherwise (R150, R151, R152). -/
def State.readPrimary (s : State) : State :=
  match s.twp.held with
  | some (.collect n session) => ((s.dropHeld).beginRead .completion []).sendToRqu .twp (.select n session)
  | some .status => ((s.dropHeld).beginRead .status []).fixStatus .twp
  | _ => s.beginRead .nothing []

/-- A read segment at the check-only address: the answer held, FFh while none has returned, or CHECK_FAILED where nothing was asked (R153). A held select is dropped (log 16). -/
def State.readCheckOnly (s : State) : State :=
  match s.twp.held with
  | some (.query _ (.answered a)) => s.beginRead .answer (answerFrame a)
  | some (.query _ _) => s.beginRead .answer noAnswerFrame
  | _ => (s.dropHeld).beginRead .answer (answerFrame .checkFailed)

/-- The address byte after a START or repeated start: bits 7 to 1 the address, bit 0 the direction (R145). -/
def State.addressTwp (s : State) (b : Byte) : State :=
  let a := b >>> 1
  let read := b.getLsbD 0
  if a = s.twp.primaryAddress then (if read then s.readPrimary else s.beginWrite none)
  else if a = s.twp.checkAddress then
    if read then (if s.twp.checkOnly || s.twp.holdsQuery then s.readCheckOnly else s.ignoreSegment)
    else (if s.twp.checkOnly then s.beginWrite (some .checkOnlyQuery) else s.ignoreSegment)
  else s.ignoreSegment

/-! ## Written bytes -/

/-- TWP takes a byte into its frame and acknowledges it. -/
def State.takeTwp (s : State) (b : Byte) : State := (s.setFront .twp (s.twp.front.take b)).setAck .twp true

/-- A byte is refused at its acknowledge bit with a reason: the record is written, the claim released, the front end REFUSING (R148). -/
def State.refuseTwpByte (s : State) (b : Byte) (reason : RefusalReason) : State :=
  let x := s.twp.front.take b
  (((s.setFront .twp x).refuseFrame .twp (x.refusal reason)).enterRefusing .twp).setAck .twp false

/-- A byte after the frame's last is refused and discarded, with nothing written yet (R148, R150, R152, R153). -/
def State.refuseTwpExtra (s : State) : State :=
  (s.setFront .twp { s.twp.front with extra := true, state := .refusing }).setAck .twp false

/-- The lead byte of a write segment at the primary address (R121 check 1, R148): a REQUEST asks RQU for a claim, whose answer gives the acknowledge. -/
def State.leadTwp (s : State) (b : Byte) : State :=
  match leadKind b with
  | none => s.refuseTwpByte b .badLead
  | some .request =>
    ((s.setFront .twp { s.twp.front.take b with kind := some .request }).setAck .twp false).sendToRqu .twp .claim
  | some k => (s.setFront .twp { s.twp.front.take b with kind := some k }).setAck .twp true

/-- A byte of a write segment that is being received (R148, R150, R152, R153). -/
def State.receiveTwp (s : State) (b : Byte) : State :=
  let x := s.twp.front
  if x.kind = none then s.leadTwp b
  else if x.complete then s.refuseTwpExtra
  else if x.badLength b then s.refuseTwpByte b .badLength
  else s.takeTwp b

/-! ## Read bytes -/

/-- A byte is clocked out of a read segment: FFh after a not-acknowledge, and no further byte of the presentation then. R150 says so of a collect; that a status and a check-only read do the same is the model's choice, log 29. -/
def State.clockOut (s : State) (ack : Bool) : State :=
  let t := s.twp
  let out := if t.nacked then 0xFF else t.front.nextOut
  let x := if t.nacked then t.front else t.front.advance
  { s with twp := { t with front := x, sdaOut := out, nacked := t.nacked || !ack } }

/-! ## The commands -/

/-- TWP_ADDRESS (R145, R146, R150 to R154): a START in a segment that was not ended ends it as a repeated start does (log 14). -/
def execTwpAddress (b : Byte) (s : State) : Host.Outcome State Fault Refusal :=
  .next
    (if s.inReset then s.setAck .twp false
    else
      let s := s.settle .twp
      let s := if s.twp.front.state = .idle then s else (s.endSegment .repeatedStart).settle .twp
      s.addressTwp b)

/-- TWP_WRITE_BYTE (R146, R148, R150, R152, R153). -/
def execTwpWriteByte (b : Byte) (s : State) : Host.Outcome State Fault Refusal :=
  .next
    (if s.inReset then s.setAck .twp false
    else
      let s := s.settle .twp
      if s.twp.front.state = .receiving then s.receiveTwp b else s.setAck .twp false)

/-- TWP_SEGMENT_END (R146, R149 to R154). -/
def execTwpSegmentEnd (e : SegmentEnd) (s : State) : Host.Outcome State Fault Refusal :=
  .next (if s.inReset then s else (s.settle .twp).endSegment e)

/-- BUS_CLEAR (R155): the front end goes IDLE, a frame and its claim are dropped, a collect is cut short, what is held is dropped, and the record is written. -/
def execBusClear (s : State) : Host.Outcome State Fault Refusal :=
  .next
    (if s.inReset then s
    else
      let s := s.settle .twp
      let record := s.twp.front.refusal .busClear
      let s := if s.twp.front.presentation = .completion then s.sendToRqu .twp (.collectEnd false) else s
      (((s.refuseFrame .twp record).idleTwp).dropHeld).setAck .twp false)

/-- BYTE_CLOCKED_OUT (R145, R146, R150 to R153): outside a read segment that is TWP's, the controller reads 1 bits. -/
def execByteClockedOut (ack : Bool) (s : State) : Host.Outcome State Fault Refusal :=
  .next
    (if s.inReset then { s with twp := { s.twp with sdaOut := 0xFF } }
    else
      let s := s.settle .twp
      if s.twp.front.state = .presenting then s.clockOut ack else { s with twp := { s.twp with sdaOut := 0xFF } })

end Sys2Proof.Machine
end

