-- ==== Sys2Proof/Machine/Dispatch.lean ====
section
/-! DEFINITION. The dispatch: one arm for each command of spec/opcode_table.json, in the table's order, each one call of the command's meaning. -/

namespace Sys2Proof.Machine

/-- The effect of a command on everything but the queue. -/
def exec (i : Instr) (s : State) : Host.Outcome State Fault Refusal :=
  match i with
  | .powerOnReset => Sys2Proof.Machine.execPowerOnReset s
  | .porRelease tbsel adr => Sys2Proof.Machine.execPorRelease tbsel adr s
  | .pinReset => Sys2Proof.Machine.execPinReset s
  | .pinResetRelease tbsel adr => Sys2Proof.Machine.execPinResetRelease tbsel adr s
  | .tick source => Sys2Proof.Machine.execTick source s
  | .deadlineExpiry => Sys2Proof.Machine.execDeadlineExpiry s
  | .deadlineInsert => Sys2Proof.Machine.execDeadlineInsert s
  | .deadlineRemove => Sys2Proof.Machine.execDeadlineRemove s
  | .leaseExpiry => Sys2Proof.Machine.execLeaseExpiry s
  | .waitExpiry => Sys2Proof.Machine.execWaitExpiry s
  | .keepaliveExpiry => Sys2Proof.Machine.execKeepaliveExpiry s
  | .attach => Sys2Proof.Machine.execAttach s
  | .detach => Sys2Proof.Machine.execDetach s
  | .ping => Sys2Proof.Machine.execPing s
  | .querySlot => Sys2Proof.Machine.execQuerySlot s
  | .acquire => Sys2Proof.Machine.execAcquire s
  | .release => Sys2Proof.Machine.execRelease s
  | .renew => Sys2Proof.Machine.execRenew s
  | .downgrade => Sys2Proof.Machine.execDowngrade s
  | .upgrade => Sys2Proof.Machine.execUpgrade s
  | .cancel => Sys2Proof.Machine.execCancel s
  | .breakLease => Sys2Proof.Machine.execBreakLease s
  | .notices => Sys2Proof.Machine.execNotices s
  | .queryLease => Sys2Proof.Machine.execQueryLease s
  | .queryResource => Sys2Proof.Machine.execQueryResource s
  | .define => Sys2Proof.Machine.execDefine s
  | .retire => Sys2Proof.Machine.execRetire s
  | .tokenCheck => Sys2Proof.Machine.execTokenCheck s
  | .profileRead => Sys2Proof.Machine.execProfileRead s
  | .profileSet => Sys2Proof.Machine.execProfileSet s
  | .profileRestore => Sys2Proof.Machine.execProfileRestore s
  | .profileFreeze => Sys2Proof.Machine.execProfileFreeze s
  | .config => Sys2Proof.Machine.execConfig s
  | .checkOnlyEnableTake => Sys2Proof.Machine.execCheckOnlyEnableTake s
  | .configReport => Sys2Proof.Machine.execConfigReport s
  | .checkOnlyQuery => Sys2Proof.Machine.execCheckOnlyQuery s
  | .checkOnlyAnswer => Sys2Proof.Machine.execCheckOnlyAnswer s
  | .takeTimeRefusal p => Sys2Proof.Machine.execTakeTimeRefusal p s
  | .intakeClaim p => Sys2Proof.Machine.execIntakeClaim p s
  | .arrivalCheck p => Sys2Proof.Machine.execArrivalCheck p s
  | .completionFiled => Sys2Proof.Machine.execCompletionFiled s
  | .sessionBegun => Sys2Proof.Machine.execSessionBegun s
  | .sessionEnded => Sys2Proof.Machine.execSessionEnded s
  | .slotLost => Sys2Proof.Machine.execSlotLost s
  | .slotNewsOn => Sys2Proof.Machine.execSlotNewsOn s
  | .slotNewsOff => Sys2Proof.Machine.execSlotNewsOff s
  | .collectSelect p => Sys2Proof.Machine.execCollectSelect p s
  | .collectEnd p => Sys2Proof.Machine.execCollectEnd p s
  | .twpAddress b => Sys2Proof.Machine.execTwpAddress b s
  | .twpWriteByte b => Sys2Proof.Machine.execTwpWriteByte b s
  | .twpSegmentEnd e => Sys2Proof.Machine.execTwpSegmentEnd e s
  | .busClear => Sys2Proof.Machine.execBusClear s
  | .ssnFall sckHigh => Sys2Proof.Machine.execSsnFall sckHigh s
  | .fwpByteReceived b => Sys2Proof.Machine.execFwpByteReceived b s
  | .ssnRise => Sys2Proof.Machine.execSsnRise s
  | .byteClockedOut ack => Sys2Proof.Machine.execByteClockedOut ack s

end Sys2Proof.Machine
end

