-- ==== Sys2Proof/Safety.lean ====
section
/-! DEFINITION. The words in which the statements about the part are put: what the take of a frame does before the request's own effect, what an answer leaves, and the laws that every step keeps. -/

namespace Sys2Proof.Machine

/-! ## The take of a frame -/

/-- The command by which LEN takes a frame of a kind. -/
def commandOf : ReqKind → Instr
  | .attach => .attach
  | .detach => .detach
  | .ping => .ping
  | .querySlot => .querySlot
  | .acquire => .acquire
  | .release => .release
  | .renew => .renew
  | .downgrade => .downgrade
  | .upgrade => .upgrade
  | .cancel => .cancel
  | .breakLease => .breakLease
  | .notices => .notices
  | .queryLease => .queryLease
  | .queryResource => .queryResource
  | .define => .define
  | .retire => .retire
  | .tokenCheck => .tokenCheck
  | .profileRead => .profileRead
  | .profileSet => .profileSet
  | .profileRestore => .profileRestore
  | .profileFreeze => .profileFreeze
  | .config => .config

/-- LEN's next frame is `f`, from port `p`; its kind is `k`, and its session is in force (R126, R127). -/
def State.offers (s : State) (k : ReqKind) (p : Port) (f : Frame) : Prop :=
  s.frameOf k = some (p, f) ∧ s.len.live f = true

/-- LEN's next frame as `State.offers` says, with an operand length that its kind has (R164). -/
def State.offersWell (s : State) (k : ReqKind) (p : Port) (f : Frame) : Prop :=
  s.offers k p f ∧ f.operands.length ∈ operandLengths k

/-- A slot after the take of a frame under a tag: the answer mark is cleared, and the keepalive deadline runs from the take unless the frame is a DETACH (R94, R128). -/
def Slot.afterTake (x : Slot) (now : Tick) (f : Frame) : Slot :=
  { x with
    answered := x.answered.set f.tag false
    keepaliveDeadline :=
      if f.kind = .detach then x.keepaliveDeadline else some (deadlineAfter now x.keepaliveTerm) }

/-- LEN after the take of a frame, before the request's own effect: the port is the one taken from last, and the asking slot is as `Slot.afterTake` says (R126, R128). -/
def State.lenAfterTake (s : State) (p : Port) (f : Frame) : Len :=
  ({ s.len with lastPort := p } : Len).setSlot f.slot (s.len.slots[f.slot].afterTake s.lck.clock f)

/-- What the take of a frame sends to LCK before the request's own requests: the removal of the KEEPALIVE entry at the old deadline and the insert at the new (R94). -/
def State.takeRequests (s : State) (f : Frame) : List LckReq :=
  if f.kind = .detach then []
  else
    s.len.keepaliveRemoval f.slot ++
      [.insert ⟨deadlineAfter s.lck.clock s.len.slots[f.slot].keepaliveTerm,
        .keepalive f.slot s.len.slots[f.slot].session⟩]

/-- LEN's event at the start of a request: the frame has been taken and its take-time effects made (R94, R128). -/
def State.takeEvent (s : State) (p : Port) (f : Frame) : LenEvent :=
  { now := s.lck.clock, len := s.lenAfterTake p f, toLck := s.takeRequests f, toRqu := [], toTwp := [] }

/-- The machine once LEN's event on a frame of port `p` has ended (R24, R126). -/
def State.finishTake (s : State) (p : Port) (e : LenEvent) : State :=
  { s.popFrame p with
    len := e.len.withNews s.len
    paths :=
      { s.paths with
        lenToLck := s.paths.lenToLck ++ e.toLck
        lenToRqu := s.paths.lenToRqu ++ (newsNotices s.len e.len ++ e.toRqu)
        lenToTwp := s.paths.lenToTwp ++ e.toTwp } }

/-- LEN's event at the start of an expiry: nothing has been done yet. -/
def State.expiryEvent (s : State) : LenEvent := { now := s.lck.clock, len := s.len, toLck := [], toRqu := [], toTwp := [] }

/-- The machine once LEN has taken the expiry message at the head of its path, which leaves `rest`, and its event has ended (R24, R82). -/
def State.finishExpiry (s : State) (rest : List Deadline) (e : LenEvent) : State :=
  { s with
    len := e.len.withNews s.len
    paths :=
      { s.paths with
        lckToLen := rest
        lenToLck := s.paths.lenToLck ++ e.toLck
        lenToRqu := s.paths.lenToRqu ++ (newsNotices s.len e.len ++ e.toRqu)
        lenToTwp := s.paths.lenToTwp ++ e.toTwp } }

/-- LEN with the answer mark of a tag set (R61). -/
def Len.answer (len : Len) (n : SlotIx) (t : TagIx) : Len :=
  len.setSlot n { len.slots[n] with answered := len.slots[n].answered.set t true }

/-- The machine after LEN took a frame of port `p`: LEN is left as `len`, with its news brought up to date, and has sent these requests to LCK and, behind the news notices, these messages to RQU (R24, R126). Nothing else has changed. -/
def State.afterEvent (s : State) (p : Port) (len : Len) (toLck : List LckReq) (toRqu : List RquMsg) : State :=
  { s.popFrame p with
    len := len.withNews s.len
    paths :=
      { s.paths with
        lenToLck := s.paths.lenToLck ++ toLck
        lenToRqu := s.paths.lenToRqu ++ (newsNotices s.len len ++ toRqu) } }

/-- The machine after LEN took a frame and did nothing but complete it: the frame has left its queue, the keepalive has moved, the answer mark of the tag is set, and the completion is on its way (R94, R126, R128). -/
def State.afterReply (s : State) (p : Port) (f : Frame) (st : Status) (payload : List Byte) : State :=
  { s.popFrame p with
    len := (s.lenAfterTake p f).answer f.slot f.tag
    paths :=
      { s.paths with
        lenToLck := s.paths.lenToLck ++ s.takeRequests f
        lenToRqu := s.paths.lenToRqu ++ [.completion f.slot ⟨f.tag, f.kind, st, payload⟩] } }

/-! ## Records, entries and waits after an end -/

/-- The record after it has been freed: FREE, its fields and mark cleared, its generation raised by 1 and never 0 (R19, R23). -/
def Lease.freed (l : Lease) : Lease := Lease.cleared (if l.generation = 511 then 1 else l.generation + 1)

/-- The entry after one of its holders has gone (R14). -/
def Entry.lowered (en : Entry) : Entry :=
  { en with
    holderCount := en.holderCount - 1
    holderMode := if en.holderCount - 1 = 0 then .none else en.holderMode }

/-- The entry after a wait has left its queue (R58). -/
def Entry.without (en : Entry) (w : WaitIx) (k : WaitKind) : Entry :=
  { en with
    queue := en.queue.erase w
    upgradePending := if k = .upgrade then false else en.upgradePending }

/-- The entry after one of its records has been freed: a DRAINING one whose last record it was becomes VACANT (R12, R23). -/
def Len.entryAfterFreeing (len : Len) (r : ResIx) (en : Entry) : Entry :=
  if en.state = .draining ∧ len.recordsOn r = 1 then Entry.vacant en.epoch else en

/-- Whether a wait is one of the session in force of a slot, under a tag (R62). -/
def Len.waitsUnder (len : Len) (n : SlotIx) (t : TagIx) (w : WaitIx) : Prop :=
  ∃ x, len.waits[w] = some x ∧ x.slot = n ∧ x.session = len.slots[n].session ∧ x.tag = t

/-- Whether a slot may have a lease on an entry in a mode: the checks of R27 from the second on. -/
def Len.mayAcquire (len : Len) (n : SlotIx) (r : ResIx) (m : Mode) : Prop :=
  len.catalog[r].state ≠ .draining ∧ len.catalog[r].admission.getLsbD n.val = true ∧
    len.slots[n].profile.holds (if m = .exclusive then .acquireX else .acquireS) = true ∧
    (m = .exclusive ∨ 1 ≤ len.catalog[r].shareLimit) ∧
    ¬∃ i : RecIx, len.leases[i].state ≠ .free ∧ len.leases[i].slot = n ∧ len.leases[i].resource = r

/-- Whether the holders and the queue of an entry let a request in a mode be granted at once (R29). -/
def Entry.freeFor (en : Entry) (m : Mode) : Prop :=
  en.queue = [] ∧
    (en.holderMode = .none ∨
      m = .shared ∧ en.holderMode = .shared ∧ en.holderCount < en.shareLimit ∧ en.upgradePending = false)

/-- The lowest record that is FREE (R22). -/
def Len.lowestFreeLease (len : Len) (i : RecIx) : Prop :=
  len.leases[i].state = .free ∧ ∀ j : RecIx, j < i → len.leases[j].state ≠ .free

/-- The lowest wait entry that is FREE (R51). -/
def Len.lowestFreeWait (len : Len) (w : WaitIx) : Prop :=
  len.waits[w] = none ∧ ∀ v : WaitIx, v < w → len.waits[v] ≠ none

/-- The serial that the next wait gets: the counter's value, or the first value after it that no PARKED wait carries (R51). -/
def Len.nextSerial (len : Len) (serial : Serial) : Prop :=
  (∀ (v : WaitIx) (y : Wait), len.waits[v] = some y → y.serial ≠ serial) ∧
    ∃ k : Nat, serial = len.waitSerial + BitVec.ofNat 16 k ∧
      ∀ j < k, ∃ (v : WaitIx) (y : Wait), len.waits[v] = some y ∧ y.serial = len.waitSerial + BitVec.ofNat 16 j

/-! ## The ports and RQU -/

/-- A port's status items after a refusal: the record is replaced, refusal unread is set, and a status presentation fixed before it does not clear the flag (R123, R136). -/
def PortStatus.refused (st : PortStatus) (reason : RefusalReason) (lead tagKind : Byte) : PortStatus :=
  { st with record := ⟨reason, lead, tagKind⟩, refusalUnread := true, refusedSince := true }

/-- The command by which RQU takes a message of a port. -/
def PortMsg.command (p : Port) : PortMsg → Instr
  | .claim => .intakeClaim p
  | .arrival _ => .arrivalCheck p
  | .select _ _ => .collectSelect p
  | .collectEnd _ => .collectEnd p

/-- A port awaits no answer of RQU: nothing but ends of collects stands in its path (log 5). -/
def State.settled (s : State) (p : Port) : Prop := ∀ m ∈ s.toRqu p, ∃ full, m = .collectEnd full

/-- The front end with a byte taken into its frame (R146, R147). -/
def Front.received (x : Front) (b : Byte) : Front := { x with bytes := x.bytes ++ [b], check := frameCheck (x.bytes ++ [b]) }

/-- The bytes that a frame of a kind has, where it tells them: a REQUEST by its operand length byte (section 11.1). -/
def FrameKind.length (k : FrameKind) (bytes : List Byte) : Nat :=
  match k with
  | .request => (operandByte bytes 4).toNat + 6
  | .collectSelect => 4
  | .statusSelect => 2
  | .checkOnlyQuery => 8

/-! ## Laws of LEN -/

/-- Whether a profile is within a ceiling (R105). -/
def Profile.within (p top : Profile) : Prop :=
  (∀ r : Right, p.holds r = true → top.holds r = true) ∧ p.leaseQuota ≤ top.leaseQuota ∧ p.waitQuota ≤ top.waitQuota ∧
    p.priority ≤ top.priority

/-- Every profile is within its ceiling, and slot 0 holds PROFILE (R105, R108). -/
def Len.profilesLegal (len : Len) : Prop :=
  (∀ n : SlotIx, len.slots[n].profile.within (ceiling n)) ∧ len.slots[(0 : SlotIx)].profile.holds .profile = true

/-- No two non-VACANT entries have the same name, and none has the name 0000h or FFFFh (R3). -/
def Len.namesUnique (len : Len) : Prop :=
  (∀ a b : ResIx, len.catalog[a].state ≠ .vacant → len.catalog[b].state ≠ .vacant →
    len.catalog[a].name = len.catalog[b].name → a = b) ∧
  ∀ a : ResIx, len.catalog[a].state ≠ .vacant → len.catalog[a].name ≠ 0x0000 ∧ len.catalog[a].name ≠ 0xFFFF

/-- No record's generation is 0 (R19). -/
def Len.generationsValid (len : Len) : Prop := ∀ i : RecIx, len.leases[i].generation ≠ 0

/-- A slot has a keepalive deadline exactly while it is ACTIVE (R91, R93, R96, R103, R104). -/
def Len.keepaliveMatchesState (len : Len) : Prop :=
  ∀ n : SlotIx, len.slots[n].keepaliveDeadline.isSome = true ↔ len.slots[n].state = .active

/-- A FREE record carries no session (R23). -/
def Len.freeRecordsSessionless (len : Len) : Prop := ∀ i : RecIx, len.leases[i].state = .free → len.leases[i].session = 0

/-- A session has no PARKED wait and no record in use (R49, R71, R97). -/
def Len.ownsNothing (len : Len) (n : SlotIx) (session : Session) : Prop :=
  (∀ (w : WaitIx) (x : Wait), len.waits[w] = some x → ¬(x.slot = n ∧ x.session = session)) ∧
  ∀ i : RecIx, len.leases[i].state ≠ .free → ¬(len.leases[i].slot = n ∧ len.leases[i].session = session)

/-- LEN's news of every slot says whether a record of the slot has its change mark set (R24). -/
def Len.newsMatchesMarks (len : Len) : Prop := ∀ n : SlotIx, len.slots[n].news = len.marked n

/-- The laws of the lease engine's tables that every step keeps. -/
def Len.lawful (len : Len) : Prop :=
  len.profilesLegal ∧ len.namesUnique ∧ len.generationsValid ∧ len.freeRecordsSessionless ∧ len.keepaliveMatchesState

/-- Every wait that stands in a queue is PARKED on the queue's resource, and stands there once (R50, R52). -/
def Len.queuesHoldTheirWaits (len : Len) : Prop :=
  ∀ r : ResIx, len.catalog[r].queue.Nodup ∧
    ∀ w ∈ len.catalog[r].queue, ∃ x : Wait, len.waits[w] = some x ∧ x.resource = r

/-- The number of HELD records on an entry. -/
def Len.heldCount (len : Len) (r : ResIx) : Nat := len.leases.toList.countP fun l => l.state = .held ∧ l.resource = r

/-- The holder mode and count of every entry are those of its HELD records: NONE without one, EXCLUSIVE with one alone, SHARED with no more than the share limit; and every HELD record carries its entry's epoch (R14, R15). -/
def Len.holdersAgree (len : Len) : Prop :=
  ∀ r : ResIx,
    let en := len.catalog[r]
    en.holderCount = len.heldCount r ∧ (en.holderMode = .none ↔ en.holderCount = 0) ∧
      (en.holderMode = .exclusive → en.holderCount = 1) ∧ (en.holderMode = .shared → en.holderCount ≤ en.shareLimit) ∧
      ∀ i : RecIx, len.leases[i].state = .held → len.leases[i].resource = r →
        len.leases[i].mode = en.holderMode ∧ len.leases[i].epoch = en.epoch

/-- No record in use refers to a VACANT entry (R8, R12). -/
def Len.recordsStand (len : Len) : Prop :=
  ∀ i : RecIx, len.leases[i].state ≠ .free → len.catalog[len.leases[i].resource].state ≠ .vacant

/-- Of two ACQUIRE waits the first has an equal or higher priority class (R52). An UPGRADE wait has none. -/
def Wait.notBelow (x y : Wait) : Prop :=
  ∀ m t p m' t' p', x.kind = .acquire m t p → y.kind = .acquire m' t' p' → p' ≤ p

/-- The ACQUIRE waits of every queue stand in order of non-increasing priority class (R52). -/
def Len.queuesByPriority (len : Len) : Prop :=
  ∀ r : ResIx, len.catalog[r].queue.Pairwise fun v w =>
    ∀ x y : Wait, len.waits[v] = some x → len.waits[w] = some y → x.notBelow y

/-- Queues and pool agree: each queue holds the waits PARKED on its resource, each once and in order of priority class, and only an OPEN entry has any (R8, R50, R52, R58). -/
def Len.queuesAgree (len : Len) : Prop :=
  len.queuesHoldTheirWaits ∧ (∀ (w : WaitIx) (x : Wait), len.waits[w] = some x → w ∈ len.catalog[x.resource].queue) ∧
    (∀ r : ResIx, len.catalog[r].state ≠ .opened → len.catalog[r].queue = []) ∧ len.queuesByPriority

/-- Waits and records agree: an ACQUIRE wait has its RESERVED record, of its resource, slot, session, mode and term; an UPGRADE wait has its HELD SHARED lease; no record has two waits, and no record is RESERVED without one (R53, R58, R69). -/
def Len.waitsAgree (len : Len) : Prop :=
  (∀ (w : WaitIx) (x : Wait), len.waits[w] = some x →
    let l := len.leases[x.lease]
    l.resource = x.resource ∧ l.slot = x.slot ∧ l.session = x.session ∧
      (∀ m term priority, x.kind = .acquire m term priority →
        l.state = .reserved ∧ l.mode = m ∧ l.term = term ∧ m ≠ .none ∧
          (m = .shared → 1 ≤ len.catalog[x.resource].shareLimit)) ∧
      (x.kind = .upgrade → l.state = .held ∧ l.mode = .shared)) ∧
  (∀ (w v : WaitIx) (x y : Wait), len.waits[w] = some x → len.waits[v] = some y → x.lease = y.lease → w = v) ∧
  ∀ i : RecIx, len.leases[i].state = .reserved → ∃ (w : WaitIx) (x : Wait), len.waits[w] = some x ∧ x.lease = i

/-- An entry has its upgrade pending mark exactly while an UPGRADE wait is PARKED on it, and that wait stands at the head of the queue (R52, R58, R69). -/
def Len.upgradesAgree (len : Len) : Prop :=
  (∀ r : ResIx, len.catalog[r].upgradePending = true ↔
    ∃ (w : WaitIx) (x : Wait), len.waits[w] = some x ∧ x.resource = r ∧ x.kind = .upgrade) ∧
  ∀ (w : WaitIx) (x : Wait), len.waits[w] = some x → x.kind = .upgrade → len.catalog[x.resource].queue.head? = some w

/-- An UPGRADE is pending only while its resource has another holder beside the upgrader: otherwise it would have been granted (R56, R67). -/
def Len.upgradesWait (len : Len) : Prop :=
  ∀ r : ResIx, len.catalog[r].upgradePending = true → 2 ≤ len.catalog[r].holderCount

/-- Every record in use is of the session in force of an ACTIVE slot, and no slot has two records in use on one entry (R28, R97). -/
def Len.ownersAgree (len : Len) : Prop :=
  (∀ i : RecIx, len.leases[i].state ≠ .free →
    len.slots[len.leases[i].slot].state = .active ∧ len.slots[len.leases[i].slot].session = len.leases[i].session) ∧
  ∀ i j : RecIx, len.leases[i].state ≠ .free → len.leases[j].state ≠ .free → len.leases[i].slot = len.leases[j].slot →
    len.leases[i].resource = len.leases[j].resource → i = j

/-- The catalog, the lease table and the wait pool agree: so they do at every point of an event at which a wait or a record has changed whole. -/
def Len.tablesAgree (len : Len) : Prop :=
  len.holdersAgree ∧ len.recordsStand ∧ len.queuesAgree ∧ len.waitsAgree ∧ len.upgradesAgree

/-- The catalog, the lease table, the wait pool and the slots agree, as they do between events. -/
def Len.agrees (len : Len) : Prop := len.tablesAgree ∧ len.upgradesWait ∧ len.ownersAgree

/-! ## Laws of LCK, RQU and the ports -/

/-- The deadline list stands in order of non-decreasing deadline (R77). -/
def Lck.ordered (k : Lck) : Prop := k.deadlines.Pairwise fun a b => a.deadline ≤ b.deadline

/-- Every attention line is driven as the slot's view, list and news say (R135). -/
def Rqu.attentionDriven (q : Rqu) : Prop :=
  ∀ n : SlotIx, q.slots[n].attention = attentionLow q.slots[n].view q.slots[n].completions q.slots[n].news

/-- A collect in progress that presents a completion presents one that stands at the head of its slot's list (R133). -/
def Rqu.marksStand (q : Rqu) : Prop := ∀ (p : Port) (n : SlotIx), (q.port p).mark = some n → q.slots[n].completions ≠ []

/-- The intake of a port: its queue and its claim take no more than the 4 places; a frame that RQU is to check has the claim, and is no longer being received; a REQUEST being received has the claim or asks for it; and the port awaits no more than one answer (R120). -/
def State.intakeKept (s : State) (p : Port) : Prop :=
  (s.rqu.port p).queue.length + (if (s.rqu.port p).claim then 1 else 0) ≤ 4 ∧
    (∀ f, .arrival f ∈ s.toRqu p →
      (s.rqu.port p).claim = true ∧ ¬((s.front p).state = .receiving ∧ (s.front p).kind = some .request)) ∧
    ((s.front p).state = .receiving → (s.front p).kind = some .request →
      (s.rqu.port p).claim = true ∨ .claim ∈ s.toRqu p) ∧
    ((s.toRqu p).filter PortMsg.awaited).length ≤ 1

/-- The running frame check of a front end is the check over the bytes received (R147). -/
def Front.checkRuns (x : Front) : Prop := x.check = frameCheck x.bytes

/-- A front end holds no more than the 22 bytes of the longest frame; while it receives, it has at most a lead byte whose kind is not told yet, or no more than the bytes its frame has (R146, R148, R159, section 11.1). -/
def Front.bounded (x : Front) : Prop :=
  x.bytes.length ≤ 22 ∧
    (x.state = .receiving → x.kind = none → x.bytes.length ≤ 1) ∧
    ∀ k, x.state = .receiving → x.kind = some k → x.bytes.length ≤ k.length x.bytes ∧ k.length x.bytes ≤ 22

/-- FWP receives a select no further than to its last byte: there it is judged (R161, R162). -/
def Front.selectShort (x : Front) : Prop :=
  ∀ k, x.state = .receiving → x.kind = some k → k ≠ .request → x.bytes.length < k.length x.bytes

/-- Both front ends run the check over what they have received, and receive no more than a frame. -/
def State.framesKept (s : State) : Prop :=
  (∀ p, (s.front p).checkRuns ∧ (s.front p).bounded) ∧ (s.front .fwp).selectShort

/-! ## Runs -/

/-- The machine after a list of commands, each performed in turn. -/
def State.after (s : State) : List Instr → Option State
  | [] => some s
  | c :: cs =>
    match exec c s with
    | .next t => t.after cs
    | _ => none

end Sys2Proof.Machine
end

