-- ==== Sys2Proof/Certificates/Slice0/Obligations.lean ====
section
/-! DEFINITION. The statements about the part, for the provers: what each command does and leaves alone, the operations that commands share, and the laws that every step keeps. -/

open Sys2Proof Sys2Proof.Machine

/-! ## The machine and its queue -/

/-- A step takes the command at the front of the queue and performs it on the machine with the rest of the queue. On an empty queue the part idles: the model's choice, log 2. -/
def Obligations.StepPerformsTheCommandAtTheFront : Prop :=
  ∀ s : State,
    (∀ (c : Instr) (rest : List Instr), s.pending = c :: rest → step s = exec c { s with pending := rest }) ∧
    (s.pending = [] → step s = .next s)

/-- Every command, in every state, answers a next state and leaves the queue of commands alone: the manual describes every refusal as an effect, and none stops the part. -/
def Obligations.EveryCommandAnswersANextState : Prop :=
  ∀ (c : Instr) (s : State), ∃ t, exec c s = .next t ∧ t.pending = s.pending

/-! ## Reset -/

/-- What power-on reset leaves of the catalog, the lease table, the wait pool and the answer marks (R17, R47, R72), and of everything else (R86, R103, R117, R119, R137): it goes on until its release, no CONFIG is open, no collect presents a completion and no query is out. -/
def Obligations.PowerOnResetClearsThePart : Prop :=
  ∀ s : State, ∃ t, exec .powerOnReset s = .next t ∧
    (∀ r : ResIx, t.len.catalog[r] = Entry.vacant 0) ∧ (∀ name, t.len.lookup name = none) ∧
    (∀ i : RecIx, t.len.leases[i] = Lease.cleared 1) ∧ t.len.freeLease? = some 0 ∧
    (∀ w : WaitIx, t.len.waits[w] = none) ∧ t.len.waitSerial = 0 ∧
    (∀ n : SlotIx, t.len.slots[n] =
      { state := .vacant, session := 0, port := none, keepaliveTerm := 0, keepaliveDeadline := none, endCause := .none,
        answered := Vector.replicate 8 false, news := false, profile := ceiling n }) ∧
    t.por = true ∧ t.len.configOpen = none ∧ t.len.frozen = false ∧ t.len.checkOnly = false ∧ t.twp.checkOnly = false ∧ t.len.lastPort = .fwp ∧
    t.lck.clock = 0 ∧ t.lck.deadlines = [] ∧ t.paths = Paths.empty ∧
    (∀ p, (t.rqu.port p).queue = [] ∧ (t.rqu.port p).claim = false ∧ (t.rqu.port p).freeCount = 4 ∧
      (t.rqu.port p).mark = none) ∧
    (∀ n : SlotIx, t.rqu.slots[n].view = .vacant ∧ (∀ g : TagIx, t.rqu.slots[n].tags[g] = .free) ∧
      t.rqu.slots[n].completions = [] ∧ t.rqu.slots[n].news = false ∧ t.rqu.slots[n].attention = false) ∧
    (∀ p, t.front p = Front.idle ∧ (t.portStatus p).record = ⟨.none, 0x00, 0x00⟩ ∧
      (t.portStatus p).refusalUnread = false ∧ (t.portStatus p).resetIndication = false) ∧
    t.twp.held = none ∧ t.twp.queryOut = false ∧ t.fwp.sdoDriven = false

/-- What a pin reset keeps and frees: the lease table (R48) and the wait pool (R73), with the catalog (R18), the slots (R104), the clock (R87) and the rest of the part (R117, R119, R138, R144, R156, R163); RSTN stays asserted, an open CONFIG is abandoned (R116), no collect presents a completion, and the reset indication waits for the release (R136). That TWP's copy of the check-only enable is off from the assertion, and not only the address unacknowledged, is the model's reading, log 9. -/
def Obligations.PinResetKeepsTheCatalogAndFreesTheRest : Prop :=
  ∀ s : State, ∃ t, exec .pinReset s = .next t ∧
    (∀ r : ResIx, s.len.catalog[r].state = .opened → t.len.catalog[r] =
      { s.len.catalog[r] with holderMode := .none, holderCount := 0, queue := [], upgradePending := false }) ∧
    (∀ r : ResIx, s.len.catalog[r].state ≠ .opened → t.len.catalog[r] = Entry.vacant s.len.catalog[r].epoch) ∧
    (∀ i : RecIx, s.len.leases[i].state = .free → t.len.leases[i] = { s.len.leases[i] with changeMark := false }) ∧
    (∀ i : RecIx, s.len.leases[i].state ≠ .free →
      t.len.leases[i] =
        Lease.cleared (if s.len.leases[i].generation = 511 then 1 else s.len.leases[i].generation + 1)) ∧
    (∀ n h, t.len.resolve n h = .error .unknownLease) ∧
    (∀ w : WaitIx, t.len.waits[w] = none) ∧ t.len.waitSerial = s.len.waitSerial ∧
    (∀ n : SlotIx, s.len.slots[n].state = .active → t.len.slots[n] =
      { s.len.slots[n] with
        state := .lost, endCause := .reset, keepaliveDeadline := none, answered := Vector.replicate 8 false,
        news := false }) ∧
    (∀ n : SlotIx, s.len.slots[n].state ≠ .active → t.len.slots[n] =
      { s.len.slots[n] with answered := Vector.replicate 8 false, news := false }) ∧
    t.rstnLow = true ∧ t.len.configOpen = none ∧ t.len.frozen = s.len.frozen ∧ t.len.checkOnly = s.len.checkOnly ∧ t.twp.checkOnly = false ∧ t.len.lastPort = .fwp ∧
    t.lck.clock = s.lck.clock ∧ t.lck.deadlines = [] ∧ t.paths = Paths.empty ∧
    (∀ p, (t.rqu.port p).queue = [] ∧ (t.rqu.port p).claim = false ∧ (t.rqu.port p).mark = none) ∧
    (∀ n : SlotIx, t.rqu.slots[n].view = .vacant ∧ (∀ g : TagIx, t.rqu.slots[n].tags[g] = .free) ∧
      t.rqu.slots[n].completions = [] ∧ t.rqu.slots[n].news = false ∧ t.rqu.slots[n].attention = false) ∧
    (∀ p, t.front p = Front.idle ∧ (t.portStatus p).record = ⟨.none, 0x00, 0x00⟩ ∧
      (t.portStatus p).refusalUnread = false ∧ (t.portStatus p).resetIndication = false) ∧
    t.twp.held = none ∧ t.twp.queryOut = false ∧ t.fwp.sdoDriven = false

/-- The release of power-on reset samples the straps, sets both reset indications and starts the part; nothing else changes (R74, R86, R136, R145). The release of a pin reset does the same, and sends "slot lost" for each LOST slot and the check-only enable to TWP (R104, R117, R138). The model's choices: the "slot lost" of several slots go out in ascending slot number, log 27; the enable sent at the release is marked as one that no CONFIG waits for, log 8; while power-on reset goes on, a pin reset's release only ends the assertion of RSTN, and the release of power-on reset acts so though RSTN be low, log 13. -/
def Obligations.ResetsAreReleased : Prop :=
  (∀ (s : State) (tbsel : Bool) (adr : Fin 4), s.por = true →
     exec (.porRelease tbsel adr) s =
       .next
         { s with
           por := false
           lck := { s.lck with tbsel := tbsel }
           twp := { s.twp with adr := adr, status := { s.twp.status with resetIndication := true } }
           fwp := { s.fwp with status := { s.fwp.status with resetIndication := true } } }) ∧
  (∀ (s : State) (tbsel : Bool) (adr : Fin 4), s.rstnLow = true →
     (s.por = false →
       exec (.pinResetRelease tbsel adr) s =
         .next
           { s with
             rstnLow := false
             lck := { s.lck with tbsel := tbsel }
             twp := { s.twp with adr := adr, status := { s.twp.status with resetIndication := true } }
             fwp := { s.fwp with status := { s.fwp.status with resetIndication := true } }
             paths :=
               { s.paths with
                 lenToRqu := s.paths.lenToRqu ++
                   ((List.finRange 8).filter fun n => s.len.slots[n].state = .lost).map RquMsg.lost
                 lenToTwp := s.paths.lenToTwp ++ [.enable s.len.checkOnly false] } }) ∧
     (s.por = true → exec (.pinResetRelease tbsel adr) s = .next { s with rstnLow := false }))

/-! ## The lease clock and the deadline list -/

/-- A tick of the selected source, outside reset, raises the clock by 1 below its last value and opens the tick where the head of the list is then due; every other tick changes nothing (R74, R75). While a tick has not ended, the head of the deadline list, if it is due, leaves the list and its expiry is sent with its kind, stamp and deadline; otherwise the tick ends. Over a whole tick the clock rises, and then every entry due at the new value leaves the list at the head, their expiries are sent in list order, and entries not due stay (R81). The model's choices, log 6: a tick is one TICK command and one DEADLINE_EXPIRY for each entry due, and a TICK while an earlier tick has not ended first ends that one, sending every entry that was due at it and no other. -/
def Obligations.ATickRaisesTheClockAndSendsWhatIsDue : Prop :=
  (∀ (s : State) (source : TickSource),
     (s.inReset = false → (source = .tbi ↔ s.lck.tbsel = true) →
       let clock := if s.lck.clock = 0xFFFFFFFFFFFF then s.lck.clock else s.lck.clock + 1
       let late := if s.lck.tickOpen then s.lck.deadlines.takeWhile (fun d => decide (d.deadline ≤ s.lck.clock)) else []
       let left :=
         if s.lck.tickOpen then s.lck.deadlines.dropWhile (fun d => decide (d.deadline ≤ s.lck.clock)) else s.lck.deadlines
       exec (.tick source) s =
         .next
           { s with
             lck :=
               { s.lck with
                 clock := clock, deadlines := left
                 tickOpen := match left with
                   | [] => false
                   | d :: _ => decide (d.deadline ≤ clock) }
             paths := { s.paths with lckToLen := s.paths.lckToLen ++ late } }) ∧
     (s.inReset = true ∨ ¬(source = .tbi ↔ s.lck.tbsel = true) → exec (.tick source) s = .next s)) ∧
  (∀ s : State, s.lck.tickOpen = true →
     (∀ d ds, s.lck.deadlines = d :: ds → d.deadline ≤ s.lck.clock → ∃ t, exec .deadlineExpiry s = .next t ∧
       t.lck.deadlines = ds ∧ t.lck.clock = s.lck.clock ∧ t.lck.tbsel = s.lck.tbsel ∧
       (t.lck.tickOpen = true ↔ ∃ e es, ds = e :: es ∧ e.deadline ≤ s.lck.clock) ∧
       t.paths = { s.paths with lckToLen := s.paths.lckToLen ++ [d] } ∧
       t.len = s.len ∧ t.rqu = s.rqu ∧ t.twp = s.twp ∧ t.fwp = s.fwp) ∧
     ((∀ d ds, s.lck.deadlines = d :: ds → s.lck.clock < d.deadline) →
       exec .deadlineExpiry s = .next { s with lck := { s.lck with tickOpen := false } })) ∧
  (∀ (s : State) (source : TickSource), s.inReset = false → (source = .tbi ↔ s.lck.tbsel = true) →
     s.lck.tickOpen = false →
     let clock := if s.lck.clock = 0xFFFFFFFFFFFF then s.lck.clock else s.lck.clock + 1
     let due := s.lck.deadlines.takeWhile fun d => decide (d.deadline ≤ clock)
     ∃ t, s.after (.tick source :: List.replicate due.length .deadlineExpiry) = some t ∧
       t.lck.clock = clock ∧ t.lck.tickOpen = false ∧
       t.paths.lckToLen = s.paths.lckToLen ++ due ∧
       t.lck.deadlines = s.lck.deadlines.dropWhile (fun d => decide (d.deadline ≤ clock)) ∧
       ∀ d ds, t.lck.deadlines = d :: ds → clock < d.deadline)

/-- A deadline is the clock at the take plus a number of ticks, and the clock's last value where the sum is above it; with a tick or more it lies above a clock that is below the last value, and at the last value every deadline equals the clock (R76). Which events set a deadline, from which ticks, is said of each. -/
def Obligations.ADeadlineIsTheClockPlusTheTicksOrTheLastValue : Prop :=
  ∀ (now : Tick) (ticks : Nat),
    (now.toNat + ticks ≤ 0xFFFFFFFFFFFF → (deadlineAfter now ticks).toNat = now.toNat + ticks) ∧
    (0xFFFFFFFFFFFF < now.toNat + ticks → deadlineAfter now ticks = 0xFFFFFFFFFFFF) ∧
    (1 ≤ ticks → now < 0xFFFFFFFFFFFF → now < deadlineAfter now ticks) ∧
    (now = 0xFFFFFFFFFFFF → deadlineAfter now ticks = now)

/-- LCK places an insert after every entry whose deadline is equal or earlier and before every later one, whatever its kind, stamp or the clock, and sends no expiry for it then (R78). A removal takes the entry that equals it in kind, stamp and deadline and leaves the others in order; without one it has no effect on the list; nothing is sent to LEN for it (R79). A tick in progress, if any, ends first: the model's choice, log 6. -/
def Obligations.InsertsAndRemovalsKeepTheDeadlineOrder : Prop :=
  (∀ (s : State) (d : Deadline) (rest : List LckReq), s.lck.ordered → s.paths.lenToLck = .insert d :: rest →
     ∃ t before behind, exec .deadlineInsert s = .next t ∧
       s.finishTick.lck.deadlines = before ++ behind ∧ t.lck.deadlines = before ++ d :: behind ∧
       (∀ x ∈ before, x.deadline ≤ d.deadline) ∧ (∀ x ∈ behind, d.deadline < x.deadline) ∧
       t.lck.clock = s.lck.clock ∧ t.paths = { s.finishTick.paths with lenToLck := rest } ∧
       t.len = s.len ∧ t.rqu = s.rqu ∧ t.twp = s.twp ∧ t.fwp = s.fwp) ∧
  (∀ (s : State) (d : Deadline) (rest : List LckReq), s.paths.lenToLck = .remove d :: rest →
     ∃ t, exec .deadlineRemove s = .next t ∧
       (d ∉ s.finishTick.lck.deadlines → t.lck.deadlines = s.finishTick.lck.deadlines) ∧
       (∀ before behind, s.finishTick.lck.deadlines = before ++ d :: behind → d ∉ before →
         t.lck.deadlines = before ++ behind) ∧
       t.lck.clock = s.lck.clock ∧ t.paths = { s.finishTick.paths with lenToLck := rest } ∧
       t.len = s.len ∧ t.rqu = s.rqu ∧ t.twp = s.twp ∧ t.fwp = s.fwp)

/-- Every step keeps the deadline list in order of non-decreasing deadline (R77). -/
def Obligations.TheDeadlineListStaysOrdered : Prop :=
  ∀ s t : State, s.lck.ordered → step s = .next t → t.lck.ordered

/-- The lease clock never decreases but at power-on reset, and rises only by 1, at a tick (R75). The epoch of an entry in use never decreases but at power-on reset (R15). -/
def Obligations.ClockAndEpochsNeverGoBack : Prop :=
  ∀ (c : Instr) (s t : State), exec c s = .next t → c ≠ .powerOnReset →
    (t.lck.clock = s.lck.clock ∨
      (∃ source, c = .tick source) ∧ s.lck.clock < 0xFFFFFFFFFFFF ∧ t.lck.clock = s.lck.clock + 1) ∧
    ∀ r : ResIx, s.len.catalog[r].state ≠ .vacant → s.len.catalog[r].epoch ≤ t.len.catalog[r].epoch

/-! ## Expiries -/

/-- An expiry message that fails any test of its kind is discarded: LEN takes it from the path, and nothing else changes (R83). A genuine LEASE expiry: the record is LAPSED and marked, the holders are lowered, an UPGRADE wait for it in the queue ends and completes LAPSED, LCK is sent no removal of the LEASE entry, and a grant pass runs (R43). A genuine WAIT expiry: the wait ends, timed out, completes TIMED_OUT under its own tag, and a grant pass runs (R59). What the end of a wait and a grant pass do is said of each alone. -/
def Obligations.ExpiriesAreDiscardedOrEndTheirLeaseOrWait : Prop :=
  (∀ (s : State) (d : Tick) (rest : List Deadline), s.len.configOpen = none →
     (∀ i g, s.paths.lckToLen = ⟨d, .lease i g⟩ :: rest →
       ¬(s.len.leases[i].state = .held ∧ s.len.leases[i].generation = g ∧ s.len.leases[i].deadline = d) →
       exec .leaseExpiry s = .next { s with paths := { s.paths with lckToLen := rest } }) ∧
     (∀ w serial, s.paths.lckToLen = ⟨d, .wait w serial⟩ :: rest →
       (∀ x, s.len.waits[w] = some x → ¬(x.serial = serial ∧ x.deadline = some d)) →
       exec .waitExpiry s = .next { s with paths := { s.paths with lckToLen := rest } }) ∧
     (∀ n session, s.paths.lckToLen = ⟨d, .keepalive n session⟩ :: rest →
       ¬(s.len.slots[n].state = .active ∧ s.len.slots[n].session = session ∧
         s.len.slots[n].keepaliveDeadline = some d) →
       exec .keepaliveExpiry s = .next { s with paths := { s.paths with lckToLen := rest } })) ∧
  (∀ (s : State) (d : Tick) (rest : List Deadline), s.len.configOpen = none →
     (∀ i g, s.paths.lckToLen = ⟨d, .lease i g⟩ :: rest →
       s.len.leases[i].state = .held → s.len.leases[i].generation = g → s.len.leases[i].deadline = d →
       let l := s.len.leases[i]
       let en := s.len.catalog[l.resource]
       let lapsed := s.len.setLease i { l with state := .lapsed, changeMark := true }
       (s.len.upgradeWaitOf i = none →
         exec .leaseExpiry s =
           .next (s.finishExpiry rest
             (({ s.expiryEvent with len := lapsed.setEntry l.resource en.lowered } : LenEvent).grantPass l.resource))) ∧
       (∀ w x, s.len.upgradeWaitOf i = some w → s.len.waits[w] = some x → x.resource = l.resource →
         exec .leaseExpiry s =
           .next (s.finishExpiry rest
             (({ s.expiryEvent with
                 len := ((lapsed.setEntry l.resource (en.lowered.without w .upgrade)).setWait w none).answer x.slot x.tag
                 toLck := x.removal w
                 toRqu := [.completion x.slot ⟨x.tag, .upgrade, .lapsed, []⟩] } : LenEvent).grantPass l.resource)))) ∧
     (∀ w serial x, s.paths.lckToLen = ⟨d, .wait w serial⟩ :: rest →
       s.len.waits[w] = some x → x.serial = serial → x.deadline = some d →
       exec .waitExpiry s =
         .next (s.finishExpiry rest ((s.expiryEvent.finishWait w true .timedOut).grantPass x.resource))))

/-- A genuine KEEPALIVE expiry: the session is purged, its slot is LOST with end cause KEEPALIVE, without a keepalive deadline and with its answer marks clear, LCK is sent no removal of the KEEPALIVE entry, RQU is sent "session ended", and the grant passes of the purge run (R84, R96). What a purge does is said of it alone. -/
def Obligations.AGenuineKeepaliveExpiryLosesTheSession : Prop :=
  ∀ (s : State) (d : Tick) (n : SlotIx) (rest : List Deadline), s.len.configOpen = none →
    let session := s.len.slots[n].session
    s.paths.lckToLen = ⟨d, .keepalive n session⟩ :: rest →
    s.len.slots[n].state = .active → s.len.slots[n].keepaliveDeadline = some d →
    let a := s.expiryEvent.purge n session
    let b : LenEvent :=
      { a with
        len := a.len.setSlot n
          { s.len.slots[n] with
            state := .lost, endCause := .keepalive, keepaliveDeadline := none, answered := Vector.replicate 8 false }
        toRqu := a.toRqu ++ [.ended n .lost] }
    exec .keepaliveExpiry s = .next (s.finishExpiry rest (b.purgePasses (s.len.touchedBy n session)))

/-! ## Sessions -/

/-- An ATTACH to a slot that is VACANT or LOST: the keepalive term is resolved, the session gets the next number and the port of arrival, the KEEPALIVE insert goes to LCK, and "session begun" and the completion, with the end cause the slot held, go to RQU. Nothing else changes (R89, R90, R91). -/
def Obligations.AttachBeginsASession : Prop :=
  ∀ (s : State) (p : Port) (f : Frame), s.frameOf .attach = some (p, f) → f.operands.length = 2 →
    s.len.slots[f.slot].state ≠ .active →
    let x := s.len.slots[f.slot]
    let ticks := operandAt f.operands 0 2
    let term := if ticks < 50 then 50 else if 60000 < ticks then 60000 else ticks
    let session : Session := if x.session = 65535 then 1 else x.session + 1
    let d := deadlineAfter s.lck.clock term
    exec .attach s =
      .next (s.afterEvent p
        (({ s.len with lastPort := p } : Len).setSlot f.slot
          { x with
            state := .active, session := session, port := some p, keepaliveTerm := term, keepaliveDeadline := some d,
            answered := (Vector.replicate 8 false).set f.tag true })
        [.insert ⟨d, .keepalive f.slot session⟩]
        [.begun f.slot session p,
          .completion f.slot
            ⟨f.tag, .attach, .ok, natToBytes session.toNat 2 ++ [endCauseCode x.endCause] ++ natToBytes term 2⟩])

/-- An ATTACH to an ACTIVE slot: the session is purged and replaced by a new one of the next number, with end cause REPLACED; LCK is sent the purge's removals, the removal of the old KEEPALIVE entry and the insert of the new; RQU is sent "session ended", "session begun" and the completion REPLACED; then the grant passes of the purge run (R92). -/
def Obligations.AttachToAnActiveSlotReplacesItsSession : Prop :=
  ∀ (s : State) (p : Port) (f : Frame), s.frameOf .attach = some (p, f) → f.operands.length = 2 →
    let n := f.slot
    let x := s.len.slots[n]
    x.state = .active →
    let ticks := operandAt f.operands 0 2
    let term := if ticks < 50 then 50 else if 60000 < ticks then 60000 else ticks
    let session : Session := if x.session = 65535 then 1 else x.session + 1
    let d := deadlineAfter s.lck.clock term
    let a := ({ s.expiryEvent with len := { s.len with lastPort := p } } : LenEvent).purge n x.session
    let b : LenEvent :=
      { a with
        len := a.len.setSlot n
          { x with
            state := .active, session := session, port := some p, keepaliveTerm := term, keepaliveDeadline := some d,
            endCause := .replaced, answered := (Vector.replicate 8 false).set f.tag true }
        toLck := a.toLck ++ s.len.keepaliveRemoval n ++ [.insert ⟨d, .keepalive n session⟩]
        toRqu := a.toRqu ++
          [.ended n .active, .begun n session p,
            .completion n
              ⟨f.tag, .attach, .replaced, natToBytes session.toNat 2 ++ [endCauseCode .replaced] ++ natToBytes term 2⟩] }
    exec .attach s = .next (s.finishTake p (b.purgePasses (s.len.touchedBy n x.session)))

/-- A DETACH of the session in force: the session is purged, its slot is VACANT with end cause DETACHED, without a keepalive deadline and with its answer marks clear; no completion is sent for it; LCK is sent the purge's removals and the removal of the KEEPALIVE entry, RQU "session ended", and the grant passes of the purge run (R93). -/
def Obligations.DetachEndsTheSession : Prop :=
  ∀ (s : State) (p : Port) (f : Frame), s.offersWell .detach p f →
    let n := f.slot
    let session := s.len.slots[n].session
    let a := (s.takeEvent p f).purge n session
    let b : LenEvent :=
      { a with
        len := a.len.setSlot n
          { s.len.slots[n] with
            state := .vacant, endCause := .detached, keepaliveDeadline := none, answered := Vector.replicate 8 false }
        toLck := a.toLck ++ s.len.keepaliveRemoval n
        toRqu := a.toRqu ++ [.ended n .vacant] }
    exec .detach s = .next (s.finishTake p (b.purgePasses (s.len.touchedBy n session)))

/-- A purge, where the tables agree: every wait of the session ends and every record in use of it is freed, once; no other wait and no other record changes; entries lose those waits from their queues, in order, and nothing of their parameters and epochs; a DRAINING one becomes VACANT exactly where its last records in use are among those freed (R12, R97); the tables agree after; no slot changes and no completion is sent. LCK is sent the removal of the WAIT entry of each of the session's waits with a deadline, in ascending wait index, and then that of the LEASE entry of each of its HELD records, in ascending record index (R80, R97). The entries the purge touches are those of its waits and of its HELD records, in ascending order, and a grant pass runs on each that is not VACANT by then (R98). -/
def Obligations.APurgeFreesWhatTheSessionOwns : Prop :=
  ∀ (e : LenEvent) (n : SlotIx) (session : Session), e.len.tablesAgree →
    let b := e.purge n session
    let touched := e.len.touchedBy n session
    let owned (i : RecIx) :=
      e.len.leases[i].state ≠ .free ∧ e.len.leases[i].slot = n ∧ e.len.leases[i].session = session
    b.len.tablesAgree ∧
    (∀ (w : WaitIx) (x : Wait), e.len.waits[w] = some x →
      b.len.waits[w] = if x.slot = n ∧ x.session = session then none else some x) ∧
    (∀ w : WaitIx, e.len.waits[w] = none → b.len.waits[w] = none) ∧
    (∀ i : RecIx, b.len.leases[i] = if owned i then e.len.leases[i].freed else e.len.leases[i]) ∧
    (∀ r : ResIx,
      let was := e.len.catalog[r]
      let is := b.len.catalog[r]
      let vacates := was.state = .draining ∧ (∃ i, owned i ∧ e.len.leases[i].resource = r) ∧
        ∀ i : RecIx, e.len.leases[i].state ≠ .free → e.len.leases[i].resource = r → owned i
      (vacates → is = Entry.vacant was.epoch) ∧
      (¬vacates →
        is = { was with
          holderMode := is.holderMode, holderCount := is.holderCount, queue := is.queue,
          upgradePending := is.upgradePending } ∧ is.queue.Sublist was.queue)) ∧
    b.len.slots = e.len.slots ∧ b.now = e.now ∧ b.toRqu = e.toRqu ∧ b.toTwp = e.toTwp ∧
    b.toLck = e.toLck ++
      ((List.finRange 96).flatMap fun w : WaitIx =>
        match e.len.waits[w] with
        | some { slot := slot, session := its, serial := serial, deadline := some d, .. } =>
          if slot = n ∧ its = session then [LckReq.remove ⟨d, .wait w serial⟩] else []
        | _ => []) ++
      ((List.finRange 128).flatMap fun i : RecIx =>
        let l := e.len.leases[i]
        if l.state = .held ∧ l.slot = n ∧ l.session = session then [LckReq.remove ⟨l.deadline, .lease i l.generation⟩]
        else []) ∧
    touched.Pairwise (· < ·) ∧
    (∀ r, r ∈ touched ↔
      (∃ (w : WaitIx) (x : Wait), e.len.waits[w] = some x ∧ x.slot = n ∧ x.session = session ∧ x.resource = r) ∨
      ∃ i : RecIx, e.len.leases[i].state = .held ∧ e.len.leases[i].slot = n ∧ e.len.leases[i].session = session ∧
        e.len.leases[i].resource = r) ∧
    (∀ a : LenEvent, a.purgePasses [] = a) ∧
    ∀ (a : LenEvent) (r : ResIx) (rs : List ResIx),
      a.purgePasses (r :: rs) = (if a.len.catalog[r].state = .vacant then a else a.grantPass r).purgePasses rs

/-- However a session ends, by DETACH, by keepalive loss or by a replacing ATTACH, LEN keeps no wait and no record in use of it (R49, R71, R97). The premise that a FREE record carries no session is a law of its own (R23). -/
def Obligations.AnEndedSessionOwnsNothing : Prop :=
  ∀ (s : State) (n : SlotIx), s.len.freeRecordsSessionless → s.len.slots[n].session ≠ 0 →
    (∀ d rest, s.len.configOpen = none → s.paths.lckToLen = ⟨d, .keepalive n s.len.slots[n].session⟩ :: rest →
      s.len.slots[n].state = .active → s.len.slots[n].keepaliveDeadline = some d →
      ∃ t, exec .keepaliveExpiry s = .next t ∧ t.len.ownsNothing n s.len.slots[n].session) ∧
    (∀ p f, s.offersWell .detach p f → f.slot = n →
      ∃ t, exec .detach s = .next t ∧ t.len.ownsNothing n s.len.slots[n].session) ∧
    (∀ p f, s.frameOf .attach = some (p, f) → f.operands.length = 2 → f.slot = n → s.len.slots[n].state = .active →
      ∃ t, exec .attach s = .next t ∧ t.len.ownsNothing n s.len.slots[n].session)

/-- The choice of the next frame (R126): where one intake queue holds frames, LEN takes the head of that one; where both do, the head of the queue it did not take from last; the take removes that frame alone, and its port becomes the one taken from last. With no frame in either queue, or while a CONFIG is open (R116), LEN takes none. A command for a kind other than the next frame's changes nothing: the model's choice, log 1. -/
def Obligations.FramesAreTakenFromThePortsInTurn : Prop :=
  ∀ (s : State) (k : ReqKind) (p other : Port) (f : Frame) (rest : List Frame), other ≠ p →
    let queue (q : Port) := (s.rqu.port q).queue
    let comesNext := s.len.configOpen = none ∧ queue p = f :: rest ∧ (queue other = [] ∨ s.len.lastPort = other)
    (s.len.configOpen ≠ none ∨ queue p = [] ∧ queue other = [] →
      s.frameOf k = none ∧ exec (commandOf k) s = .next s) ∧
    (comesNext → f.kind ≠ k → s.frameOf k = none ∧ exec (commandOf k) s = .next s) ∧
    (comesNext → f.kind = k →
      s.frameOf k = some (p, f) ∧
      s.popFrame p =
        { s with
          rqu := s.rqu.setPort p { s.rqu.port p with queue := rest }
          len := { s.len with lastPort := p } } ∧
      ∃ t, exec (commandOf k) s = .next t ∧ (t.rqu.port p).queue = rest ∧ (t.rqu.port other).queue = queue other ∧
        t.len.lastPort = p)

/-- A frame LEN refuses at the take changes nothing but the queue it leaves, the port taken from last, and the refusals on their way to that port: an ATTACH whose operand length is not 2 gives BAD_LENGTH (R165), and a frame of any other kind whose session is not in force gives STALE_SESSION (R127). A frame of a live session whose operand length is not its kind's completes BAD_OPERAND with reason LENGTH and the length received, and nothing else of the request is performed (R164). A port that takes a refusal LEN sent it writes its refusal record and sets refusal unread; nothing else changes (R123). -/
def Obligations.FramesRefusedAtTheTake : Prop :=
  (∀ (s : State) (k : ReqKind) (p : Port) (f : Frame) (reason : RefusalReason), s.frameOf k = some (p, f) →
     (k = .attach ∧ f.operands.length ≠ 2 ∧ reason = .badLength ∨
       k ≠ .attach ∧ s.len.live f = false ∧ reason = .staleSession) →
     let r : RefusalRecord := ⟨reason, frameLead f, frameTagKind f⟩
     exec (commandOf k) s =
       .next
         { s.popFrame p with
           paths :=
             { s.paths with
               twpRefusals := if p = .twp then s.paths.twpRefusals ++ [r] else s.paths.twpRefusals
               fwpRefusals := if p = .fwp then s.paths.fwpRefusals ++ [r] else s.paths.fwpRefusals } }) ∧
  (∀ (s : State) (k : ReqKind) (p : Port) (f : Frame), k ≠ .attach → s.offers k p f →
     f.operands.length ∉ operandLengths k →
     exec (commandOf k) s = .next (s.afterReply p f .badOperand [0x04, BitVec.ofNat 8 f.operands.length])) ∧
  (∀ (s : State) (r : RefusalRecord) (rest : List RefusalRecord),
     (s.paths.twpRefusals = r :: rest →
       exec (.takeTimeRefusal .twp) s =
         .next
           { s with
             twp := { s.twp with status := s.twp.status.refused r.reason r.lead r.tagKind }
             paths := { s.paths with twpRefusals := rest } }) ∧
     (s.paths.fwpRefusals = r :: rest →
       exec (.takeTimeRefusal .fwp) s =
         .next
           { s with
             fwp := { s.fwp with status := s.fwp.status.refused r.reason r.lead r.tagKind }
             paths := { s.paths with fwpRefusals := rest } }))

/-- PING answers the low 32 bits of the lease clock (R95). QUERY_SLOT and PROFILE_READ refuse a number above 7, refuse another slot to a slot without PROFILE, and otherwise answer the slot, or its profile and ceiling with the freeze and the check-only enable (R101, R109). QUERY_LEASE of a handle that resolves answers the record, a HELD one with the ticks left to its deadline (R46). QUERY_RESOURCE answers the entry of the name, or UNKNOWN_RESOURCE, with no right needed (R13). Each moves the keepalive, completes, and changes nothing else. -/
def Obligations.QueriesAnswerTheStateAndChangeNothing : Prop :=
  (∀ (s : State) (p : Port) (f : Frame), s.offersWell .ping p f →
     exec .ping s = .next (s.afterReply p f .ok (natToBytes (s.lck.clock.toNat % 2 ^ 32) 4))) ∧
  (∀ (s : State) (p : Port) (f : Frame), s.offersWell .querySlot p f →
     let v := operandAt f.operands 0 1
     (7 < v → exec .querySlot s = .next (s.afterReply p f .badOperand [0x01, 0x00])) ∧
     ∀ n : SlotIx, v = n.val →
       let x := s.len.slots[n]
       let allowed := n = f.slot ∨ s.len.slots[f.slot].profile.holds .profile = true
       (¬allowed → exec .querySlot s = .next (s.afterReply p f .denied [])) ∧
       (allowed → exec .querySlot s = .next (s.afterReply p f .ok
         ([slotStateCode x.state] ++ natToBytes x.session.toNat 2 ++ [portCode x.port] ++
           natToBytes x.keepaliveTerm 2 ++
           [BitVec.ofNat 8 (s.len.leaseUse n), BitVec.ofNat 8 (s.len.waitUse n), endCauseCode x.endCause])))) ∧
  (∀ (s : State) (p : Port) (f : Frame), s.offersWell .profileRead p f →
     let v := operandAt f.operands 0 1
     (7 < v → exec .profileRead s = .next (s.afterReply p f .badOperand [0x01, 0])) ∧
     ∀ n : SlotIx, v = n.val →
       let x := s.len.slots[n].profile
       let allowed := n = f.slot ∨ s.len.slots[f.slot].profile.holds .profile = true
       (¬allowed → exec .profileRead s = .next (s.afterReply p f .denied [])) ∧
       (allowed → exec .profileRead s = .next (s.afterReply p f .ok
         [BitVec.ofNat 8 x.rights.toNat, BitVec.ofNat 8 x.leaseQuota, BitVec.ofNat 8 x.waitQuota, BitVec.ofNat 8 x.priority,
           if n = 0 then 0x7F else 0x3F, 32, 16, 3,
           BitVec.ofNat 8 ((if s.len.frozen then 1 else 0) + (if s.len.checkOnly then 2 else 0))]))) ∧
  (∀ (s : State) (p : Port) (f : Frame) (i : RecIx), s.offersWell .queryLease p f →
     s.len.resolve f.slot (operandAt f.operands 0 2) = .ok i →
     let l := s.len.leases[i]
     let remaining := if l.state = .held ∧ s.lck.clock < l.deadline then (l.deadline - s.lck.clock).toNat else 0
     exec .queryLease s = .next (s.afterReply p f .ok
       ([leaseStateCode l.state, modeCode l.mode] ++ natToBytes s.len.catalog[l.resource].name.toNat 2 ++
         natToBytes l.epoch.toNat 4 ++ natToBytes remaining 3 ++ [BitVec.ofNat 8 l.renewCount] ++ natToBytes l.term 3))) ∧
  (∀ (s : State) (p : Port) (f : Frame), s.offersWell .queryResource p f →
     let name := nameAt f.operands 0
     (s.len.lookup name = none → exec .queryResource s = .next (s.afterReply p f .unknownResource [])) ∧
     ∀ r, s.len.lookup name = some r →
       let en := s.len.catalog[r]
       exec .queryResource s = .next (s.afterReply p f .ok
         ([BitVec.ofNat 8 r.val, catStateCode en.state, modeCode en.holderMode, BitVec.ofNat 8 en.holderCount,
           BitVec.ofNat 8 en.queue.length, if en.upgradePending then 0x01 else 0x00] ++
           natToBytes en.epoch.toNat 4 ++ [BitVec.ofNat 8 en.shareLimit] ++ natToBytes en.termCap 3)))

/-! ## Leases -/

/-- How LEN resolves the handle of a request of a slot: bits 15 to 9 are the record, bits 8 to 0 the generation; the record must be HELD, LAPSED or REVOKED and of that generation, and then belong to the slot. A RELEASE, DOWNGRADE or QUERY_LEASE with a handle that fails, and a RENEW or UPGRADE that passed the checks before it, completes with the status of the failure and changes nothing else (R20). -/
def Obligations.HandlesResolveInOrder : Prop :=
  ∀ (s : State) (k : ReqKind) (p : Port) (f : Frame), s.offersWell k p f →
    let h := operandAt f.operands 0 2
    let i : RecIx := ⟨h / 512 % 128, Nat.mod_lt _ (by decide)⟩
    let l := s.len.leases[i]
    let live := (l.state = .held ∨ l.state = .lapsed ∨ l.state = .revoked) ∧ l.generation.toNat = h % 512 ∧ h % 512 ≠ 0
    let reaches :=
      k = .release ∨ k = .downgrade ∨ k = .queryLease ∨ (k = .renew ∧ operandAt f.operands 2 3 ≤ termMax) ∨
        (k = .upgrade ∧ operandAt f.operands 2 3 ≤ termMax ∧ s.len.slots[f.slot].profile.holds .acquireX = true)
    (s.len.resolve f.slot h = .ok i ↔ live ∧ l.slot = f.slot) ∧
    (reaches → ¬live → exec (commandOf k) s = .next (s.afterReply p f .unknownLease [])) ∧
    (reaches → live → l.slot ≠ f.slot → exec (commandOf k) s = .next (s.afterReply p f .notHolder []))

/-- The checks of an ACQUIRE before it is judged grantable: operands in frame order, then the name, then the entry and the asking slot (R25, R27). An ACQUIRE that its entry does not let be granted at once, and that one of the seven checks before parking refuses (R32). The first check that fails decides the completion, and nothing else changes. -/
def Obligations.AcquireIsRefusedByTheFirstCheckThatFails : Prop :=
  (∀ (s : State) (p : Port) (f : Frame), s.offersWell .acquire p f →
     let a := acquireOperands f.operands
     (a.mode ≠ 0x01 → a.mode ≠ 0x02 → exec .acquire s = .next (s.afterReply p f .badOperand [0x01, 2])) ∧
     ∀ m, modeOfCode a.mode = some m →
       (termMax < a.term → exec .acquire s = .next (s.afterReply p f .badOperand [0x01, 3])) ∧
       (a.term ≤ termMax → termMax < a.waitLimit → exec .acquire s = .next (s.afterReply p f .badOperand [0x01, 6])) ∧
       (a.term ≤ termMax → a.waitLimit ≤ termMax →
         (s.len.lookup a.name = none → exec .acquire s = .next (s.afterReply p f .unknownResource [])) ∧
         ∀ r, s.len.lookup a.name = some r →
           let en := s.len.catalog[r]
           let admitted := en.admission.getLsbD f.slot.val = true ∧
             s.len.slots[f.slot].profile.holds (if m = .exclusive then .acquireX else .acquireS) = true
           (en.state = .draining → exec .acquire s = .next (s.afterReply p f .retired [])) ∧
           (en.state ≠ .draining → ¬admitted → exec .acquire s = .next (s.afterReply p f .denied [])) ∧
           (en.state ≠ .draining → admitted → m = .shared → en.shareLimit = 0 →
             exec .acquire s = .next (s.afterReply p f .modeNotAllowed [])) ∧
           (en.state ≠ .draining → admitted → (m = .shared → en.shareLimit ≠ 0) →
             (∃ i : RecIx, s.len.leases[i].state ≠ .free ∧ s.len.leases[i].slot = f.slot ∧ s.len.leases[i].resource = r) →
             exec .acquire s = .next (s.afterReply p f .alreadyHeld [])))) ∧
  (∀ (s : State) (p : Port) (f : Frame) (m : Mode) (r : ResIx), s.offersWell .acquire p f →
     let a := acquireOperands f.operands
     let en := s.len.catalog[r]
     let x := s.len.slots[f.slot].profile
     modeOfCode a.mode = some m → a.term ≤ termMax → a.waitLimit ≤ termMax → s.len.lookup a.name = some r →
     s.len.mayAcquire f.slot r m → ¬en.freeFor m →
     let may := a.waitLimit ≠ 0 ∧ en.waitingAllowed = true
     let room := ∃ w : WaitIx, s.len.waits[w] = none
     let record := ∃ i : RecIx, s.len.leases[i].state = .free
     (a.waitLimit = 0 ∨ en.waitingAllowed = false → exec .acquire s = .next (s.afterReply p f .busy [])) ∧
     (may → x.holds .wait = false → exec .acquire s = .next (s.afterReply p f .denied [])) ∧
     (may → x.holds .wait = true → ¬room → exec .acquire s = .next (s.afterReply p f .waitFull [])) ∧
     (may → x.holds .wait = true → room → x.waitQuota ≤ s.len.waitUse f.slot →
       exec .acquire s = .next (s.afterReply p f .quota [])) ∧
     (may → x.holds .wait = true → room → s.len.waitUse f.slot < x.waitQuota → ¬record →
       exec .acquire s = .next (s.afterReply p f .tableFull [])) ∧
     (may → x.holds .wait = true → room → s.len.waitUse f.slot < x.waitQuota → record →
       x.leaseQuota ≤ s.len.leaseUse f.slot → exec .acquire s = .next (s.afterReply p f .quota [])))

/-- An ACQUIRE that its entry lets be granted at once is granted or refused at once (R30, R31): the epoch must not be spent, a record must be FREE, and the quota must leave room; then the lowest FREE record becomes HELD under the epoch, the term and the deadline of the rule, the holders rise, LCK is sent the LEASE insert, and the handle, mode, epoch and term are reported. -/
def Obligations.AnOpenResourceIsGrantedAtOnce : Prop :=
  ∀ (s : State) (p : Port) (f : Frame) (m : Mode) (r : ResIx), s.offersWell .acquire p f →
    let a := acquireOperands f.operands
    let en := s.len.catalog[r]
    modeOfCode a.mode = some m → a.term ≤ termMax → a.waitLimit ≤ termMax → s.len.lookup a.name = some r →
    s.len.mayAcquire f.slot r m → en.freeFor m →
    let advances := m = .exclusive ∨ en.holderMode = .none
    let epoch := if advances then en.epoch + 1 else en.epoch
    let term := if a.term = 0 then en.defaultTerm else min a.term en.termCap
    let d := deadlineAfter s.lck.clock term
    let quota := s.len.slots[f.slot].profile.leaseQuota
    (advances → en.epoch = 0xFFFFFFFF → exec .acquire s = .next (s.afterReply p f .epochSpent [])) ∧
    (¬(advances ∧ en.epoch = 0xFFFFFFFF) → (∀ i : RecIx, s.len.leases[i].state ≠ .free) →
      exec .acquire s = .next (s.afterReply p f .tableFull [])) ∧
    ∀ i : RecIx, ¬(advances ∧ en.epoch = 0xFFFFFFFF) → s.len.lowestFreeLease i →
      let g := s.len.leases[i].generation
      (quota ≤ s.len.leaseUse f.slot → exec .acquire s = .next (s.afterReply p f .quota [])) ∧
      (s.len.leaseUse f.slot < quota → exec .acquire s =
        .next (s.afterEvent p
          ((((s.lenAfterTake p f).setLease i
            { generation := g, state := .held, resource := r, slot := f.slot, session := s.len.slots[f.slot].session,
              mode := m, epoch := epoch, term := term, deadline := d, renewCount := 0, changeMark := false }).setEntry r
            { en with
              epoch := epoch
              holderCount := en.holderCount + 1
              holderMode := if en.holderMode = .none then m else en.holderMode }).answer f.slot f.tag)
          (s.takeRequests f ++ [.insert ⟨d, .lease i g⟩])
          [.completion f.slot
            ⟨f.tag, .acquire, .granted,
              natToBytes (i.val * 512 + g.toNat) 2 ++ [modeCode m] ++ natToBytes epoch.toNat 4 ++ natToBytes term 3⟩]))

/-- An ACQUIRE that passes the seven checks parks (R51, R52, R53): the lowest FREE wait entry and the lowest FREE record are taken, the wait gets a serial that no PARKED wait carries, it stands behind every wait of the queue that is an UPGRADE or of an equal or higher class, LCK is sent the WAIT insert unless the wait is without limit, and no completion is sent. -/
def Obligations.AnAcquireThatMayWaitParks : Prop :=
  ∀ (s : State) (p : Port) (f : Frame) (m : Mode) (r : ResIx) (w : WaitIx) (i : RecIx), s.offersWell .acquire p f →
    let a := acquireOperands f.operands
    let en := s.len.catalog[r]
    let profile := s.len.slots[f.slot].profile
    modeOfCode a.mode = some m → a.term ≤ termMax → a.waitLimit ≤ termMax → s.len.lookup a.name = some r →
    s.len.mayAcquire f.slot r m → ¬en.freeFor m → a.waitLimit ≠ 0 → en.waitingAllowed = true →
    profile.holds .wait = true → s.len.lowestFreeWait w → s.len.waitUse f.slot < profile.waitQuota →
    s.len.lowestFreeLease i → s.len.leaseUse f.slot < profile.leaseQuota →
    let term := if a.term = 0 then en.defaultTerm else min a.term en.termCap
    let d := if a.waitLimit = termMax then none else some (deadlineAfter s.lck.clock a.waitLimit)
    ∃ (serial : Serial) (ahead behind : List WaitIx),
      s.len.nextSerial serial ∧
      en.queue = ahead ++ behind ∧
      (∀ v ∈ behind, s.len.standsAhead profile.priority v = false) ∧
      (∀ v, ahead.getLast? = some v → s.len.standsAhead profile.priority v = true) ∧
      exec .acquire s =
        .next (s.afterEvent p
          { ((((s.lenAfterTake p f).setWait w
              (some
                { kind := .acquire m term profile.priority, slot := f.slot, session := s.len.slots[f.slot].session,
                  tag := f.tag, resource := r, lease := i, serial := serial, deadline := d })).setLease i
              { Lease.cleared s.len.leases[i].generation with
                state := .reserved, resource := r, slot := f.slot, session := s.len.slots[f.slot].session, mode := m,
                term := term }).setEntry r { en with queue := ahead ++ w :: behind }) with
            waitSerial := serial + 1 }
          (s.takeRequests f ++
            match d with
            | none => []
            | some t => [.insert ⟨t, .wait w serial⟩])
          [])

/-- A RELEASE of a HELD lease (R33, R34): where an UPGRADE wait for it stands at the head of the queue, that wait ends first and completes CANCELLED; then the record is freed, its deadline's removal is sent, the holders are lowered (and a DRAINING entry whose last record it was becomes VACANT), OK is sent, and a grant pass runs. A RELEASE of a LAPSED or REVOKED record frees it and reports how its lease ended: no deadline is removed, the holders stand, no grant pass runs, and a DRAINING entry whose last record it was becomes VACANT (R35). -/
def Obligations.ReleaseEndsOrGivesBackALease : Prop :=
  (∀ (s : State) (p : Port) (f : Frame) (i : RecIx), s.offersWell .release p f →
     s.len.resolve f.slot (operandAt f.operands 0 2) = .ok i → s.len.leases[i].state = .held →
     let l := s.len.leases[i]
     let en := s.len.catalog[l.resource]
     let freed := (s.lenAfterTake p f).setLease i l.freed
     let removal : LckReq := .remove ⟨l.deadline, .lease i l.generation⟩
     let ok : RquMsg := .completion f.slot ⟨f.tag, .release, .ok, []⟩
     (s.len.upgradeWaitOf i = none →
       exec .release s = .next (s.finishTake p
         (({ now := s.lck.clock
             len := (freed.setEntry l.resource (s.len.entryAfterFreeing l.resource en.lowered)).answer f.slot f.tag
             toLck := s.takeRequests f ++ [removal]
             toRqu := [ok]
             toTwp := [] } : LenEvent).grantPass l.resource))) ∧
     (∀ w x rest, en.queue = w :: rest → s.len.waits[w] = some x → x.kind = .upgrade → x.lease = i →
       x.resource = l.resource →
       exec .release s = .next (s.finishTake p
         (({ now := s.lck.clock
             len := (((freed.setWait w none).setEntry l.resource
               (s.len.entryAfterFreeing l.resource { en.lowered with queue := rest, upgradePending := false })).answer
                 x.slot x.tag).answer f.slot f.tag
             toLck := s.takeRequests f ++ x.removal w ++ [removal]
             toRqu := [.completion x.slot ⟨x.tag, .upgrade, .cancelled, []⟩, ok]
             toTwp := [] } : LenEvent).grantPass l.resource)))) ∧
  (∀ (s : State) (p : Port) (f : Frame) (i : RecIx), s.offersWell .release p f →
     s.len.resolve f.slot (operandAt f.operands 0 2) = .ok i → s.len.leases[i].state ≠ .held →
     let l := s.len.leases[i]
     (l.state = .lapsed ∨ l.state = .revoked) ∧
     exec .release s =
       .next (s.afterEvent p
         ((((s.lenAfterTake p f).setLease i l.freed).setEntry l.resource
           (s.len.entryAfterFreeing l.resource s.len.catalog[l.resource])).answer f.slot f.tag)
         (s.takeRequests f)
         [.completion f.slot ⟨f.tag, .release, if l.state = .lapsed then .lapsed else .revoked, []⟩]))

/-- A RENEW is refused by the first of its checks that fails (R36), and otherwise moves the lease's deadline: the term is resolved and written, the removal of the old deadline entry and the insert of the new are sent to LCK, the renew count rises up to 254, and the resolved term is reported (R37). Mode, epoch, handle, holders and queue stay. -/
def Obligations.RenewMovesTheDeadline : Prop :=
  ∀ (s : State) (p : Port) (f : Frame), s.offersWell .renew p f →
    let asked := operandAt f.operands 2 3
    (termMax < asked → exec .renew s = .next (s.afterReply p f .badOperand [0x01, 2])) ∧
    ∀ i : RecIx, asked ≤ termMax → s.len.resolve f.slot (operandAt f.operands 0 2) = .ok i →
      let l := s.len.leases[i]
      let en := s.len.catalog[l.resource]
      let term := if asked = 0 then l.term else min asked en.termCap
      let d := deadlineAfter s.lck.clock term
      let allowed := en.renewLimit = 255 ∨ l.renewCount < en.renewLimit
      (l.state = .lapsed → exec .renew s = .next (s.afterReply p f .lapsed [])) ∧
      (l.state = .revoked → exec .renew s = .next (s.afterReply p f .revoked [])) ∧
      (l.state = .held → en.state ≠ .opened → exec .renew s = .next (s.afterReply p f .retired [])) ∧
      (l.state = .held → en.state = .opened → ¬allowed → exec .renew s = .next (s.afterReply p f .renewLimit [])) ∧
      (l.state = .held → en.state = .opened → allowed → exec .renew s =
        .next (s.afterEvent p
          (((s.lenAfterTake p f).setLease i
            { l with
              term := term, deadline := d, renewCount := if 254 ≤ l.renewCount then 254 else l.renewCount + 1 }).answer
            f.slot f.tag)
          (s.takeRequests f ++ [.remove ⟨l.deadline, .lease i l.generation⟩, .insert ⟨d, .lease i l.generation⟩])
          [.completion f.slot ⟨f.tag, .renew, .ok, natToBytes term 3⟩]))

/-- A DOWNGRADE is refused by the first of its checks that fails, and otherwise makes the record and its resource SHARED, sends OK, and runs a grant pass; count, epoch, deadline, term and renew count stay (R38). -/
def Obligations.DowngradeSharesAnExclusiveLease : Prop :=
  ∀ (s : State) (p : Port) (f : Frame) (i : RecIx), s.offersWell .downgrade p f →
    s.len.resolve f.slot (operandAt f.operands 0 2) = .ok i →
    let l := s.len.leases[i]
    let en := s.len.catalog[l.resource]
    (l.state = .lapsed → exec .downgrade s = .next (s.afterReply p f .lapsed [])) ∧
    (l.state = .revoked → exec .downgrade s = .next (s.afterReply p f .revoked [])) ∧
    (l.state = .held → l.mode ≠ .exclusive → exec .downgrade s = .next (s.afterReply p f .notExclusive [])) ∧
    (l.state = .held → l.mode = .exclusive → en.shareLimit = 0 →
      exec .downgrade s = .next (s.afterReply p f .modeNotAllowed [])) ∧
    (l.state = .held → l.mode = .exclusive → 1 ≤ en.shareLimit →
      exec .downgrade s = .next (s.finishTake p
        (({ now := s.lck.clock
            len := (((s.lenAfterTake p f).setLease i { l with mode := .shared }).setEntry l.resource
              { en with holderMode := .shared }).answer f.slot f.tag
            toLck := s.takeRequests f
            toRqu := [.completion f.slot ⟨f.tag, .downgrade, .ok, []⟩]
            toTwp := [] } : LenEvent).grantPass l.resource)))

/-- The checks of an UPGRADE in order (R66). The UPGRADE of a sole holder is immediate: refused EPOCH_SPENT under a spent epoch, and otherwise granted EXCLUSIVE with a new epoch, the deadline, term, renew count and handle kept (R67). An UPGRADE among other holders is refused by the first of its checks that fails (R68), and otherwise parks at the head of the queue and sets the upgrade pending mark; no completion is sent (R69). -/
def Obligations.UpgradeIsGrantedToASoleHolderAndWaitsAmongOthers : Prop :=
  (∀ (s : State) (p : Port) (f : Frame), s.offersWell .upgrade p f →
     let limit := operandAt f.operands 2 3
     let mayX := s.len.slots[f.slot].profile.holds .acquireX = true
     (termMax < limit → exec .upgrade s = .next (s.afterReply p f .badOperand [0x01, 2])) ∧
     (limit ≤ termMax → ¬mayX → exec .upgrade s = .next (s.afterReply p f .denied [])) ∧
     ∀ i : RecIx, limit ≤ termMax → mayX → s.len.resolve f.slot (operandAt f.operands 0 2) = .ok i →
       let l := s.len.leases[i]
       let en := s.len.catalog[l.resource]
       (l.state = .lapsed → exec .upgrade s = .next (s.afterReply p f .lapsed [])) ∧
       (l.state = .revoked → exec .upgrade s = .next (s.afterReply p f .revoked [])) ∧
       (l.state = .held → l.mode ≠ .shared → exec .upgrade s = .next (s.afterReply p f .notShared [])) ∧
       (l.state = .held → l.mode = .shared → en.state ≠ .opened →
         exec .upgrade s = .next (s.afterReply p f .retired [])) ∧
       (l.state = .held → l.mode = .shared → en.state = .opened → en.holderCount = 1 → en.epoch = 0xFFFFFFFF →
         exec .upgrade s = .next (s.afterReply p f .epochSpent [])) ∧
       (l.state = .held → l.mode = .shared → en.state = .opened → en.holderCount = 1 → en.epoch ≠ 0xFFFFFFFF →
         exec .upgrade s =
           .next (s.afterEvent p
             ((((s.lenAfterTake p f).setLease i { l with mode := .exclusive, epoch := en.epoch + 1 }).setEntry l.resource
               { en with epoch := en.epoch + 1, holderMode := .exclusive }).answer f.slot f.tag)
             (s.takeRequests f)
             [.completion f.slot
               ⟨f.tag, .upgrade, .granted,
                 natToBytes (i.val * 512 + l.generation.toNat) 2 ++ [modeCode .exclusive] ++
                   natToBytes (en.epoch + 1).toNat 4 ++ natToBytes l.term 3⟩]))) ∧
  (∀ (s : State) (p : Port) (f : Frame) (i : RecIx), s.offersWell .upgrade p f →
     let limit := operandAt f.operands 2 3
     let x := s.len.slots[f.slot].profile
     let l := s.len.leases[i]
     let en := s.len.catalog[l.resource]
     limit ≤ termMax → x.holds .acquireX = true → s.len.resolve f.slot (operandAt f.operands 0 2) = .ok i →
     l.state = .held → l.mode = .shared → en.state = .opened → en.holderCount ≠ 1 →
     let may := en.upgradePending = false ∧ limit ≠ 0 ∧ en.waitingAllowed = true
     let d := if limit = termMax then none else some (deadlineAfter s.lck.clock limit)
     (en.upgradePending = true → exec .upgrade s = .next (s.afterReply p f .upgradeConflict [])) ∧
     (en.upgradePending = false → limit = 0 ∨ en.waitingAllowed = false →
       exec .upgrade s = .next (s.afterReply p f .busy [])) ∧
     (may → x.holds .wait = false → exec .upgrade s = .next (s.afterReply p f .denied [])) ∧
     (may → x.holds .wait = true → (∀ w : WaitIx, s.len.waits[w] ≠ none) →
       exec .upgrade s = .next (s.afterReply p f .waitFull [])) ∧
     ∀ w : WaitIx, may → x.holds .wait = true → s.len.lowestFreeWait w →
       (x.waitQuota ≤ s.len.waitUse f.slot → exec .upgrade s = .next (s.afterReply p f .quota [])) ∧
       (s.len.waitUse f.slot < x.waitQuota → ∃ serial : Serial,
         s.len.nextSerial serial ∧
         exec .upgrade s =
           .next (s.afterEvent p
             { (((s.lenAfterTake p f).setWait w
                 (some
                   { kind := .upgrade, slot := f.slot, session := s.len.slots[f.slot].session, tag := f.tag,
                     resource := l.resource, lease := i, serial := serial, deadline := d })).setEntry l.resource
                 { en with queue := w :: en.queue, upgradePending := true }) with
               waitSerial := serial + 1 }
             (s.takeRequests f ++
               match d with
               | none => []
               | some t => [.insert ⟨t, .wait w serial⟩])
             [])))

/-- The end of a wait that completes, other than a grant (R58; the operation finishWait): the wait leaves its queue and the pool, the removal of its deadline is sent unless it timed out, an UPGRADE's pending mark is cleared and its lease stays, an ACQUIRE wait's reserved record is freed, and the outcome goes out under the wait's tag with no payload. One revocation (R40; the operation revokeRecord): the record is REVOKED and marked, its deadline's removal is sent, the holders are lowered, and an UPGRADE wait for it that stands in the queue ends and completes REVOKED. The premises on a wait's record and resource are laws of LEN's tables. A purge's ends of waits, which complete nothing, and the other ends of a lease are said elsewhere. -/
def Obligations.AFinishedWaitAndARevokedLeaseEndWhole : Prop :=
  (∀ (e : LenEvent) (w : WaitIx) (x : Wait) (timedOut : Bool) (st : Status), e.len.waits[w] = some x →
     let l := e.len.leases[x.lease]
     let en := e.len.catalog[x.resource].without w x.kind
     let sent := if timedOut then [] else x.removal w
     let done : RquMsg := .completion x.slot ⟨x.tag, x.kind.reqKind, st, []⟩
     (x.kind = .upgrade →
       e.finishWait w timedOut st =
         { e with
           len := ((e.len.setWait w none).setEntry x.resource en).answer x.slot x.tag
           toLck := e.toLck ++ sent
           toRqu := e.toRqu ++ [done] }) ∧
     (x.kind ≠ .upgrade → l.state = .reserved → l.resource = x.resource →
       e.finishWait w timedOut st =
         { e with
           len := (((e.len.setWait w none).setLease x.lease l.freed).setEntry x.resource
             (e.len.entryAfterFreeing x.resource en)).answer x.slot x.tag
           toLck := e.toLck ++ sent
           toRqu := e.toRqu ++ [done] })) ∧
  (∀ (e : LenEvent) (i : RecIx),
     let l := e.len.leases[i]
     let en := e.len.catalog[l.resource]
     let revoked := e.len.setLease i { l with state := .revoked, changeMark := true }
     let removal : LckReq := .remove ⟨l.deadline, .lease i l.generation⟩
     (e.len.upgradeWaitOf i = none →
       e.revokeRecord i = { e with len := revoked.setEntry l.resource en.lowered, toLck := e.toLck ++ [removal] }) ∧
     (∀ w x, e.len.upgradeWaitOf i = some w → e.len.waits[w] = some x → x.resource = l.resource →
       e.revokeRecord i =
         { e with
           len := ((revoked.setEntry l.resource (en.lowered.without w .upgrade)).setWait w none).answer x.slot x.tag
           toLck := e.toLck ++ removal :: x.removal w
           toRqu := e.toRqu ++ [.completion x.slot ⟨x.tag, .upgrade, .revoked, []⟩] }))

/-- A CANCEL refuses a target byte with a bit above its tag (R62); it ends the wait of the asking slot's session under the target tag, which completes CANCELLED before the CANCEL's OK and a grant pass (R63); without such a wait it answers TOO_LATE or NOT_PARKED by the target's answer mark, its own tag's being clear (R64). How a wait that completes ends is said of it alone. -/
def Obligations.CancelEndsTheWaitUnderATag : Prop :=
  ∀ (s : State) (p : Port) (f : Frame), s.offersWell .cancel p f →
    let b := operandByte f.operands 0
    (7 < b.toNat → exec .cancel s = .next (s.afterReply p f .badOperand [0x03, 0])) ∧
    ∀ t : TagIx, b.toNat = t.val →
      (∀ w x, s.len.waits[w] = some x → s.len.waitsUnder f.slot t w → (∀ v < w, ¬s.len.waitsUnder f.slot t v) →
        exec .cancel s = .next (s.finishTake p
          ((((s.takeEvent p f).finishWait w false .cancelled).reply f .ok).grantPass x.resource))) ∧
      ((∀ w, ¬s.len.waitsUnder f.slot t w) →
        exec .cancel s = .next (s.afterReply p f
          (if t ≠ f.tag ∧ s.len.slots[f.slot].answered[t] = true then .tooLate else .notParked) []))

/-- A BREAK checks the right, the options, its target and the break allowed flag in order (R39); by handle it revokes the one HELD record, by name every HELD record of the resource in ascending order with no grant pass between (R40, R41); then it completes with their number and runs one grant pass. What one revocation does is said of it alone. -/
def Obligations.BreakRevokesItsTargets : Prop :=
  ∀ (s : State) (p : Port) (f : Frame), s.offersWell .breakLease p f →
    let options := operandByte f.operands 0
    let h := operandAt f.operands 1 2
    let i : RecIx := ⟨h / 512 % 128, Nat.mod_lt _ (by decide)⟩
    let l := s.len.leases[i]
    let named := l.state = .held ∧ l.generation.toNat = h % 512 ∧ h % 512 ≠ 0
    let right := s.len.slots[f.slot].profile.holds .breakLease = true
    let refused (st : Status) (b : List Byte) := exec .breakLease s = .next (s.afterReply p f st b)
    (¬right → refused .denied []) ∧
    (right → options ≠ 0 → options ≠ 1 → refused .badOperand [0x03, 0]) ∧
    (right → options = 0 → ¬named → refused .unknownLease []) ∧
    (right → options = 0 → named → s.len.catalog[l.resource].breakAllowed = false → refused .denied []) ∧
    (right → options = 0 → named → s.len.catalog[l.resource].breakAllowed = true →
      exec .breakLease s = .next (s.finishTake p
        ((((s.takeEvent p f).revokeRecord i).replyWith f .ok [1]).grantPass l.resource))) ∧
    (right → options = 1 → s.len.lookup (nameAt f.operands 1) = none → refused .unknownResource []) ∧
    ∀ r, right → options = 1 → s.len.lookup (nameAt f.operands 1) = some r →
      (s.len.catalog[r].breakAllowed = false → refused .denied []) ∧
      (s.len.catalog[r].breakAllowed = true → ∃ targets : List RecIx,
        targets.Pairwise (· < ·) ∧
        (∀ j, j ∈ targets ↔ s.len.leases[j].state = .held ∧ s.len.leases[j].resource = r) ∧
        exec .breakLease s = .next (s.finishTake p
          (((targets.foldl LenEvent.revokeRecord (s.takeEvent p f)).replyWith f .ok
            [BitVec.ofNat 8 targets.length]).grantPass r)))

/-- A NOTICES reports the asking slot's marked records, the first four in ascending order, clears their marks, and completes MORE where marks are left; where it clears the slot's last mark, "slot news off" goes to RQU before its completion (R45). -/
def Obligations.NoticesReportUpToFourMarks : Prop :=
  ∀ (s : State) (p : Port) (f : Frame), s.offersWell .notices p f →
    ∃ (marked : List RecIx) (leases : Vector Lease 128),
      marked.Pairwise (· < ·) ∧
      (∀ i, i ∈ marked ↔ s.len.leases[i].changeMark = true ∧ s.len.leases[i].slot = f.slot) ∧
      (∀ i : RecIx, leases[i] =
        if i ∈ marked.take 4 then { s.len.leases[i] with changeMark := false } else s.len.leases[i]) ∧
      newsNotices s.len { s.len with leases := leases } =
        (if 0 < marked.length ∧ marked.length ≤ 4 then [.newsOff f.slot] else []) ∧
      exec .notices s =
        .next (s.afterEvent p (({ s.lenAfterTake p f with leases := leases } : Len).answer f.slot f.tag) (s.takeRequests f)
          [.completion f.slot
            ⟨f.tag, .notices, if marked.length ≤ 4 then .ok else .more,
              BitVec.ofNat 8 (marked.take 4).length ::
                (marked.take 4).flatMap fun i =>
                  natToBytes (i.val * 512 + s.len.leases[i].generation.toNat) 2 ++
                    [leaseStateCode s.len.leases[i].state]⟩])

/-! ## The grant pass -/

/-- One step of a grant pass on the head of a queue (R56, R57, R16): an ACQUIRE is granted where the holders admit it, an UPGRADE where its lease is the only holder; under a spent epoch the head completes EPOCH_SPENT instead; otherwise the pass stops. A pass is the step repeated until it stops. The premise that a queue holds waits on its own resource is a law of LEN's tables. -/
def Obligations.AGrantPassServesTheHead : Prop :=
  ∀ (e : LenEvent) (r : ResIx),
    let en := e.len.catalog[r]
    (en.queue = [] → e.passStep r = none) ∧
    (e.passStep r = none → e.grantPass r = e) ∧
    ∀ (w : WaitIx) (rest : List WaitIx) (x : Wait), en.queue = w :: rest → e.len.waits[w] = some x → x.resource = r →
      let l := e.len.leases[x.lease]
      let handle := natToBytes (x.lease.val * 512 + l.generation.toNat) 2
      (∀ b, e.passStep r = some b → e.grantPass r = b.grantPass r) ∧
      (∀ m term priority, x.kind = .acquire m term priority →
        let admits := en.holderMode = .none ∨
          (m = .shared ∧ en.holderMode = .shared ∧ en.holderCount < en.shareLimit ∧ en.upgradePending = false)
        let advances := m = .exclusive ∨ en.holderMode = .none
        let epoch := if advances then en.epoch + 1 else en.epoch
        let d := deadlineAfter e.now term
        (¬admits → e.passStep r = none) ∧
        (admits → advances → en.epoch = 0xFFFFFFFF → e.passStep r = some (e.finishWait w false .epochSpent)) ∧
        (admits → ¬(advances ∧ en.epoch = 0xFFFFFFFF) → e.passStep r =
          some
            { e with
              len := (((e.len.setWait w none).setLease x.lease
                { l with state := .held, mode := m, epoch := epoch, term := term, deadline := d }).setEntry r
                { en with
                  epoch := epoch
                  holderCount := en.holderCount + 1
                  holderMode := if en.holderMode = .none then m else en.holderMode
                  queue := rest }).answer x.slot x.tag
              toLck := e.toLck ++ x.removal w ++ [.insert ⟨d, .lease x.lease l.generation⟩]
              toRqu := e.toRqu ++
                [.completion x.slot
                  ⟨x.tag, .acquire, .granted,
                    handle ++ [modeCode m] ++ natToBytes epoch.toNat 4 ++ natToBytes term 3⟩] })) ∧
      (x.kind = .upgrade →
        (en.holderCount ≠ 1 → e.passStep r = none) ∧
        (en.holderCount = 1 → en.epoch = 0xFFFFFFFF → e.passStep r = some (e.finishWait w false .epochSpent)) ∧
        (en.holderCount = 1 → en.epoch ≠ 0xFFFFFFFF → e.passStep r =
          some
            { e with
              len := (((e.len.setWait w none).setLease x.lease
                { l with mode := .exclusive, epoch := en.epoch + 1 }).setEntry r
                { en with
                  epoch := en.epoch + 1, holderMode := .exclusive, queue := rest,
                  upgradePending := false }).answer x.slot x.tag
              toLck := e.toLck ++ x.removal w
              toRqu := e.toRqu ++
                [.completion x.slot
                  ⟨x.tag, .upgrade, .granted,
                    handle ++ [modeCode .exclusive] ++ natToBytes (en.epoch + 1).toNat 4 ++ natToBytes l.term 3⟩] }))

/-- A grant pass, where the tables agree, leaves no head that could be granted: after it the queue is empty, or its head is an UPGRADE beside another holder, or an ACQUIRE that the holders do not admit (R56). The tables agree after it. -/
def Obligations.AGrantPassLeavesNothingToGrant : Prop :=
  ∀ (e : LenEvent) (r : ResIx), e.len.tablesAgree →
    let b := e.grantPass r
    let en := b.len.catalog[r]
    b.len.tablesAgree ∧
    ∀ (w : WaitIx) (rest : List WaitIx), en.queue = w :: rest → ∃ x : Wait, b.len.waits[w] = some x ∧ x.resource = r ∧
      (x.kind = .upgrade → 2 ≤ en.holderCount) ∧
      ∀ m term priority, x.kind = .acquire m term priority → en.holderMode ≠ .none ∧
        ¬(m = .shared ∧ en.holderMode = .shared ∧ en.holderCount < en.shareLimit ∧ en.upgradePending = false)

/-! ## The catalog -/

/-- A name is looked up among the non-VACANT entries, the names 0000h and FFFFh match none, and where names are unique the entry found is the one that has the name (R3). -/
def Obligations.LookupFindsTheEntryOfTheName : Prop :=
  ∀ (len : Len) (name : ResName),
    (len.lookup 0x0000 = none ∧ len.lookup 0xFFFF = none) ∧
    (∀ r, len.lookup name = some r → len.catalog[r].state ≠ .vacant ∧ len.catalog[r].name = name) ∧
    (len.namesUnique → ∀ r : ResIx, len.catalog[r].state ≠ .vacant → len.catalog[r].name = name →
      len.lookup name = some r)

/-- A DEFINE makes its checks in order: the right, the operands in frame order with their reasons and locations, the name, room (R4, R5); one that passes enters the resource in the lowest VACANT entry and reports its name and epoch (R6). That a default term above both its cap and 1,048,575 gives RELATION, as the table of R5 has it, where R166 can be read to say RANGE, is the model's reading, log 30. -/
def Obligations.DefineEntersTheResource : Prop :=
  ∀ (s : State) (p : Port) (f : Frame), s.offersWell .define p f →
    let o := f.operands
    let name := nameAt o 0
    let share := operandAt o 2 1
    let cap := operandAt o 3 3
    let term := operandAt o 6 3
    let flags := operandByte o 10
    let floor : Epoch := BitVec.ofNat 32 (operandAt o 12 4)
    let refused (st : Status) (b : List Byte) := exec .define s = .next (s.afterReply p f st b)
    let right := s.len.slots[f.slot].profile.holds .catalog = true
    let c1 := right ∧ name ≠ 0x0000 ∧ name ≠ 0xFFFF
    let c2 := c1 ∧ share ≤ 15
    let c3 := c2 ∧ 1 ≤ cap ∧ cap ≤ 1048575
    let c4 := c3 ∧ 1 ≤ term
    let c5 := c4 ∧ term ≤ cap
    let c6 := c5 ∧ flags.toNat < 4
    let c7 := c6 ∧ floor ≠ 0xFFFFFFFF
    (¬right → refused .denied []) ∧
    (right → name = 0x0000 ∨ name = 0xFFFF → refused .badOperand [0x01, 0]) ∧
    (c1 → 15 < share → refused .badOperand [0x01, 2]) ∧
    (c2 → cap = 0 ∨ 1048575 < cap → refused .badOperand [0x01, 3]) ∧
    (c3 → term = 0 → refused .badOperand [0x01, 6]) ∧
    (c4 → cap < term → refused .badOperand [0x02, 6]) ∧
    (c5 → 4 ≤ flags.toNat → refused .badOperand [0x03, 10]) ∧
    (c6 → floor = 0xFFFFFFFF → refused .badOperand [0x01, 12]) ∧
    (c7 → s.len.lookup name ≠ none → refused .nameTaken []) ∧
    (c7 → s.len.lookup name = none → (∀ r : ResIx, s.len.catalog[r].state ≠ .vacant) → refused .catalogFull []) ∧
    ∀ r : ResIx, c7 → s.len.lookup name = none → s.len.catalog[r].state = .vacant →
      (∀ q : ResIx, q < r → s.len.catalog[q].state ≠ .vacant) →
      exec .define s =
        .next (s.afterEvent p
          (((s.lenAfterTake p f).setEntry r
            { state := .opened, name := name, shareLimit := share, termCap := cap, defaultTerm := term,
              renewLimit := operandAt o 9 1, waitingAllowed := flags.getLsbD 0, breakAllowed := flags.getLsbD 1,
              admission := operandByte o 11, epoch := floor, holderMode := .none, holderCount := 0, queue := [],
              upgradePending := false }).answer f.slot f.tag)
          (s.takeRequests f)
          [.completion f.slot ⟨f.tag, .define, .ok, natToBytes name.toNat 2 ++ natToBytes floor.toNat 4⟩])

/-- A RETIRE checks the right, the options and the name in order (R7); with force it revokes every HELD lease of the resource in ascending order (R9); then every wait left in the queue completes RETIRED, head first; then the entry becomes VACANT where no record in use refers to it and DRAINING otherwise, and the RETIRE reports the outcome, the revocations and the waits ended (R8). No grant pass runs. What one revocation and one end of a wait do is said of each alone. -/
def Obligations.RetireTakesTheResourceOutOfUse : Prop :=
  ∀ (s : State) (p : Port) (f : Frame), s.offersWell .retire p f →
    let options := operandByte f.operands 2
    let right := s.len.slots[f.slot].profile.holds .catalog = true
    let refused (st : Status) (b : List Byte) := exec .retire s = .next (s.afterReply p f st b)
    (¬right → refused .denied []) ∧
    (right → options ≠ 0 → options ≠ 1 → refused .badOperand [0x03, 2]) ∧
    (right → options = 0 ∨ options = 1 → s.len.lookup (nameAt f.operands 0) = none → refused .unknownResource []) ∧
    ∀ r, right → options = 0 ∨ options = 1 → s.len.lookup (nameAt f.operands 0) = some r →
      ∃ targets : List RecIx,
        targets.Pairwise (· < ·) ∧
        (∀ j, j ∈ targets ↔ options = 1 ∧ s.len.leases[j].state = .held ∧ s.len.leases[j].resource = r) ∧
        let revoked := targets.foldl LenEvent.revokeRecord (s.takeEvent p f)
        let waits := revoked.len.catalog[r].queue
        let ended := waits.foldl (fun e w => e.finishWait w false .retired) revoked
        let en := ended.len.catalog[r]
        let vacant := ended.len.recordsOn r = 0
        exec .retire s =
          .next (s.finishTake p
            (({ ended with
                len := ended.len.setEntry r
                  (if vacant then Entry.vacant en.epoch else { en with state := .draining }) } : LenEvent).replyWith f .ok
              [if vacant then 0x01 else 0x02, BitVec.ofNat 8 targets.length, BitVec.ofNat 8 waits.length]))

/-! ## Epoch checks -/

/-- The currency test, as TOKEN_CHECK and the check-only query ask it (R139, R140, R142): TOKEN_CHECK first needs the right and a mode code; either changes nothing but what carries its answer. LEN takes a check-only query while no CONFIG is open. What TWP does with LEN's answer to a check-only query: it belongs to the query held and passed; where that query was dropped it is discarded, and a query that waited for its return is passed (R153, R154). -/
def Obligations.EpochsAreCheckedByOneTest : Prop :=
  (∀ s : State,
     let answer (q : Query) : CheckAnswer :=
       match s.len.lookup q.name with
       | none => .unknownResource
       | some r =>
         if (q.mode = 0x01 ∨ q.mode = 0x02) ∧ modeCode s.len.catalog[r].holderMode = q.mode ∧
             s.len.catalog[r].epoch = q.epoch then .current
         else .stale
     (∀ q rest, s.len.configOpen = none → s.paths.queries = q :: rest →
       exec .checkOnlyQuery s =
         .next
           { s with paths := { s.paths with queries := rest, lenToTwp := s.paths.lenToTwp ++ [.answer (answer q)] } }) ∧
     ∀ p f, s.offersWell .tokenCheck p f →
       let q : Query := ⟨nameAt f.operands 0, BitVec.ofNat 32 (operandAt f.operands 2 4), operandByte f.operands 6⟩
       let right := s.len.slots[f.slot].profile.holds .check = true
       let known := q.mode = 0x01 ∨ q.mode = 0x02
       (¬right → exec .tokenCheck s = .next (s.afterReply p f .denied [])) ∧
       (right → ¬known → exec .tokenCheck s = .next (s.afterReply p f .badOperand [0x01, 6])) ∧
       (right → known → answer q = .unknownResource →
         exec .tokenCheck s = .next (s.afterReply p f .unknownResource [])) ∧
       (right → known → answer q = .current → exec .tokenCheck s = .next (s.afterReply p f .current [])) ∧
       (right → known → answer q = .stale → exec .tokenCheck s = .next (s.afterReply p f .stale []))) ∧
  (∀ (s : State) (a : CheckAnswer) (rest : List TwpMsg), s.paths.lenToTwp = .answer a :: rest →
     (∀ q, s.twp.held = some (.query q .passed) →
       exec .checkOnlyAnswer s =
         .next
           { s with
             twp := { s.twp with held := some (.query q (.answered a)), queryOut := false }
             paths := { s.paths with lenToTwp := rest } }) ∧
     (∀ q, s.twp.held = some (.query q .waiting) →
       exec .checkOnlyAnswer s =
         .next
           { s with
             twp := { s.twp with held := some (.query q .passed), queryOut := true }
             paths := { s.paths with lenToTwp := rest, queries := s.paths.queries ++ [q] } }) ∧
     ((∀ q, s.twp.held ≠ some (.query q .passed) ∧ s.twp.held ≠ some (.query q .waiting)) →
       exec .checkOnlyAnswer s =
         .next
           { s with
             twp := { s.twp with queryOut := false }
             paths := { s.paths with lenToTwp := rest } }))

/-- Where the tables agree and names are unique, the currency test answers CURRENT exactly when a HELD lease of the entry of that name carries the mode and the epoch asked (R139). An EXCLUSIVE lease is then the only HELD lease of its resource (R14). -/
def Obligations.CurrentMeansHeldInThatModeAndEpoch : Prop :=
  ∀ len : Len, len.tablesAgree → len.namesUnique →
    (∀ q : Query,
      len.currency q = .current ↔
        ∃ i : RecIx, len.leases[i].state = .held ∧ len.catalog[len.leases[i].resource].name = q.name ∧
          modeCode len.leases[i].mode = q.mode ∧ len.leases[i].epoch = q.epoch) ∧
    ∀ i j : RecIx, len.leases[i].state = .held → len.leases[j].state = .held →
      len.leases[i].resource = len.leases[j].resource → len.leases[i].mode = .exclusive → i = j

/-! ## Profiles, freezing, configuration -/

/-- A PROFILE_SET is refused by the first of its eleven checks that fails, with the reason, the field and the detail of that check (R110, R111); one that passes replaces the target's profile whole, whatever the target's state, and completes OK (R112). -/
def Obligations.ProfileSetReplacesTheProfile : Prop :=
  ∀ (s : State) (p : Port) (f : Frame), s.offersWell .profileSet p f →
    let o := f.operands
    let target := operandAt o 0 1
    let rights := operandByte o 1
    let lease := operandAt o 2 1
    let wait := operandAt o 3 1
    let priority := operandAt o 4 1
    let refused (st : Status) (b : List Byte) := exec .profileSet s = .next (s.afterReply p f st b)
    let right := s.len.slots[f.slot].profile.holds .profile = true
    let may := right ∧ rights.toNat < 128 ∧ s.len.frozen = false
    (¬right → refused .denied []) ∧
    (right → 128 ≤ rights.toNat → refused .badOperand [0x03, 1]) ∧
    (right → rights.toNat < 128 → s.len.frozen = true → refused .profileRefused [0x01, 0, 0]) ∧
    (may → 7 < target → refused .profileRefused [0x05, 1, BitVec.ofNat 8 target]) ∧
    ∀ n : SlotIx, may → target = n.val →
      let within := n = 0 ∨ rights.toNat < 64
      let keeps := within ∧ (n = 0 → 64 ≤ rights.toNat)
      let use := s.len.leaseUse n
      let waits := s.len.waitUse n
      (¬within → refused .profileRefused [0x02, 2, 6]) ∧
      (within → n = 0 → rights.toNat < 64 → refused .profileRefused [0x04, 2, 6]) ∧
      (keeps → 32 < lease → refused .profileRefused [0x02, 3, 32]) ∧
      (keeps → lease ≤ 32 → lease < use → refused .profileRefused [0x03, 3, BitVec.ofNat 8 use]) ∧
      (keeps → lease ≤ 32 → use ≤ lease → 16 < wait → refused .profileRefused [0x02, 4, 16]) ∧
      (keeps → lease ≤ 32 → use ≤ lease → wait ≤ 16 → wait < waits →
        refused .profileRefused [0x03, 4, BitVec.ofNat 8 waits]) ∧
      (keeps → lease ≤ 32 → use ≤ lease → wait ≤ 16 → waits ≤ wait → 3 < priority →
        refused .profileRefused [0x02, 5, 3]) ∧
      (keeps → lease ≤ 32 → use ≤ lease → wait ≤ 16 → waits ≤ wait → priority ≤ 3 →
        exec .profileSet s =
          .next (s.afterEvent p
            (((s.lenAfterTake p f).setSlot n
              { (s.lenAfterTake p f).slots[n] with
                profile :=
                  { rights := rights.setWidth 7, leaseQuota := lease, waitQuota := wait,
                    priority := priority } }).answer f.slot f.tag)
            (s.takeRequests f)
            [.completion f.slot ⟨f.tag, .profileSet, .ok, []⟩]))

/-- A PROFILE_RESTORE sets the profile of its target, or of every slot for FFh, to the ceiling, and a PROFILE_FREEZE sets the frozen state; each first needs the right and profiles that are not frozen, and a target it can name (R114, R118). -/
def Obligations.RestoreAndFreezeNeedTheRight : Prop :=
  ∀ (s : State) (p : Port) (f : Frame),
    let right := s.len.slots[f.slot].profile.holds .profile = true
    let target := operandAt f.operands 0 1
    (∀ k, k = .profileRestore ∨ k = .profileFreeze → s.offersWell k p f →
      (¬right → exec (commandOf k) s = .next (s.afterReply p f .denied [])) ∧
      (right → s.len.frozen = true → exec (commandOf k) s = .next (s.afterReply p f .profileRefused [0x01, 0, 0]))) ∧
    (s.offersWell .profileRestore p f → right → s.len.frozen = false → 7 < target → target ≠ 0xFF →
      exec .profileRestore s = .next (s.afterReply p f .profileRefused [0x05, 1, BitVec.ofNat 8 target])) ∧
    (s.offersWell .profileRestore p f → right → s.len.frozen = false → target ≤ 7 ∨ target = 0xFF →
      exec .profileRestore s =
        .next (s.afterEvent p
          ({ s.lenAfterTake p f with
              slots := Vector.ofFn fun n : SlotIx =>
                if target = n.val ∨ target = 0xFF then { (s.lenAfterTake p f).slots[n] with profile := ceiling n }
                else (s.lenAfterTake p f).slots[n] : Len }.answer f.slot f.tag)
          (s.takeRequests f)
          [.completion f.slot ⟨f.tag, .profileRestore, .ok, []⟩])) ∧
    (s.offersWell .profileFreeze p f → right → s.len.frozen = false →
      exec .profileFreeze s =
        .next (s.afterEvent p (({ s.lenAfterTake p f with frozen := true } : Len).answer f.slot f.tag) (s.takeRequests f)
          [.completion f.slot ⟨f.tag, .profileFreeze, .ok, []⟩]))

/-- Once frozen, the part stays frozen, and no profile and no check-only enable changes, whatever is commanded short of power-on reset (R118, R119). -/
def Obligations.AFreezeStandsUntilPowerOnReset : Prop :=
  ∀ (c : Instr) (s t : State), s.len.frozen = true → c ≠ .powerOnReset → exec c s = .next t →
    t.len.frozen = true ∧ t.len.checkOnly = s.len.checkOnly ∧
      ∀ n : SlotIx, t.len.slots[n].profile = s.len.slots[n].profile

/-- A CONFIG is refused by the first of its checks that fails, and otherwise sets the check-only enable, sends it to TWP and stays open with no completion (R115, R116). TWP's take of the enable writes its copy and reports; LEN's take of the report completes the open CONFIG (R116). That a report knows whether a CONFIG waits for it is the model's choice, log 8, and that reports stand in a list of their own its reading, log 7. While a CONFIG is open, LEN takes no frame, no expiry message and no check-only query (R116). -/
def Obligations.ConfigCompletesWhenTwpHasTheEnable : Prop :=
  (∀ s : State,
     (∀ p f, s.offersWell .config p f →
       let options := operandByte f.operands 0
       let right := s.len.slots[f.slot].profile.holds .profile = true
       let flag := options = 0 ∨ options = 1
       (¬right → exec .config s = .next (s.afterReply p f .denied [])) ∧
       (right → ¬flag → exec .config s = .next (s.afterReply p f .badOperand [0x03, 0])) ∧
       (right → flag → s.len.frozen = true → exec .config s = .next (s.afterReply p f .profileRefused [0x01, 0, 0])) ∧
       (right → flag → s.len.frozen = false →
         let t := s.afterEvent p { s.lenAfterTake p f with checkOnly := decide (options = 1), configOpen := some ⟨f.slot, f.tag⟩ }
           (s.takeRequests f) []
         exec .config s =
           .next { t with paths := { t.paths with lenToTwp := t.paths.lenToTwp ++ [.enable (decide (options = 1)) true] } })) ∧
     (∀ on waiting rest, s.paths.lenToTwp = .enable on waiting :: rest →
       exec .checkOnlyEnableTake s =
         .next
           { s with
             twp := { s.twp with checkOnly := on }
             paths := { s.paths with lenToTwp := rest, reports := s.paths.reports ++ [waiting] } }) ∧
     (∀ rest c, s.paths.reports = true :: rest → s.len.configOpen = some c →
       exec .configReport s =
         .next
           { s with
             len := ({ s.len with configOpen := none } : Len).answer c.slot c.tag
             paths :=
               { s.paths with
                 reports := rest
                 lenToRqu := s.paths.lenToRqu ++ [.completion c.slot ⟨c.tag, .config, .ok, []⟩] } }) ∧
     (∀ waiting rest, s.paths.reports = waiting :: rest → waiting = false ∨ s.len.configOpen = none →
       exec .configReport s = .next { s with paths := { s.paths with reports := rest } })) ∧
  (∀ s : State, s.len.configOpen ≠ none →
     (∀ k, exec (commandOf k) s = .next s) ∧
     exec .leaseExpiry s = .next s ∧ exec .waitExpiry s = .next s ∧ exec .keepaliveExpiry s = .next s ∧
     exec .checkOnlyQuery s = .next s)

/-! ## Intake, completions, attention -/

/-- RQU's answer to an intake claim (R120): with fewer than 4 frames in the port's queue the place is claimed, and otherwise the frame is refused INTAKE_FULL and received no further. TWP gives the acknowledge of the lead byte by it (R148). RQU's answer to the end-of-frame checks of a port (R121 checks 7 to 9, R122): the first that fails refuses the frame with its reason and releases the claim; a frame that passes takes the claimed place at the tail of the queue, and its tag becomes OPEN unless it is an ATTACH. -/
def Obligations.FramesAreTakenIntoTheIntakeQueueOrRefused : Prop :=
  (∀ (s : State) (p : Port) (rest : List PortMsg) (b : Byte), s.toRqu p = .claim :: rest →
     (s.front p).kind = some .request → (s.front p).bytes = [b] →
     let q := s.rqu.port p
     let s' := s.setToRqu p rest
     (q.queue.length < 4 →
       exec (.intakeClaim p) s =
         .next
           { s' with
             rqu := s.rqu.setPort p { q with claim := true }
             twp := if p = .twp then { s.twp with sdaAck := true } else s.twp }) ∧
     (4 ≤ q.queue.length →
       exec (.intakeClaim p) s =
         .next
           ((({ s' with twp := if p = .twp then { s.twp with sdaAck := false } else s.twp } : State).setPortStatus p
             ((s.portStatus p).refused .intakeFull b 0x00)).setFront p { s.front p with state := .refusing }))) ∧
  (∀ (s : State) (p : Port) (f : Frame) (rest : List PortMsg), s.toRqu p = .arrival f :: rest →
     s.rqu.attentionDriven →
     let q := s.rqu.port p
     let x := s.rqu.slots[f.slot]
     let s' := s.setToRqu p rest
     let refused (reason : RefusalReason) :=
       exec (.arrivalCheck p) s =
         .next (({ s' with rqu := s.rqu.setPort p { q with claim := false } } : State).setPortStatus p
           ((s.portStatus p).refused reason (BitVec.ofNat 8 (0x40 + f.slot.val * 8))
             (BitVec.ofNat 8 (f.tag.val * 32 + kindCode f.kind))))
     let queued := s.rqu.setPort p { q with queue := q.queue ++ [f], claim := false }
     (f.kind = .attach → f.session ≠ 0 → refused .staleSession) ∧
     (f.kind = .attach → f.session = 0 → exec (.arrivalCheck p) s = .next { s' with rqu := queued }) ∧
     (f.kind ≠ .attach →
       ((∀ bound, x.view ≠ .active (some (f.session, bound))) → refused .staleSession) ∧
       ∀ bound, x.view = .active (some (f.session, bound)) →
         (bound ≠ p → refused .portMismatch) ∧
         (bound = p → x.tags[f.tag] ≠ .free → refused .tagBusy) ∧
         (bound = p → x.tags[f.tag] = .free →
           exec (.arrivalCheck p) s =
             .next
               { s' with
                 rqu :=
                   { queued with slots := s.rqu.slots.set f.slot { x with tags := x.tags.set f.tag .opened } } })))

/-- RQU files a completion at the tail of its slot's list and makes its tag DONE; the attention line goes low unless the slot's view is VACANT (R130, R135). At a session notice RQU changes the slot's view, frees every tag, empties the list, and leaves a collect of the slot in progress with nothing to remove; the news stays, and the attention line follows (R124, R131, R135). A news notice sets or clears the slot's news flag, and the attention line follows: low while the view is ACTIVE with a completion in the list or news, or while it is LOST (R135). That a view ACTIVE with no session number holds no bound port either is the model's choice, log 28. -/
def Obligations.RquFollowsLen : Prop :=
  (∀ (s : State) (n : SlotIx) (c : Completion) (rest : List RquMsg), s.paths.lenToRqu = .completion n c :: rest →
     let x := s.rqu.slots[n]
     exec .completionFiled s =
       .next
         { s with
           rqu :=
             { s.rqu with
               slots := s.rqu.slots.set n
                 { x with
                   completions := x.completions ++ [c], tags := x.tags.set c.tag .done
                   attention := decide (x.view ≠ .vacant) } }
           paths := { s.paths with lenToRqu := rest } }) ∧
  (∀ (s : State) (n : SlotIx) (rest : List RquMsg),
     let x := s.rqu.slots[n]
     let drop (q : RquPort) : RquPort := if q.mark = some n then { q with mark := none } else q
     let after (view : SlotView) (low : Bool) : State :=
       { s with
         rqu :=
           { slots := s.rqu.slots.set n
               { view := view, tags := Vector.replicate 8 .free, completions := [], news := x.news, attention := low }
             twp := drop s.rqu.twp
             fwp := drop s.rqu.fwp }
         paths := { s.paths with lenToRqu := rest } }
     (∀ session p, s.paths.lenToRqu = .begun n session p :: rest →
       exec .sessionBegun s = .next (after (.active (some (session, p))) x.news)) ∧
     (s.paths.lenToRqu = .ended n .vacant :: rest → exec .sessionEnded s = .next (after .vacant false)) ∧
     (s.paths.lenToRqu = .ended n .lost :: rest → exec .sessionEnded s = .next (after .lost true)) ∧
     (s.paths.lenToRqu = .ended n .active :: rest → exec .sessionEnded s = .next (after (.active none) x.news)) ∧
     (s.paths.lenToRqu = .lost n :: rest → exec .slotLost s = .next (after .lost true))) ∧
  (∀ (s : State) (n : SlotIx) (rest : List RquMsg),
     let x := s.rqu.slots[n]
     let after (on : Bool) (low : Bool) : State :=
       { s with
         rqu := { s.rqu with slots := s.rqu.slots.set n { x with news := on, attention := low } }
         paths := { s.paths with lenToRqu := rest } }
     (s.paths.lenToRqu = .newsOn n :: rest → exec .slotNewsOn s = .next (after true (decide (x.view ≠ .vacant)))) ∧
     (s.paths.lenToRqu = .newsOff n :: rest →
       (x.view = .vacant → exec .slotNewsOff s = .next (after false false)) ∧
       (x.view = .lost → exec .slotNewsOff s = .next (after false true)) ∧
       (∀ v, x.view = .active v → exec .slotNewsOff s = .next (after false (decide (x.completions ≠ []))))))

/-- What RQU fixes for a collect select (R132): the head completion of a list whose session is the one selected, an EMPTY completion where the list is empty, and STALE for any other session; the head presented is marked. The end of a collect (R133): read in full, the completion presented, if it still stands, leaves the head of the list, its tag becomes FREE, and any other collect of it has nothing left to remove; in every other case the list stays. That the mark is kept at RQU, for each port, is the model's reading, log 21. -/
def Obligations.ACollectPresentsAndRemovesTheHead : Prop :=
  (∀ (s : State) (p : Port) (n : SlotIx) (session : Session) (rest : List PortMsg),
     s.toRqu p = .select n session :: rest →
     let x := s.rqu.slots[n]
     let presents (covered : List Byte) (mark : Option SlotIx) :=
       exec (.collectSelect p) s =
         .next
           (({ s.setToRqu p rest with rqu := s.rqu.setPort p { s.rqu.port p with mark := mark } } : State).setFront p
             { s.front p with
               state := .presenting, presentation := .completion, outgoing := covered ++ [frameCheck covered], sent := 0 })
     (∀ bound c cs, x.view = .active (some (session, bound)) → x.completions = c :: cs →
       presents
         (BitVec.ofNat 8 (c.tag.val * 32 + kindCode c.kind) :: statusCode c.status :: BitVec.ofNat 8 c.payload.length ::
           c.payload) (some n)) ∧
     (∀ bound, x.view = .active (some (session, bound)) → x.completions = [] → presents [0x00, 0x50, 0x00] none) ∧
     ((∀ bound, x.view ≠ .active (some (session, bound))) → presents [0x00, 0x05, 0x00] none)) ∧
  (∀ (s : State) (p : Port) (full : Bool) (rest : List PortMsg), s.toRqu p = .collectEnd full :: rest →
     let s' := s.setToRqu p rest
     (∀ n c cs, full = true → (s.rqu.port p).mark = some n → s.rqu.slots[n].completions = c :: cs →
       let x := s.rqu.slots[n]
       let drop (q : RquPort) : RquPort := if q.mark = some n then { q with mark := none } else q
       let low := match x.view with
         | .vacant => false
         | .active _ => decide (cs ≠ []) || x.news
         | .lost => true
       exec (.collectEnd p) s =
         .next
           { s' with
             rqu :=
               { slots := s.rqu.slots.set n
                   { x with completions := cs, tags := x.tags.set c.tag .free, attention := low }
                 twp := drop s.rqu.twp
                 fwp := drop s.rqu.fwp } }) ∧
     (full = false ∨ (s.rqu.port p).mark = none →
       exec (.collectEnd p) s = .next { s' with rqu := s.rqu.setPort p { s.rqu.port p with mark := none } }))

/-! ## The two ports -/

/-- The frame check (R147): FFh over no byte; over one byte more, the check with the byte exclusive-ored in, shifted left eight times with 9Bh exclusive-ored in wherever the top bit falls out. Over bytes followed by one more it is 00h exactly where that one is their check byte, so the check passes for no other. The three values that the rule gives. -/
def Obligations.TheFrameCheckIsTheCrcOfTheBytes : Prop :=
  (∀ (bytes : List Byte) (b : Byte),
     let shift (c : Byte) : Byte := if c.toNat < 128 then c <<< 1 else (c <<< 1) ^^^ 0x9B
     frameCheck [] = 0xFF ∧
     frameCheck (bytes ++ [b]) = shift (shift (shift (shift (shift (shift (shift (shift (frameCheck bytes ^^^ b)))))))) ∧
     (frameCheck (bytes ++ [b]) = 0x00 ↔ b = frameCheck bytes)) ∧
  frameCheck [0x00] = 0x7B ∧ frameCheck [0x00, 0x01] = 0x2A ∧ frameCheck [0xFF] = 0x00

/-- A port acts on its next event with every answer it awaits in hand: the event acts as it does once RQU has taken all that stands in the port's path, in order (R120, R132, R149). The rules say that RQU answers in time; that its answers come at the latest with the port's next event is the model's reading, log 5. -/
def Obligations.PortsActWithTheirAnswersInHand : Prop :=
  ∀ (s t : State) (p : Port) (c : Instr), s.inReset = false → ¬s.settled p →
    s.after ((s.toRqu p).map (PortMsg.command p)) = some t →
    (p = .twp ∧ ((∃ b, c = .twpAddress b) ∨ (∃ b, c = .twpWriteByte b) ∨ (∃ e, c = .twpSegmentEnd e) ∨ c = .busClear ∨
        ∃ ack, c = .byteClockedOut ack) ∨
      p = .fwp ∧ (s.fwp.ssnLow = false ∧ (∃ high, c = .ssnFall high) ∨
        s.fwp.ssnLow = true ∧ (c = .ssnRise ∨ s.fwp.front.state ≠ .idle ∧ ∃ b, c = .fwpByteReceived b))) →
    exec c s = exec c t

/-- Which address bytes TWP acknowledges, and what each begins (R145, R146, R150 to R154): at the primary address a write, or a read that presents what the select held calls up; at the check-only address a write or a read under the rule's conditions; and nothing at any other. In reset TWP acknowledges no address and no byte (R145). The model's choices: a read of the primary address keeps a query held, and a read of the check-only address drops a select held, log 16; a query held that still waits to be passed presents FFh, 00h as a passed one does, log 17; a START in a segment that was not ended ends it as a repeated start does, and in reset the end of a segment and a bus clear do nothing, log 14. -/
def Obligations.TwpAnswersItsAddressesOutsideReset : Prop :=
  (∀ (s : State) (b : Byte), s.inReset = false → s.settled .twp → s.twp.front.state = .idle →
     let t := s.twp
     let address := b.toNat / 2
     let write := b.toNat % 2 = 0
     let primary := address = 0x58 + t.adr.val
     let guarded := address = 0x5C + t.adr.val
     let asked := ∃ q stage, t.held = some (.query q stage)
     let begins (x : Front) (held : Option Held) : State :=
       { s with twp := { t with front := x, nacked := false, held := held, sdaAck := true } }
     let shows (k : Presentation) (out : List Byte) : Front :=
       { Front.idle with state := .presenting, presentation := k, outgoing := out }
     let status :=
       [portStatusByte (4 - s.rqu.twp.queue.length - if s.rqu.twp.claim then 1 else 0) t.status t.checkOnly,
         refusalCode t.status.record.reason, t.status.record.lead, t.status.record.tagKind]
     (primary → write → exec (.twpAddress b) s = .next (begins { Front.idle with state := .receiving } none)) ∧
     (primary → ¬write →
       (∀ n session, t.held = some (.collect n session) →
         exec (.twpAddress b) s =
           .next ((begins (shows .completion []) none).setToRqu .twp (s.toRqu .twp ++ [.select n session]))) ∧
       (t.held = some .status →
         exec (.twpAddress b) s =
           .next ((begins (shows .status (status ++ [frameCheck status])) none).setPortStatus .twp
             { t.status with refusedSince := false })) ∧
       ((∀ n session, t.held ≠ some (.collect n session)) → t.held ≠ some .status →
         exec (.twpAddress b) s = .next (begins (shows .nothing []) t.held))) ∧
     (guarded → write → t.checkOnly = true →
       exec (.twpAddress b) s =
         .next (begins { Front.idle with state := .receiving, kind := some .checkOnlyQuery } none)) ∧
     (guarded → ¬write →
       (∀ q a, t.held = some (.query q (.answered a)) →
         exec (.twpAddress b) s = .next (begins (shows .answer [answerCode a, frameCheck [answerCode a]]) t.held)) ∧
       (∀ q, t.held = some (.query q .passed) ∨ t.held = some (.query q .waiting) →
         exec (.twpAddress b) s = .next (begins (shows .answer [0xFF, 0x00]) t.held)) ∧
       (t.checkOnly = true → ¬asked →
         exec (.twpAddress b) s = .next (begins (shows .answer [0x04, frameCheck [0x04]]) none))) ∧
     (¬primary → ¬(guarded ∧ (t.checkOnly = true ∨ ¬write ∧ asked)) →
       exec (.twpAddress b) s =
         .next { s with twp := { t with front := Front.idle, nacked := false, held := none, sdaAck := false } })) ∧
  (∀ (s t : State) (b : Byte),
     (s.inReset = false → s.settled .twp → s.twp.front.state ≠ .idle → exec (.twpSegmentEnd .repeatedStart) s = .next t →
       exec (.twpAddress b) s = exec (.twpAddress b) t) ∧
     (s.inReset = true →
       (∀ c, c = .twpAddress b ∨ c = .twpWriteByte b → exec c s = .next { s with twp := { s.twp with sdaAck := false } }) ∧
       (∀ e, exec (.twpSegmentEnd e) s = .next s) ∧ exec .busClear s = .next s ∧
       ∀ ack, exec (.byteClockedOut ack) s = .next { s with twp := { s.twp with sdaOut := 0xFF } }))

/-- What TWP does with a byte of a write segment (R148, R150, R152, R153, with R121 checks 1 and 3): a lead byte tells the kind, is refused BAD_LEAD, or asks RQU for the claim whose answer gives its acknowledge; a length byte above 16 is refused BAD_LENGTH; a byte past the frame's last is refused with nothing written yet; every other byte is taken and acknowledged. -/
def Obligations.TwpTakesOrRefusesAByte : Prop :=
  ∀ (s : State) (b : Byte), s.inReset = false → s.settled .twp →
    let x := s.twp.front
    let q := s.rqu.twp
    let goes (y : Front) (ack : Bool) : State := { s with twp := { s.twp with front := y, sdaAck := ack } }
    let refused (reason : RefusalReason) (lead tagKind : Byte) :=
      exec (.twpWriteByte b) s =
        .next
          { s with
            twp :=
              { s.twp with
                front := { x.received b with state := .refusing }
                sdaAck := false
                status := s.twp.status.refused reason lead tagKind }
            rqu := { s.rqu with twp := { q with claim := false } } }
    (x.state ≠ .receiving → exec (.twpWriteByte b) s = .next (goes x false)) ∧
    (x.state = .receiving → x.check = frameCheck x.bytes →
      (x.kind = none → x.bytes = [] →
        (b.toNat % 8 ≠ 0 ∨ b.toNat / 64 = 0 → refused .badLead b 0x00) ∧
        (b.toNat % 8 = 0 → b.toNat / 64 = 1 →
          exec (.twpWriteByte b) s =
            .next ((goes { x.received b with kind := some .request } false).setToRqu .twp (s.toRqu .twp ++ [.claim]))) ∧
        (b.toNat % 8 = 0 → b.toNat / 64 = 2 →
          exec (.twpWriteByte b) s = .next (goes { x.received b with kind := some .collectSelect } true)) ∧
        (b.toNat % 8 = 0 → b.toNat / 64 = 3 →
          exec (.twpWriteByte b) s = .next (goes { x.received b with kind := some .statusSelect } true))) ∧
      ∀ k, x.kind = some k →
        let long := k = .request ∧ x.bytes.length = 4 ∧ 16 < b.toNat
        (k.length x.bytes ≤ x.bytes.length →
          exec (.twpWriteByte b) s = .next (goes { x with extra := true, state := .refusing } false)) ∧
        (x.bytes.length < k.length x.bytes → long → refused .badLength (operandByte x.bytes 0) (operandByte x.bytes 3)) ∧
        (x.bytes.length < k.length x.bytes → ¬long → exec (.twpWriteByte b) s = .next (goes (x.received b) true)))

/-- The judgement of a write segment at its end (R149, R150, R152, R153): of a request, checks 4 to 6 in order and then the passing of the frame to RQU; of a select, whether it is held; of a query, whether it is passed to LEN, waits, or is answered CHECK_FAILED. A segment with no byte, or whose refusal was written at its byte, is not judged. That the refusal of a COLLECT-SELECT or STATUS-SELECT records 00h as its tag and kind byte, whatever bytes have come, is the model's reading, log 11. -/
def Obligations.AWriteSegmentIsJudgedAtItsEnd : Prop :=
  ∀ (s : State) (e : SegmentEnd), s.inReset = false → s.settled .twp →
    let x := s.twp.front
    let ends (t : State) (held : Option Held) : State :=
      { t with
        twp := { t.twp with front := Front.idle, nacked := false, held := if e = .stop then none else held } }
    let done (t : State) (held : Option Held) := exec (.twpSegmentEnd e) s = .next (ends t held)
    let lead := operandByte x.bytes 0
    (x.state = .idle → done s s.twp.held) ∧
    (x.state = .receiving ∨ x.state = .refusing →
      (x.kind = none → done s s.twp.held) ∧
      (x.state = .refusing → x.extra = false → x.kind ≠ some .checkOnlyQuery → done s s.twp.held) ∧
      ∀ k, x.kind = some k → x.state = .receiving ∨ x.extra = true ∨ k = .checkOnlyQuery →
        let short := x.bytes.length < k.length x.bytes
        let passes := ¬short ∧ x.extra = false ∧ x.check = 0
        (k ≠ .checkOnlyQuery →
          let refused (reason : RefusalReason) (tagKind : Byte) :=
            done
              { s with
                twp := { s.twp with status := s.twp.status.refused reason lead tagKind }
                rqu := { s.rqu with twp := { s.rqu.twp with claim := false } } } s.twp.held
          let tagKind := if k = .request then operandByte x.bytes 3 else 0x00
          (short → refused .shortFrame tagKind) ∧
          (¬short → x.extra = true → refused .badLength tagKind) ∧
          (¬short → x.extra = false → x.check ≠ 0 → refused .checkFailed tagKind) ∧
          (k = .request → passes → (∀ kind, kindCode kind ≠ tagKind.toNat % 32) → refused .badKind tagKind)) ∧
        (∀ kind, k = .request → passes → kindCode kind = (operandByte x.bytes 3).toNat % 32 →
          let f : Frame :=
            { slot := Fin.ofNat 8 (lead.toNat / 8)
              session := BitVec.ofNat 16 (operandAt x.bytes 1 2)
              tag := Fin.ofNat 8 ((operandByte x.bytes 3).toNat / 32)
              kind := kind
              operands := (x.bytes.drop 5).take (operandByte x.bytes 4).toNat }
          done (s.setToRqu .twp (s.toRqu .twp ++ [.arrival f])) s.twp.held) ∧
        (k = .collectSelect → passes →
          done s (some (.collect (Fin.ofNat 8 (lead.toNat / 8)) (BitVec.ofNat 16 (operandAt x.bytes 1 2))))) ∧
        (k = .statusSelect → passes → done s (some .status)) ∧
        (k = .checkOnlyQuery →
          let q : Query := ⟨nameAt x.bytes 0, BitVec.ofNat 32 (operandAt x.bytes 2 4), operandByte x.bytes 6⟩
          (¬passes → done s (some (.query q (.answered .checkFailed)))) ∧
          (passes → s.twp.queryOut = true → done s (some (.query q .waiting))) ∧
          (passes → s.twp.queryOut = false →
            done
              { s with
                twp := { s.twp with queryOut := true }
                paths := { s.paths with queries := s.paths.queries ++ [q] } } (some (.query q .passed)))))

/-- A byte clocked out of a read segment (R146, R150): the next byte of the presentation, FFh after its end, after a not-acknowledge, and outside a read segment; a not-acknowledge shifts out no further byte of the presentation. The end of a read segment (R146, R150, R152): a collect is reported to RQU, read in full or not; a status presentation read in full clears the reset indication, and refusal unread if no refusal has been written since (R136); one cut short, and any other read, changes nothing. A STOP drops what is held (R151, R154). That a not-acknowledge ends a status or check-only presentation as R150 says of a collect is the model's choice, log 29. -/
def Obligations.AReadSegmentShiftsOutAndReportsItsEnd : Prop :=
  (∀ (s : State) (ack : Bool), s.inReset = false → s.settled .twp →
     let t := s.twp
     let x := t.front
     (x.state ≠ .presenting → exec (.byteClockedOut ack) s = .next { s with twp := { t with sdaOut := 0xFF } }) ∧
     (x.state = .presenting → t.nacked = true →
       exec (.byteClockedOut ack) s = .next { s with twp := { t with sdaOut := 0xFF } }) ∧
     (x.state = .presenting → t.nacked = false → ∀ (h : x.sent < x.outgoing.length),
       exec (.byteClockedOut ack) s =
         .next
           { s with
             twp := { t with front := { x with sent := x.sent + 1 }, sdaOut := x.outgoing[x.sent], nacked := !ack } }) ∧
     (x.state = .presenting → t.nacked = false → x.outgoing.length ≤ x.sent →
       exec (.byteClockedOut ack) s = .next { s with twp := { t with sdaOut := 0xFF, nacked := !ack } })) ∧
  (∀ (s : State) (e : SegmentEnd), s.inReset = false → s.settled .twp → s.twp.front.state = .presenting →
     let x := s.twp.front
     let full := x.sent = x.outgoing.length
     let done (t : State) :=
       exec (.twpSegmentEnd e) s =
         .next
           { t with
             twp :=
               { t.twp with front := Front.idle, nacked := false, held := if e = .stop then none else s.twp.held } }
     (x.presentation = .completion → done (s.setToRqu .twp (s.toRqu .twp ++ [.collectEnd (decide full)]))) ∧
     (x.presentation = .status → full →
       done (s.setPortStatus .twp
         { s.twp.status with
           resetIndication := false
           refusalUnread := s.twp.status.refusalUnread && s.twp.status.refusedSince })) ∧
     (x.presentation = .status ∧ ¬full ∨ x.presentation = .nothing ∨ x.presentation = .answer → done s))

/-- A bus clear (R155): the front end goes IDLE, the frame being received and its claim are dropped, a collect is reported cut short, what is held is dropped, and BUS_CLEAR is recorded with the bytes of the frame as far as they had arrived; queues, tags and lists stay. That the bytes of a segment that TWP was refusing are recorded, and 00h twice for a check-only query, is the model's reading, log 12. -/
def Obligations.ABusClearDropsTheSegment : Prop :=
  ∀ s : State, s.inReset = false → s.settled .twp →
    let x := s.twp.front
    let lead := if x.kind = some .checkOnlyQuery then 0x00 else operandByte x.bytes 0
    let tagKind := if x.kind = some .request then operandByte x.bytes 3 else 0x00
    exec .busClear s =
      .next
        { s with
          twp :=
            { s.twp with
              front := Front.idle, nacked := false, held := none, sdaAck := false
              status := s.twp.status.refused .busClear lead tagKind }
          rqu := { s.rqu with twp := { s.rqu.twp with claim := false } }
          paths :=
            { s.paths with
              twpToRqu := s.paths.twpToRqu ++ if x.presentation = .completion then [.collectEnd false] else [] } }

/-- A fall of SSN begins a transaction outside reset: FWP drives SDO and fixes the status byte from its status items as they stand (R157, R158). While SSN is high, in reset, and from a reset to the next fall of SSN, FWP ignores what is clocked (R157, R163). The model's choices: in reset the level of SSN is followed, and nothing else, log 14; SCK high at the fall is kept as a flag, log 18. -/
def Obligations.ATransactionBeginsAtTheFallOfSsn : Prop :=
  (∀ (s : State) (high : Bool), s.fwp.ssnLow = false →
     (s.inReset = false → s.settled .fwp →
       exec (.ssnFall high) s =
         .next
           { s with
             fwp :=
               { s.fwp with
                 front := { Front.idle with state := .receiving }
                 ssnLow := true
                 sdoDriven := true
                 statusByte :=
                   portStatusByte (4 - s.rqu.fwp.queue.length - if s.rqu.fwp.claim then 1 else 0) s.fwp.status false
                 readLate := high } }) ∧
     (s.inReset = true → exec (.ssnFall high) s = .next { s with fwp := { s.fwp with ssnLow := true } })) ∧
  (∀ (s : State) (b : Byte), s.inReset = true ∨ s.fwp.ssnLow = false ∨ s.fwp.front.state = .idle →
     exec (.fwpByteReceived b) s = .next s)

/-- What FWP does with a byte received outside reset in a transaction, and the byte it shifts out meanwhile (R157 to R162, with R121 checks 1 and 3): the status byte goes out with the lead byte, and FFh with the rest of a frame; a lead byte FFh is held unjudged; a refused frame is discarded to its end; a select whose check byte fails is refused CHECK_FAILED, and one that passes is passed to RQU or fixes the status presentation. The model's readings: a select that fails enters REFUSING, log 26, and records 00h as its tag and kind byte, log 11. -/
def Obligations.FwpJudgesEachByte : Prop :=
  ∀ (s : State) (b : Byte), s.inReset = false → s.settled .fwp → s.fwp.ssnLow = true →
    let x := s.fwp.front
    let goes (y : Front) (out : Byte) : State := { s with fwp := { s.fwp with front := y, sdoOut := out } }
    let does (t : State) := exec (.fwpByteReceived b) s = .next t
    let refused (y : Front) (out : Byte) (reason : RefusalReason) (lead tagKind : Byte) :=
      does
        { s with
          fwp :=
            { s.fwp with
              front := { y with state := .refusing }
              sdoOut := out
              status := s.fwp.status.refused reason lead tagKind }
          rqu := { s.rqu with fwp := { s.rqu.fwp with claim := false } } }
    (x.state = .refusing → x.bytes ≠ [] → does (goes x 0xFF)) ∧
    (x.state = .presenting → x.bytes ≠ [] →
      (∀ h : x.sent < x.outgoing.length, does (goes { x with sent := x.sent + 1 } x.outgoing[x.sent])) ∧
      (x.outgoing.length ≤ x.sent → does (goes x 0xFF))) ∧
    (x.state = .receiving → x.check = frameCheck x.bytes →
      (x.bytes = [] → x.kind = none →
        let lead := s.fwp.statusByte
        (b = 0xFF → does (goes (x.received b) lead)) ∧
        (b ≠ 0xFF → b.toNat % 8 ≠ 0 ∨ b.toNat / 64 = 0 → refused (x.received b) lead .badLead b 0x00) ∧
        (b.toNat % 8 = 0 → b.toNat / 64 = 1 →
          does ((goes { x.received b with kind := some .request } lead).setToRqu .fwp (s.toRqu .fwp ++ [.claim]))) ∧
        (b.toNat % 8 = 0 → b.toNat / 64 = 2 → does (goes { x.received b with kind := some .collectSelect } lead)) ∧
        (b.toNat % 8 = 0 → b.toNat / 64 = 3 → does (goes { x.received b with kind := some .statusSelect } lead))) ∧
      (x.bytes = [0xFF] → x.kind = none → refused x 0xFF .badLead 0xFF 0x00) ∧
      (x.bytes ≠ [] → x.kind = some .request →
        let whole := x.bytes.length = (operandByte x.bytes 4).toNat + 6 ∨ (operandByte x.bytes 4).toNat + 6 < x.bytes.length
        let long := x.bytes.length = 4 ∧ 16 < b.toNat
        (whole → does (goes { x with extra := true } 0xFF)) ∧
        (¬whole → long → refused (x.received b) 0xFF .badLength (operandByte x.bytes 0) (operandByte x.bytes 3)) ∧
        (¬whole → ¬long → does (goes (x.received b) 0xFF))) ∧
      (∀ k, x.bytes ≠ [] → x.kind = some k → k = .collectSelect ∨ k = .statusSelect →
        let last := k.length x.bytes ≤ x.bytes.length + 1
        let y := x.received b
        (¬last → does (goes y 0xFF)) ∧
        (last → y.check ≠ 0 → refused y 0xFF .checkFailed (operandByte x.bytes 0) 0x00) ∧
        (last → y.check = 0 → k = .collectSelect →
          does ((goes { y with state := .presenting, presentation := .completion, outgoing := [], sent := 0 } 0xFF).setToRqu
            .fwp
            (s.toRqu .fwp ++
              [.select (Fin.ofNat 8 ((operandByte y.bytes 0).toNat / 8)) (BitVec.ofNat 16 (operandAt y.bytes 1 2))]))) ∧
        (last → y.check = 0 → k = .statusSelect →
          let status :=
            [portStatusByte (4 - s.rqu.fwp.queue.length - if s.rqu.fwp.claim then 1 else 0) s.fwp.status false,
              refusalCode s.fwp.status.record.reason, s.fwp.status.record.lead, s.fwp.status.record.tagKind]
          does ((goes
            { y with state := .presenting, presentation := .status, outgoing := status ++ [frameCheck status], sent := 0 }
            0xFF).setPortStatus .fwp { s.fwp.status with refusedSince := false }))))

/-- A rise of SSN ends the transaction with the judgements of R160 to R162: a request's checks 4 to 6 and the passing of the frame to RQU; SHORT_FRAME for a select cut off; the report of a collect; what a status presentation read in full clears. A transaction with no byte, or of FFh alone, changes nothing but that it ends (R157, R158). In reset only the level kept of SSN follows it: the model's choice, log 14. That a select cut off records 00h as its tag and kind byte is its reading, log 11. -/
def Obligations.SsnRiseEndsTheTransaction : Prop :=
  ∀ s : State, s.fwp.ssnLow = true →
    let x := s.fwp.front
    let ends (t : State) : State := { t with fwp := { t.fwp with front := Front.idle, sdoDriven := false, ssnLow := false } }
    let done (t : State) := exec .ssnRise s = .next (ends t)
    let lead := operandByte x.bytes 0
    let full := x.sent = x.outgoing.length
    (s.inReset = true → exec .ssnRise s = .next { s with fwp := { s.fwp with ssnLow := false } }) ∧
    (s.inReset = false → s.settled .fwp →
      (x.state = .idle ∨ x.state = .refusing ∨ x.state = .receiving ∧ x.kind = none → done s) ∧
      (x.state = .receiving →
        let refused (reason : RefusalReason) (tagKind : Byte) :=
          done
            { s with
              fwp := { s.fwp with status := s.fwp.status.refused reason lead tagKind }
              rqu := { s.rqu with fwp := { s.rqu.fwp with claim := false } } }
        (∀ k, x.kind = some k → k = .collectSelect ∨ k = .statusSelect → x.bytes.length < k.length x.bytes →
          refused .shortFrame 0x00) ∧
        (x.kind = some .request →
          let tagKind := operandByte x.bytes 3
          let short := x.bytes.length < (operandByte x.bytes 4).toNat + 6
          let passes := ¬short ∧ x.extra = false ∧ x.check = 0
          (short → refused .shortFrame tagKind) ∧
          (¬short → x.extra = true → refused .badLength tagKind) ∧
          (¬short → x.extra = false → x.check ≠ 0 → refused .checkFailed tagKind) ∧
          (passes → (∀ kind, kindCode kind ≠ tagKind.toNat % 32) → refused .badKind tagKind) ∧
          (∀ kind, passes → kindCode kind = tagKind.toNat % 32 →
            let f : Frame :=
              { slot := Fin.ofNat 8 (lead.toNat / 8)
                session := BitVec.ofNat 16 (operandAt x.bytes 1 2)
                tag := Fin.ofNat 8 (tagKind.toNat / 32)
                kind := kind
                operands := (x.bytes.drop 5).take (operandByte x.bytes 4).toNat }
            done (s.setToRqu .fwp (s.toRqu .fwp ++ [.arrival f]))))) ∧
      (x.state = .presenting →
        (x.presentation = .completion → done (s.setToRqu .fwp (s.toRqu .fwp ++ [.collectEnd (decide full)]))) ∧
        (x.presentation = .status → full →
          done (s.setPortStatus .fwp
            { s.fwp.status with
              resetIndication := false
              refusalUnread := s.fwp.status.refusalUnread && s.fwp.status.refusedSince })) ∧
        (x.presentation = .status → ¬full → done s)))

/-! ## Laws that every step keeps -/

/-- Every step keeps the catalog, the lease table, the wait pool and the slots in agreement: holder modes and counts are those of the HELD records, which carry their entry's epoch (R14, R15); every wait stands once in the queue of its resource, the ACQUIRE waits of a queue in order of non-increasing priority class, and has its record (R50, R52, R53, R69); an UPGRADE is pending exactly while one is parked, at the head, beside another holder (R56, R67); a record in use is of the session in force of an ACTIVE slot, one for each slot and resource (R28, R97). -/
def Obligations.EveryStepKeepsTheTablesInAgreement : Prop :=
  ∀ s t : State, s.len.agrees → step s = .next t → t.len.agrees

/-- Every step keeps profiles within their ceilings with PROFILE in slot 0 (R105, R108), names unique (R3), generations other than 0 (R19), FREE records without a session (R23), a keepalive deadline exactly for an ACTIVE slot, and each slot's news as its marks say (R24). -/
def Obligations.EveryStepKeepsTheLawsOfLen : Prop :=
  ∀ s t : State, step s = .next t →
    (s.len.lawful → t.len.lawful) ∧ (s.len.newsMatchesMarks → t.len.newsMatchesMarks)

/-- Every step keeps the attention lines driven as R135 says and the presented marks on completions that stand (R133); the intake of each port within its 4 places, each frame to be checked with its claim, and no more than one answer awaited (R120); and each front end's frame check running over what it has received, which is never more than a frame (R146, R147). -/
def Obligations.EveryStepKeepsTheLawsOfRquAndThePorts : Prop :=
  ∀ s t : State, step s = .next t →
    (s.rqu.attentionDriven ∧ s.rqu.marksStand → t.rqu.attentionDriven ∧ t.rqu.marksStand) ∧
    ((∀ p, s.intakeKept p) ∧ s.framesKept → (∀ p, t.intakeKept p) ∧ t.framesKept)

/-- The laws that every step keeps hold right after power-on reset, so that they hold in every state that commands can bring about from it. -/
def Obligations.TheLawsHoldAtReset : Prop :=
  let s := State.reset
  s.len.agrees ∧ s.len.lawful ∧ s.len.newsMatchesMarks ∧ s.lck.ordered ∧ s.rqu.attentionDriven ∧ s.rqu.marksStand ∧
    (∀ p, s.intakeKept p) ∧ s.framesKept
end

