-- ==== Sys2Proof/Laws/State.lean ====
section
/-! SUPPORT. One lemma per field per update, each true by its definition, so that no proof unfolds a record update. -/

namespace Sys2Proof.Machine

/-! ## LEN's register access -/

@[simp] theorem Len.setEntry_catalog (len : Len) (r : ResIx) (x : Entry) : (len.setEntry r x).catalog = len.catalog.set r x := rfl
@[simp] theorem Len.setEntry_leases (len : Len) (r : ResIx) (x : Entry) : (len.setEntry r x).leases = len.leases := rfl
@[simp] theorem Len.setEntry_waits (len : Len) (r : ResIx) (x : Entry) : (len.setEntry r x).waits = len.waits := rfl
@[simp] theorem Len.setEntry_slots (len : Len) (r : ResIx) (x : Entry) : (len.setEntry r x).slots = len.slots := rfl
@[simp] theorem Len.setEntry_waitSerial (len : Len) (r : ResIx) (x : Entry) : (len.setEntry r x).waitSerial = len.waitSerial := rfl
@[simp] theorem Len.setEntry_frozen (len : Len) (r : ResIx) (x : Entry) : (len.setEntry r x).frozen = len.frozen := rfl
@[simp] theorem Len.setEntry_checkOnly (len : Len) (r : ResIx) (x : Entry) : (len.setEntry r x).checkOnly = len.checkOnly := rfl
@[simp] theorem Len.setEntry_lastPort (len : Len) (r : ResIx) (x : Entry) : (len.setEntry r x).lastPort = len.lastPort := rfl
@[simp] theorem Len.setEntry_configOpen (len : Len) (r : ResIx) (x : Entry) : (len.setEntry r x).configOpen = len.configOpen := rfl

@[simp] theorem Len.setLease_catalog (len : Len) (i : RecIx) (x : Lease) : (len.setLease i x).catalog = len.catalog := rfl
@[simp] theorem Len.setLease_leases (len : Len) (i : RecIx) (x : Lease) : (len.setLease i x).leases = len.leases.set i x := rfl
@[simp] theorem Len.setLease_waits (len : Len) (i : RecIx) (x : Lease) : (len.setLease i x).waits = len.waits := rfl
@[simp] theorem Len.setLease_slots (len : Len) (i : RecIx) (x : Lease) : (len.setLease i x).slots = len.slots := rfl
@[simp] theorem Len.setLease_waitSerial (len : Len) (i : RecIx) (x : Lease) : (len.setLease i x).waitSerial = len.waitSerial := rfl
@[simp] theorem Len.setLease_frozen (len : Len) (i : RecIx) (x : Lease) : (len.setLease i x).frozen = len.frozen := rfl
@[simp] theorem Len.setLease_checkOnly (len : Len) (i : RecIx) (x : Lease) : (len.setLease i x).checkOnly = len.checkOnly := rfl
@[simp] theorem Len.setLease_lastPort (len : Len) (i : RecIx) (x : Lease) : (len.setLease i x).lastPort = len.lastPort := rfl
@[simp] theorem Len.setLease_configOpen (len : Len) (i : RecIx) (x : Lease) : (len.setLease i x).configOpen = len.configOpen := rfl

@[simp] theorem Len.setWait_catalog (len : Len) (w : WaitIx) (x : Option Wait) : (len.setWait w x).catalog = len.catalog := rfl
@[simp] theorem Len.setWait_leases (len : Len) (w : WaitIx) (x : Option Wait) : (len.setWait w x).leases = len.leases := rfl
@[simp] theorem Len.setWait_waits (len : Len) (w : WaitIx) (x : Option Wait) : (len.setWait w x).waits = len.waits.set w x := rfl
@[simp] theorem Len.setWait_slots (len : Len) (w : WaitIx) (x : Option Wait) : (len.setWait w x).slots = len.slots := rfl
@[simp] theorem Len.setWait_waitSerial (len : Len) (w : WaitIx) (x : Option Wait) : (len.setWait w x).waitSerial = len.waitSerial := rfl
@[simp] theorem Len.setWait_frozen (len : Len) (w : WaitIx) (x : Option Wait) : (len.setWait w x).frozen = len.frozen := rfl
@[simp] theorem Len.setWait_checkOnly (len : Len) (w : WaitIx) (x : Option Wait) : (len.setWait w x).checkOnly = len.checkOnly := rfl
@[simp] theorem Len.setWait_lastPort (len : Len) (w : WaitIx) (x : Option Wait) : (len.setWait w x).lastPort = len.lastPort := rfl
@[simp] theorem Len.setWait_configOpen (len : Len) (w : WaitIx) (x : Option Wait) : (len.setWait w x).configOpen = len.configOpen := rfl

@[simp] theorem Len.setSlot_catalog (len : Len) (n : SlotIx) (x : Slot) : (len.setSlot n x).catalog = len.catalog := rfl
@[simp] theorem Len.setSlot_leases (len : Len) (n : SlotIx) (x : Slot) : (len.setSlot n x).leases = len.leases := rfl
@[simp] theorem Len.setSlot_waits (len : Len) (n : SlotIx) (x : Slot) : (len.setSlot n x).waits = len.waits := rfl
@[simp] theorem Len.setSlot_slots (len : Len) (n : SlotIx) (x : Slot) : (len.setSlot n x).slots = len.slots.set n x := rfl
@[simp] theorem Len.setSlot_waitSerial (len : Len) (n : SlotIx) (x : Slot) : (len.setSlot n x).waitSerial = len.waitSerial := rfl
@[simp] theorem Len.setSlot_frozen (len : Len) (n : SlotIx) (x : Slot) : (len.setSlot n x).frozen = len.frozen := rfl
@[simp] theorem Len.setSlot_checkOnly (len : Len) (n : SlotIx) (x : Slot) : (len.setSlot n x).checkOnly = len.checkOnly := rfl
@[simp] theorem Len.setSlot_lastPort (len : Len) (n : SlotIx) (x : Slot) : (len.setSlot n x).lastPort = len.lastPort := rfl
@[simp] theorem Len.setSlot_configOpen (len : Len) (n : SlotIx) (x : Slot) : (len.setSlot n x).configOpen = len.configOpen := rfl

/-! ## Events of LEN -/

@[simp] theorem LenEvent.modEntry_now (e : LenEvent) (r : ResIx) (f : Entry → Entry) : (e.modEntry r f).now = e.now := rfl
@[simp] theorem LenEvent.modEntry_len (e : LenEvent) (r : ResIx) (f : Entry → Entry) : (e.modEntry r f).len = e.len.setEntry r (f e.len.catalog[r]) := rfl
@[simp] theorem LenEvent.modEntry_toLck (e : LenEvent) (r : ResIx) (f : Entry → Entry) : (e.modEntry r f).toLck = e.toLck := rfl
@[simp] theorem LenEvent.modEntry_toRqu (e : LenEvent) (r : ResIx) (f : Entry → Entry) : (e.modEntry r f).toRqu = e.toRqu := rfl
@[simp] theorem LenEvent.modEntry_toTwp (e : LenEvent) (r : ResIx) (f : Entry → Entry) : (e.modEntry r f).toTwp = e.toTwp := rfl

@[simp] theorem LenEvent.modLease_now (e : LenEvent) (i : RecIx) (f : Lease → Lease) : (e.modLease i f).now = e.now := rfl
@[simp] theorem LenEvent.modLease_len (e : LenEvent) (i : RecIx) (f : Lease → Lease) : (e.modLease i f).len = e.len.setLease i (f e.len.leases[i]) := rfl
@[simp] theorem LenEvent.modLease_toLck (e : LenEvent) (i : RecIx) (f : Lease → Lease) : (e.modLease i f).toLck = e.toLck := rfl
@[simp] theorem LenEvent.modLease_toRqu (e : LenEvent) (i : RecIx) (f : Lease → Lease) : (e.modLease i f).toRqu = e.toRqu := rfl
@[simp] theorem LenEvent.modLease_toTwp (e : LenEvent) (i : RecIx) (f : Lease → Lease) : (e.modLease i f).toTwp = e.toTwp := rfl

@[simp] theorem LenEvent.modSlot_now (e : LenEvent) (n : SlotIx) (f : Slot → Slot) : (e.modSlot n f).now = e.now := rfl
@[simp] theorem LenEvent.modSlot_len (e : LenEvent) (n : SlotIx) (f : Slot → Slot) : (e.modSlot n f).len = e.len.setSlot n (f e.len.slots[n]) := rfl
@[simp] theorem LenEvent.modSlot_toLck (e : LenEvent) (n : SlotIx) (f : Slot → Slot) : (e.modSlot n f).toLck = e.toLck := rfl
@[simp] theorem LenEvent.modSlot_toRqu (e : LenEvent) (n : SlotIx) (f : Slot → Slot) : (e.modSlot n f).toRqu = e.toRqu := rfl
@[simp] theorem LenEvent.modSlot_toTwp (e : LenEvent) (n : SlotIx) (f : Slot → Slot) : (e.modSlot n f).toTwp = e.toTwp := rfl

@[simp] theorem LenEvent.insertDeadline_now (e : LenEvent) (d : Deadline) : (e.insertDeadline d).now = e.now := rfl
@[simp] theorem LenEvent.insertDeadline_len (e : LenEvent) (d : Deadline) : (e.insertDeadline d).len = e.len := rfl
@[simp] theorem LenEvent.insertDeadline_toLck (e : LenEvent) (d : Deadline) : (e.insertDeadline d).toLck = e.toLck ++ [.insert d] := rfl
@[simp] theorem LenEvent.insertDeadline_toRqu (e : LenEvent) (d : Deadline) : (e.insertDeadline d).toRqu = e.toRqu := rfl
@[simp] theorem LenEvent.insertDeadline_toTwp (e : LenEvent) (d : Deadline) : (e.insertDeadline d).toTwp = e.toTwp := rfl

@[simp] theorem LenEvent.removeDeadline_now (e : LenEvent) (d : Deadline) : (e.removeDeadline d).now = e.now := rfl
@[simp] theorem LenEvent.removeDeadline_len (e : LenEvent) (d : Deadline) : (e.removeDeadline d).len = e.len := rfl
@[simp] theorem LenEvent.removeDeadline_toLck (e : LenEvent) (d : Deadline) : (e.removeDeadline d).toLck = e.toLck ++ [.remove d] := rfl
@[simp] theorem LenEvent.removeDeadline_toRqu (e : LenEvent) (d : Deadline) : (e.removeDeadline d).toRqu = e.toRqu := rfl
@[simp] theorem LenEvent.removeDeadline_toTwp (e : LenEvent) (d : Deadline) : (e.removeDeadline d).toTwp = e.toTwp := rfl

@[simp] theorem LenEvent.notify_now (e : LenEvent) (m : RquMsg) : (e.notify m).now = e.now := rfl
@[simp] theorem LenEvent.notify_len (e : LenEvent) (m : RquMsg) : (e.notify m).len = e.len := rfl
@[simp] theorem LenEvent.notify_toLck (e : LenEvent) (m : RquMsg) : (e.notify m).toLck = e.toLck := rfl
@[simp] theorem LenEvent.notify_toRqu (e : LenEvent) (m : RquMsg) : (e.notify m).toRqu = e.toRqu ++ [m] := rfl
@[simp] theorem LenEvent.notify_toTwp (e : LenEvent) (m : RquMsg) : (e.notify m).toTwp = e.toTwp := rfl

@[simp] theorem LenEvent.complete_now (e : LenEvent) (n : SlotIx) (c : Completion) : (e.complete n c).now = e.now := rfl
@[simp] theorem LenEvent.complete_len (e : LenEvent) (n : SlotIx) (c : Completion) : (e.complete n c).len = e.len.setSlot n { e.len.slots[n] with answered := e.len.slots[n].answered.set c.tag true } := rfl
@[simp] theorem LenEvent.complete_toLck (e : LenEvent) (n : SlotIx) (c : Completion) : (e.complete n c).toLck = e.toLck := rfl
@[simp] theorem LenEvent.complete_toRqu (e : LenEvent) (n : SlotIx) (c : Completion) : (e.complete n c).toRqu = e.toRqu ++ [.completion n c] := rfl
@[simp] theorem LenEvent.complete_toTwp (e : LenEvent) (n : SlotIx) (c : Completion) : (e.complete n c).toTwp = e.toTwp := rfl

@[simp] theorem LenEvent.replyWith_now (e : LenEvent) (f : Frame) (st : Status) (b : List Byte) : (e.replyWith f st b).now = e.now := rfl
@[simp] theorem LenEvent.replyWith_len (e : LenEvent) (f : Frame) (st : Status) (b : List Byte) : (e.replyWith f st b).len = e.len.setSlot f.slot { e.len.slots[f.slot] with answered := e.len.slots[f.slot].answered.set f.tag true } := rfl
@[simp] theorem LenEvent.replyWith_toLck (e : LenEvent) (f : Frame) (st : Status) (b : List Byte) : (e.replyWith f st b).toLck = e.toLck := rfl
@[simp] theorem LenEvent.replyWith_toRqu (e : LenEvent) (f : Frame) (st : Status) (b : List Byte) : (e.replyWith f st b).toRqu = e.toRqu ++ [.completion f.slot ⟨f.tag, f.kind, st, b⟩] := rfl
@[simp] theorem LenEvent.replyWith_toTwp (e : LenEvent) (f : Frame) (st : Status) (b : List Byte) : (e.replyWith f st b).toTwp = e.toTwp := rfl

@[simp] theorem LenEvent.reply_now (e : LenEvent) (f : Frame) (st : Status) : (e.reply f st).now = e.now := rfl
@[simp] theorem LenEvent.reply_len (e : LenEvent) (f : Frame) (st : Status) : (e.reply f st).len = e.len.setSlot f.slot { e.len.slots[f.slot] with answered := e.len.slots[f.slot].answered.set f.tag true } := rfl
@[simp] theorem LenEvent.reply_toLck (e : LenEvent) (f : Frame) (st : Status) : (e.reply f st).toLck = e.toLck := rfl
@[simp] theorem LenEvent.reply_toRqu (e : LenEvent) (f : Frame) (st : Status) : (e.reply f st).toRqu = e.toRqu ++ [.completion f.slot ⟨f.tag, f.kind, st, []⟩] := rfl
@[simp] theorem LenEvent.reply_toTwp (e : LenEvent) (f : Frame) (st : Status) : (e.reply f st).toTwp = e.toTwp := rfl

@[simp] theorem LenEvent.clearAnswered_now (e : LenEvent) (n : SlotIx) : (e.clearAnswered n).now = e.now := rfl
@[simp] theorem LenEvent.clearAnswered_len (e : LenEvent) (n : SlotIx) : (e.clearAnswered n).len = e.len.setSlot n { e.len.slots[n] with answered := Vector.replicate 8 false } := rfl
@[simp] theorem LenEvent.clearAnswered_toLck (e : LenEvent) (n : SlotIx) : (e.clearAnswered n).toLck = e.toLck := rfl
@[simp] theorem LenEvent.clearAnswered_toRqu (e : LenEvent) (n : SlotIx) : (e.clearAnswered n).toRqu = e.toRqu := rfl
@[simp] theorem LenEvent.clearAnswered_toTwp (e : LenEvent) (n : SlotIx) : (e.clearAnswered n).toTwp = e.toTwp := rfl

/-! ## The machine -/

@[simp] theorem State.setFront_por (s : State) (p : Port) (x : Front) : (s.setFront p x).por = s.por := by cases p <;> rfl
@[simp] theorem State.setFront_rstnLow (s : State) (p : Port) (x : Front) : (s.setFront p x).rstnLow = s.rstnLow := by cases p <;> rfl
@[simp] theorem State.setFront_len (s : State) (p : Port) (x : Front) : (s.setFront p x).len = s.len := by cases p <;> rfl
@[simp] theorem State.setFront_lck (s : State) (p : Port) (x : Front) : (s.setFront p x).lck = s.lck := by cases p <;> rfl
@[simp] theorem State.setFront_rqu (s : State) (p : Port) (x : Front) : (s.setFront p x).rqu = s.rqu := by cases p <;> rfl
@[simp] theorem State.setFront_paths (s : State) (p : Port) (x : Front) : (s.setFront p x).paths = s.paths := by cases p <;> rfl
@[simp] theorem State.setFront_pending (s : State) (p : Port) (x : Front) : (s.setFront p x).pending = s.pending := by cases p <;> rfl

@[simp] theorem State.setPortStatus_por (s : State) (p : Port) (x : PortStatus) : (s.setPortStatus p x).por = s.por := by cases p <;> rfl
@[simp] theorem State.setPortStatus_rstnLow (s : State) (p : Port) (x : PortStatus) : (s.setPortStatus p x).rstnLow = s.rstnLow := by cases p <;> rfl
@[simp] theorem State.setPortStatus_len (s : State) (p : Port) (x : PortStatus) : (s.setPortStatus p x).len = s.len := by cases p <;> rfl
@[simp] theorem State.setPortStatus_lck (s : State) (p : Port) (x : PortStatus) : (s.setPortStatus p x).lck = s.lck := by cases p <;> rfl
@[simp] theorem State.setPortStatus_rqu (s : State) (p : Port) (x : PortStatus) : (s.setPortStatus p x).rqu = s.rqu := by cases p <;> rfl
@[simp] theorem State.setPortStatus_paths (s : State) (p : Port) (x : PortStatus) : (s.setPortStatus p x).paths = s.paths := by cases p <;> rfl
@[simp] theorem State.setPortStatus_pending (s : State) (p : Port) (x : PortStatus) : (s.setPortStatus p x).pending = s.pending := by cases p <;> rfl

@[simp] theorem State.setToRqu_por (s : State) (p : Port) (ms : List PortMsg) : (s.setToRqu p ms).por = s.por := by cases p <;> rfl
@[simp] theorem State.setToRqu_rstnLow (s : State) (p : Port) (ms : List PortMsg) : (s.setToRqu p ms).rstnLow = s.rstnLow := by cases p <;> rfl
@[simp] theorem State.setToRqu_len (s : State) (p : Port) (ms : List PortMsg) : (s.setToRqu p ms).len = s.len := by cases p <;> rfl
@[simp] theorem State.setToRqu_lck (s : State) (p : Port) (ms : List PortMsg) : (s.setToRqu p ms).lck = s.lck := by cases p <;> rfl
@[simp] theorem State.setToRqu_rqu (s : State) (p : Port) (ms : List PortMsg) : (s.setToRqu p ms).rqu = s.rqu := by cases p <;> rfl
@[simp] theorem State.setToRqu_twp (s : State) (p : Port) (ms : List PortMsg) : (s.setToRqu p ms).twp = s.twp := by cases p <;> rfl
@[simp] theorem State.setToRqu_fwp (s : State) (p : Port) (ms : List PortMsg) : (s.setToRqu p ms).fwp = s.fwp := by cases p <;> rfl
@[simp] theorem State.setToRqu_pending (s : State) (p : Port) (ms : List PortMsg) : (s.setToRqu p ms).pending = s.pending := by cases p <;> rfl

@[simp] theorem State.sendToRqu_por (s : State) (p : Port) (m : PortMsg) : (s.sendToRqu p m).por = s.por := by cases p <;> rfl
@[simp] theorem State.sendToRqu_rstnLow (s : State) (p : Port) (m : PortMsg) : (s.sendToRqu p m).rstnLow = s.rstnLow := by cases p <;> rfl
@[simp] theorem State.sendToRqu_len (s : State) (p : Port) (m : PortMsg) : (s.sendToRqu p m).len = s.len := by cases p <;> rfl
@[simp] theorem State.sendToRqu_lck (s : State) (p : Port) (m : PortMsg) : (s.sendToRqu p m).lck = s.lck := by cases p <;> rfl
@[simp] theorem State.sendToRqu_rqu (s : State) (p : Port) (m : PortMsg) : (s.sendToRqu p m).rqu = s.rqu := by cases p <;> rfl
@[simp] theorem State.sendToRqu_twp (s : State) (p : Port) (m : PortMsg) : (s.sendToRqu p m).twp = s.twp := by cases p <;> rfl
@[simp] theorem State.sendToRqu_fwp (s : State) (p : Port) (m : PortMsg) : (s.sendToRqu p m).fwp = s.fwp := by cases p <;> rfl
@[simp] theorem State.sendToRqu_pending (s : State) (p : Port) (m : PortMsg) : (s.sendToRqu p m).pending = s.pending := by cases p <;> rfl

@[simp] theorem State.modRquPort_por (s : State) (p : Port) (f : RquPort → RquPort) : (s.modRquPort p f).por = s.por := rfl
@[simp] theorem State.modRquPort_rstnLow (s : State) (p : Port) (f : RquPort → RquPort) : (s.modRquPort p f).rstnLow = s.rstnLow := rfl
@[simp] theorem State.modRquPort_len (s : State) (p : Port) (f : RquPort → RquPort) : (s.modRquPort p f).len = s.len := rfl
@[simp] theorem State.modRquPort_lck (s : State) (p : Port) (f : RquPort → RquPort) : (s.modRquPort p f).lck = s.lck := rfl
@[simp] theorem State.modRquPort_rqu (s : State) (p : Port) (f : RquPort → RquPort) : (s.modRquPort p f).rqu = s.rqu.setPort p (f (s.rqu.port p)) := rfl
@[simp] theorem State.modRquPort_twp (s : State) (p : Port) (f : RquPort → RquPort) : (s.modRquPort p f).twp = s.twp := rfl
@[simp] theorem State.modRquPort_fwp (s : State) (p : Port) (f : RquPort → RquPort) : (s.modRquPort p f).fwp = s.fwp := rfl
@[simp] theorem State.modRquPort_paths (s : State) (p : Port) (f : RquPort → RquPort) : (s.modRquPort p f).paths = s.paths := rfl
@[simp] theorem State.modRquPort_pending (s : State) (p : Port) (f : RquPort → RquPort) : (s.modRquPort p f).pending = s.pending := rfl

@[simp] theorem State.modRquSlot_por (s : State) (n : SlotIx) (f : RquSlot → RquSlot) : (s.modRquSlot n f).por = s.por := rfl
@[simp] theorem State.modRquSlot_rstnLow (s : State) (n : SlotIx) (f : RquSlot → RquSlot) : (s.modRquSlot n f).rstnLow = s.rstnLow := rfl
@[simp] theorem State.modRquSlot_len (s : State) (n : SlotIx) (f : RquSlot → RquSlot) : (s.modRquSlot n f).len = s.len := rfl
@[simp] theorem State.modRquSlot_lck (s : State) (n : SlotIx) (f : RquSlot → RquSlot) : (s.modRquSlot n f).lck = s.lck := rfl
@[simp] theorem State.modRquSlot_twp (s : State) (n : SlotIx) (f : RquSlot → RquSlot) : (s.modRquSlot n f).twp = s.twp := rfl
@[simp] theorem State.modRquSlot_fwp (s : State) (n : SlotIx) (f : RquSlot → RquSlot) : (s.modRquSlot n f).fwp = s.fwp := rfl
@[simp] theorem State.modRquSlot_paths (s : State) (n : SlotIx) (f : RquSlot → RquSlot) : (s.modRquSlot n f).paths = s.paths := rfl
@[simp] theorem State.modRquSlot_pending (s : State) (n : SlotIx) (f : RquSlot → RquSlot) : (s.modRquSlot n f).pending = s.pending := rfl

@[simp] theorem State.writeRefusal_por (s : State) (p : Port) (r : RefusalRecord) : (s.writeRefusal p r).por = s.por := by cases p <;> rfl
@[simp] theorem State.writeRefusal_rstnLow (s : State) (p : Port) (r : RefusalRecord) : (s.writeRefusal p r).rstnLow = s.rstnLow := by cases p <;> rfl
@[simp] theorem State.writeRefusal_len (s : State) (p : Port) (r : RefusalRecord) : (s.writeRefusal p r).len = s.len := by cases p <;> rfl
@[simp] theorem State.writeRefusal_lck (s : State) (p : Port) (r : RefusalRecord) : (s.writeRefusal p r).lck = s.lck := by cases p <;> rfl
@[simp] theorem State.writeRefusal_rqu (s : State) (p : Port) (r : RefusalRecord) : (s.writeRefusal p r).rqu = s.rqu := by cases p <;> rfl
@[simp] theorem State.writeRefusal_paths (s : State) (p : Port) (r : RefusalRecord) : (s.writeRefusal p r).paths = s.paths := by cases p <;> rfl
@[simp] theorem State.writeRefusal_pending (s : State) (p : Port) (r : RefusalRecord) : (s.writeRefusal p r).pending = s.pending := by cases p <;> rfl

@[simp] theorem State.releaseClaim_por (s : State) (p : Port) : (s.releaseClaim p).por = s.por := rfl
@[simp] theorem State.releaseClaim_rstnLow (s : State) (p : Port) : (s.releaseClaim p).rstnLow = s.rstnLow := rfl
@[simp] theorem State.releaseClaim_len (s : State) (p : Port) : (s.releaseClaim p).len = s.len := rfl
@[simp] theorem State.releaseClaim_lck (s : State) (p : Port) : (s.releaseClaim p).lck = s.lck := rfl
@[simp] theorem State.releaseClaim_rqu (s : State) (p : Port) : (s.releaseClaim p).rqu = s.rqu.setPort p { s.rqu.port p with claim := false } := rfl
@[simp] theorem State.releaseClaim_twp (s : State) (p : Port) : (s.releaseClaim p).twp = s.twp := rfl
@[simp] theorem State.releaseClaim_fwp (s : State) (p : Port) : (s.releaseClaim p).fwp = s.fwp := rfl
@[simp] theorem State.releaseClaim_paths (s : State) (p : Port) : (s.releaseClaim p).paths = s.paths := rfl
@[simp] theorem State.releaseClaim_pending (s : State) (p : Port) : (s.releaseClaim p).pending = s.pending := rfl

@[simp] theorem State.refuseFrame_por (s : State) (p : Port) (r : RefusalRecord) : (s.refuseFrame p r).por = s.por := by cases p <;> rfl
@[simp] theorem State.refuseFrame_rstnLow (s : State) (p : Port) (r : RefusalRecord) : (s.refuseFrame p r).rstnLow = s.rstnLow := by cases p <;> rfl
@[simp] theorem State.refuseFrame_len (s : State) (p : Port) (r : RefusalRecord) : (s.refuseFrame p r).len = s.len := by cases p <;> rfl
@[simp] theorem State.refuseFrame_lck (s : State) (p : Port) (r : RefusalRecord) : (s.refuseFrame p r).lck = s.lck := by cases p <;> rfl
@[simp] theorem State.refuseFrame_rqu (s : State) (p : Port) (r : RefusalRecord) : (s.refuseFrame p r).rqu = s.rqu.setPort p { s.rqu.port p with claim := false } := by cases p <;> rfl
@[simp] theorem State.refuseFrame_paths (s : State) (p : Port) (r : RefusalRecord) : (s.refuseFrame p r).paths = s.paths := by cases p <;> rfl
@[simp] theorem State.refuseFrame_pending (s : State) (p : Port) (r : RefusalRecord) : (s.refuseFrame p r).pending = s.pending := by cases p <;> rfl

@[simp] theorem State.dropMarks_por (s : State) (n : SlotIx) : (s.dropMarks n).por = s.por := rfl
@[simp] theorem State.dropMarks_rstnLow (s : State) (n : SlotIx) : (s.dropMarks n).rstnLow = s.rstnLow := rfl
@[simp] theorem State.dropMarks_len (s : State) (n : SlotIx) : (s.dropMarks n).len = s.len := rfl
@[simp] theorem State.dropMarks_lck (s : State) (n : SlotIx) : (s.dropMarks n).lck = s.lck := rfl
@[simp] theorem State.dropMarks_twp (s : State) (n : SlotIx) : (s.dropMarks n).twp = s.twp := rfl
@[simp] theorem State.dropMarks_fwp (s : State) (n : SlotIx) : (s.dropMarks n).fwp = s.fwp := rfl
@[simp] theorem State.dropMarks_paths (s : State) (n : SlotIx) : (s.dropMarks n).paths = s.paths := rfl
@[simp] theorem State.dropMarks_pending (s : State) (n : SlotIx) : (s.dropMarks n).pending = s.pending := rfl

@[simp] theorem State.popFrame_por (s : State) (p : Port) : (s.popFrame p).por = s.por := rfl
@[simp] theorem State.popFrame_rstnLow (s : State) (p : Port) : (s.popFrame p).rstnLow = s.rstnLow := rfl
@[simp] theorem State.popFrame_len (s : State) (p : Port) : (s.popFrame p).len = { s.len with lastPort := p } := rfl
@[simp] theorem State.popFrame_lck (s : State) (p : Port) : (s.popFrame p).lck = s.lck := rfl
@[simp] theorem State.popFrame_rqu (s : State) (p : Port) : (s.popFrame p).rqu = s.rqu.setPort p { s.rqu.port p with queue := (s.rqu.port p).queue.tail } := rfl
@[simp] theorem State.popFrame_twp (s : State) (p : Port) : (s.popFrame p).twp = s.twp := rfl
@[simp] theorem State.popFrame_fwp (s : State) (p : Port) : (s.popFrame p).fwp = s.fwp := rfl
@[simp] theorem State.popFrame_paths (s : State) (p : Port) : (s.popFrame p).paths = s.paths := rfl
@[simp] theorem State.popFrame_pending (s : State) (p : Port) : (s.popFrame p).pending = s.pending := rfl

@[simp] theorem State.popExpiry_por (s : State)  : s.popExpiry.por = s.por := rfl
@[simp] theorem State.popExpiry_rstnLow (s : State)  : s.popExpiry.rstnLow = s.rstnLow := rfl
@[simp] theorem State.popExpiry_len (s : State)  : s.popExpiry.len = s.len := rfl
@[simp] theorem State.popExpiry_lck (s : State)  : s.popExpiry.lck = s.lck := rfl
@[simp] theorem State.popExpiry_rqu (s : State)  : s.popExpiry.rqu = s.rqu := rfl
@[simp] theorem State.popExpiry_twp (s : State)  : s.popExpiry.twp = s.twp := rfl
@[simp] theorem State.popExpiry_fwp (s : State)  : s.popExpiry.fwp = s.fwp := rfl
@[simp] theorem State.popExpiry_paths (s : State)  : s.popExpiry.paths = { s.paths with lckToLen := s.paths.lckToLen.tail } := rfl
@[simp] theorem State.popExpiry_pending (s : State)  : s.popExpiry.pending = s.pending := rfl

@[simp] theorem State.popRquMsg_por (s : State)  : s.popRquMsg.por = s.por := rfl
@[simp] theorem State.popRquMsg_rstnLow (s : State)  : s.popRquMsg.rstnLow = s.rstnLow := rfl
@[simp] theorem State.popRquMsg_len (s : State)  : s.popRquMsg.len = s.len := rfl
@[simp] theorem State.popRquMsg_lck (s : State)  : s.popRquMsg.lck = s.lck := rfl
@[simp] theorem State.popRquMsg_rqu (s : State)  : s.popRquMsg.rqu = s.rqu := rfl
@[simp] theorem State.popRquMsg_twp (s : State)  : s.popRquMsg.twp = s.twp := rfl
@[simp] theorem State.popRquMsg_fwp (s : State)  : s.popRquMsg.fwp = s.fwp := rfl
@[simp] theorem State.popRquMsg_paths (s : State)  : s.popRquMsg.paths = { s.paths with lenToRqu := s.paths.lenToRqu.tail } := rfl
@[simp] theorem State.popRquMsg_pending (s : State)  : s.popRquMsg.pending = s.pending := rfl

@[simp] theorem State.idleTwp_por (s : State)  : s.idleTwp.por = s.por := rfl
@[simp] theorem State.idleTwp_rstnLow (s : State)  : s.idleTwp.rstnLow = s.rstnLow := rfl
@[simp] theorem State.idleTwp_len (s : State)  : s.idleTwp.len = s.len := rfl
@[simp] theorem State.idleTwp_lck (s : State)  : s.idleTwp.lck = s.lck := rfl
@[simp] theorem State.idleTwp_rqu (s : State)  : s.idleTwp.rqu = s.rqu := rfl
@[simp] theorem State.idleTwp_twp (s : State)  : s.idleTwp.twp = { s.twp with front := Front.idle, nacked := false } := rfl
@[simp] theorem State.idleTwp_fwp (s : State)  : s.idleTwp.fwp = s.fwp := rfl
@[simp] theorem State.idleTwp_paths (s : State)  : s.idleTwp.paths = s.paths := rfl
@[simp] theorem State.idleTwp_pending (s : State)  : s.idleTwp.pending = s.pending := rfl

@[simp] theorem State.dropHeld_por (s : State)  : s.dropHeld.por = s.por := rfl
@[simp] theorem State.dropHeld_rstnLow (s : State)  : s.dropHeld.rstnLow = s.rstnLow := rfl
@[simp] theorem State.dropHeld_len (s : State)  : s.dropHeld.len = s.len := rfl
@[simp] theorem State.dropHeld_lck (s : State)  : s.dropHeld.lck = s.lck := rfl
@[simp] theorem State.dropHeld_rqu (s : State)  : s.dropHeld.rqu = s.rqu := rfl
@[simp] theorem State.dropHeld_twp (s : State)  : s.dropHeld.twp = { s.twp with held := none } := rfl
@[simp] theorem State.dropHeld_fwp (s : State)  : s.dropHeld.fwp = s.fwp := rfl
@[simp] theorem State.dropHeld_paths (s : State)  : s.dropHeld.paths = s.paths := rfl
@[simp] theorem State.dropHeld_pending (s : State)  : s.dropHeld.pending = s.pending := rfl

@[simp] theorem State.setAck_por (s : State) (p : Port) (a : Bool) : (s.setAck p a).por = s.por := by cases p <;> rfl
@[simp] theorem State.setAck_rstnLow (s : State) (p : Port) (a : Bool) : (s.setAck p a).rstnLow = s.rstnLow := by cases p <;> rfl
@[simp] theorem State.setAck_len (s : State) (p : Port) (a : Bool) : (s.setAck p a).len = s.len := by cases p <;> rfl
@[simp] theorem State.setAck_lck (s : State) (p : Port) (a : Bool) : (s.setAck p a).lck = s.lck := by cases p <;> rfl
@[simp] theorem State.setAck_rqu (s : State) (p : Port) (a : Bool) : (s.setAck p a).rqu = s.rqu := by cases p <;> rfl
@[simp] theorem State.setAck_fwp (s : State) (p : Port) (a : Bool) : (s.setAck p a).fwp = s.fwp := by cases p <;> rfl
@[simp] theorem State.setAck_paths (s : State) (p : Port) (a : Bool) : (s.setAck p a).paths = s.paths := by cases p <;> rfl
@[simp] theorem State.setAck_pending (s : State) (p : Port) (a : Bool) : (s.setAck p a).pending = s.pending := by cases p <;> rfl

@[simp] theorem State.enterRefusing_por (s : State) (p : Port) : (s.enterRefusing p).por = s.por := by cases p <;> rfl
@[simp] theorem State.enterRefusing_rstnLow (s : State) (p : Port) : (s.enterRefusing p).rstnLow = s.rstnLow := by cases p <;> rfl
@[simp] theorem State.enterRefusing_len (s : State) (p : Port) : (s.enterRefusing p).len = s.len := by cases p <;> rfl
@[simp] theorem State.enterRefusing_lck (s : State) (p : Port) : (s.enterRefusing p).lck = s.lck := by cases p <;> rfl
@[simp] theorem State.enterRefusing_rqu (s : State) (p : Port) : (s.enterRefusing p).rqu = s.rqu := by cases p <;> rfl
@[simp] theorem State.enterRefusing_paths (s : State) (p : Port) : (s.enterRefusing p).paths = s.paths := by cases p <;> rfl
@[simp] theorem State.enterRefusing_pending (s : State) (p : Port) : (s.enterRefusing p).pending = s.pending := by cases p <;> rfl

/-! ## Reading back what was written -/

@[simp] theorem Rqu.port_setPort_same (q : Rqu) (p : Port) (x : RquPort) : (q.setPort p x).port p = x := by
  cases p <;> rfl

theorem Rqu.port_setPort_ne (q : Rqu) {p o : Port} (h : o ≠ p) (x : RquPort) : (q.setPort p x).port o = q.port o := by
  cases p <;> cases o <;> first | rfl | exact absurd rfl h

@[simp] theorem Rqu.setPort_slots (q : Rqu) (p : Port) (x : RquPort) : (q.setPort p x).slots = q.slots := by
  cases p <;> rfl

@[simp] theorem State.front_setFront_same (s : State) (p : Port) (x : Front) : (s.setFront p x).front p = x := by
  cases p <;> rfl

@[simp] theorem State.toRqu_setToRqu_same (s : State) (p : Port) (ms : List PortMsg) : (s.setToRqu p ms).toRqu p = ms := by
  cases p <;> rfl

@[simp] theorem State.toRqu_sendToRqu_same (s : State) (p : Port) (m : PortMsg) :
    (s.sendToRqu p m).toRqu p = s.toRqu p ++ [m] := by
  cases p <;> rfl

@[simp] theorem State.portStatus_setPortStatus_same (s : State) (p : Port) (x : PortStatus) :
    (s.setPortStatus p x).portStatus p = x := by
  cases p <;> rfl

end Sys2Proof.Machine
end

