-- ==== Sys2Proof/Laws/Take.lean ====
section
/-! SUPPORT. The take of a frame: what LEN's event starts from, what it leaves, and what an answer alone leaves. -/

namespace Sys2Proof.Machine

/-! ## News -/

/-- A slot's marked records are read from the lease table alone. -/
theorem Len.marked_congr {a b : Len} (h : a.leases = b.leases) (n : SlotIx) : a.marked n = b.marked n := by
  unfold Len.marked
  rw [h]

/-- An event that leaves every slot's news as it was sends no news notice. -/
theorem newsNotices_of_marked {before after : Len} (h : ∀ n, before.marked n = after.marked n) :
    newsNotices before after = [] := by
  unfold newsNotices newsChange
  simp [h]

/-- An event that leaves every slot's news as it was leaves LEN's news flags. -/
theorem Len.withNews_of_marked {before after : Len} (h : ∀ n, before.marked n = after.marked n) :
    after.withNews before = after := by
  have hs : (Vector.ofFn fun n : SlotIx => after.slots[n].withNews (newsChange before after n)) = after.slots := by
    apply Vector.ext
    intro i hi
    simp [newsChange, h, Slot.withNews]
  unfold Len.withNews
  rw [hs]

@[simp] theorem Len.withNews_catalog (after before : Len) : (after.withNews before).catalog = after.catalog := rfl
@[simp] theorem Len.withNews_leases (after before : Len) : (after.withNews before).leases = after.leases := rfl
@[simp] theorem Len.withNews_waits (after before : Len) : (after.withNews before).waits = after.waits := rfl
@[simp] theorem Len.withNews_waitSerial (after before : Len) : (after.withNews before).waitSerial = after.waitSerial := rfl
@[simp] theorem Len.withNews_frozen (after before : Len) : (after.withNews before).frozen = after.frozen := rfl
@[simp] theorem Len.withNews_checkOnly (after before : Len) : (after.withNews before).checkOnly = after.checkOnly := rfl
@[simp] theorem Len.withNews_lastPort (after before : Len) : (after.withNews before).lastPort = after.lastPort := rfl
@[simp] theorem Len.withNews_configOpen (after before : Len) : (after.withNews before).configOpen = after.configOpen := rfl

/-- News apart, a slot is as the event left it. -/
theorem Len.withNews_slot (after before : Len) (n : SlotIx) :
    (after.withNews before).slots[n] =
      { after.slots[n] with
        news := if before.marked n = after.marked n then after.slots[n].news else after.marked n } := by
  unfold Len.withNews newsChange
  by_cases h : before.marked n = after.marked n <;> simp [h, Slot.withNews]

/-! ## What a take starts from and what it leaves -/

@[simp] theorem State.takeEvent_now (s : State) (p : Port) (f : Frame) : (s.takeEvent p f).now = s.lck.clock := rfl
@[simp] theorem State.takeEvent_len (s : State) (p : Port) (f : Frame) : (s.takeEvent p f).len = s.lenAfterTake p f := rfl
@[simp] theorem State.takeEvent_toLck (s : State) (p : Port) (f : Frame) : (s.takeEvent p f).toLck = s.takeRequests f := rfl
@[simp] theorem State.takeEvent_toRqu (s : State) (p : Port) (f : Frame) : (s.takeEvent p f).toRqu = [] := rfl
@[simp] theorem State.takeEvent_toTwp (s : State) (p : Port) (f : Frame) : (s.takeEvent p f).toTwp = [] := rfl

@[simp] theorem State.lenAfterTake_catalog (s : State) (p : Port) (f : Frame) : (s.lenAfterTake p f).catalog = s.len.catalog := rfl
@[simp] theorem State.lenAfterTake_leases (s : State) (p : Port) (f : Frame) : (s.lenAfterTake p f).leases = s.len.leases := rfl
@[simp] theorem State.lenAfterTake_waits (s : State) (p : Port) (f : Frame) : (s.lenAfterTake p f).waits = s.len.waits := rfl
@[simp] theorem State.lenAfterTake_waitSerial (s : State) (p : Port) (f : Frame) : (s.lenAfterTake p f).waitSerial = s.len.waitSerial := rfl
@[simp] theorem State.lenAfterTake_frozen (s : State) (p : Port) (f : Frame) : (s.lenAfterTake p f).frozen = s.len.frozen := rfl
@[simp] theorem State.lenAfterTake_checkOnly (s : State) (p : Port) (f : Frame) : (s.lenAfterTake p f).checkOnly = s.len.checkOnly := rfl
@[simp] theorem State.lenAfterTake_lastPort (s : State) (p : Port) (f : Frame) : (s.lenAfterTake p f).lastPort = p := rfl
@[simp] theorem State.lenAfterTake_configOpen (s : State) (p : Port) (f : Frame) : (s.lenAfterTake p f).configOpen = s.len.configOpen := rfl

/-- The take changes no slot but the asking one. -/
theorem State.lenAfterTake_slot (s : State) (p : Port) (f : Frame) (n : SlotIx) :
    (s.lenAfterTake p f).slots[n] = if n = f.slot then s.len.slots[n].afterTake s.lck.clock f else s.len.slots[n] := by
  unfold State.lenAfterTake
  by_cases h : n = f.slot
  · subst h; simp
  · have h' : f.slot.val ≠ n.val := fun e => h (Fin.ext e.symm)
    simp [h, Vector.getElem_set_ne _ _ h']

/-- The take changes no profile. -/
@[simp] theorem State.lenAfterTake_profile (s : State) (p : Port) (f : Frame) (n : SlotIx) :
    (s.lenAfterTake p f).slots[n].profile = s.len.slots[n].profile := by
  rw [State.lenAfterTake_slot]
  split <;> rfl

/-- The take changes no session number. -/
@[simp] theorem State.lenAfterTake_session (s : State) (p : Port) (f : Frame) (n : SlotIx) :
    (s.lenAfterTake p f).slots[n].session = s.len.slots[n].session := by
  rw [State.lenAfterTake_slot]
  split <;> rfl

theorem State.frameOf_kind {s : State} {k : ReqKind} {p : Port} {f : Frame} (h : s.frameOf k = some (p, f)) : f.kind = k := by
  unfold State.frameOf at h
  split at h
  · contradiction
  · rename_i p' f' _
    split at h <;> simp_all

/-- The removal of a KEEPALIVE entry, as LEN sends it. -/
theorem LenEvent.removeKeepalive_eq (e : LenEvent) (n : SlotIx) :
    e.removeKeepalive n = { e with toLck := e.toLck ++ e.len.keepaliveRemoval n } := rfl

/-- Everything a keepalive refresh does (R94). -/
theorem LenEvent.refreshKeepalive_eq (e : LenEvent) (n : SlotIx) :
    e.refreshKeepalive n =
      { e with
        len := e.len.setSlot n
          { e.len.slots[n] with keepaliveDeadline := some (deadlineAfter e.now e.len.slots[n].keepaliveTerm) }
        toLck := e.toLck ++ e.len.keepaliveRemoval n ++
          [.insert ⟨deadlineAfter e.now e.len.slots[n].keepaliveTerm, .keepalive n e.len.slots[n].session⟩] } := by
  unfold LenEvent.refreshKeepalive
  rw [LenEvent.removeKeepalive_eq]
  rfl

/-- The take of a frame, as `performFrame` begins it, leaves the event that `takeEvent` is. -/
theorem State.performFrame_prelude (s : State) (p : Port) (f : Frame) :
    (let e : LenEvent := { now := s.lck.clock, len := (s.popFrame p).len, toLck := [], toRqu := [], toTwp := [] }
      let e := e.modSlot f.slot fun x => { x with answered := x.answered.set f.tag false }
      if f.kind = .detach then e else e.refreshKeepalive f.slot) = s.takeEvent p f := by
  by_cases hd : f.kind = .detach
  · simp only [hd, if_true, State.takeEvent, State.takeRequests, State.lenAfterTake, Slot.afterTake]
    rfl
  · simp only [hd, if_false, LenEvent.refreshKeepalive_eq, State.takeEvent, State.takeRequests, State.lenAfterTake,
      Slot.afterTake, LenEvent.modSlot, Len.setSlot, State.popFrame, Len.keepaliveRemoval]
    simp

/-- The take-time effects, as `performFrame` makes them, are those of `takeEvent`. -/
theorem State.performFrame_start (s : State) (p : Port) (f : Frame) (request : LenEvent → LenEvent)
    (hlen : f.operands.length ∈ operandLengths f.kind) :
    ({ now := s.lck.clock, len := (s.popFrame p).len, toLck := [], toRqu := [], toTwp := [] } : LenEvent).performFrame f
      request = request (s.takeEvent p f) := by
  rw [← State.performFrame_prelude s p f]
  unfold LenEvent.performFrame
  simp only [hlen, if_true]

/-- Everything an event of LEN on a taken frame does. -/
theorem State.runLen_popFrame (s : State) (p : Port) (event : LenEvent → LenEvent) :
    (s.popFrame p).runLen event =
      s.finishTake p
        (event { now := s.lck.clock, len := (s.popFrame p).len, toLck := [], toRqu := [], toTwp := [] }) := rfl

/-- A frame that LEN takes, whose session is in force and whose length is its kind's, is performed from `takeEvent`. -/
theorem State.takeRequest_offered {s : State} {k : ReqKind} {p : Port} {f : Frame} (h : s.offersWell k p f)
    (request : Frame → LenEvent → LenEvent) :
    s.takeRequest k request = s.finishTake p (request f (s.takeEvent p f)) := by
  obtain ⟨⟨hf, hl⟩, hlen⟩ := h
  have hk := State.frameOf_kind hf
  have hl' : (s.popFrame p).len.live f = true := hl
  unfold State.takeRequest
  rw [hf]
  simp only [hl', if_true]
  rw [State.runLen_popFrame, State.performFrame_start s p f (request f) (by rw [hk]; exact hlen)]

/-- A frame of the wrong operand length completes BAD_OPERAND (R164). -/
theorem State.performFrame_badLength (s : State) (p : Port) (f : Frame) (request : LenEvent → LenEvent)
    (hlen : f.operands.length ∉ operandLengths f.kind) :
    ({ now := s.lck.clock, len := (s.popFrame p).len, toLck := [], toRqu := [], toTwp := [] } : LenEvent).performFrame f
      request = (s.takeEvent p f).badOperand f .length f.operands.length := by
  rw [← State.performFrame_prelude s p f]
  unfold LenEvent.performFrame
  simp only [hlen, if_false]

/-- An answer alone leaves what `afterReply` says. -/
theorem State.finishTake_reply (s : State) (p : Port) (f : Frame) (st : Status) (b : List Byte) :
    s.finishTake p ((s.takeEvent p f).replyWith f st b) = s.afterReply p f st b := by
  have hm : ∀ n, s.len.marked n = ((s.takeEvent p f).replyWith f st b).len.marked n :=
    fun n => Len.marked_congr rfl n
  unfold State.finishTake
  rw [Len.withNews_of_marked hm, newsNotices_of_marked hm]
  simp [State.afterReply, Len.answer, State.popFrame]

/-- A request that does nothing but answer. -/
theorem State.takeRequest_reply {s : State} {k : ReqKind} {p : Port} {f : Frame} (h : s.offersWell k p f)
    {request : Frame → LenEvent → LenEvent} {st : Status} {b : List Byte}
    (hr : request f (s.takeEvent p f) = (s.takeEvent p f).replyWith f st b) :
    s.takeRequest k request = s.afterReply p f st b := by
  rw [State.takeRequest_offered h, hr, State.finishTake_reply]

/-- A request that sends nothing to TWP leaves what `afterEvent` says. -/
theorem State.takeRequest_event {s : State} {k : ReqKind} {p : Port} {f : Frame} (h : s.offersWell k p f)
    {request : Frame → LenEvent → LenEvent} (ht : (request f (s.takeEvent p f)).toTwp = []) :
    s.takeRequest k request =
      s.afterEvent p (request f (s.takeEvent p f)).len (request f (s.takeEvent p f)).toLck
        (request f (s.takeEvent p f)).toRqu := by
  rw [State.takeRequest_offered h]
  unfold State.finishTake State.afterEvent
  rw [ht]
  simp

/-- An event that ends with the asking slot's marks as they were is an `afterEvent` without news. -/
theorem State.afterEvent_reply (s : State) (p : Port) (f : Frame) (st : Status) (b : List Byte) :
    s.afterEvent p ((s.lenAfterTake p f).answer f.slot f.tag) (s.takeRequests f)
      [.completion f.slot ⟨f.tag, f.kind, st, b⟩] = s.afterReply p f st b := by
  have hm : ∀ n, s.len.marked n = ((s.lenAfterTake p f).answer f.slot f.tag).marked n :=
    fun n => Len.marked_congr rfl n
  unfold State.afterEvent
  rw [Len.withNews_of_marked hm, newsNotices_of_marked hm]
  simp [State.afterReply]

end Sys2Proof.Machine
end

