-- ==== Sys2Proof/Laws/Events.lean ====
section
/-! SUPPORT. What the operations of an event of LEN can do: which leave RQU, the slots and the parameters of the catalog alone, which only send, and what a grant pass keeps. -/

namespace Sys2Proof.Machine

/-! ## Vectors indexed by Fin -/

/-- Reading a written place, the same or another. -/
theorem getElem_set_fin {α : Type} {n : Nat} (v : Vector α n) (i j : Fin n) (x : α) :
    (v.set i x)[j] = if j = i then x else v[j] := by
  by_cases h : j = i
  · subst h; simp
  · have h' : i.val ≠ j.val := fun e => h (Fin.ext e.symm)
    simp [h, Vector.getElem_set_ne _ _ h']

theorem Len.setEntry_get (len : Len) (r q : ResIx) (x : Entry) :
    (len.setEntry r x).catalog[q] = if q = r then x else len.catalog[q] := getElem_set_fin len.catalog r q x

theorem Len.setLease_get (len : Len) (i j : RecIx) (x : Lease) :
    (len.setLease i x).leases[j] = if j = i then x else len.leases[j] := getElem_set_fin len.leases i j x

theorem Len.setWait_get (len : Len) (w v : WaitIx) (x : Option Wait) :
    (len.setWait w x).waits[v] = if v = w then x else len.waits[v] := getElem_set_fin len.waits w v x

theorem Len.setSlot_get (len : Len) (n m : SlotIx) (x : Slot) :
    (len.setSlot n x).slots[m] = if m = n then x else len.slots[m] := getElem_set_fin len.slots n m x

/-! ## What an event keeps -/

/-- The parameters of an entry: what DEFINE gave it (R2). -/
def Entry.parameters (en : Entry) : ResName × Nat × Nat × Nat × Nat × Bool × Bool × BitVec 8 :=
  (en.name, en.shareLimit, en.termCap, en.defaultTerm, en.renewLimit, en.waitingAllowed, en.breakAllowed, en.admission)

/-- An entry comes from another by a change of its holding state: its state and parameters stay, or it has become VACANT from DRAINING; its epoch does not decrease (R2, R12, R15). -/
structure Entry.Follows (a b : Entry) : Prop where
  epoch : a.epoch ≤ b.epoch
  kept : (b.state = a.state ∧ b.parameters = a.parameters) ∨
    (a.state = .draining ∧ b.state = .vacant ∧ b.parameters = (Entry.vacant 0).parameters)

theorem Entry.Follows.refl (a : Entry) : a.Follows a := ⟨BitVec.le_refl _, .inl ⟨rfl, rfl⟩⟩

theorem Entry.Follows.trans {a b c : Entry} (h : a.Follows b) (k : b.Follows c) : a.Follows c := by
  refine ⟨BitVec.le_trans h.epoch k.epoch, ?_⟩
  rcases h.kept with ⟨h1, h2⟩ | ⟨h1, h2, h3⟩
  · rcases k.kept with ⟨k1, k2⟩ | ⟨k1, k2, k3⟩
    · exact .inl ⟨k1.trans h1, k2.trans h2⟩
    · exact .inr ⟨h1 ▸ k1, k2, k3⟩
  · rcases k.kept with ⟨k1, k2⟩ | ⟨k1, _, _⟩
    · exact .inr ⟨h1, k1.trans h2, k2.trans h3⟩
    · rw [h2] at k1
      exact absurd k1 (by decide)

/-- A slot comes from another with its answer marks alone changed. -/
def Slot.SameButAnswered (a b : Slot) : Prop := b = { a with answered := b.answered }

theorem Slot.SameButAnswered.refl (a : Slot) : a.SameButAnswered a := rfl

theorem Slot.SameButAnswered.trans {a b c : Slot} (h : a.SameButAnswered b) (k : b.SameButAnswered c) :
    a.SameButAnswered c := by
  unfold Slot.SameButAnswered at *
  rw [k, h]

/-- Everything an event's own operations on holders, waits and grants can do: they read the clock as it stands, only add messages, send TWP nothing, change no setting of LEN and of the slots the answer marks alone, and leave each entry as `Entry.Follows` says, and no FREE record with a session. -/
structure LenEvent.Grows (a b : LenEvent) : Prop where
  now : b.now = a.now
  toTwp : b.toTwp = a.toTwp
  toRqu : ∃ l, b.toRqu = a.toRqu ++ l
  toLck : ∃ l, b.toLck = a.toLck ++ l
  slot : ∀ n : SlotIx, a.len.slots[n].SameButAnswered b.len.slots[n]
  entry : ∀ r : ResIx, a.len.catalog[r].Follows b.len.catalog[r]
  generation : ∀ i : RecIx, a.len.leases[i].generation ≠ 0 → b.len.leases[i].generation ≠ 0
  sessionless : a.len.freeRecordsSessionless → b.len.freeRecordsSessionless
  frozen : b.len.frozen = a.len.frozen
  checkOnly : b.len.checkOnly = a.len.checkOnly
  lastPort : b.len.lastPort = a.len.lastPort
  configOpen : b.len.configOpen = a.len.configOpen

theorem LenEvent.Grows.refl (a : LenEvent) : a.Grows a :=
  ⟨rfl, rfl, ⟨[], by simp⟩, ⟨[], by simp⟩, fun _ => rfl, fun _ => .refl _, fun _ h => h, id, rfl, rfl, rfl, rfl⟩

theorem LenEvent.Grows.trans {a b c : LenEvent} (h : a.Grows b) (k : b.Grows c) : a.Grows c := by
  obtain ⟨l, hl⟩ := h.toRqu
  obtain ⟨m, hm⟩ := k.toRqu
  obtain ⟨l', hl'⟩ := h.toLck
  obtain ⟨m', hm'⟩ := k.toLck
  exact ⟨k.now.trans h.now, k.toTwp.trans h.toTwp, ⟨l ++ m, by rw [hm, hl, List.append_assoc]⟩,
    ⟨l' ++ m', by rw [hm', hl', List.append_assoc]⟩, fun n => (h.slot n).trans (k.slot n),
    fun r => (h.entry r).trans (k.entry r), fun i x => k.generation i (h.generation i x), fun x => k.sessionless (h.sessionless x), k.frozen.trans h.frozen,
    k.checkOnly.trans h.checkOnly, k.lastPort.trans h.lastPort, k.configOpen.trans h.configOpen⟩

/-- What an event that says nothing to RQU does: its slots stand as they were, and to LCK it sends removals alone. -/
structure LenEvent.Quiet (a b : LenEvent) : Prop extends LenEvent.Grows a b where
  sameRqu : b.toRqu = a.toRqu
  slots : b.len.slots = a.len.slots
  removals : ∃ l, b.toLck = a.toLck ++ l ∧ ∀ q ∈ l, ∃ d, q = .remove d

theorem LenEvent.Quiet.refl (a : LenEvent) : a.Quiet a := ⟨.refl a, rfl, rfl, [], by simp⟩

theorem LenEvent.Quiet.trans {a b c : LenEvent} (h : a.Quiet b) (k : b.Quiet c) : a.Quiet c := by
  obtain ⟨l, hl, hl'⟩ := h.removals
  obtain ⟨m, hm, hm'⟩ := k.removals
  refine ⟨h.toGrows.trans k.toGrows, k.sameRqu.trans h.sameRqu, k.slots.trans h.slots, l ++ m, ?_, ?_⟩
  · rw [hm, hl, List.append_assoc]
  · intro q hq
    rcases List.mem_append.1 hq with hq | hq
    · exact hl' q hq
    · exact hm' q hq

/-- A chain of operations, each of which is quiet, is quiet. -/
theorem LenEvent.Quiet.foldl {α : Type} {f : LenEvent → α → LenEvent} (h : ∀ (e : LenEvent) x, e.Quiet (f e x)) (xs : List α)
    (e : LenEvent) : e.Quiet (xs.foldl f e) := by
  induction xs generalizing e with
  | nil => exact .refl e
  | cons x xs ih => exact (h e x).trans (ih _)

/-- A chain of operations, each of which grows, grows. -/
theorem LenEvent.Grows.foldl {α : Type} {f : LenEvent → α → LenEvent} (h : ∀ (e : LenEvent) x, e.Grows (f e x)) (xs : List α)
    (e : LenEvent) : e.Grows (xs.foldl f e) := by
  induction xs generalizing e with
  | nil => exact .refl e
  | cons x xs ih => exact (h e x).trans (ih _)

/-! ## The operations -/

theorem LenEvent.modEntry_quiet (e : LenEvent) (r : ResIx) (f : Entry → Entry)
    (h : e.len.catalog[r].Follows (f e.len.catalog[r])) : e.Quiet (e.modEntry r f) := by
  refine ⟨⟨rfl, rfl, ⟨[], by simp⟩, ⟨[], by simp⟩, fun _ => rfl, fun q => ?_, fun _ x => x, id, rfl, rfl, rfl, rfl⟩, rfl,
    rfl, [], by simp⟩
  rw [LenEvent.modEntry_len, Len.setEntry_get]
  split
  · rename_i hq; subst hq; exact h
  · exact .refl _

theorem LenEvent.modLease_quiet (e : LenEvent) (i : RecIx) (f : Lease → Lease)
    (h : e.len.leases[i].generation ≠ 0 → (f e.len.leases[i]).generation ≠ 0)
    (k : (e.len.leases[i].state = .free → e.len.leases[i].session = 0) →
      (f e.len.leases[i]).state = .free → (f e.len.leases[i]).session = 0) : e.Quiet (e.modLease i f) := by
  refine ⟨⟨rfl, rfl, ⟨[], by simp⟩, ⟨[], by simp⟩, fun _ => rfl, fun q => .refl _, fun j x => ?_, fun x j => ?_, rfl, rfl,
    rfl, rfl⟩, rfl, rfl, [], by simp⟩
  · rw [LenEvent.modLease_len, Len.setLease_get]
    split
    · rename_i hq; subst hq; exact h x
    · exact x
  · rw [LenEvent.modLease_len, Len.setLease_get]
    split
    · rename_i hq; subst hq; exact k (x _)
    · exact x j

theorem LenEvent.removeDeadline_quiet (e : LenEvent) (d : Deadline) : e.Quiet (e.removeDeadline d) :=
  ⟨⟨rfl, rfl, ⟨[], by simp⟩, ⟨[.remove d], rfl⟩, fun _ => rfl, fun _ => .refl _, fun _ x => x, id, rfl, rfl, rfl, rfl⟩, rfl,
    rfl, [.remove d], rfl, by simp⟩

theorem LenEvent.insertDeadline_grows (e : LenEvent) (d : Deadline) : e.Grows (e.insertDeadline d) :=
  ⟨rfl, rfl, ⟨[], by simp⟩, ⟨[.insert d], rfl⟩, fun _ => rfl, fun _ => .refl _, fun _ x => x, id, rfl, rfl, rfl, rfl⟩

theorem LenEvent.complete_grows (e : LenEvent) (n : SlotIx) (c : Completion) : e.Grows (e.complete n c) := by
  refine ⟨rfl, rfl, ⟨[.completion n c], rfl⟩, ⟨[], by simp⟩, fun m => ?_, fun _ => .refl _, fun _ x => x, id, rfl, rfl, rfl,
    rfl⟩
  rw [LenEvent.complete_len, Len.setSlot_get]
  split
  · rename_i hq; subst hq; rfl
  · rfl

theorem LenEvent.setWait_quiet (e : LenEvent) (w : WaitIx) (x : Option Wait) :
    e.Quiet { e with len := e.len.setWait w x } :=
  ⟨⟨rfl, rfl, ⟨[], by simp⟩, ⟨[], by simp⟩, fun _ => rfl, fun _ => .refl _, fun _ h => h, id, rfl, rfl, rfl, rfl⟩, rfl, rfl,
    [], by simp⟩

theorem nextGeneration_ne_zero (g : Generation) : nextGeneration g ≠ 0 := by
  unfold nextGeneration
  split
  · decide
  · bv_omega

theorem LenEvent.lowerHolders_quiet (e : LenEvent) (r : ResIx) : e.Quiet (e.lowerHolders r) :=
  e.modEntry_quiet r _ ⟨BitVec.le_refl _, .inl ⟨rfl, rfl⟩⟩

theorem LenEvent.vacateIfDrained_quiet (e : LenEvent) (r : ResIx) : e.Quiet (e.vacateIfDrained r) := by
  unfold LenEvent.vacateIfDrained
  split
  · rename_i h
    exact e.modEntry_quiet r _ ⟨BitVec.le_refl _, .inr ⟨h.1, rfl, rfl⟩⟩
  · exact .refl e

theorem LenEvent.clearRecord_quiet (e : LenEvent) (i : RecIx) : e.Quiet (e.clearRecord i) :=
  (e.modLease_quiet i _ (fun _ => nextGeneration_ne_zero _) fun _ _ => rfl).trans (LenEvent.vacateIfDrained_quiet _ _)

/-- Freeing a record is quiet. -/
theorem LenEvent.freeRecord_quiet (e : LenEvent) (i : RecIx) : e.Quiet (e.freeRecord i) := by
  unfold LenEvent.freeRecord
  split
  · exact ((e.removeDeadline_quiet _).trans (LenEvent.lowerHolders_quiet _ _)).trans (LenEvent.clearRecord_quiet _ _)
  · exact e.clearRecord_quiet i

/-- The removal of a wait's deadline is a removal. -/
theorem Wait.removal_removes (x : Wait) (w : WaitIx) : ∀ q ∈ x.removal w, ∃ d, q = .remove d := by
  unfold Wait.removal
  intro q hq
  split at hq
  · contradiction
  · exact ⟨_, List.mem_singleton.1 hq⟩

/-- Ending a wait is quiet. -/
theorem LenEvent.endWait_quiet (e : LenEvent) (w : WaitIx) (timedOut : Bool) : e.Quiet (e.endWait w timedOut) := by
  unfold LenEvent.endWait
  split
  · exact .refl e
  · rename_i x _
    refine (e.modEntry_quiet x.resource _ ⟨BitVec.le_refl _, .inl ⟨rfl, rfl⟩⟩).trans
      ⟨⟨rfl, rfl, ⟨[], by simp⟩, ⟨_, rfl⟩, fun _ => rfl, fun _ => .refl _, fun _ h => h, id, rfl, rfl, rfl, rfl⟩, rfl, rfl, _,
        rfl, ?_⟩
    split
    · simp
    · exact x.removal_removes w

/-- Dropping a wait, with a record reserved for it, is quiet. -/
theorem LenEvent.dropWait_quiet (e : LenEvent) (w : WaitIx) (timedOut : Bool) : e.Quiet (e.dropWait w timedOut) := by
  unfold LenEvent.dropWait
  split
  · exact .refl e
  · split
    · exact (e.endWait_quiet w timedOut).trans (LenEvent.freeRecord_quiet _ _)
    · exact e.endWait_quiet w timedOut

theorem LenEvent.finishWait_grows (e : LenEvent) (w : WaitIx) (timedOut : Bool) (st : Status) :
    e.Grows (e.finishWait w timedOut st) := by
  unfold LenEvent.finishWait
  split
  · exact .refl e
  · exact (e.dropWait_quiet w timedOut).toGrows.trans (LenEvent.complete_grows _ _ _)

theorem LenEvent.endUpgradeOf_grows (e : LenEvent) (i : RecIx) (st : Status) : e.Grows (e.endUpgradeOf i st) := by
  unfold LenEvent.endUpgradeOf
  split
  · exact .refl e
  · exact e.finishWait_grows _ _ _

/-- An advance of an epoch that is not spent raises it (R15, R16). -/
theorem epoch_le_advance {e : Epoch} (h : e ≠ epochSpent) : e ≤ e + 1 := by
  unfold epochSpent at h
  bv_omega

/-- A grant that needs no advance of a spent epoch is quiet. -/
theorem LenEvent.grantRecord_quiet (e : LenEvent) (i : RecIx) (r : ResIx) (m : Mode) (term : Nat)
    (h : e.len.catalog[r].spentFor m = false) : e.Quiet (e.grantRecord i r m term) := by
  unfold LenEvent.grantRecord
  refine (e.modEntry_quiet r _ ⟨?_, .inl ⟨rfl, rfl⟩⟩).trans (LenEvent.modLease_quiet _ _ _ (fun x => x) fun _ h => by cases h)
  dsimp only
  split
  · rename_i hn
    apply epoch_le_advance
    intro he
    unfold Entry.spentFor at h
    rw [hn, he] at h
    simp at h
  · exact BitVec.le_refl _

/-- Making a lease EXCLUSIVE under an epoch that is not spent is quiet. -/
theorem LenEvent.makeExclusive_quiet (e : LenEvent) (i : RecIx) (r : ResIx) (h : e.len.catalog[r].epoch ≠ epochSpent) :
    e.Quiet (e.makeExclusive i r) := by
  unfold LenEvent.makeExclusive
  exact (e.modEntry_quiet r _ ⟨epoch_le_advance h, .inl ⟨rfl, rfl⟩⟩).trans (LenEvent.modLease_quiet _ _ _ (fun x => x) id)

theorem LenEvent.completeGrant_grows (e : LenEvent) (i : RecIx) (n : SlotIx) (t : TagIx) (k : ReqKind) :
    e.Grows (e.completeGrant i n t k) := e.complete_grows _ _

theorem LenEvent.grantAcquireWait_grows (e : LenEvent) (r : ResIx) (w : WaitIx) (x : Wait) (m : Mode) (term : Nat)
    (h : e.len.catalog[r].spentFor m = false) : e.Grows (e.grantAcquireWait r w x m term) := by
  unfold LenEvent.grantAcquireWait
  exact (((e.grantRecord_quiet _ _ _ _ h).trans (LenEvent.endWait_quiet _ _ _)).toGrows.trans
    (LenEvent.insertDeadline_grows _ _)).trans (LenEvent.completeGrant_grows _ _ _ _ _)

theorem LenEvent.grantUpgradeWait_grows (e : LenEvent) (r : ResIx) (w : WaitIx) (x : Wait)
    (h : e.len.catalog[r].epoch ≠ epochSpent) : e.Grows (e.grantUpgradeWait r w x) := by
  unfold LenEvent.grantUpgradeWait
  exact ((e.makeExclusive_quiet _ _ h).trans (LenEvent.endWait_quiet _ _ _)).toGrows.trans
    (LenEvent.completeGrant_grows _ _ _ _ _)

/-! ## Grant passes, revocations, lapses, purges -/

/-- One step of a grant pass grows. -/
theorem LenEvent.passStep_grows {e b : LenEvent} {r : ResIx} (h : e.passStep r = some b) : e.Grows b := by
  unfold LenEvent.passStep at h
  dsimp only at h
  split at h
  · contradiction
  · split at h
    · contradiction
    · split at h
      · split at h
        · split at h
          · cases h; exact e.finishWait_grows _ _ _
          · rename_i hs
            cases h; exact e.grantUpgradeWait_grows _ _ _ hs
        · contradiction
      · split at h
        · split at h
          · cases h; exact e.finishWait_grows _ _ _
          · rename_i hs
            cases h
            exact e.grantAcquireWait_grows _ _ _ _ _ (by simpa using hs)
        · contradiction

theorem LenEvent.passSteps_grows (e : LenEvent) (r : ResIx) (fuel : Nat) : e.Grows (e.passSteps r fuel) := by
  induction fuel generalizing e with
  | zero => exact .refl e
  | succ k ih =>
    unfold LenEvent.passSteps
    split
    · exact .refl e
    · rename_i b hb
      exact (LenEvent.passStep_grows hb).trans (ih b)

/-- A grant pass grows. -/
theorem LenEvent.grantPass_grows (e : LenEvent) (r : ResIx) : e.Grows (e.grantPass r) := e.passSteps_grows r _

theorem LenEvent.purgePasses_grows (e : LenEvent) (rs : List ResIx) : e.Grows (e.purgePasses rs) :=
  LenEvent.Grows.foldl (fun e r => by split; exacts [.refl e, e.grantPass_grows r]) rs e

/-- The purge is quiet (R97: no completion). -/
theorem LenEvent.purge_quiet (e : LenEvent) (n : SlotIx) (session : Session) : e.Quiet (e.purge n session) :=
  (LenEvent.Quiet.foldl (fun e w => e.dropWait_quiet w false) _ e).trans
    (LenEvent.Quiet.foldl (fun e i => e.freeRecord_quiet i) _ _)

theorem LenEvent.revokeRecord_grows (e : LenEvent) (i : RecIx) : e.Grows (e.revokeRecord i) := by
  unfold LenEvent.revokeRecord
  exact (((e.modLease_quiet i _ (fun x => x) fun _ h => by cases h).trans (LenEvent.removeDeadline_quiet _ _)).trans
    (LenEvent.lowerHolders_quiet _ _)).toGrows.trans (LenEvent.endUpgradeOf_grows _ _ _)

theorem LenEvent.revokeAll_grows (e : LenEvent) (r : ResIx) : e.Grows (e.revokeAll r) :=
  LenEvent.Grows.foldl (fun e i => e.revokeRecord_grows i) _ e

theorem LenEvent.lapseRecord_grows (e : LenEvent) (i : RecIx) : e.Grows (e.lapseRecord i) := by
  unfold LenEvent.lapseRecord
  exact ((e.modLease_quiet i _ (fun x => x) fun _ h => by cases h).trans (LenEvent.lowerHolders_quiet _ _)).toGrows.trans
    (LenEvent.endUpgradeOf_grows _ _ _)

end Sys2Proof.Machine
end

