-- ==== Sys2Proof/Laws/Frame.lean ====
section
/-! SUPPORT. What the ports and RQU leave alone: LEN, LCK, the levels of reset and the queue of commands; and the commands that are theirs. -/

namespace Sys2Proof.Machine

/-- A state comes from another with nothing changed but RQU, the ports and the paths. -/
def State.Aside (a b : State) : Prop := b = { a with rqu := b.rqu, twp := b.twp, fwp := b.fwp, paths := b.paths }

theorem State.Aside.refl (a : State) : a.Aside a := rfl

theorem State.Aside.trans {a b c : State} (h : a.Aside b) (k : b.Aside c) : a.Aside c := by
  unfold State.Aside at *
  rw [k, h]

theorem State.Aside.len {a b : State} (h : a.Aside b) : b.len = a.len := by unfold State.Aside at h; rw [h]
theorem State.Aside.lck {a b : State} (h : a.Aside b) : b.lck = a.lck := by unfold State.Aside at h; rw [h]
theorem State.Aside.pending {a b : State} (h : a.Aside b) : b.pending = a.pending := by unfold State.Aside at h; rw [h]
theorem State.Aside.por {a b : State} (h : a.Aside b) : b.por = a.por := by unfold State.Aside at h; rw [h]
theorem State.Aside.rstnLow {a b : State} (h : a.Aside b) : b.rstnLow = a.rstnLow := by unfold State.Aside at h; rw [h]

theorem State.Aside.foldl {α : Type} {f : State → α → State} (h : ∀ (s : State) (x : α), s.Aside (f s x)) (xs : List α) (s : State) :
    s.Aside (xs.foldl f s) := by
  induction xs generalizing s with
  | nil => rfl
  | cons x xs ih => exact (h s x).trans (ih _)

/-! ## The shared operations -/

theorem State.setFront_aside (s : State) (p : Port) (x : Front) : s.Aside (s.setFront p x) := by cases p <;> rfl
theorem State.setPortStatus_aside (s : State) (p : Port) (x : PortStatus) : s.Aside (s.setPortStatus p x) := by cases p <;> rfl
theorem State.setToRqu_aside (s : State) (p : Port) (ms : List PortMsg) : s.Aside (s.setToRqu p ms) := by cases p <;> rfl
theorem State.sendToRqu_aside (s : State) (p : Port) (m : PortMsg) : s.Aside (s.sendToRqu p m) := s.setToRqu_aside p _
theorem State.modRquPort_aside (s : State) (p : Port) (f : RquPort → RquPort) : s.Aside (s.modRquPort p f) := rfl
theorem State.releaseClaim_aside (s : State) (p : Port) : s.Aside (s.releaseClaim p) := rfl
theorem State.modRquSlot_aside (s : State) (n : SlotIx) (f : RquSlot → RquSlot) : s.Aside (s.modRquSlot n f) := rfl
theorem State.writeRefusal_aside (s : State) (p : Port) (r : RefusalRecord) : s.Aside (s.writeRefusal p r) :=
  s.setPortStatus_aside p _
theorem State.refuseFrame_aside (s : State) (p : Port) (r : RefusalRecord) : s.Aside (s.refuseFrame p r) :=
  (s.writeRefusal_aside p r).trans (State.releaseClaim_aside _ p)
theorem State.fixStatus_aside (s : State) (p : Port) : s.Aside (s.fixStatus p) :=
  (s.setPortStatus_aside p _).trans (State.setFront_aside _ p _)
theorem State.endStatus_aside (s : State) (p : Port) : s.Aside (s.endStatus p) := by
  unfold State.endStatus
  split
  · exact s.setPortStatus_aside p _
  · rfl
theorem State.dropMarks_aside (s : State) (n : SlotIx) : s.Aside (s.dropMarks n) := rfl
theorem State.judgeRequest_aside (s : State) (p : Port) : s.Aside (s.judgeRequest p) := by
  unfold State.judgeRequest
  dsimp only
  split
  · exact s.refuseFrame_aside p _
  · split
    · exact s.refuseFrame_aside p _
    · exact s.sendToRqu_aside p _
theorem State.endPresentation_aside (s : State) (p : Port) : s.Aside (s.endPresentation p) := by
  unfold State.endPresentation
  split
  · exact s.sendToRqu_aside p _
  · exact s.endStatus_aside p
  · rfl
  · rfl
theorem State.enterRefusing_aside (s : State) (p : Port) : s.Aside (s.enterRefusing p) := s.setFront_aside p _
theorem State.setAck_aside (s : State) (p : Port) (ack : Bool) : s.Aside (s.setAck p ack) := by cases p <;> rfl

/-! ## RQU -/

theorem State.answerClaim_aside (s : State) (p : Port) : s.Aside (s.answerClaim p) := by
  unfold State.answerClaim
  split
  · exact (s.modRquPort_aside p _).trans (State.setAck_aside _ p _)
  · exact ((s.writeRefusal_aside p _).trans (State.enterRefusing_aside _ p)).trans (State.setAck_aside _ p _)

theorem State.acceptFrame_aside (s : State) (p : Port) (f : Frame) : s.Aside (s.acceptFrame p f) := by
  unfold State.acceptFrame
  dsimp only
  split
  · exact s.modRquPort_aside p _
  · exact (s.modRquPort_aside p _).trans (State.modRquSlot_aside _ _ _)

theorem State.answerArrival_aside (s : State) (p : Port) (f : Frame) : s.Aside (s.answerArrival p f) := by
  unfold State.answerArrival
  split
  · exact s.acceptFrame_aside p f
  · exact s.refuseFrame_aside p _

theorem State.answerSelect_aside (s : State) (p : Port) (n : SlotIx) (session : Session) :
    s.Aside (s.answerSelect p n session) := (s.modRquPort_aside p _).trans (State.setFront_aside _ p _)

theorem State.removeHead_aside (s : State) (n : SlotIx) : s.Aside (s.removeHead n) := by
  unfold State.removeHead
  split
  · rfl
  · exact (s.modRquSlot_aside n _).trans (State.dropMarks_aside _ n)

theorem State.answerCollectEnd_aside (s : State) (p : Port) (full : Bool) : s.Aside (s.answerCollectEnd p full) := by
  unfold State.answerCollectEnd
  dsimp only
  split
  · exact (s.removeHead_aside _).trans (State.modRquPort_aside _ p _)
  · exact s.modRquPort_aside p _

theorem State.takePortMsg_aside (s : State) (p : Port) (m : PortMsg) : s.Aside (s.takePortMsg p m) := by
  cases m
  · exact s.answerClaim_aside p
  · exact s.answerArrival_aside p _
  · exact s.answerSelect_aside p _ _
  · exact s.answerCollectEnd_aside p _

/-- A port's wait for its answers leaves all but RQU, the ports and the paths alone. -/
theorem State.settle_aside (s : State) (p : Port) : s.Aside (s.settle p) := by
  unfold State.settle
  split
  · exact (s.setToRqu_aside p []).trans (State.Aside.foldl (fun s m => s.takePortMsg_aside p m) _ _)
  · rfl

/-! ## The ports -/

theorem State.judgeQuery_aside (s : State) : s.Aside s.judgeQuery := by
  unfold State.judgeQuery
  dsimp only
  repeat' split
  all_goals rfl

theorem State.judgeSelect_aside (s : State) (item : Held) : s.Aside (s.judgeSelect item) := by
  unfold State.judgeSelect
  split
  · exact s.refuseFrame_aside .twp _
  · rfl

theorem State.judgeTwp_aside (s : State) : s.Aside s.judgeTwp := by
  unfold State.judgeTwp
  dsimp only
  split
  · rfl
  · exact s.judgeQuery_aside
  · split
    · rfl
    · split
      · exact s.judgeRequest_aside .twp
      · exact s.judgeSelect_aside _
      · exact s.judgeSelect_aside _

theorem State.endSegment_aside (s : State) (e : SegmentEnd) : s.Aside (s.endSegment e) := by
  unfold State.endSegment
  have h : s.Aside (match s.twp.front.state with
    | .receiving => s.judgeTwp
    | .refusing => s.judgeTwp
    | .presenting => s.endPresentation .twp
    | .idle => s) := by
    split
    · exact s.judgeTwp_aside
    · exact s.judgeTwp_aside
    · exact s.endPresentation_aside .twp
    · rfl
  cases e
  · exact h.trans rfl
  · exact h.trans rfl

theorem State.idleTwp_aside (s : State) : s.Aside s.idleTwp := rfl

theorem State.dropHeld_aside (s : State) : s.Aside s.dropHeld := rfl

theorem State.beginRead_aside (s : State) (k : Presentation) (out : List Byte) : s.Aside (s.beginRead k out) := rfl

theorem State.readPrimary_aside (s : State) : s.Aside s.readPrimary := by
  unfold State.readPrimary
  rcases s.twp.held with _ | (⟨n, session⟩ | _ | ⟨q, stage⟩)
  · exact s.beginRead_aside _ _
  · exact (State.sendToRqu_aside _ _ _ : (s.dropHeld.beginRead .completion []).Aside _)
  · exact (State.fixStatus_aside _ _ : (s.dropHeld.beginRead .status []).Aside _)
  · exact s.beginRead_aside _ _

theorem State.readCheckOnly_aside (s : State) : s.Aside s.readCheckOnly := by
  unfold State.readCheckOnly
  rcases s.twp.held with _ | (_ | _ | ⟨q, _ | _ | a⟩) <;> rfl

theorem State.addressTwp_aside (s : State) (b : Byte) : s.Aside (s.addressTwp b) := by
  unfold State.addressTwp
  dsimp only
  repeat' split
  all_goals first
    | exact s.readPrimary_aside
    | exact s.readCheckOnly_aside
    | rfl

theorem State.refuseTwpByte_aside (s : State) (b : Byte) (r : RefusalReason) : s.Aside (s.refuseTwpByte b r) :=
  (((s.setFront_aside .twp _).trans (State.refuseFrame_aside _ .twp _)).trans (State.enterRefusing_aside _ .twp)).trans
    (State.setAck_aside _ .twp _)

theorem State.receiveTwp_aside (s : State) (b : Byte) : s.Aside (s.receiveTwp b) := by
  unfold State.receiveTwp
  dsimp only
  split
  · unfold State.leadTwp
    split
    · exact s.refuseTwpByte_aside b _
    · exact ((s.setFront_aside .twp _).trans (State.setAck_aside _ .twp _)).trans (State.sendToRqu_aside _ _ _)
    · exact (s.setFront_aside .twp _).trans (State.setAck_aside _ .twp _)
  · split
    · exact (s.setFront_aside .twp _).trans (State.setAck_aside _ .twp _)
    · split
      · exact s.refuseTwpByte_aside b _
      · exact (s.setFront_aside .twp _).trans (State.setAck_aside _ .twp _)

theorem State.refuseFwp_aside (s : State) (r : RefusalRecord) : s.Aside (s.refuseFwp r) :=
  (s.refuseFrame_aside .fwp r).trans (State.enterRefusing_aside _ .fwp)

theorem State.receiveFwp_aside (s : State) (b : Byte) : s.Aside (s.receiveFwp b) := by
  unfold State.receiveFwp
  dsimp only
  split
  · unfold State.leadFwp
    dsimp only
    split
    · exact s.setFront_aside .fwp _
    · split
      · exact (s.setFront_aside .fwp _).trans (State.refuseFwp_aside _ _)
      · exact (s.setFront_aside .fwp _).trans (State.sendToRqu_aside _ _ _)
      · exact s.setFront_aside .fwp _
  · split
    · exact s.refuseFwp_aside _
    · split
      · unfold State.requestFwp
        dsimp only
        split
        · exact s.setFront_aside .fwp _
        · split
          · exact (s.setFront_aside .fwp _).trans (State.refuseFwp_aside _ _)
          · exact s.setFront_aside .fwp _
      · unfold State.selectFwp
        dsimp only
        split
        · exact s.setFront_aside .fwp _
        · split
          · exact (s.setFront_aside .fwp _).trans (State.refuseFwp_aside _ _)
          · split
            · exact ((s.setFront_aside .fwp _).trans (State.setFront_aside _ .fwp _)).trans (State.sendToRqu_aside _ _ _)
            · exact (s.setFront_aside .fwp _).trans (State.fixStatus_aside _ _)

theorem State.clockFwp_aside (s : State) (b : Byte) : s.Aside (s.clockFwp b) := by
  unfold State.clockFwp
  have h : s.Aside { s with fwp := { s.fwp with sdoOut := s.fwp.outByte } } := rfl
  dsimp only
  split
  · exact h.trans (State.receiveFwp_aside _ b)
  · exact h.trans (State.setFront_aside _ .fwp _)
  · exact h
  · exact h

theorem State.judgeFwp_aside (s : State) : s.Aside s.judgeFwp := by
  unfold State.judgeFwp
  split
  · rfl
  · exact s.judgeRequest_aside .fwp
  · split
    · exact s.refuseFrame_aside .fwp _
    · rfl

theorem State.endTransaction_aside (s : State) : s.Aside s.endTransaction := by
  unfold State.endTransaction
  have h : s.Aside (match s.fwp.front.state with
    | .receiving => s.judgeFwp
    | .presenting => s.endPresentation .fwp
    | .refusing => s
    | .idle => s) := by
    split
    · exact s.judgeFwp_aside
    · exact s.endPresentation_aside .fwp
    · rfl
    · rfl
  exact h.trans rfl

theorem State.passQuery_aside (s : State) (q : Query) : s.Aside (s.passQuery q) := rfl

theorem State.takeAnswer_aside (s : State) (a : CheckAnswer) : s.Aside (s.takeAnswer a) := by
  unfold State.takeAnswer
  rcases h : s.twp.held with _ | (_ | _ | ⟨q, _ | _ | b⟩) <;> simp only [h] <;> rfl

/-! ## The commands of the ports and of RQU -/

/-- The commands that LEN, LCK and the resets have no part in. -/
def portCommand : Instr → Bool
  | .checkOnlyEnableTake | .checkOnlyAnswer | .takeTimeRefusal _ | .intakeClaim _ | .arrivalCheck _ | .completionFiled
  | .sessionBegun | .sessionEnded | .slotLost | .slotNewsOn | .slotNewsOff | .collectSelect _ | .collectEnd _
  | .twpAddress _ | .twpWriteByte _ | .twpSegmentEnd _ | .busClear | .ssnFall _ | .fwpByteReceived _ | .ssnRise
  | .byteClockedOut _ => true
  | _ => false

/-- Every command of the ports and of RQU leaves all but RQU, the ports and the paths alone. -/
theorem portCommand_aside (c : Instr) (h : portCommand c = true) (s : State) : ∃ t, exec c s = .next t ∧ s.Aside t := by
  cases c <;> first
    | exact absurd h Bool.false_ne_true
    | refine ⟨_, rfl, ?_⟩
  case checkOnlyEnableTake => split <;> rfl
  case checkOnlyAnswer =>
    split
    · refine State.Aside.trans ?_ (State.takeAnswer_aside _ _)
      rfl
    · rfl
  case takeTimeRefusal p => cases p <;> dsimp only <;> split <;> rfl
  case intakeClaim p =>
    split
    · exact (s.setToRqu_aside p _).trans (State.answerClaim_aside _ p)
    · rfl
  case arrivalCheck p =>
    split
    · exact (s.setToRqu_aside p _).trans (State.answerArrival_aside _ p _)
    · rfl
  case completionFiled => split <;> rfl
  case sessionBegun => split <;> rfl
  case sessionEnded => split <;> rfl
  case slotLost => split <;> rfl
  case slotNewsOn => split <;> rfl
  case slotNewsOff => split <;> rfl
  case collectSelect p =>
    split
    · exact (s.setToRqu_aside p _).trans (State.answerSelect_aside _ p _ _)
    · rfl
  case collectEnd p =>
    split
    · exact (s.setToRqu_aside p _).trans (State.answerCollectEnd_aside _ p _)
    · rfl
  case twpAddress b =>
    split
    · exact s.setAck_aside .twp false
    · dsimp only
      split
      · exact (s.settle_aside .twp).trans (State.addressTwp_aside _ b)
      · exact (((s.settle_aside .twp).trans (State.endSegment_aside _ _)).trans (State.settle_aside _ .twp)).trans
          (State.addressTwp_aside _ b)
  case twpWriteByte b =>
    split
    · exact s.setAck_aside .twp false
    · dsimp only
      split
      · exact (s.settle_aside .twp).trans (State.receiveTwp_aside _ b)
      · exact (s.settle_aside .twp).trans (State.setAck_aside _ .twp false)
  case twpSegmentEnd e =>
    split
    · rfl
    · exact (s.settle_aside .twp).trans (State.endSegment_aside _ e)
  case busClear =>
    split
    · rfl
    · dsimp only
      refine State.Aside.trans ?_ (State.setAck_aside _ .twp false)
      refine State.Aside.trans ?_ (State.dropHeld_aside _)
      refine State.Aside.trans ?_ (State.idleTwp_aside _)
      refine State.Aside.trans ?_ (State.refuseFrame_aside _ .twp _)
      split
      · exact (s.settle_aside .twp).trans (State.sendToRqu_aside _ .twp _)
      · exact s.settle_aside .twp
  case ssnFall high =>
    split
    · rfl
    · split
      · rfl
      · exact (s.settle_aside .fwp).trans rfl
  case fwpByteReceived b =>
    split
    · rfl
    · exact (s.settle_aside .fwp).trans (State.clockFwp_aside _ b)
  case ssnRise =>
    split
    · dsimp only
      split
      · rfl
      · exact ((s.settle_aside .fwp).trans (State.endTransaction_aside _)).trans rfl
    · rfl
  case byteClockedOut ack =>
    split
    · rfl
    · dsimp only
      split
      · exact (s.settle_aside .twp).trans rfl
      · exact (s.settle_aside .twp).trans rfl

end Sys2Proof.Machine
end

