-- ==== Sys2Proof/Laws/Purge.lean ====
section
/-! SUPPORT. What the ends of waits and records take away: the operations of an event of LEN that bring no wait and give no record to another session, and what the purge of a session leaves. -/

namespace Sys2Proof.Machine

/-- A record comes from another with no session gained: it is of the same slot and session, or of none. -/
def Lease.Sheds (a b : Lease) : Prop :=
  b.session = 0 ∨ (b.slot = a.slot ∧ b.session = a.session ∧ (b.state = .free → a.state = .free))

theorem Lease.Sheds.refl (a : Lease) : a.Sheds a := .inr ⟨rfl, rfl, id⟩

theorem Lease.Sheds.trans {a b c : Lease} (h : a.Sheds b) (k : b.Sheds c) : a.Sheds c := by
  rcases k with k | ⟨k1, k2, k3⟩
  · exact .inl k
  · rcases h with h | ⟨h1, h2, h3⟩
    · exact .inl (k2.trans h)
    · exact .inr ⟨k1.trans h1, k2.trans h2, fun x => h3 (k3 x)⟩

/-- LEN comes from a state of LEN with no wait added and no record given to a session. -/
structure Len.Sheds (a b : Len) : Prop where
  wait : ∀ w : WaitIx, b.waits[w] = a.waits[w] ∨ b.waits[w] = none
  lease : ∀ i : RecIx, a.leases[i].Sheds b.leases[i]

theorem Len.Sheds.refl (a : Len) : a.Sheds a := ⟨fun _ => .inl rfl, fun _ => .refl _⟩

theorem Len.Sheds.trans {a b c : Len} (h : a.Sheds b) (k : b.Sheds c) : a.Sheds c := by
  refine ⟨fun w => ?_, fun i => (h.lease i).trans (k.lease i)⟩
  rcases k.wait w with k | k
  · rw [k]
    exact h.wait w
  · exact .inr k

theorem Len.Sheds.of_eq {a b : Len} (hw : b.waits = a.waits) (hl : b.leases = a.leases) : a.Sheds b :=
  ⟨fun w => .inl (congrArg (fun v : Vector (Option Wait) 96 => v[w]) hw),
    fun i => (congrArg (fun v : Vector Lease 128 => v[i]) hl) ▸ .refl _⟩

/-- A chain of operations, each of which sheds, sheds. -/
theorem Len.Sheds.foldl {α : Type} {f : LenEvent → α → LenEvent} (h : ∀ (e : LenEvent) x, e.len.Sheds (f e x).len)
    (xs : List α) (e : LenEvent) : e.len.Sheds (xs.foldl f e).len := by
  induction xs generalizing e with
  | nil => exact .refl _
  | cons x xs ih => exact (h e x).trans (ih _)

theorem LenEvent.modSlot_sheds (e : LenEvent) (n : SlotIx) (f : Slot → Slot) : e.len.Sheds (e.modSlot n f).len := .of_eq rfl rfl

theorem LenEvent.notify_sheds (e : LenEvent) (m : RquMsg) : e.len.Sheds (e.notify m).len := .of_eq rfl rfl

theorem LenEvent.complete_sheds (e : LenEvent) (n : SlotIx) (c : Completion) : e.len.Sheds (e.complete n c).len :=
  .of_eq rfl rfl

theorem LenEvent.replyWith_sheds (e : LenEvent) (f : Frame) (st : Status) (b : List Byte) :
    e.len.Sheds (e.replyWith f st b).len := .of_eq rfl rfl

theorem LenEvent.removeKeepalive_sheds (e : LenEvent) (n : SlotIx) : e.len.Sheds (e.removeKeepalive n).len :=
  .of_eq rfl rfl

theorem LenEvent.clearAnswered_sheds (e : LenEvent) (n : SlotIx) : e.len.Sheds (e.clearAnswered n).len := .of_eq rfl rfl

theorem LenEvent.beginSession_sheds (e : LenEvent) (n : SlotIx) (p : Port) (ticks : Nat) :
    e.len.Sheds (e.beginSession n p ticks).len := .of_eq rfl rfl

/-- A change of one record that keeps its slot and session, or leaves it to no session, sheds. -/
theorem LenEvent.modLease_sheds (e : LenEvent) (i : RecIx) (f : Lease → Lease)
    (h : e.len.leases[i].Sheds (f e.len.leases[i])) : e.len.Sheds (e.modLease i f).len := by
  refine ⟨fun _ => .inl rfl, fun j => ?_⟩
  rw [LenEvent.modLease_len, Len.setLease_get]
  split
  · rename_i hj; subst hj; exact h
  · exact .refl _

theorem LenEvent.vacateIfDrained_leases (e : LenEvent) (r : ResIx) : (e.vacateIfDrained r).len.leases = e.len.leases := by
  unfold LenEvent.vacateIfDrained
  split <;> rfl

theorem LenEvent.vacateIfDrained_waits (e : LenEvent) (r : ResIx) : (e.vacateIfDrained r).len.waits = e.len.waits := by
  unfold LenEvent.vacateIfDrained
  split <;> rfl

theorem LenEvent.vacateIfDrained_slots (e : LenEvent) (r : ResIx) : (e.vacateIfDrained r).len.slots = e.len.slots := by
  unfold LenEvent.vacateIfDrained
  split <;> rfl

theorem LenEvent.vacateIfDrained_lease (e : LenEvent) (r : ResIx) (j : RecIx) :
    (e.vacateIfDrained r).len.leases[j] = e.len.leases[j] :=
  congrArg (fun v : Vector Lease 128 => v[j]) (e.vacateIfDrained_leases r)

/-- The records after one has been freed. -/
theorem LenEvent.freeRecord_lease (e : LenEvent) (i j : RecIx) :
    (e.freeRecord i).len.leases[j] =
      if j = i then Lease.cleared (nextGeneration e.len.leases[i].generation) else e.len.leases[j] := by
  unfold LenEvent.freeRecord LenEvent.clearRecord
  split <;>
  · rw [LenEvent.vacateIfDrained_lease]
    exact Len.setLease_get _ i j _

/-- Freeing a record changes no wait. -/
theorem LenEvent.freeRecord_waits (e : LenEvent) (i : RecIx) : (e.freeRecord i).len.waits = e.len.waits := by
  unfold LenEvent.freeRecord LenEvent.clearRecord
  split <;>
  · rw [LenEvent.vacateIfDrained_waits]
    rfl

theorem LenEvent.freeRecord_sheds (e : LenEvent) (i : RecIx) : e.len.Sheds (e.freeRecord i).len := by
  refine ⟨fun w => .inl (congrArg (fun v : Vector (Option Wait) 96 => v[w]) (e.freeRecord_waits i)), fun j => ?_⟩
  rw [LenEvent.freeRecord_lease]
  split
  · exact .inl rfl
  · exact .refl _

/-- The waits after one has ended. -/
theorem LenEvent.endWait_wait (e : LenEvent) (w v : WaitIx) (timedOut : Bool) :
    (e.endWait w timedOut).len.waits[v] = if v = w then none else e.len.waits[v] := by
  unfold LenEvent.endWait
  split
  · rename_i h
    split
    · rename_i hv; rw [hv, h]
    · rfl
  · exact Len.setWait_get _ w v none

/-- Ending a wait changes no record. -/
theorem LenEvent.endWait_leases (e : LenEvent) (w : WaitIx) (timedOut : Bool) :
    (e.endWait w timedOut).len.leases = e.len.leases := by
  unfold LenEvent.endWait
  split <;> rfl

theorem LenEvent.endWait_sheds (e : LenEvent) (w : WaitIx) (timedOut : Bool) : e.len.Sheds (e.endWait w timedOut).len := by
  refine ⟨fun v => ?_, fun i => by rw [e.endWait_leases w timedOut]; exact .refl _⟩
  rw [LenEvent.endWait_wait]
  split
  · exact .inr rfl
  · exact .inl rfl

/-- The waits after one has been dropped. -/
theorem LenEvent.dropWait_wait (e : LenEvent) (w v : WaitIx) (timedOut : Bool) :
    (e.dropWait w timedOut).len.waits[v] = if v = w then none else e.len.waits[v] := by
  unfold LenEvent.dropWait
  split
  · rename_i h
    split
    · rename_i hv; rw [hv, h]
    · rfl
  · split
    · rw [LenEvent.freeRecord_waits, LenEvent.endWait_wait]
    · exact e.endWait_wait w v timedOut

theorem LenEvent.dropWait_sheds (e : LenEvent) (w : WaitIx) (timedOut : Bool) : e.len.Sheds (e.dropWait w timedOut).len := by
  unfold LenEvent.dropWait
  split
  · exact .refl _
  · split
    · exact (e.endWait_sheds w timedOut).trans (LenEvent.freeRecord_sheds _ _)
    · exact e.endWait_sheds w timedOut

theorem LenEvent.finishWait_sheds (e : LenEvent) (w : WaitIx) (timedOut : Bool) (st : Status) :
    e.len.Sheds (e.finishWait w timedOut st).len := by
  unfold LenEvent.finishWait
  split
  · exact .refl _
  · exact (e.dropWait_sheds w timedOut).trans (.of_eq rfl rfl)

theorem LenEvent.grantRecord_sheds (e : LenEvent) (i : RecIx) (r : ResIx) (m : Mode) (term : Nat) :
    e.len.Sheds (e.grantRecord i r m term).len := by
  unfold LenEvent.grantRecord
  exact (Len.Sheds.of_eq rfl rfl : e.len.Sheds (e.modEntry r _).len).trans
    (LenEvent.modLease_sheds _ _ _ (.inr ⟨rfl, rfl, fun h => by cases h⟩))

theorem LenEvent.makeExclusive_sheds (e : LenEvent) (i : RecIx) (r : ResIx) : e.len.Sheds (e.makeExclusive i r).len := by
  unfold LenEvent.makeExclusive
  exact (Len.Sheds.of_eq rfl rfl : e.len.Sheds (e.modEntry r _).len).trans
    (LenEvent.modLease_sheds _ _ _ (.inr ⟨rfl, rfl, id⟩))

theorem LenEvent.passStep_sheds {e b : LenEvent} {r : ResIx} (h : e.passStep r = some b) : e.len.Sheds b.len := by
  unfold LenEvent.passStep at h
  dsimp only at h
  split at h
  · contradiction
  · split at h
    · contradiction
    · split at h
      · split at h
        · split at h
          · cases h; exact e.finishWait_sheds _ _ _
          · cases h
            exact ((e.makeExclusive_sheds _ _).trans (LenEvent.endWait_sheds _ _ _)).trans (.of_eq rfl rfl)
        · contradiction
      · split at h
        · split at h
          · cases h; exact e.finishWait_sheds _ _ _
          · cases h
            exact ((e.grantRecord_sheds _ _ _ _).trans (LenEvent.endWait_sheds _ _ _)).trans (.of_eq rfl rfl)
        · contradiction

/-- A grant pass sheds. -/
theorem LenEvent.grantPass_sheds (e : LenEvent) (r : ResIx) : e.len.Sheds (e.grantPass r).len := by
  unfold LenEvent.grantPass
  generalize e.len.catalog[r].queue.length = fuel
  induction fuel generalizing e with
  | zero => exact .refl _
  | succ k ih =>
    unfold LenEvent.passSteps
    split
    · exact .refl _
    · rename_i b hb
      exact (LenEvent.passStep_sheds hb).trans (ih b)

theorem LenEvent.purgePasses_sheds (e : LenEvent) (rs : List ResIx) : e.len.Sheds (e.purgePasses rs).len :=
  Len.Sheds.foldl (fun e r => by split; exacts [.refl _, e.grantPass_sheds r]) rs e

/-- No wait and no record, in use or not, is of a session. -/
def Len.clearOf (len : Len) (n : SlotIx) (session : Session) : Prop :=
  (∀ (w : WaitIx) (x : Wait), len.waits[w] = some x → ¬(x.slot = n ∧ x.session = session)) ∧
  ∀ i : RecIx, ¬(len.leases[i].slot = n ∧ len.leases[i].session = session)

theorem Len.clearOf.owns {len : Len} {n : SlotIx} {session : Session} (h : len.clearOf n session) :
    len.ownsNothing n session := ⟨h.1, fun i _ => h.2 i⟩

/-- What sheds keeps a session without waits and records. -/
theorem Len.clearOf.sheds {a b : Len} {n : SlotIx} {session : Session} (h : a.clearOf n session) (hs : session ≠ 0)
    (k : a.Sheds b) : b.clearOf n session := by
  refine ⟨fun w x hw => ?_, fun i hi => ?_⟩
  · rcases k.wait w with e | e
    · exact h.1 w x (by rw [← e, hw])
    · rw [e] at hw
      cases hw
  · rcases k.lease i with e | ⟨e1, e2, _⟩
    · exact hs (hi.2.symm.trans e)
    · exact h.2 i ⟨e1 ▸ hi.1, e2 ▸ hi.2⟩

/-- A chain of drops leaves none of its waits. -/
theorem LenEvent.foldl_dropWait (ws : List WaitIx) (e : LenEvent) (w : WaitIx) (h : w ∈ ws) :
    (ws.foldl (fun e w => e.dropWait w false) e).len.waits[w] = none := by
  induction ws generalizing e with
  | nil => cases h
  | cons v ws ih =>
    rw [List.foldl_cons]
    rcases List.mem_cons.1 h with rfl | h
    · have hn : (e.dropWait w false).len.waits[w] = none := by rw [LenEvent.dropWait_wait, if_pos rfl]
      have k := Len.Sheds.foldl (fun e w => LenEvent.dropWait_sheds e w false) ws (e.dropWait w false)
      rcases k.wait w with k | k
      · rw [k, hn]
      · exact k
    · exact ih _ h

/-- A chain of frees leaves its records without a session. -/
theorem LenEvent.foldl_freeRecord (is : List RecIx) (e : LenEvent) (i : RecIx) (h : i ∈ is) :
    (is.foldl LenEvent.freeRecord e).len.leases[i].session = 0 := by
  induction is generalizing e with
  | nil => cases h
  | cons j is ih =>
    rw [List.foldl_cons]
    rcases List.mem_cons.1 h with rfl | h
    · have hn : (e.freeRecord i).len.leases[i].session = 0 := by rw [LenEvent.freeRecord_lease, if_pos rfl]; rfl
      have k := Len.Sheds.foldl LenEvent.freeRecord_sheds is (e.freeRecord i)
      rcases k.lease i with k | ⟨_, k, _⟩
      · exact k
      · rw [k, hn]
    · exact ih _ h

theorem Len.mem_waitsOf (len : Len) (n : SlotIx) (session : Session) (w : WaitIx) :
    w ∈ len.waitsOf n session ↔ ∃ x, len.waits[w] = some x ∧ x.slot = n ∧ x.session = session := by
  unfold Len.waitsOf Wait.ofSession
  rw [List.mem_filter]
  simp only [List.mem_finRange, true_and]
  cases h : len.waits[w] <;> simp

theorem Len.mem_recordsOf (len : Len) (n : SlotIx) (session : Session) (i : RecIx) :
    i ∈ len.recordsOf n session ↔ len.leases[i].state ≠ .free ∧ len.leases[i].slot = n ∧ len.leases[i].session = session := by
  unfold Len.recordsOf Lease.ofSession
  rw [List.mem_filter]
  simp only [List.mem_finRange, true_and, decide_eq_true_eq]

/-- The purge leaves a session without waits and records (R97). -/
theorem LenEvent.purge_clearOf (e : LenEvent) (n : SlotIx) (session : Session) (hs : session ≠ 0)
    (hf : e.len.freeRecordsSessionless) : (e.purge n session).len.clearOf n session := by
  have hsplit : e.purge n session =
      (((e.len.waitsOf n session).foldl (fun e w => e.dropWait w false) e).len.recordsOf n session).foldl
        LenEvent.freeRecord ((e.len.waitsOf n session).foldl (fun e w => e.dropWait w false) e) := rfl
  have k1 := Len.Sheds.foldl (fun e w => LenEvent.dropWait_sheds e w false) (e.len.waitsOf n session) e
  have hd := LenEvent.foldl_dropWait (e.len.waitsOf n session) e
  rw [hsplit]
  generalize (e.len.waitsOf n session).foldl (fun e w => e.dropWait w false) e = e1 at k1 hd
  have k2 := Len.Sheds.foldl LenEvent.freeRecord_sheds (e1.len.recordsOf n session) e1
  refine ⟨fun w x hw hx => ?_, fun i hi => ?_⟩
  · have h0 : (((e1.len.recordsOf n session).foldl LenEvent.freeRecord e1).len.waits[w]) = e.len.waits[w] ∨ _ :=
      (k1.trans k2).wait w
    rcases h0 with h0 | h0
    · have hm := hd w ((Len.mem_waitsOf _ _ _ _).2 ⟨x, by rw [← h0, hw], hx.1, hx.2⟩)
      rcases k2.wait w with k | k
      · rw [k, hm] at hw
        cases hw
      · rw [k] at hw
        cases hw
    · rw [h0] at hw
      cases hw
  · rcases k2.lease i with k | ⟨k, k', _⟩
    · exact hs (hi.2.symm.trans k)
    · rcases k1.lease i with c | ⟨c, c', c3⟩
      · exact hs (hi.2.symm.trans (k'.trans c))
      · by_cases hfree : e1.len.leases[i].state = .free
        · exact hs (hi.2.symm.trans (k'.trans (c'.trans (hf i (c3 hfree)))))
        · have hm := LenEvent.foldl_freeRecord (e1.len.recordsOf n session) e1 i
            ((Len.mem_recordsOf _ _ _ _).2 ⟨hfree, k ▸ hi.1, k' ▸ hi.2⟩)
          exact hs (hi.2.symm.trans hm)

end Sys2Proof.Machine
end

