-- ==== Sys2Proof/Laws/Requests.lean ====
section
/-! SUPPORT. What each request and each expiry keeps: which grow, what becomes of the laws of LEN, of the news flags and of a freeze. -/

namespace Sys2Proof.Machine

/-! ## Requests that grow -/

theorem LenEvent.replyWith_grows (e : LenEvent) (f : Frame) (st : Status) (b : List Byte) : e.Grows (e.replyWith f st b) :=
  e.complete_grows _ _

theorem LenEvent.reply_grows (e : LenEvent) (f : Frame) (st : Status) : e.Grows (e.reply f st) := e.replyWith_grows f st []

theorem LenEvent.badOperand_grows (e : LenEvent) (f : Frame) (r : OperandReason) (location : Nat) :
    e.Grows (e.badOperand f r location) := e.replyWith_grows f _ _

theorem LenEvent.profileRefused_grows (e : LenEvent) (f : Frame) (r : ProfileReason) (fieldId detail : Nat) :
    e.Grows (e.profileRefused f r fieldId detail) := e.replyWith_grows f _ _

theorem LenEvent.takeRecord_quiet (e : LenEvent) (i : RecIx) (n : SlotIx) (r : ResIx) (m : Mode) (term : Nat) :
    e.Quiet (e.takeRecord i n r m term) := by
  unfold LenEvent.takeRecord
  exact e.modLease_quiet i _ (fun x => x) fun _ h => by cases h

/-- Parking a wait grows. -/
theorem LenEvent.parkWait_grows (e : LenEvent) (w : WaitIx) (f : Frame) (k : WaitKind) (r : ResIx) (i : RecIx)
    (limit : Nat) : e.Grows (e.parkWait w f k r i limit) :=
  ⟨rfl, rfl, ⟨[], by simp [LenEvent.parkWait]⟩, ⟨_, rfl⟩, fun _ => rfl, fun _ => .refl _, fun _ h => h, id, rfl, rfl, rfl,
    rfl⟩

/-- A change of an entry's queue and mark grows. -/
theorem LenEvent.modQueue_grows (e : LenEvent) (r : ResIx) (f : Entry → Entry)
    (h : ∀ en, (f en).epoch = en.epoch ∧ (f en).state = en.state ∧ (f en).parameters = en.parameters) :
    e.Grows (e.modEntry r f) :=
  (e.modEntry_quiet r f ⟨by rw [(h _).1]; exact BitVec.le_refl _, .inl ⟨(h _).2.1, (h _).2.2⟩⟩).toGrows

theorem Len.grantRefusal_spent {len : Len} {n : SlotIx} {r : ResIx} {m : Mode} (h : len.grantRefusal n r m = none) :
    len.catalog[r].spentFor m = false := by
  unfold Len.grantRefusal at h
  by_cases hs : len.catalog[r].spentFor m = true
  · rw [if_pos hs] at h; cases h
  · exact Bool.not_eq_true _ |>.mp hs

theorem LenEvent.grantNow_grows (e : LenEvent) (f : Frame) (i : RecIx) (r : ResIx) (m : Mode) (term : Nat)
    (h : e.len.catalog[r].spentFor m = false) : e.Grows (e.grantNow f i r m term) := by
  unfold LenEvent.grantNow
  have k : (e.takeRecord i f.slot r m term).len.catalog[r].spentFor m = false := h
  exact (((e.takeRecord_quiet i f.slot r m term).trans (LenEvent.grantRecord_quiet _ i r m term k)).toGrows.trans
    (LenEvent.insertDeadline_grows _ _)).trans (LenEvent.completeGrant_grows _ _ _ _ _)

theorem LenEvent.parkAcquire_grows (e : LenEvent) (f : Frame) (w : WaitIx) (i : RecIx) (r : ResIx) (m : Mode)
    (term limit : Nat) : e.Grows (e.parkAcquire f w i r m term limit) := by
  unfold LenEvent.parkAcquire
  exact ((e.parkWait_grows w f _ r i limit).trans (LenEvent.takeRecord_quiet _ _ _ _ _ _).toGrows).trans
    (LenEvent.modQueue_grows _ r _ fun _ => ⟨rfl, rfl, rfl⟩)

theorem LenEvent.acquire_grows (e : LenEvent) (f : Frame) : e.Grows (e.acquire f) := by
  unfold LenEvent.acquire
  dsimp only
  split
  · exact e.badOperand_grows f _ _
  · split
    · exact e.badOperand_grows f _ _
    · split
      · exact e.badOperand_grows f _ _
      · split
        · exact e.reply_grows f _
        · split
          · exact e.reply_grows f _
          · unfold LenEvent.acquireOn
            dsimp only
            split
            · split
              · exact e.reply_grows f _
              · exact e.reply_grows f _
              · rename_i h _
                exact e.grantNow_grows f _ _ _ _ (Len.grantRefusal_spent h)
            · split
              · exact e.reply_grows f _
              · exact e.parkAcquire_grows f _ _ _ _ _ _
              · exact e.reply_grows f _
              · exact e.reply_grows f _

theorem LenEvent.release_grows (e : LenEvent) (f : Frame) : e.Grows (e.release f) := by
  unfold LenEvent.release
  split
  · exact e.reply_grows f _
  · split
    · exact (e.freeRecord_quiet _).toGrows.trans (LenEvent.reply_grows _ f _)
    · exact (((e.endUpgradeOf_grows _ _).trans (LenEvent.freeRecord_quiet _ _).toGrows).trans
        (LenEvent.reply_grows _ f _)).trans (LenEvent.grantPass_grows _ _)

theorem LenEvent.renewRecord_grows (e : LenEvent) (i : RecIx) (term : Nat) : e.Grows (e.renewRecord i term) := by
  unfold LenEvent.renewRecord
  exact ((e.removeDeadline_quiet _).trans (LenEvent.modLease_quiet _ i _ (fun x => x) fun x => x)).toGrows.trans
    (LenEvent.insertDeadline_grows _ _)

theorem LenEvent.renew_grows (e : LenEvent) (f : Frame) : e.Grows (e.renew f) := by
  unfold LenEvent.renew
  dsimp only
  split
  · exact e.badOperand_grows f _ _
  · split
    · exact e.reply_grows f _
    · split
      · exact e.reply_grows f _
      · exact (e.renewRecord_grows _ _).trans (LenEvent.replyWith_grows _ f _ _)

theorem LenEvent.downgrade_grows (e : LenEvent) (f : Frame) : e.Grows (e.downgrade f) := by
  unfold LenEvent.downgrade
  split
  · exact e.reply_grows f _
  · split
    · exact e.reply_grows f _
    · dsimp only
      refine LenEvent.Grows.trans ?_ (LenEvent.grantPass_grows _ _)
      refine LenEvent.Grows.trans ?_ (LenEvent.reply_grows _ f _)
      refine LenEvent.Grows.trans ?_ (LenEvent.modQueue_grows _ _ _ fun _ => ⟨rfl, rfl, rfl⟩)
      exact (e.modLease_quiet _ _ (fun x => x) fun x => x).toGrows

theorem LenEvent.parkUpgrade_grows (e : LenEvent) (f : Frame) (w : WaitIx) (i : RecIx) (limit : Nat) :
    e.Grows (e.parkUpgrade f w i limit) := by
  unfold LenEvent.parkUpgrade
  exact (e.parkWait_grows w f _ _ i limit).trans (LenEvent.modQueue_grows _ _ _ fun _ => ⟨rfl, rfl, rfl⟩)

theorem LenEvent.upgrade_grows (e : LenEvent) (f : Frame) : e.Grows (e.upgrade f) := by
  unfold LenEvent.upgrade
  dsimp only
  split
  · exact e.badOperand_grows f _ _
  · split
    · exact e.reply_grows f _
    · split
      · exact e.reply_grows f _
      · split
        · exact e.reply_grows f _
        · unfold LenEvent.upgradeLease
          dsimp only
          split
          · split
            · exact e.reply_grows f _
            · rename_i h
              exact (e.makeExclusive_quiet _ _ h).toGrows.trans (LenEvent.completeGrant_grows _ _ _ _ _)
          · split
            · exact e.reply_grows f _
            · exact e.parkUpgrade_grows f _ _ _
            · exact e.reply_grows f _

theorem LenEvent.cancel_grows (e : LenEvent) (f : Frame) : e.Grows (e.cancel f) := by
  unfold LenEvent.cancel
  dsimp only
  split
  · exact e.badOperand_grows f _ _
  · unfold LenEvent.cancelTag
    split
    · exact ((e.finishWait_grows _ _ _).trans (LenEvent.reply_grows _ f _)).trans (LenEvent.grantPass_grows _ _)
    · exact e.reply_grows f _

theorem LenEvent.breakLease_grows (e : LenEvent) (f : Frame) : e.Grows (e.breakLease f) := by
  unfold LenEvent.breakLease
  dsimp only
  split
  · exact e.reply_grows f _
  · split
    · exact e.badOperand_grows f _ _
    · split
      · split
        · exact e.reply_grows f _
        · split
          · exact ((e.revokeRecord_grows _).trans (LenEvent.replyWith_grows _ f _ _)).trans (LenEvent.grantPass_grows _ _)
          · exact e.reply_grows f _
      · split
        · exact e.reply_grows f _
        · split
          · exact ((e.revokeAll_grows _).trans (LenEvent.replyWith_grows _ f _ _)).trans (LenEvent.grantPass_grows _ _)
          · exact e.reply_grows f _

theorem LenEvent.notices_grows (e : LenEvent) (f : Frame) : e.Grows (e.notices f) := by
  unfold LenEvent.notices
  exact (LenEvent.Grows.foldl (fun e i => (e.modLease_quiet i _ (fun x => x) fun x => x).toGrows) _ e).trans
    (LenEvent.replyWith_grows _ f _ _)

theorem LenEvent.queryLease_grows (e : LenEvent) (f : Frame) : e.Grows (e.queryLease f) := by
  unfold LenEvent.queryLease
  split
  · exact e.reply_grows f _
  · exact e.replyWith_grows f _ _

theorem LenEvent.queryResource_grows (e : LenEvent) (f : Frame) : e.Grows (e.queryResource f) := by
  unfold LenEvent.queryResource
  split
  · exact e.reply_grows f _
  · exact e.replyWith_grows f _ _

theorem LenEvent.tokenCheck_grows (e : LenEvent) (f : Frame) : e.Grows (e.tokenCheck f) := by
  unfold LenEvent.tokenCheck
  dsimp only
  split
  · exact e.reply_grows f _
  · split
    · exact e.badOperand_grows f _ _
    · exact e.reply_grows f _

theorem LenEvent.querySlot_grows (e : LenEvent) (f : Frame) : e.Grows (e.querySlot f) := by
  unfold LenEvent.querySlot
  split
  · exact e.badOperand_grows f _ _
  · split
    · exact e.replyWith_grows f _ _
    · exact e.reply_grows f _

theorem LenEvent.profileRead_grows (e : LenEvent) (f : Frame) : e.Grows (e.profileRead f) := by
  unfold LenEvent.profileRead
  split
  · exact e.badOperand_grows f _ _
  · split
    · exact e.replyWith_grows f _ _
    · exact e.reply_grows f _

theorem LenEvent.lapse_grows (e : LenEvent) (i : RecIx) : e.Grows (e.lapse i) :=
  (e.lapseRecord_grows i).trans (LenEvent.grantPass_grows _ _)

theorem LenEvent.timeOut_grows (e : LenEvent) (w : WaitIx) : e.Grows (e.timeOut w) := by
  unfold LenEvent.timeOut
  split
  · exact .refl e
  · exact (e.finishWait_grows _ _ _).trans (LenEvent.grantPass_grows _ _)

/-! ## The other requests -/

/-- What every event of LEN keeps: the laws of its tables, the news flags, and, once frozen, the freeze with all that it holds. -/
structure Len.Keeps (a b : Len) : Prop where
  lawful : a.lawful → b.lawful
  news : ∀ n : SlotIx, b.slots[n].news = a.slots[n].news
  frozen : a.frozen = true → b.frozen = true ∧ b.checkOnly = a.checkOnly ∧
    ∀ n : SlotIx, b.slots[n].profile = a.slots[n].profile

theorem Len.Keeps.refl (a : Len) : a.Keeps a := ⟨id, fun _ => rfl, fun h => ⟨h, rfl, fun _ => rfl⟩⟩

theorem Len.Keeps.trans {a b c : Len} (h : a.Keeps b) (k : b.Keeps c) : a.Keeps c := by
  refine ⟨fun x => k.lawful (h.lawful x), fun n => (k.news n).trans (h.news n), fun x => ?_⟩
  obtain ⟨h1, h2, h3⟩ := h.frozen x
  obtain ⟨k1, k2, k3⟩ := k.frozen h1
  exact ⟨k1, k2.trans h2, fun n => (k3 n).trans (h3 n)⟩

/-- Entries that keep their names, or become VACANT, keep names unique. -/
theorem Len.namesUnique.of_kept {a b : Len} (h : a.namesUnique)
    (k : ∀ r : ResIx, b.catalog[r].state ≠ .vacant → a.catalog[r].state ≠ .vacant ∧ b.catalog[r].name = a.catalog[r].name) :
    b.namesUnique := by
  refine ⟨fun x y hx hy e => ?_, fun x hx => ?_⟩
  · obtain ⟨x1, x2⟩ := k x hx
    obtain ⟨y1, y2⟩ := k y hy
    exact h.1 x y x1 y1 (x2.symm.trans (e.trans y2))
  · obtain ⟨x1, x2⟩ := k x hx
    rw [x2]
    exact h.2 x x1

/-- An entry that follows keeps its name or is VACANT. -/
theorem Entry.Follows.name {a b : Entry} (h : a.Follows b) (hb : b.state ≠ .vacant) : a.state ≠ .vacant ∧ b.name = a.name := by
  rcases h.kept with ⟨h1, h2⟩ | ⟨_, h2, _⟩
  · exact ⟨h1 ▸ hb, congrArg Prod.fst h2⟩
  · exact absurd h2 hb

/-- What grows keeps. -/
theorem LenEvent.Grows.keeps {a b : LenEvent} (h : a.Grows b) : a.len.Keeps b.len := by
  have hs : ∀ n : SlotIx, b.len.slots[n].profile = a.len.slots[n].profile ∧ b.len.slots[n].news = a.len.slots[n].news ∧
      b.len.slots[n].state = a.len.slots[n].state ∧
      b.len.slots[n].keepaliveDeadline = a.len.slots[n].keepaliveDeadline := by
    intro n
    have k := h.slot n
    unfold Slot.SameButAnswered at k
    rw [k]
    exact ⟨rfl, rfl, rfl, rfl⟩
  refine ⟨?_, fun n => (hs n).2.1, fun x => ⟨h.frozen.trans x, h.checkOnly, fun n => (hs n).1⟩⟩
  rintro ⟨h1, h2, h3, h4, h5⟩
  refine ⟨⟨fun n => ?_, ?_⟩, h2.of_kept fun r hr => (h.entry r).name hr, fun i => h.generation i (h3 i),
    h.sessionless h4, fun n => ?_⟩
  · rw [(hs n).1]
    exact h1.1 n
  · rw [(hs 0).1]
    exact h1.2
  · rw [(hs n).2.2.1, (hs n).2.2.2]
    exact h5 n

/-- A change of LEN that leaves the records and the entries alone, and of the slots touches neither profile nor news, keeps. -/
theorem Len.Keeps.of_slots {a b : Len} (hc : b.catalog = a.catalog) (hl : b.leases = a.leases)
    (hs : ∀ n : SlotIx, b.slots[n].profile = a.slots[n].profile ∧ b.slots[n].news = a.slots[n].news)
    (hk : a.keepaliveMatchesState → b.keepaliveMatchesState) (hf : b.frozen = a.frozen) (ho : b.checkOnly = a.checkOnly) :
    a.Keeps b := by
  refine ⟨?_, fun n => (hs n).2, fun x => ⟨hf.trans x, ho, fun n => (hs n).1⟩⟩
  rintro ⟨h1, h2, h3, h4, h5⟩
  refine ⟨⟨fun n => ?_, ?_⟩, ?_, ?_, ?_, hk h5⟩
  · rw [(hs n).1]
    exact h1.1 n
  · rw [(hs 0).1]
    exact h1.2
  · unfold Len.namesUnique
    rw [hc]
    exact h2
  · unfold Len.generationsValid
    rw [hl]
    exact h3
  · unfold Len.freeRecordsSessionless
    rw [hl]
    exact h4

/-- A change of one slot that keeps its profile and news, and leaves it with a keepalive deadline exactly if ACTIVE, keeps. -/
theorem LenEvent.modSlot_keeps (e : LenEvent) (n : SlotIx) (f : Slot → Slot)
    (h : ∀ x, (f x).profile = x.profile ∧ (f x).news = x.news)
    (k : (e.len.slots[n].keepaliveDeadline.isSome = true ↔ e.len.slots[n].state = .active) →
      ((f e.len.slots[n]).keepaliveDeadline.isSome = true ↔ (f e.len.slots[n]).state = .active)) :
    e.len.Keeps (e.modSlot n f).len := by
  refine .of_slots rfl rfl (fun m => ?_) (fun x m => ?_) rfl rfl
  · rw [LenEvent.modSlot_len, Len.setSlot_get]
    split
    · rename_i hm; subst hm; exact h _
    · exact ⟨rfl, rfl⟩
  · rw [LenEvent.modSlot_len, Len.setSlot_get]
    split
    · rename_i hm; subst hm; exact k (x m)
    · exact x m

theorem LenEvent.clearAnswered_keeps (e : LenEvent) (n : SlotIx) : e.len.Keeps (e.clearAnswered n).len :=
  e.modSlot_keeps n _ (fun _ => ⟨rfl, rfl⟩) id

theorem LenEvent.purgePasses_keeps (e : LenEvent) (rs : List ResIx) : e.len.Keeps (e.purgePasses rs).len :=
  (e.purgePasses_grows rs).keeps

theorem LenEvent.purge_keeps (e : LenEvent) (n : SlotIx) (session : Session) : e.len.Keeps (e.purge n session).len :=
  (e.purge_quiet n session).toGrows.keeps

theorem LenEvent.removeKeepalive_keeps (e : LenEvent) (n : SlotIx) : e.len.Keeps (e.removeKeepalive n).len := .refl _

theorem LenEvent.notify_keeps (e : LenEvent) (m : RquMsg) : e.len.Keeps (e.notify m).len := .refl _

theorem LenEvent.beginSession_keeps (e : LenEvent) (n : SlotIx) (p : Port) (ticks : Nat) :
    e.len.Keeps (e.beginSession n p ticks).len :=
  (e.modSlot_keeps n
    (fun s =>
      { s with
        state := .active, session := nextSession e.len.slots[n].session, port := some p,
        keepaliveTerm := resolveKeepalive ticks, keepaliveDeadline := some (deadlineAfter e.now (resolveKeepalive ticks)) })
    (fun _ => ⟨rfl, rfl⟩) fun _ => by simp : _)

theorem LenEvent.attachFresh_keeps (e : LenEvent) (p : Port) (f : Frame) (ticks : Nat) :
    e.len.Keeps (e.attachFresh p f ticks).len := by
  unfold LenEvent.attachFresh
  refine Len.Keeps.trans ?_ (LenEvent.replyWith_grows _ f _ _).keeps
  refine Len.Keeps.trans ?_ (LenEvent.notify_keeps _ _)
  refine Len.Keeps.trans ?_ (LenEvent.clearAnswered_keeps _ _)
  exact e.beginSession_keeps _ _ _

theorem LenEvent.attachReplacing_keeps (e : LenEvent) (p : Port) (f : Frame) (ticks : Nat) :
    e.len.Keeps (e.attachReplacing p f ticks).len := by
  unfold LenEvent.attachReplacing
  refine Len.Keeps.trans ?_ (LenEvent.purgePasses_keeps _ _)
  refine Len.Keeps.trans ?_ (LenEvent.replyWith_grows _ f _ _).keeps
  refine Len.Keeps.trans ?_ (LenEvent.clearAnswered_keeps _ _)
  refine Len.Keeps.trans ?_ (LenEvent.notify_keeps _ _)
  refine Len.Keeps.trans ?_ (LenEvent.notify_keeps _ _)
  refine Len.Keeps.trans ?_ (LenEvent.beginSession_keeps _ _ _ _)
  refine Len.Keeps.trans ?_ (LenEvent.modSlot_keeps _ _ _ (fun _ => ⟨rfl, rfl⟩) id)
  exact (e.purge_keeps _ _).trans (LenEvent.removeKeepalive_keeps _ _)

theorem LenEvent.detach_keeps (e : LenEvent) (f : Frame) : e.len.Keeps (e.detach f).len := by
  unfold LenEvent.detach
  refine Len.Keeps.trans ?_ (LenEvent.purgePasses_keeps _ _)
  refine Len.Keeps.trans ?_ (LenEvent.notify_keeps _ _)
  refine Len.Keeps.trans ?_ (LenEvent.clearAnswered_keeps _ _)
  refine Len.Keeps.trans ?_ (LenEvent.modSlot_keeps _ _ _ (fun _ => ⟨rfl, rfl⟩) fun _ => by simp)
  exact (e.purge_keeps _ _).trans (LenEvent.removeKeepalive_keeps _ _)

theorem LenEvent.loseSession_keeps (e : LenEvent) (n : SlotIx) : e.len.Keeps (e.loseSession n).len := by
  unfold LenEvent.loseSession
  refine Len.Keeps.trans ?_ (LenEvent.purgePasses_keeps _ _)
  refine Len.Keeps.trans ?_ (LenEvent.notify_keeps _ _)
  refine Len.Keeps.trans ?_ (LenEvent.clearAnswered_keeps _ _)
  refine Len.Keeps.trans ?_ (LenEvent.modSlot_keeps _ _ _ (fun _ => ⟨rfl, rfl⟩) fun _ => by simp)
  exact e.purge_keeps _ _

/-! ### DEFINE and RETIRE -/

theorem LenEvent.define_keeps (e : LenEvent) (f : Frame) : e.len.Keeps (e.define f).len := by
  unfold LenEvent.define
  dsimp only
  split
  · exact (e.reply_grows f _).keeps
  · split
    · exact (e.badOperand_grows f _ _).keeps
    · rename_i hd
      split
      · exact (e.reply_grows f _).keeps
      · rename_i hl
        split
        · exact (e.reply_grows f _).keeps
        · rename_i r hr
          refine Len.Keeps.trans ?_ (LenEvent.replyWith_grows _ f _ _).keeps
          refine ⟨?_, fun _ => rfl, fun h => ⟨h, rfl, fun _ => rfl⟩⟩
          rintro ⟨h1, h2, h3, h4, h5⟩
          refine ⟨h1, ?_, h3, h4, h5⟩
          generalize defineOperands f.operands = d at hd hl
          have hn : d.name ≠ 0x0000 ∧ d.name ≠ 0xFFFF := by
            unfold defineFault at hd
            by_cases hx : d.name = 0x0000 ∨ d.name = 0xFFFF
            · rw [if_pos hx] at hd; cases hd
            · exact not_or.1 hx
          have hnew : ∀ q : ResIx, e.len.catalog[q].state ≠ .vacant → e.len.catalog[q].name ≠ d.name := by
            intro q hq hname
            apply hl
            unfold Len.lookup
            rw [if_neg (not_or.2 hn)]
            rw [List.find?_isSome]
            exact ⟨q, List.mem_finRange q, by simpa using ⟨hq, hname⟩⟩
          refine ⟨fun a b ha hb hab => ?_, fun a ha => ?_⟩
          · rw [LenEvent.modEntry_len, Len.setEntry_get] at ha hb hab
            rw [Len.setEntry_get] at hab
            by_cases har : a = r
            · by_cases hbr : b = r
              · exact har.trans hbr.symm
              · rw [if_pos har, if_neg hbr] at hab
                rw [if_neg hbr] at hb
                exact absurd hab.symm (hnew b hb)
            · by_cases hbr : b = r
              · rw [if_neg har, if_pos hbr] at hab
                rw [if_neg har] at ha
                exact absurd hab (hnew a ha)
              · rw [if_neg har, if_neg hbr] at hab
                rw [if_neg har] at ha
                rw [if_neg hbr] at hb
                exact h2.1 a b ha hb hab
          · rw [LenEvent.modEntry_len, Len.setEntry_get] at ha ⊢
            by_cases har : a = r
            · rw [if_pos har]
              exact hn
            · rw [if_neg har] at ha ⊢
              exact h2.2 a ha

theorem LenEvent.retireWaits_grows (e : LenEvent) (r : ResIx) : e.Grows (e.retireWaits r) :=
  LenEvent.Grows.foldl (fun e w => e.finishWait_grows w false .retired) _ e

/-- An entry is not VACANT, or no record in use refers to it. -/
def Len.standsFor (len : Len) (r : ResIx) : Prop :=
  len.catalog[r].state = .vacant → ∀ i : RecIx, len.leases[i].state ≠ .free → len.leases[i].resource ≠ r

theorem Len.recordsOn_zero (len : Len) (r : ResIx) :
    len.recordsOn r = 0 ↔ ∀ i : RecIx, len.leases[i].state ≠ .free → len.leases[i].resource ≠ r := by
  unfold Len.recordsOn
  rw [List.countP_eq_zero]
  constructor
  · intro h i hi hr
    exact h len.leases[i] (by simp) (decide_eq_true ⟨hi, hr⟩)
  · intro h l hl
    obtain ⟨i, hi, rfl⟩ := List.mem_iff_getElem.1 hl
    have hi' : i < 128 := by simpa using hi
    have := h ⟨i, hi'⟩
    simp only [Vector.getElem_toList, decide_eq_true_eq, not_and]
    exact this

theorem LenEvent.vacateIfDrained_standsFor (e : LenEvent) (q r : ResIx) (h : e.len.standsFor r) :
    (e.vacateIfDrained q).len.standsFor r := by
  unfold LenEvent.vacateIfDrained
  split
  · rename_i hd
    intro hv
    by_cases hq : r = q
    · subst hq
      exact (Len.recordsOn_zero _ _).1 hd.2
    · rw [LenEvent.modEntry_len, Len.setEntry_get, if_neg hq] at hv
      exact h hv
  · exact h

theorem LenEvent.modLease_standsFor (e : LenEvent) (i : RecIx) (f : Lease → Lease) (r : ResIx)
    (hf : (f e.len.leases[i]).state = .free) (h : e.len.standsFor r) : (e.modLease i f).len.standsFor r := by
  intro hv j hj
  rw [LenEvent.modLease_len, Len.setLease_get] at hj ⊢
  by_cases hji : j = i
  · rw [if_pos hji] at hj
    exact absurd hf hj
  · rw [if_neg hji] at hj ⊢
    exact h hv j hj

theorem LenEvent.modEntry_standsFor (e : LenEvent) (q : ResIx) (f : Entry → Entry) (r : ResIx)
    (hf : (f e.len.catalog[q]).state = e.len.catalog[q].state) (h : e.len.standsFor r) : (e.modEntry q f).len.standsFor r := by
  intro hv
  rw [LenEvent.modEntry_len, Len.setEntry_get] at hv
  by_cases hq : r = q
  · subst hq
    rw [if_pos rfl, hf] at hv
    exact h hv
  · rw [if_neg hq] at hv
    exact h hv

theorem LenEvent.freeRecord_standsFor (e : LenEvent) (i : RecIx) (r : ResIx) (h : e.len.standsFor r) :
    (e.freeRecord i).len.standsFor r := by
  unfold LenEvent.freeRecord LenEvent.clearRecord
  split
  · exact LenEvent.vacateIfDrained_standsFor _ _ r (LenEvent.modLease_standsFor _ i _ r rfl
      (LenEvent.modEntry_standsFor _ _ _ r rfl h))
  · exact LenEvent.vacateIfDrained_standsFor _ _ r (LenEvent.modLease_standsFor _ i _ r rfl h)

theorem LenEvent.endWait_standsFor (e : LenEvent) (w : WaitIx) (b : Bool) (r : ResIx) (h : e.len.standsFor r) :
    (e.endWait w b).len.standsFor r := by
  unfold LenEvent.endWait
  split
  · exact h
  · rename_i x _
    exact e.modEntry_standsFor x.resource
      (fun en =>
        { en with
          queue := en.queue.erase w
          upgradePending := if x.kind = .upgrade then false else en.upgradePending }) r rfl h

theorem LenEvent.finishWait_standsFor (e : LenEvent) (w : WaitIx) (b : Bool) (st : Status) (r : ResIx)
    (h : e.len.standsFor r) : (e.finishWait w b st).len.standsFor r := by
  unfold LenEvent.finishWait
  split
  · exact h
  · unfold LenEvent.dropWait
    split
    · exact h
    · split
      · exact LenEvent.freeRecord_standsFor _ _ r (e.endWait_standsFor w b r h)
      · exact e.endWait_standsFor w b r h

/-- The ends of waits leave an entry VACANT only where no record in use refers to it. -/
theorem LenEvent.retireWaits_standsFor (e : LenEvent) (q r : ResIx) (h : e.len.standsFor r) :
    (e.retireWaits q).len.standsFor r := by
  unfold LenEvent.retireWaits
  generalize e.len.catalog[q].queue = ws
  induction ws generalizing e with
  | nil => exact h
  | cons w ws ih => exact ih _ (e.finishWait_standsFor w false .retired r h)

theorem LenEvent.modEntry_state (e : LenEvent) (q : ResIx) (f : Entry → Entry) (r : ResIx)
    (hf : (f e.len.catalog[q]).state = e.len.catalog[q].state) :
    (e.modEntry q f).len.catalog[r].state = e.len.catalog[r].state := by
  rw [LenEvent.modEntry_len, Len.setEntry_get]
  split
  · rename_i hq; subst hq; exact hf
  · rfl

theorem LenEvent.endWait_state (e : LenEvent) (w : WaitIx) (b : Bool) (r : ResIx) :
    (e.endWait w b).len.catalog[r].state = e.len.catalog[r].state := by
  unfold LenEvent.endWait
  split
  · rfl
  · rename_i x _
    exact e.modEntry_state x.resource
      (fun en =>
        { en with
          queue := en.queue.erase w
          upgradePending := if x.kind = .upgrade then false else en.upgradePending }) r rfl

/-- The end of a lease's UPGRADE wait changes no entry's state. -/
theorem LenEvent.endUpgradeOf_state (e : LenEvent) (i : RecIx) (st : Status) (r : ResIx) :
    (e.endUpgradeOf i st).len.catalog[r].state = e.len.catalog[r].state := by
  unfold LenEvent.endUpgradeOf
  split
  · rfl
  · rename_i w hw
    unfold Len.upgradeWaitOf at hw
    have hx := List.find?_some hw
    unfold LenEvent.finishWait
    split
    · rfl
    · rename_i x hwx
      simp only [hwx, decide_eq_true_eq] at hx
      unfold LenEvent.dropWait
      simp only [hwx, hx.1]
      exact e.endWait_state w false r

theorem LenEvent.revokeRecord_state (e : LenEvent) (i : RecIx) (r : ResIx) :
    (e.revokeRecord i).len.catalog[r].state = e.len.catalog[r].state := by
  unfold LenEvent.revokeRecord
  exact (LenEvent.endUpgradeOf_state _ _ _ r).trans (LenEvent.modEntry_state _ _ _ r rfl)

/-- Revocations change no entry's state. -/
theorem LenEvent.revokeAll_state (e : LenEvent) (q r : ResIx) :
    (e.revokeAll q).len.catalog[r].state = e.len.catalog[r].state := by
  unfold LenEvent.revokeAll
  generalize e.len.heldOn q = is
  induction is generalizing e with
  | nil => rfl
  | cons i is ih => exact (ih _).trans (e.revokeRecord_state i r)

/-- An entry's end of use keeps: its name stays or it becomes VACANT. -/
theorem LenEvent.leaveOpen_keeps (e : LenEvent) (r : ResIx) (hr : e.len.standsFor r) :
    e.len.Keeps (e.leaveOpen r).len := by
  have key : ∀ f : Entry → Entry,
      ((f e.len.catalog[r]).state ≠ .vacant → e.len.catalog[r].state ≠ .vacant ∧ (f e.len.catalog[r]).name = e.len.catalog[r].name) →
      e.len.Keeps (e.modEntry r f).len := by
    intro f hx
    refine ⟨?_, fun _ => rfl, fun h => ⟨h, rfl, fun _ => rfl⟩⟩
    rintro ⟨h1, h2, h3, h4, h5⟩
    refine ⟨h1, h2.of_kept fun q hq => ?_, h3, h4, h5⟩
    rw [LenEvent.modEntry_len, Len.setEntry_get] at hq ⊢
    by_cases hqr : q = r
    · subst hqr
      rw [if_pos rfl] at hq ⊢
      exact hx hq
    · rw [if_neg hqr] at hq ⊢
      exact ⟨hq, rfl⟩
  unfold LenEvent.leaveOpen
  split
  · exact key _ fun h => absurd rfl h
  · rename_i hz
    exact key _ fun _ => ⟨fun hv => hz ((Len.recordsOn_zero _ _).2 (hr hv)), rfl⟩

theorem LenEvent.retireEntry_keeps (e : LenEvent) (f : Frame) (r : ResIx) (force : Bool)
    (hr : e.len.catalog[r].state ≠ .vacant) : e.len.Keeps (e.retireEntry f r force).len := by
  unfold LenEvent.retireEntry
  dsimp only
  refine Len.Keeps.trans ?_ (LenEvent.replyWith_grows _ f _ _).keeps
  have h1 : (if force then e.revokeAll r else e).len.catalog[r].state ≠ .vacant := by
    split
    · rw [e.revokeAll_state r r]
      exact hr
    · exact hr
  have h2 : e.len.Keeps (if force then e.revokeAll r else e).len := by
    split
    · exact (e.revokeAll_grows r).keeps
    · exact .refl _
  refine (h2.trans (LenEvent.retireWaits_grows _ r).keeps).trans ?_
  exact LenEvent.leaveOpen_keeps _ r (LenEvent.retireWaits_standsFor _ r r fun hv => absurd hv h1)

theorem Len.lookup_stands {len : Len} {name : ResName} {r : ResIx} (h : len.lookup name = some r) :
    len.catalog[r].state ≠ .vacant ∧ len.catalog[r].name = name := by
  unfold Len.lookup at h
  split at h
  · cases h
  · simpa using List.find?_some h

theorem LenEvent.retire_keeps (e : LenEvent) (f : Frame) : e.len.Keeps (e.retire f).len := by
  unfold LenEvent.retire
  dsimp only
  split
  · exact (e.reply_grows f _).keeps
  · split
    · exact (e.badOperand_grows f _ _).keeps
    · split
      · exact (e.reply_grows f _).keeps
      · rename_i r hr
        exact e.retireEntry_keeps f r _ (Len.lookup_stands hr).1

/-! ### Profiles, freezing, configuration -/

/-- A profile that passes the checks of a PROFILE_SET is within the ceiling, and slot 0's holds PROFILE (R110, R111). -/
theorem Len.profileFault_none {len : Len} {n : SlotIx} {p : Profile} (h : len.profileFault n p = none) :
    p.within (ceiling n) ∧ (n = 0 → p.holds .profile = true) := by
  unfold Len.profileFault at h
  dsimp only at h
  split at h
  · cases h
  · rename_i hr
    split at h
    · cases h
    · rename_i h0
      split at h
      · cases h
      · rename_i h1
        split at h
        · cases h
        · split at h
          · cases h
          · rename_i h3
            split at h
            · cases h
            · split at h
              · cases h
              · rename_i h5
                refine ⟨⟨fun r hp => ?_, by omega, by omega, by omega⟩, fun hn => ?_⟩
                · unfold firstRightAbove at hr
                  rw [List.find?_eq_none] at hr
                  have := hr (rightNumber r) (by cases r <;> decide)
                  unfold Profile.holds at hp ⊢
                  rw [hp] at this
                  simpa using this
                · have := not_and.1 h0 hn
                  simpa using this

theorem ceiling_within (n : SlotIx) : (ceiling n).within (ceiling n) :=
  ⟨fun _ h => h, Nat.le_refl _, Nat.le_refl _, Nat.le_refl _⟩

/-- A change of one slot's profile to a legal one keeps the laws, and nothing but the profile. -/
theorem LenEvent.setProfile_lawful (e : LenEvent) (n : SlotIx) (p : Profile) (hp : p.within (ceiling n))
    (h0 : n = 0 → p.holds .profile = true) (h : e.len.lawful) :
    (e.modSlot n fun s => { s with profile := p }).len.lawful := by
  obtain ⟨h1, h2, h3, h4, h5⟩ := h
  refine ⟨⟨fun m => ?_, ?_⟩, h2, h3, h4, fun m => ?_⟩
  · rw [LenEvent.modSlot_len, Len.setSlot_get]
    split
    · rename_i hm; subst hm; exact hp
    · exact h1.1 m
  · rw [LenEvent.modSlot_len, Len.setSlot_get]
    split
    · rename_i hm; exact h0 hm.symm
    · exact h1.2
  · rw [LenEvent.modSlot_len, Len.setSlot_get]
    split
    · rename_i hm; subst hm; exact h5 m
    · exact h5 m

theorem LenEvent.setProfile_news (e : LenEvent) (n : SlotIx) (p : Profile) (m : SlotIx) :
    (e.modSlot n fun s => { s with profile := p }).len.slots[m].news = e.len.slots[m].news := by
  rw [LenEvent.modSlot_len, Len.setSlot_get]
  split
  · rename_i hm; subst hm; rfl
  · rfl

/-- A change of one slot's profile to a legal one, of profiles that are not frozen, keeps. -/
theorem LenEvent.setProfile_keeps (e : LenEvent) (n : SlotIx) (p : Profile) (hp : p.within (ceiling n))
    (h0 : n = 0 → p.holds .profile = true) (hf : e.len.frozen ≠ true) :
    e.len.Keeps (e.modSlot n fun s => { s with profile := p }).len :=
  ⟨e.setProfile_lawful n p hp h0, e.setProfile_news n p, fun h => absurd h hf⟩

theorem LenEvent.profileSet_keeps (e : LenEvent) (f : Frame) : e.len.Keeps (e.profileSet f).len := by
  unfold LenEvent.profileSet
  dsimp only
  split
  · exact (e.reply_grows f _).keeps
  · split
    · exact (e.badOperand_grows f _ _).keeps
    · split
      · exact (e.profileRefused_grows f _ _ _).keeps
      · rename_i hf
        split
        · exact (e.profileRefused_grows f _ _ _).keeps
        · split
          · exact (e.profileRefused_grows f _ _ _).keeps
          · rename_i hp
            exact (e.setProfile_keeps _ _ (Len.profileFault_none hp).1 (Len.profileFault_none hp).2 hf).trans
              (LenEvent.reply_grows _ f _).keeps

theorem LenEvent.restoreProfile_keeps (e : LenEvent) (n : SlotIx) (hf : e.len.frozen ≠ true) :
    e.len.Keeps (e.restoreProfile n).len :=
  e.setProfile_keeps n _ (ceiling_within n) (fun h => by subst h; decide) hf

theorem LenEvent.restoreProfiles_keeps (ns : List SlotIx) (e : LenEvent) (hf : e.len.frozen ≠ true) :
    e.len.Keeps (ns.foldl LenEvent.restoreProfile e).len := by
  induction ns generalizing e with
  | nil => exact .refl _
  | cons n ns ih => exact (e.restoreProfile_keeps n hf).trans (ih _ hf)

theorem LenEvent.profileRestore_keeps (e : LenEvent) (f : Frame) : e.len.Keeps (e.profileRestore f).len := by
  unfold LenEvent.profileRestore
  dsimp only
  split
  · exact (e.reply_grows f _).keeps
  · split
    · exact (e.profileRefused_grows f _ _ _).keeps
    · rename_i hf
      split
      · exact (LenEvent.restoreProfiles_keeps _ e hf).trans (LenEvent.reply_grows _ f _).keeps
      · split
        · exact (e.profileRefused_grows f _ _ _).keeps
        · exact (e.restoreProfile_keeps _ hf).trans (LenEvent.reply_grows _ f _).keeps

/-- A change of LEN's settings alone keeps, where it does not undo a freeze. -/
theorem Len.Keeps.of_settings {a b : Len} (hc : b.catalog = a.catalog) (hl : b.leases = a.leases) (hs : b.slots = a.slots)
    (hf : a.frozen = true → b.frozen = true ∧ b.checkOnly = a.checkOnly) : a.Keeps b := by
  refine ⟨?_, fun n => by rw [hs], fun x => ⟨(hf x).1, (hf x).2, fun n => by rw [hs]⟩⟩
  unfold Len.lawful Len.profilesLegal Len.namesUnique Len.generationsValid Len.freeRecordsSessionless
    Len.keepaliveMatchesState
  rw [hc, hl, hs]
  exact id

theorem LenEvent.profileFreeze_keeps (e : LenEvent) (f : Frame) : e.len.Keeps (e.profileFreeze f).len := by
  unfold LenEvent.profileFreeze
  split
  · exact (e.reply_grows f _).keeps
  · split
    · exact (e.profileRefused_grows f _ _ _).keeps
    · refine Len.Keeps.trans ?_ (LenEvent.reply_grows _ f _).keeps
      exact .of_settings rfl rfl rfl fun _ => ⟨rfl, rfl⟩

theorem LenEvent.config_keeps (e : LenEvent) (f : Frame) : e.len.Keeps (e.config f).len := by
  unfold LenEvent.config
  dsimp only
  split
  · exact (e.reply_grows f _).keeps
  · split
    · exact (e.badOperand_grows f _ _).keeps
    · split
      · exact (e.profileRefused_grows f _ _ _).keeps
      · rename_i hf
        exact .of_settings rfl rfl rfl fun h => absurd h hf

theorem LenEvent.closeConfig_keeps (e : LenEvent) (c : OpenConfig) : e.len.Keeps (e.closeConfig c).len := by
  unfold LenEvent.closeConfig
  refine Len.Keeps.trans ?_ (LenEvent.complete_grows _ _ _).keeps
  exact .of_settings rfl rfl rfl fun h => ⟨h, rfl⟩

end Sys2Proof.Machine
end

