-- ==== Sys2Proof/Laws/Tables.lean ====
section
/-! SUPPORT. The tables of LEN read and written: what the searches find, what the operations on one record, wait or entry leave, and how the checks of a request read at the take. -/

namespace Sys2Proof.Machine

/-- No index of a table is found exactly if none passes the test. -/
theorem find_finRange_none {n} (p : Fin n → Bool) : (List.finRange n).find? p = none ↔ ∀ i, p i = false := by
  simp [List.find?_eq_none]

/-- The index found is the lowest that passes the test. -/
theorem find_finRange_some {n} (p : Fin n → Bool) (i : Fin n) : (List.finRange n).find? p = some i ↔ p i = true ∧ ∀ j < i, p j = false := by
  rw [List.find?_eq_some_iff_getElem]
  constructor
  · rintro ⟨h, k, hk, e, hj⟩
    simp only [List.getElem_finRange] at e
    refine ⟨h, fun j hji => ?_⟩
    have := hj j.val (by rw [← e] at hji; exact hji)
    simpa using this
  · rintro ⟨h, hj⟩
    refine ⟨h, i.val, by simp, by simp, fun j hji => ?_⟩
    have := hj ⟨j, by omega⟩ hji
    simpa using this

theorem Len.freeLease_none (len : Len) : len.freeLease? = none ↔ ∀ i : RecIx, len.leases[i].state ≠ .free := by
  unfold Len.freeLease?; rw [find_finRange_none]; simp

/-- The record taken is the lowest FREE one (R22). -/
theorem Len.freeLease_some (len : Len) (i) : len.freeLease? = some i ↔ len.lowestFreeLease i := by
  unfold Len.freeLease? Len.lowestFreeLease; rw [find_finRange_some]; simp

theorem Len.freeWait_none (len : Len) : len.freeWait? = none ↔ ∀ i : WaitIx, len.waits[i] ≠ none := by
  unfold Len.freeWait?; rw [find_finRange_none]; simp [Option.isSome_iff_ne_none]

/-- The wait entry taken is the lowest FREE one (R51). -/
theorem Len.freeWait_some (len : Len) (i) : len.freeWait? = some i ↔ len.lowestFreeWait i := by
  unfold Len.freeWait? Len.lowestFreeWait; rw [find_finRange_some]; simp [Option.isSome_iff_ne_none]

theorem Len.vacantEntry_none (len : Len) : len.vacantEntry? = none ↔ ∀ r : ResIx, len.catalog[r].state ≠ .vacant := by
  unfold Len.vacantEntry?; rw [find_finRange_none]; simp

/-- The entry a DEFINE takes is the lowest VACANT one (R6). -/
theorem Len.vacantEntry_some (len : Len) (i) : len.vacantEntry? = some i ↔ len.catalog[i].state = .vacant ∧ ∀ q : ResIx, q < i → len.catalog[q].state ≠ .vacant := by
  unfold Len.vacantEntry?; rw [find_finRange_some]; simp

theorem termMax_eq : termMax = 1048575 := rfl

/-- A handle is resolved from the lease table alone. -/
theorem Len.resolve_congr {a b : Len} (h : a.leases = b.leases) (n h') : a.resolve n h' = b.resolve n h' := by
  unfold Len.resolve; rw [h]

theorem handleRecord_eq (h : Nat) : handleRecord h = (⟨h / 512 % 128, Nat.mod_lt _ (by decide)⟩ : RecIx) := rfl

theorem handleGeneration_iff (h : Nat) (g : Generation) : (handleGeneration h ≠ 0 ∧ g = handleGeneration h) ↔ (g.toNat = h % 512 ∧ h % 512 ≠ 0) := by
  unfold handleGeneration
  constructor
  · rintro ⟨a, rfl⟩
    refine ⟨by simp, fun c => a ?_⟩
    apply BitVec.eq_of_toNat_eq; simpa using c
  · rintro ⟨a, b⟩
    refine ⟨fun c => b ?_, ?_⟩
    · have := congrArg BitVec.toNat c; simpa using this
    · apply BitVec.eq_of_toNat_eq; simpa using a

/-- What a handle that resolves says of its record (R20). -/
theorem Len.resolve_ok (len : Len) (n : SlotIx) (h : Nat) (i : RecIx) :
  len.resolve n h = .ok i ↔ i = handleRecord h ∧ ((len.leases[handleRecord h].state = .held ∨ len.leases[handleRecord h].state = .lapsed ∨ len.leases[handleRecord h].state = .revoked) ∧ (len.leases[handleRecord h].generation.toNat = h % 512 ∧ h % 512 ≠ 0)) ∧ len.leases[handleRecord h].slot = n := by
  unfold Len.resolve
  dsimp only
  rw [← handleGeneration_iff]
  split
  · rename_i hc
    split
    · rename_i hs; simp only [Except.ok.injEq]; constructor
      · rintro rfl; exact ⟨rfl, hc, hs⟩
      · rintro ⟨rfl, _⟩; rfl
    · rename_i hs; simp only [reduceCtorEq, false_iff]; rintro ⟨_, _, b⟩; exact hs b
  · rename_i hc; simp only [reduceCtorEq, false_iff]; rintro ⟨_, b, _⟩; exact hc b

theorem Len.resolved_state {len : Len} {n h i} (hr : len.resolve n h = .ok i) : len.leases[i].state = .held ∨ len.leases[i].state = .lapsed ∨ len.leases[i].state = .revoked := by
  obtain ⟨rfl, h, _⟩ := (Len.resolve_ok _ _ _ _).1 hr; exact h.1

theorem modeOfCode_none (c : Byte) : modeOfCode c = none ↔ c ≠ 1 ∧ c ≠ 2 := by
  unfold modeOfCode; split
  · simp_all
  · split <;> simp_all

/-- A mode code names SHARED or EXCLUSIVE. -/
theorem modeOfCode_cases {c : Byte} {m} (h : modeOfCode c = some m) : m = .shared ∨ m = .exclusive := by
  unfold modeOfCode at h; split at h
  · simp_all
  · split at h <;> simp_all

/-- A name is looked up in the catalog alone. -/
theorem Len.lookup_congr {a b : Len} (h : a.catalog = b.catalog) (n) : a.lookup n = b.lookup n := by
  unfold Len.lookup; rw [h]

theorem Len.hasRecordOn_iff (len : Len) (n : SlotIx) (r : ResIx) : len.hasRecordOn n r = true ↔ ∃ i : RecIx, len.leases[i].state ≠ .free ∧ len.leases[i].slot = n ∧ len.leases[i].resource = r := by
  unfold Len.hasRecordOn
  rw [List.any_eq_true]
  constructor
  · rintro ⟨l, hl, h⟩
    rw [Vector.mem_toList_iff, Vector.mem_iff_getElem] at hl
    obtain ⟨i, hi, rfl⟩ := hl
    exact ⟨⟨i, hi⟩, by simpa using h⟩
  · rintro ⟨i, h⟩
    exact ⟨len.leases[i], by simp, by simpa using h⟩

theorem State.takeEvent_acquireRefusal (s : State) (p : Port) (f : Frame) (r m) : (s.takeEvent p f).len.acquireRefusal f.slot r m = s.len.acquireRefusal f.slot r m := by
  unfold Len.acquireRefusal
  simp [-Fin.getElem_fin, Len.hasRecordOn]

theorem Len.mayAcquire_refusal {len : Len} {n r m} (h : len.mayAcquire n r m) : len.acquireRefusal n r m = none := by
  obtain ⟨h1, h2, h3, h4, h5⟩ := h
  unfold Len.acquireRefusal
  dsimp only
  rw [if_neg h1, if_neg (by rw [h2]; simp), if_neg (by rw [show len.slots[n].profile.holds (acquireRight m) = true from h3]; simp), if_neg (by rintro ⟨a, b⟩; rcases h4 with h | h; exact a h; omega), if_neg]
  rw [Len.hasRecordOn_iff]; exact h5

theorem Entry.grantable_iff (en : Entry) (m) : en.grantable m = true ↔ en.freeFor m := by
  unfold Entry.grantable Entry.admits Entry.freeFor
  simp

theorem Entry.spentFor_iff (en : Entry) (m) : en.spentFor m = true ↔ (m = .exclusive ∨ en.holderMode = .none) ∧ en.epoch = 0xFFFFFFFF := by
  unfold Entry.spentFor needsAdvance epochSpent; simp

theorem Len.leaseUse_congr {a b : Len} (h : a.leases = b.leases) (n) : a.leaseUse n = b.leaseUse n := by unfold Len.leaseUse; rw [h]

theorem Len.waitUse_congr {a b : Len} (h : a.waits = b.waits) (n) : a.waitUse n = b.waitUse n := by unfold Len.waitUse; rw [h]

theorem State.lenAfterTake_freeLease (s : State) (p f) : (s.lenAfterTake p f).freeLease? = s.len.freeLease? := rfl

theorem State.lenAfterTake_freeWait (s : State) (p f) : (s.lenAfterTake p f).freeWait? = s.len.freeWait? := rfl

theorem State.takeEvent_grantRefusal (s : State) (p f n r m) : (s.takeEvent p f).len.grantRefusal n r m = s.len.grantRefusal n r m := by
  unfold Len.grantRefusal
  simp [-Fin.getElem_fin, State.lenAfterTake_freeLease, Len.leaseUse_congr (a := s.lenAfterTake p f) (b := s.len) rfl]

theorem State.takeEvent_parkRefusal (s : State) (p f n r l) : (s.takeEvent p f).len.parkRefusal n r l = s.len.parkRefusal n r l := by
  unfold Len.parkRefusal
  simp [-Fin.getElem_fin, State.lenAfterTake_freeLease, State.lenAfterTake_freeWait, Len.leaseUse_congr (a := s.lenAfterTake p f) (b := s.len) rfl, Len.waitUse_congr (a := s.lenAfterTake p f) (b := s.len) rfl]

theorem State.takeEvent_freeLease (s : State) (p f) : (s.takeEvent p f).len.freeLease? = s.len.freeLease? := rfl

theorem State.takeEvent_freeWait (s : State) (p f) : (s.takeEvent p f).len.freeWait? = s.len.freeWait? := rfl

/-- Where an ACQUIRE wait is placed in a queue (R52). -/
theorem insertBehind_split (p : WaitIx → Bool) (w : WaitIx) (q : List WaitIx) :
   ∃ a b, q = a ++ b ∧ insertBehind p w q = a ++ w :: b ∧ (∀ v ∈ b, p v = false) ∧ ∀ v, a.getLast? = some v → p v = true := by
  induction q with
  | nil => exact ⟨[], [], rfl, rfl, by simp, by simp⟩
  | cons x xs ih =>
    by_cases h : (x :: xs).any p = true
    · obtain ⟨a, b, e1, e2, e3, e4⟩ := ih
      refine ⟨x :: a, b, by simp [← e1], by simp only [insertBehind, h, if_true, e2]; rfl, e3, ?_⟩
      intro v hv
      cases a with
      | nil =>
        simp only [List.getLast?_singleton, Option.some.injEq] at hv
        subst hv
        simp only [List.nil_append] at e1; subst e1
        rw [List.any_cons] at h
        have : xs.any p = false := by rw [List.any_eq_false]; intro v hv; simp [e3 v hv]
        simpa [this] using h
      | cons y ys => exact e4 v (by rw [← hv]; simp)
    · refine ⟨[], x :: xs, rfl, by simp [insertBehind, h], ?_, by simp⟩
      have h' : (x :: xs).any p = false := by simpa using h
      rw [List.any_eq_false] at h'
      intro v hv; simpa using h' v hv

theorem Len.serialInUse_iff (len : Len) (n : Serial) : len.serialInUse n = true ↔ ∃ (v : WaitIx) (y : Wait), len.waits[v] = some y ∧ y.serial = n := by
  unfold Len.serialInUse
  rw [List.any_eq_true]
  constructor
  · rintro ⟨x, hx, h⟩
    rw [Vector.mem_toList_iff, Vector.mem_iff_getElem] at hx
    obtain ⟨i, hi, rfl⟩ := hx
    split at h
    · rename_i y hy; exact ⟨⟨i, hi⟩, y, hy, by simpa using h⟩
    · simp at h
  · rintro ⟨v, y, h, rfl⟩
    refine ⟨len.waits[v], by simp, ?_⟩
    rw [h]; simp

theorem serial_add_succ (n : Serial) (j : Nat) : n + BitVec.ofNat 16 (j + 1) = n + 1 + BitVec.ofNat 16 j := by
  apply BitVec.eq_of_toNat_eq; simp; omega

/-- The walk to a serial that no PARKED wait carries. -/
theorem Len.freshSerial_walk (len : Len) (n : Serial) (k : Nat) : ∃ m ≤ k, len.freshSerial n k = n + BitVec.ofNat 16 m ∧ (∀ j < m, len.serialInUse (n + BitVec.ofNat 16 j) = true) ∧
    (m < k → len.serialInUse (len.freshSerial n k) = false) := by
  induction k generalizing n with
  | zero => exact ⟨0, by omega, by simp [Len.freshSerial], by omega, by omega⟩
  | succ k ih =>
    unfold Len.freshSerial
    by_cases h : len.serialInUse n = true
    · obtain ⟨m, h1, h2, h3, h4⟩ := ih (n + 1)
      refine ⟨m + 1, by omega, by rw [if_pos h, h2, serial_add_succ], ?_, fun x => by rw [if_pos h]; exact h4 (by omega)⟩
      intro j hj
      cases j with
      | zero => simpa using h
      | succ j => rw [serial_add_succ]; exact h3 j (by omega)
    · exact ⟨0, by omega, by rw [if_neg h]; simp, by omega, fun _ => by rw [if_neg h]; simpa using h⟩

/-- The serial given is the next one that no PARKED wait carries (R51). -/
theorem Len.freshSerial_next (len : Len) (w : WaitIx) (hw : len.waits[w] = none) : len.nextSerial (len.freshSerial len.waitSerial 96) := by
  obtain ⟨m, h1, h2, h3, h4⟩ := Len.freshSerial_walk len len.waitSerial 96
  have hc : ∀ j < m, ∃ v : WaitIx, ∃ y : Wait, len.waits[v] = some y ∧ y.serial = len.waitSerial + BitVec.ofNat 16 j := fun j hj => (Len.serialInUse_iff _ _).1 (h3 j hj)
  refine ⟨?_, m, h2, hc⟩
  have hm : m < 96 := by
    rcases Nat.lt_or_ge m 96 with h | h
    · exact h
    · exfalso
      have hc : ∀ j : Fin 96, ∃ v : WaitIx, ∃ y : Wait, len.waits[v] = some y ∧ y.serial = len.waitSerial + BitVec.ofNat 16 j.val := fun j => hc j.val (by omega)
      choose g y hy hs using hc
      have inj : Function.Injective g := by
        intro a b e
        have h1 := hy a; have h2 := hy b
        have : y a = y b := by
          have : (some (y a)) = some (y b) := by rw [← h1, ← h2]; simp only [e]
          simpa using this
        have e2 : len.waitSerial + BitVec.ofNat 16 a.val = len.waitSerial + BitVec.ofNat 16 b.val := by rw [← hs a, ← hs b, this]
        have := congrArg BitVec.toNat e2
        simp at this
        apply Fin.ext
        have := a.isLt; have := b.isLt
        omega
      have sur := Finite.surjective_of_injective inj
      obtain ⟨j, hj⟩ := sur w
      have := hy j
      rw [hj, hw] at this
      exact absurd this (by simp)
  intro v y hv e
  have := h4 hm
  rw [show len.serialInUse _ = true from (Len.serialInUse_iff _ _).2 ⟨v, y, hv, e⟩] at this
  exact absurd this (by simp)

theorem State.lenAfterTake_freshSerial (s : State) (p f) (n k) : (s.lenAfterTake p f).freshSerial n k = s.len.freshSerial n k := by
  induction k generalizing n with
  | zero => rfl
  | succ k ih => unfold Len.freshSerial; rw [ih]; rfl

/-- The count of what passes a test, after one place of a table is written. -/
theorem countP_toList_set {α : Type} {n : Nat} (p : α → Bool) (v : Vector α n) (i : Fin n) (x : α) :
   (v.set i x).toList.countP p + (if p v[i] then 1 else 0) = v.toList.countP p + (if p x then 1 else 0) := by
  have hi : i.val < v.toList.length := by simp
  have h := List.countP_set (p := p) (l := v.toList) (i := i.val) (a := x) (h := hi)
  rw [Vector.toList_set, h]
  have e : v.toList[i.val] = v[i] := by simp
  rw [e]
  have : (if p v[i] = true then 1 else 0) ≤ v.toList.countP p := by
    split
    · rename_i hp
      exact List.countP_pos_iff.2 ⟨v[i], by simp, hp⟩
    · omega
  omega

theorem Len.recordsOn_free {len : Len} {i : RecIx} {x : Lease} (hx : x.state = .free) (h : len.leases[i].state ≠ .free) :
   (len.setLease i x).recordsOn len.leases[i].resource + 1 = len.recordsOn len.leases[i].resource := by
  have := countP_toList_set (fun l => decide (l.state ≠ .free ∧ l.resource = len.leases[i].resource)) len.leases i x
  unfold Len.recordsOn
  simp only [Len.setLease_leases]
  simp only [hx, ne_eq, not_true, false_and, decide_false, h, not_false_eq_true, true_and] at this
  simpa using this

theorem Len.recordsOn_congr {a b : Len} (h : a.leases = b.leases) (n) : a.recordsOn n = b.recordsOn n := by unfold Len.recordsOn; rw [h]

/-- Freeing a record that is in use and not HELD, or whose holders have been lowered (R23). -/
theorem LenEvent.clearRecord_eq (e : LenEvent) (i : RecIx) (h : e.len.leases[i].state ≠ .free) :
   e.clearRecord i = { e with len := (e.len.setLease i e.len.leases[i].freed).setEntry e.len.leases[i].resource (e.len.entryAfterFreeing e.len.leases[i].resource e.len.catalog[e.len.leases[i].resource]) } := by
  unfold LenEvent.clearRecord
  rw [show (e.modLease i fun l => Lease.cleared (nextGeneration l.generation)) = { e with len := e.len.setLease i e.len.leases[i].freed } from rfl]
  unfold LenEvent.vacateIfDrained
  have hr := Len.recordsOn_free (len := e.len) (i := i) (x := e.len.leases[i].freed) rfl h
  unfold Len.entryAfterFreeing
  by_cases hc : e.len.catalog[e.len.leases[i].resource].state = .draining ∧ e.len.recordsOn e.len.leases[i].resource = 1
  · rw [if_pos hc, if_pos ⟨hc.1, Nat.succ.inj (hr.trans hc.2)⟩]; rfl
  · rw [if_neg hc, if_neg (fun c => hc ⟨c.1, hr.symm.trans (congrArg (· + 1) c.2)⟩)]
    congr 1
    unfold Len.setLease Len.setEntry
    congr 1
    simp

theorem Len.setEntry_setEntry (len : Len) (r x y) : (len.setEntry r x).setEntry r y = len.setEntry r y := by
  unfold Len.setEntry; simp

/-- Everything the freeing of a HELD record does (R23, R14). -/
theorem LenEvent.freeRecord_held (e : LenEvent) (i : RecIx) (h : e.len.leases[i].state = .held) :
   e.freeRecord i = { e with
     len := (e.len.setLease i e.len.leases[i].freed).setEntry e.len.leases[i].resource (e.len.entryAfterFreeing e.len.leases[i].resource e.len.catalog[e.len.leases[i].resource].lowered)
     toLck := e.toLck ++ [.remove ⟨e.len.leases[i].deadline, .lease i e.len.leases[i].generation⟩] } := by
  unfold LenEvent.freeRecord
  rw [if_pos h]
  rw [LenEvent.clearRecord_eq]
  · simp only [LenEvent.lowerHolders, LenEvent.removeDeadline, LenEvent.modEntry, Len.setEntry_leases, Len.setEntry_get, if_true, Len.leaseDeadline]
    congr 1
    have : ∀ en, (e.len.setEntry e.len.leases[i].resource en).setLease i e.len.leases[i].freed = (e.len.setLease i e.len.leases[i].freed).setEntry e.len.leases[i].resource en := fun _ => rfl
    rw [this, Len.setEntry_setEntry]
    congr 1
  · simp only [LenEvent.lowerHolders, LenEvent.removeDeadline, LenEvent.modEntry, Len.setEntry_leases, h]; simp

/-- Everything the freeing of a record in use that is not HELD does (R23). -/
theorem LenEvent.freeRecord_ended (e : LenEvent) (i : RecIx) (h : e.len.leases[i].state ≠ .free) (h' : e.len.leases[i].state ≠ .held) :
   e.freeRecord i = { e with len := (e.len.setLease i e.len.leases[i].freed).setEntry e.len.leases[i].resource (e.len.entryAfterFreeing e.len.leases[i].resource e.len.catalog[e.len.leases[i].resource]) } := by
  unfold LenEvent.freeRecord; rw [if_neg h', LenEvent.clearRecord_eq e i h]

/-- Everything the end of a wait does, apart from its record (R58). -/
theorem LenEvent.endWait_eq (e : LenEvent) (w : WaitIx) (x : Wait) (timedOut : Bool) (h : e.len.waits[w] = some x) :
   e.endWait w timedOut = { e with
     len := (e.len.setWait w none).setEntry x.resource (e.len.catalog[x.resource].without w x.kind)
     toLck := e.toLck ++ if timedOut then [] else x.removal w } := by
  unfold LenEvent.endWait; rw [h]; rfl

theorem Len.entryAfterFreeing_congr {a b : Len} (h : a.leases = b.leases) (r en) : a.entryAfterFreeing r en = b.entryAfterFreeing r en := by
  unfold Len.entryAfterFreeing; rw [Len.recordsOn_congr h]

theorem State.takeEvent_resolve {s : State} {p f h r} (hr : s.len.resolve f.slot h = r) : (s.takeEvent p f).len.resolve f.slot h = r := by
  rw [← hr]; exact Len.resolve_congr rfl _ _

theorem endedStatus_held {l : Lease} (h : l.state = .held) : endedStatus l = none := by unfold endedStatus; rw [h]

theorem endedStatus_lapsed {l : Lease} (h : l.state = .lapsed) : endedStatus l = some .lapsed := by unfold endedStatus; rw [h]

theorem endedStatus_revoked {l : Lease} (h : l.state = .revoked) : endedStatus l = some .revoked := by unfold endedStatus; rw [h]

theorem byte_and_F8 (b : Byte) : b &&& 0xF8 ≠ 0 ↔ 7 < b.toNat := by
  revert b; decide +kernel

theorem byte_and_FE (b : Byte) : b &&& 0xFE ≠ 0 ↔ b ≠ 0 ∧ b ≠ 1 := by
  revert b; decide +kernel

theorem byte_and_FC (b : Byte) : b &&& 0xFC ≠ 0 ↔ ¬ b.toNat < 4 := by
  revert b; decide +kernel

theorem Len.standsUnder_iff (len : Len) (n t w) : len.standsUnder n t w = true ↔ len.waitsUnder n t w := by
  unfold Len.standsUnder Len.waitsUnder
  cases len.waits[w] <;> simp

theorem Len.waitUnder_none (len : Len) (n t) : len.waitUnder n t = none ↔ ∀ w, ¬ len.waitsUnder n t w := by
  unfold Len.waitUnder; rw [find_finRange_none]
  simp only [← Len.standsUnder_iff, Bool.not_eq_true]

/-- The wait a CANCEL finds is the lowest under its target tag (R62). -/
theorem Len.waitUnder_some (len : Len) (n t w) : len.waitUnder n t = some w ↔ len.waitsUnder n t w ∧ ∀ v < w, ¬ len.waitsUnder n t v := by
  unfold Len.waitUnder; rw [find_finRange_some]
  simp only [← Len.standsUnder_iff, Bool.not_eq_true]

/-- The HELD records of an entry, each once, in ascending order (R9, R41). -/
theorem Len.heldOn_spec (len : Len) (r) : (len.heldOn r).Pairwise (· < ·) ∧ ∀ j, j ∈ len.heldOn r ↔ len.leases[j].state = .held ∧ len.leases[j].resource = r := by
  unfold Len.heldOn
  refine ⟨(List.pairwise_lt_finRange 128).filter _, fun j => by simp⟩

/-- What clearing a list of change marks leaves (R45). -/
theorem LenEvent.unmark_fold (ms : List RecIx) (e : LenEvent) (hn : ms.Nodup) :
   ∃ L, ms.foldl (fun e i => e.modLease i fun l => { l with changeMark := false }) e = { e with len := { e.len with leases := L } } ∧
     ∀ i : RecIx, L[i] = if i ∈ ms then { e.len.leases[i] with changeMark := false } else e.len.leases[i] := by
  induction ms generalizing e with
  | nil => exact ⟨e.len.leases, rfl, by simp⟩
  | cons m ms ih =>
    obtain ⟨L, h1, h2⟩ := ih (e.modLease m fun l => { l with changeMark := false }) (List.nodup_cons.1 hn).2
    refine ⟨L, h1, fun i => ?_⟩
    rw [h2 i, LenEvent.modLease_len, Len.setLease_get]
    have hm := (List.nodup_cons.1 hn).1
    by_cases h : i = m
    · subst h; simp [-Fin.getElem_fin, hm]
    · simp [-Fin.getElem_fin, h]

theorem Len.marked_iff (len : Len) (n) : len.marked n = true ↔ ∃ i : RecIx, len.leases[i].changeMark = true ∧ len.leases[i].slot = n := by
  unfold Len.marked
  rw [List.any_eq_true]
  constructor
  · rintro ⟨l, hl, h⟩
    rw [Vector.mem_toList_iff, Vector.mem_iff_getElem] at hl
    obtain ⟨i, hi, rfl⟩ := hl
    exact ⟨⟨i, hi⟩, by simpa using h⟩
  · rintro ⟨i, h⟩
    exact ⟨len.leases[i], by simp, by simpa using h⟩

/-- An event that changes the marks of one slot alone sends at most one news notice (R24). -/
theorem newsNotices_one {a b : Len} {m : SlotIx} (h : ∀ n, n ≠ m → a.marked n = b.marked n) :
   newsNotices a b = if a.marked m = b.marked m then [] else [if b.marked m then .newsOn m else .newsOff m] := by
  unfold newsNotices
  have : (fun n => (newsChange a b n).map fun on => if on = true then RquMsg.newsOn n else .newsOff n) = fun n => if n = m then ((newsChange a b m).map fun on => if on = true then RquMsg.newsOn m else .newsOff m) else none := by
    funext n
    by_cases hn : n = m
    · subst hn; simp
    · rw [if_neg hn]; unfold newsChange; rw [h n hn]; simp
  rw [this]
  unfold newsChange
  by_cases hh : a.marked m = b.marked m
  · rw [if_pos hh, if_pos hh]; simp
  · rw [if_neg hh, if_neg hh]
    simp only [Option.map_some]
    revert m; intro m; 
    fin_cases m <;> intro _ _ _ <;> rfl

theorem bytesToNat_lt (bs : List Byte) (n) (h : bs.length ≤ n) : bytesToNat bs < 256 ^ n := by
  have key : ∀ (bs : List Byte) a, bs.foldl (fun n b => n * 256 + b.toNat) a < (a + 1) * 256 ^ bs.length := by
    intro bs; induction bs with
    | nil => intro a; simp
    | cons b bs ih =>
      intro a
      have := ih (a * 256 + b.toNat)
      have hb := b.isLt
      simp only [List.foldl_cons, List.length_cons, Nat.pow_succ]
      refine this.trans_le ?_
      have : a * 256 + b.toNat + 1 ≤ (a + 1) * 256 := by omega
      calc _ ≤ (a + 1) * 256 * 256 ^ bs.length := Nat.mul_le_mul_right _ this
        _ = _ := by ring
  have := key bs 0
  have h2 := Nat.pow_le_pow_right (n := 256) (by omega) h
  unfold bytesToNat; omega

theorem operandAt_lt (ops : List Byte) (o w) : operandAt ops o w < 256 ^ w := bytesToNat_lt _ _ (by simp)

/-- A grant pass over an empty queue does nothing (R56). -/
theorem LenEvent.grantPass_nil {e : LenEvent} {r} (h : e.len.catalog[r].queue = []) : e.grantPass r = e := by
  unfold LenEvent.grantPass; rw [h]; rfl

theorem Len.upgradeWaitOf_nil {len : Len} {i : RecIx} {r} (hr : len.leases[i].resource = r) (h : len.catalog[r].queue = []) : len.upgradeWaitOf i = none := by
  subst hr; unfold Len.upgradeWaitOf; rw [h]; rfl

theorem LenEvent.endUpgradeOf_none {e : LenEvent} {i : RecIx} {st} (h : e.len.upgradeWaitOf i = none) : e.endUpgradeOf i st = e := by
  unfold LenEvent.endUpgradeOf; rw [h]

theorem Len.marked_set (len : Len) (i : RecIx) (x : Lease) (n : SlotIx) (h : x.slot = len.leases[i].slot) (_hm : x.changeMark = true) (hn : n ≠ x.slot) :
   (len.setLease i x).marked n = len.marked n := by
  rw [Bool.eq_iff_iff, Len.marked_iff, Len.marked_iff]
  constructor
  · rintro ⟨j, a, b⟩
    rw [Len.setLease_get] at a b
    split at b
    · exact absurd b.symm hn
    · rename_i hj; rw [if_neg hj] at a; exact ⟨j, a, b⟩
  · rintro ⟨j, a, b⟩
    refine ⟨j, ?_⟩
    rw [Len.setLease_get]
    split
    · rename_i hj; subst hj; exact absurd (b.symm.trans h.symm) hn
    · exact ⟨a, b⟩

theorem State.runLen_eq {s : State} {event : LenEvent → LenEvent} {e : LenEvent} (h : event { now := s.lck.clock, len := s.len, toLck := [], toRqu := [], toTwp := [] } = e) :
   s.runLen event = { s with len := e.len.withNews s.len, paths := { s.paths with lenToLck := s.paths.lenToLck ++ e.toLck, lenToRqu := s.paths.lenToRqu ++ (newsNotices s.len e.len ++ e.toRqu), lenToTwp := s.paths.lenToTwp ++ e.toTwp } } := by
  unfold State.runLen; simp only [h]

theorem State.runLen_congr {s : State} {a b : LenEvent → LenEvent} (h : a { now := s.lck.clock, len := s.len, toLck := [], toRqu := [], toTwp := [] } = b { now := s.lck.clock, len := s.len, toLck := [], toRqu := [], toTwp := [] }) : s.runLen a = s.runLen b := by unfold State.runLen; simp only [h]

theorem newsNotices_congr {a b c : Len} (h : b.leases = c.leases) : newsNotices a b = newsNotices a c := by
  unfold newsNotices newsChange; have : b.marked = c.marked := by funext n; exact Len.marked_congr h n
  rw [this]

theorem Len.answer_get (len : Len) (n m t) : (len.answer n t).slots[m] = if m = n then { len.slots[n] with answered := len.slots[n].answered.set t true } else len.slots[m] := by
  unfold Len.answer; rw [Len.setSlot_get]

theorem LenEvent.Grows.session {e b : LenEvent} (h : e.Grows b) (n : SlotIx) : b.len.slots[n].state = e.len.slots[n].state ∧ b.len.slots[n].session = e.len.slots[n].session ∧ b.len.slots[n].port = e.len.slots[n].port ∧ b.len.slots[n].keepaliveTerm = e.len.slots[n].keepaliveTerm ∧ b.len.slots[n].keepaliveDeadline = e.len.slots[n].keepaliveDeadline ∧ b.len.slots[n].endCause = e.len.slots[n].endCause ∧ b.len.slots[n].profile = e.len.slots[n].profile := by
  have := h.slot n; unfold Slot.SameButAnswered at this; rw [this]; exact ⟨rfl, rfl, rfl, rfl, rfl, rfl, rfl⟩

theorem Len.setSlot_setSlot (len : Len) (n : SlotIx) (x y : Slot) : (len.setSlot n x).setSlot n y = len.setSlot n y := by
  unfold Len.setSlot; simp

theorem Len.setSlot_self (len : Len) (n : SlotIx) (x : Slot) : (len.setSlot n x).slots[n] = x := by rw [Len.setSlot_get, if_pos rfl]

/-- Everything an ATTACH to a slot that is not ACTIVE does (R91). -/
theorem LenEvent.attachFresh_eq (e : LenEvent) (p : Port) (f : Frame) (ticks : Nat) :
   e.attachFresh p f ticks = ⟨e.now, e.len.setSlot f.slot { e.len.slots[f.slot] with
            state := .active, session := nextSession e.len.slots[f.slot].session, port := some p, keepaliveTerm := resolveKeepalive ticks, keepaliveDeadline := some (deadlineAfter e.now (resolveKeepalive ticks)),
            answered := (Vector.replicate 8 false).set f.tag true }, e.toLck ++ [.insert ⟨deadlineAfter e.now (resolveKeepalive ticks), .keepalive f.slot (nextSession e.len.slots[f.slot].session)⟩],
       e.toRqu ++ [.begun f.slot (nextSession e.len.slots[f.slot].session) p, .completion f.slot ⟨f.tag, f.kind, .ok, attachPayload (nextSession e.len.slots[f.slot].session) e.len.slots[f.slot].endCause (resolveKeepalive ticks)⟩], e.toTwp⟩ := by
  unfold LenEvent.attachFresh LenEvent.beginSession LenEvent.clearAnswered LenEvent.notify LenEvent.modSlot LenEvent.insertDeadline LenEvent.replyWith LenEvent.complete LenEvent.notify LenEvent.modSlot
  simp only [Len.setSlot_self, Len.setSlot_setSlot, List.append_assoc]; rfl

theorem natToBytes_mod (n : Nat) : natToBytes (n % 2 ^ 32) 4 = natToBytes n 4 := by
  unfold natToBytes natToBytes natToBytes natToBytes natToBytes
  simp only [List.cons.injEq, and_true]
  refine ⟨?_, ?_, ?_, ?_⟩ <;> (apply BitVec.eq_of_toNat_eq; simp only [BitVec.toNat_ofNat]; omega)

/-- The first right above the ceiling of a slot, if any (R111). -/
theorem firstRightAbove_ceiling {rights : Byte} (h : rights.toNat < 128) (n : SlotIx) : firstRightAbove (rights.setWidth 7) (ceiling n).rights = if n = 0 ∨ rights.toNat < 64 then none else some 6 := by
  unfold ceiling; simp only
  by_cases hn : n = 0
  · rw [if_pos hn]; simp only [hn, true_or, if_true]; revert h; revert rights; decide +kernel
  · rw [if_neg hn]; simp only [hn, false_or]; revert h; revert rights; decide +kernel

theorem rights_six {rights : Byte} (h : rights.toNat < 128) : (rights.setWidth 7).getLsbD 6 = true ↔ 64 ≤ rights.toNat := by
  revert h; revert rights; decide +kernel

theorem byte_msb_iff (rights : Byte) : rights.msb = true ↔ 128 ≤ rights.toNat := by
  revert rights; decide +kernel

end Sys2Proof.Machine
end

