-- ==== Sys2Proof/Laws/Agree.lean ====
section
/-! SUPPORT. The agreement of the catalog, the lease table and the wait pool, as a law of tables given by functions, and what each change of the tables keeps of it: the end of a wait, the freeing and the end of a lease, parking, granting, a change of mode, and the end and the entry of a resource. -/

namespace Sys2Proof.Machine

/-- The tables of LEN, with the number of HELD records of each entry. -/
structure Tab where
  en : ResIx → Entry
  l : RecIx → Lease
  w : WaitIx → Option Wait
  c : ResIx → Nat

/-- The number of HELD records is no less than the records one can point at. -/
structure Tab.Counts (T : Tab) : Prop where
  one : ∀ i, (T.l i).state = .held → 1 ≤ T.c (T.l i).resource
  two : ∀ i j, i ≠ j → (T.l i).state = .held → (T.l j).state = .held → (T.l i).resource = (T.l j).resource →
    2 ≤ T.c (T.l i).resource
  zero : ∀ r, (∀ i, (T.l i).state = .held → (T.l i).resource ≠ r) → T.c r = 0

/-- The agreement of the tables, field by field. -/
structure Tab.Ok (T : Tab) : Prop where
  count : ∀ r, (T.en r).holderCount = T.c r
  empty : ∀ r, (T.en r).holderMode = .none ↔ T.c r = 0
  excl : ∀ r, (T.en r).holderMode = .exclusive → T.c r = 1
  share : ∀ r, (T.en r).holderMode = .shared → T.c r ≤ (T.en r).shareLimit
  mode : ∀ i, (T.l i).state = .held → (T.l i).mode = (T.en (T.l i).resource).holderMode
  epoch : ∀ i, (T.l i).state = .held → (T.l i).epoch = (T.en (T.l i).resource).epoch
  stand : ∀ i, (T.l i).state ≠ .free → (T.en (T.l i).resource).state ≠ .vacant
  nodup : ∀ r, (T.en r).queue.Nodup
  mem : ∀ r w, w ∈ (T.en r).queue ↔ ∃ x, T.w w = some x ∧ x.resource = r
  closed : ∀ r, (T.en r).state ≠ .opened → (T.en r).queue = []
  res : ∀ w x, T.w w = some x → (T.l x.lease).resource = x.resource
  slot : ∀ w x, T.w w = some x → (T.l x.lease).slot = x.slot ∧ (T.l x.lease).session = x.session
  acq : ∀ w x m t p, T.w w = some x → x.kind = .acquire m t p → (T.l x.lease).state = .reserved ∧
    (T.l x.lease).mode = m ∧ (T.l x.lease).term = t ∧ m ≠ .none ∧ (m = .shared → 1 ≤ (T.en x.resource).shareLimit)
  upg : ∀ w x, T.w w = some x → x.kind = .upgrade → (T.l x.lease).state = .held ∧ (T.l x.lease).mode = .shared
  inj : ∀ w v x y, T.w w = some x → T.w v = some y → x.lease = y.lease → w = v
  rsv : ∀ i, (T.l i).state = .reserved → ∃ w x, T.w w = some x ∧ x.lease = i
  pend : ∀ r, (T.en r).upgradePending = true ↔ ∃ w x, T.w w = some x ∧ x.resource = r ∧ x.kind = .upgrade
  head : ∀ w x, T.w w = some x → x.kind = .upgrade → (T.en x.resource).queue.head? = some w
  prio : ∀ r, (T.en r).queue.Pairwise fun v w => ∀ x y, T.w v = some x → T.w w = some y → x.notBelow y

/-- Queues that only lose waits keep their order. -/
theorem Tab.Ok.prio_of_sublist {a b : Tab} (h : a.Ok) (hq : ∀ r, (b.en r).queue.Sublist (a.en r).queue)
    (hw : ∀ v x, b.w v = some x → a.w v = some x) :
    ∀ r, (b.en r).queue.Pairwise fun v w => ∀ x y, b.w v = some x → b.w w = some y → x.notBelow y :=
  fun r => ((h.prio r).sublist (hq r)).imp fun k x y hx hy => k x y (hw _ x hx) (hw _ y hy)

theorem Tab.Ok.one_upgrade {T : Tab} (h : T.Ok) {w v : WaitIx} {x y : Wait} (hw : T.w w = some x) (hv : T.w v = some y)
    (kx : x.kind = .upgrade) (ky : y.kind = .upgrade) (hr : x.resource = y.resource) : w = v := by
  have h1 := h.head w x hw kx
  have h2 := h.head v y hv ky
  rw [hr, h2] at h1
  cases h1
  rfl

/-- The end of an UPGRADE wait. -/
theorem Tab.Ok.endUpgrade {a b : Tab} (h : a.Ok) {w : WaitIx} {x : Wait} (hw : a.w w = some x) (hk : x.kind = .upgrade)
    (bw : ∀ v, b.w v = if v = w then none else a.w v) (bl : ∀ i, b.l i = a.l i) (bc : ∀ r, b.c r = a.c r)
    (be : ∀ q, b.en q = if q = x.resource then (a.en q).without w x.kind else a.en q) : b.Ok := by
  have h1 := fun {v : WaitIx} {y : Wait} (hv : a.w v = some y) (ky : y.kind = .upgrade) (hr : x.resource = y.resource) => h.one_upgrade hw hv hk ky hr
  constructor
  case count => have := h.count; clear h h1; grind [Entry.without]
  case empty => have := h.empty; clear h h1; grind [Entry.without]
  case excl => have := h.excl; clear h h1; grind [Entry.without]
  case share => have := h.share; clear h h1; grind [Entry.without]
  case mode => have := h.mode; clear h h1; grind [Entry.without]
  case epoch => have := h.epoch; clear h h1; grind [Entry.without]
  case stand => have := h.stand; clear h h1; grind [Entry.without]
  case nodup => have := h.nodup; clear h h1; grind [Entry.without, List.Nodup.erase]
  case mem => have := h.nodup; have := h.mem; clear h h1; grind [Entry.without, List.Nodup.mem_erase_iff]
  case closed => have := h.closed; clear h h1; grind [Entry.without]
  case res => have := h.res; clear h h1; grind
  case slot => have := h.slot; clear h h1; grind
  case acq => have := h.acq; clear h h1; grind [Entry.without]
  case upg => have := h.upg; clear h h1; grind
  case inj => have := h.inj; clear h h1; grind
  case rsv => have := h.rsv; have := h.upg; clear h h1; grind
  case pend => have := h.pend; clear h; grind [Entry.without]
  case head => have := h.head; clear h; grind [Entry.without]
  case prio =>
    exact h.prio_of_sublist (fun q => by rw [be]; split; exacts [List.erase_sublist, .refl _])
      fun v y hv => by rw [bw] at hv; split at hv; exacts [absurd hv (by simp), hv]

/-- The end of an ACQUIRE wait, with its reserved record freed. -/
theorem Tab.Ok.endAcquire {a b : Tab} (h : a.Ok) {w : WaitIx} {x : Wait} (hw : a.w w = some x) (hk : x.kind ≠ .upgrade)
    (bw : ∀ v, b.w v = if v = w then none else a.w v) (bf : (b.l x.lease).state = .free)
    (bl : ∀ i, i ≠ x.lease → b.l i = a.l i) (bc : ∀ r, b.c r = a.c r)
    (be : ∀ q, b.en q = if q = x.resource then (a.en q).without w x.kind else a.en q) : b.Ok := by
  constructor
  case count => have := h.count; clear h; grind [Entry.without]
  case empty => have := h.empty; clear h; grind [Entry.without]
  case excl => have := h.excl; clear h; grind [Entry.without]
  case share => have := h.share; clear h; grind [Entry.without]
  case mode => have := h.mode; clear h; grind [Entry.without]
  case epoch => have := h.epoch; clear h; grind [Entry.without]
  case stand => have := h.stand; clear h; grind [Entry.without]
  case nodup => have := h.nodup; clear h; grind [Entry.without, List.Nodup.erase]
  case mem => have := h.nodup; have := h.mem; clear h; grind [Entry.without, List.Nodup.mem_erase_iff]
  case closed => have := h.closed; clear h; grind [Entry.without]
  case res => have := h.res; have := h.inj; clear h; grind
  case slot => have := h.slot; have := h.inj; clear h; grind
  case acq => have := h.acq; have := h.inj; clear h; grind [Entry.without]
  case upg => have := h.upg; have := h.inj; clear h; grind
  case inj => have := h.inj; clear h; grind
  case rsv => have := h.rsv; clear h; grind
  case pend => have := h.pend; clear h; grind [Entry.without]
  case head =>
    have := h.head; clear h
    intro v y hv ky
    have h1 : v ≠ w := by grind
    have h2 : a.w v = some y := by grind
    rw [be]
    split
    · rename_i hr
      have h3 := this v y h2 ky
      show ((a.en y.resource).queue.erase w).head? = some v
      cases hq : (a.en y.resource).queue with
      | nil => rw [hq] at h3; cases h3
      | cons u us =>
        rw [hq] at h3
        cases h3
        rw [List.erase_cons, if_neg (by simpa using h1)]
        rfl
    · exact this v y h2 ky
  case prio =>
    exact h.prio_of_sublist (fun q => by rw [be]; split; exacts [List.erase_sublist, .refl _])
      fun v y hv => by rw [bw] at hv; split at hv; exacts [absurd hv (by simp), hv]

/-- A wait's record is reserved or HELD. -/
theorem Tab.Ok.wait_state {T : Tab} (h : T.Ok) {w : WaitIx} {x : Wait} (hw : T.w w = some x) :
    (T.l x.lease).state = .reserved ∨ (T.l x.lease).state = .held := by
  cases hk : x.kind with
  | acquire m t p => exact .inl (h.acq w x m t p hw hk).1
  | upgrade => exact .inr (h.upg w x hw hk).1

/-- An entry that is not OPEN has no wait. -/
theorem Tab.Ok.closed_waits {T : Tab} (h : T.Ok) {r : ResIx} (hr : (T.en r).state ≠ .opened) {w : WaitIx} {x : Wait}
    (hw : T.w w = some x) : x.resource ≠ r := by
  intro e
  have := (h.mem r w).2 ⟨x, hw, e⟩
  rw [h.closed r hr] at this
  cases this

theorem Tab.Ok.closed_pending {T : Tab} (h : T.Ok) {r : ResIx} (hr : (T.en r).state ≠ .opened) :
    (T.en r).upgradePending = false := by
  rw [← Bool.not_eq_true, h.pend]
  rintro ⟨w, x, hw, e, _⟩
  exact h.closed_waits hr hw e

/-- The freeing of a record that is not HELD and that no wait has. -/
theorem Tab.Ok.free {a b : Tab} (h : a.Ok) (kb : b.Counts) {i : RecIx} (hi : (a.l i).state ≠ .held) (bf : (b.l i).state = .free)
    (hn : ∀ w x, a.w w = some x → x.lease ≠ i) (bw : ∀ v, b.w v = a.w v) (bl : ∀ j, j ≠ i → b.l j = a.l j)
    (bc : ∀ r, b.c r = a.c r)
    (be : ∀ q, b.en q = a.en q ∨ (a.en q).state = .draining ∧ b.en q = Entry.vacant (a.en q).epoch ∧
      ∀ j, (b.l j).state ≠ .free → (b.l j).resource ≠ q) : b.Ok := by
  have hz : ∀ q, (∀ j, (b.l j).state ≠ .free → (b.l j).resource ≠ q) → a.c q = 0 := by
    intro q hq
    rw [← bc]
    exact kb.zero q fun j hj => hq j (by rw [hj]; decide)
  have hcl : ∀ q, (a.en q).state = .draining → ∀ w x, a.w w = some x → x.resource ≠ q := fun q hq w x hw =>
    h.closed_waits (by rw [hq]; decide) hw
  have hp : ∀ q, (a.en q).state = .draining → (a.en q).upgradePending = false := fun q hq =>
    h.closed_pending (by rw [hq]; decide)
  constructor
  case count => have := h.count; clear h; grind [Entry.vacant]
  case empty => have := h.empty; clear h; grind [Entry.vacant]
  case excl => have := h.excl; clear h; grind [Entry.vacant]
  case share => have := h.share; clear h; grind [Entry.vacant]
  case mode => have := h.mode; clear h; grind [Entry.vacant]
  case epoch => have := h.epoch; clear h; grind [Entry.vacant]
  case stand => have := h.stand; clear h; grind [Entry.vacant]
  case nodup => have := h.nodup; clear h; grind [Entry.vacant]
  case mem => have := h.mem; clear h; grind [Entry.vacant]
  case closed => have := h.closed; clear h; grind [Entry.vacant]
  case res => have := h.res; clear h; grind
  case slot => have := h.slot; clear h; grind
  case acq => have := h.acq; clear h; grind [Entry.vacant]
  case upg => have := h.upg; clear h; grind
  case inj => have := h.inj; clear h; grind
  case rsv => have := h.rsv; clear h; grind
  case pend => have := h.pend; clear h; grind [Entry.vacant]
  case head => have := h.head; clear h; grind [Entry.vacant]
  case prio =>
    refine h.prio_of_sublist (fun q => ?_) fun v y hv => (bw v).symm.trans hv
    rcases be q with e | ⟨_, e, _⟩
    · rw [e]
    · rw [e]; exact List.nil_sublist _

/-- A HELD record that no wait has leaves HELD. -/
theorem Tab.Ok.lower {a b : Tab} (h : a.Ok) (ka : a.Counts) {i : RecIx} (hi : (a.l i).state = .held)
    (bh : (b.l i).state ≠ .held) (br : (b.l i).state ≠ .reserved) (bs : (b.l i).resource = (a.l i).resource)
    (hn : ∀ w x, a.w w = some x → x.lease ≠ i) (bw : ∀ v, b.w v = a.w v) (bl : ∀ j, j ≠ i → b.l j = a.l j)
    (bc : ∀ q, b.c q = if q = (a.l i).resource then a.c q - 1 else a.c q)
    (be : ∀ q, b.en q = if q = (a.l i).resource then (a.en q).lowered else a.en q) : b.Ok := by
  have h1 := ka.one i hi
  constructor
  case count => have := h.count; clear h; grind [Entry.lowered]
  case empty => have := h.empty; have := h.count; clear h; grind [Entry.lowered]
  case excl => have := h.excl; have := h.count; clear h; grind [Entry.lowered]
  case share => have := h.share; clear h; grind [Entry.lowered]
  case mode =>
    have := h.mode; have := h.count; clear h
    intro j hj
    have hji : j ≠ i := by grind
    have h2 : (a.l j).state = .held := by grind
    have := ka.two i j (Ne.symm hji) hi h2
    grind [Entry.lowered]
  case epoch => have := h.epoch; clear h; grind [Entry.lowered]
  case stand => have := h.stand; clear h; grind [Entry.lowered]
  case nodup => have := h.nodup; clear h; grind [Entry.lowered]
  case mem => have := h.mem; clear h; grind [Entry.lowered]
  case closed => have := h.closed; clear h; grind [Entry.lowered]
  case res => have := h.res; clear h; grind
  case slot => have := h.slot; clear h; grind
  case acq => have := h.acq; clear h; grind [Entry.lowered]
  case upg => have := h.upg; clear h; grind
  case inj => have := h.inj; clear h; grind
  case rsv => have := h.rsv; clear h; grind
  case pend => have := h.pend; clear h; grind [Entry.lowered]
  case head => have := h.head; clear h; grind [Entry.lowered]
  case prio => exact h.prio_of_sublist (fun q => by rw [be]; split <;> exact .refl _) fun v y hv => (bw v).symm.trans hv

/-- An ACQUIRE parks. -/
theorem Tab.Ok.park {a b : Tab} (h : a.Ok) {w : WaitIx} {x : Wait} {m : Mode} {t p : Nat} {ahead behind : List WaitIx}
    (hw : a.w w = none) (hi : (a.l x.lease).state = .free) (hk : x.kind = .acquire m t p)
    (ho : (a.en x.resource).state = .opened) (hm : m ≠ .none) (hs : m = .shared → 1 ≤ (a.en x.resource).shareLimit)
    (hq : (a.en x.resource).queue = ahead ++ behind)
    (ha : ∀ v y, a.w v = some y → y.kind = .upgrade → y.resource = x.resource → ahead.head? = some v)
    (hf : ∀ v ∈ ahead, ∀ y m' t' p', a.w v = some y → y.kind = .acquire m' t' p' → p ≤ p')
    (hb : ∀ v ∈ behind, ∀ y m' t' p', a.w v = some y → y.kind = .acquire m' t' p' → p' ≤ p)
    (bw : ∀ v, b.w v = if v = w then some x else a.w v) (bl : ∀ j, j ≠ x.lease → b.l j = a.l j)
    (bs : (b.l x.lease).state = .reserved) (br : (b.l x.lease).resource = x.resource) (bt : (b.l x.lease).slot = x.slot)
    (bu : (b.l x.lease).session = x.session) (bm : (b.l x.lease).mode = m) (bv : (b.l x.lease).term = t)
    (bc : ∀ q, b.c q = a.c q)
    (be : ∀ q, b.en q = if q = x.resource then { a.en q with queue := ahead ++ w :: behind } else a.en q) : b.Ok := by
  have hws : ∀ v y, a.w v = some y → y.lease ≠ x.lease := by
    intro v y hv e
    have := h.wait_state hv
    rw [e, hi] at this
    rcases this with e | e <;> cases e
  have hwq : ∀ q, w ∉ (a.en q).queue := by
    intro q hq
    obtain ⟨y, hy, _⟩ := (h.mem q w).1 hq
    rw [hw] at hy
    cases hy
  constructor
  case count => have := h.count; clear h; grind
  case empty => have := h.empty; clear h; grind
  case excl => have := h.excl; clear h; grind
  case share => have := h.share; clear h; grind
  case mode => have := h.mode; clear h; grind
  case epoch => have := h.epoch; clear h; grind
  case stand => have := h.stand; clear h; grind
  case nodup =>
    have h1 := h.nodup; clear h
    intro q
    rw [be]
    split
    · rename_i e
      subst e
      have h2 := h1 x.resource
      have h3 := hwq x.resource
      rw [hq] at h2 h3
      dsimp only
      rw [List.nodup_append] at h2 ⊢
      grind
    · exact h1 q
  case mem =>
    have h1 := h.mem; clear h
    intro q v
    have h3 : v ∈ (b.en q).queue ↔ (v = w ∧ q = x.resource) ∨ v ∈ (a.en q).queue := by
      rw [be]
      split
      · rename_i e
        subst e
        dsimp only
        rw [hq, List.mem_append, List.mem_append, List.mem_cons]
        grind
      · grind
    rw [h3, h1, bw]
    by_cases hvw : v = w
    · subst hvw
      rw [if_pos rfl, hw]
      constructor
      · rintro (⟨_, e⟩ | ⟨y, e, _⟩)
        · exact ⟨x, rfl, e.symm⟩
        · cases e
      · rintro ⟨y, e, k⟩
        cases e
        exact .inl ⟨rfl, k.symm⟩
    · rw [if_neg hvw]
      exact ⟨fun e => e.elim (fun k => absurd k.1 hvw) id, .inr⟩
  case closed => have := h.closed; clear h; grind
  case res => have := h.res; clear h; grind
  case slot => have := h.slot; clear h; grind
  case acq => have := h.acq; clear h; grind
  case upg => have := h.upg; clear h; grind
  case inj => have := h.inj; clear h; grind
  case rsv =>
    have h1 := h.rsv; clear h
    intro j hj
    by_cases hjx : j = x.lease
    · exact ⟨w, x, by rw [bw, if_pos rfl], hjx.symm⟩
    · rw [bl j hjx] at hj
      obtain ⟨v, y, hv, hy⟩ := h1 j hj
      exact ⟨v, y, by rw [bw, if_neg (fun e => by rw [e, hw] at hv; cases hv)]; exact hv, hy⟩
  case pend =>
    have h1 := h.pend; clear h
    intro q
    have h2 : (b.en q).upgradePending = (a.en q).upgradePending := by grind
    rw [h2, h1]
    constructor
    · rintro ⟨v, y, hv, hy⟩
      exact ⟨v, y, by rw [bw, if_neg (fun e => by rw [e, hw] at hv; cases hv)]; exact hv, hy⟩
    · rintro ⟨v, y, hv, hy⟩
      refine ⟨v, y, ?_, hy⟩
      grind
  case head =>
    have h1 := h.head; clear h
    intro v y hv ky
    have h2 : a.w v = some y := by grind
    have h3 := h1 v y h2 ky
    rw [be]
    split
    · rename_i e
      have h4 := ha v y h2 ky e
      dsimp only
      cases ahead with
      | nil => cases h4
      | cons u us => exact h4
    · exact h3
  case prio =>
    have h1 := h.prio; clear h
    have hold : ∀ q, (a.en q).queue.Pairwise fun u v => ∀ y z, b.w u = some y → b.w v = some z → y.notBelow z := by
      intro q
      refine (h1 q).imp_of_mem fun {u v} hu hv k y z hy hz => ?_
      rw [bw, if_neg fun c : u = w => hwq q (c ▸ hu)] at hy
      rw [bw, if_neg fun c : v = w => hwq q (c ▸ hv)] at hz
      exact k y z hy hz
    intro q
    rw [be]
    split
    · rename_i e
      subst e
      have h2 := hold x.resource
      have h3 := hwq x.resource
      rw [hq] at h2 h3
      dsimp only
      rw [List.pairwise_append] at h2 ⊢
      refine ⟨h2.1, List.pairwise_cons.2 ⟨fun v hv y z hy hz => ?_, h2.2.1⟩, fun u hu v hv => ?_⟩
      · rw [bw, if_pos rfl] at hy
        rw [bw, if_neg fun c : v = w => h3 (List.mem_append_right _ (c ▸ hv))] at hz
        cases hy
        intro m1 t1 p1 m2 t2 p2 k1 k2
        rw [hk] at k1
        cases k1
        exact hb v hv z m2 t2 p2 hz k2
      · rcases List.mem_cons.1 hv with rfl | hv
        · intro y z hy hz
          rw [bw, if_neg fun c : u = v => h3 (List.mem_append_left _ (c ▸ hu))] at hy
          rw [bw, if_pos rfl] at hz
          cases hz
          intro m1 t1 p1 m2 t2 p2 k1 k2
          rw [hk] at k2
          cases k2
          exact hf u hu y m1 t1 p1 hy k1
        · exact h2.2.2 u hu v hv
    · exact hold q

/-- An UPGRADE parks at the head. -/
theorem Tab.Ok.parkUpgrade {a b : Tab} (h : a.Ok) {w : WaitIx} {x : Wait}
    (hw : a.w w = none) (hi : (a.l x.lease).state = .held) (hm : (a.l x.lease).mode = .shared) (hk : x.kind = .upgrade)
    (ho : (a.en x.resource).state = .opened) (hp : (a.en x.resource).upgradePending = false)
    (hr : (a.l x.lease).resource = x.resource) (ht : (a.l x.lease).slot = x.slot) (hu : (a.l x.lease).session = x.session)
    (bw : ∀ v, b.w v = if v = w then some x else a.w v) (bl : ∀ j, b.l j = a.l j) (bc : ∀ q, b.c q = a.c q)
    (be : ∀ q, b.en q = if q = x.resource then { a.en q with queue := w :: (a.en q).queue, upgradePending := true } else a.en q) :
    b.Ok := by
  have hnu : ∀ v y, a.w v = some y → y.kind = .upgrade → y.resource ≠ x.resource := by
    intro v y hv ky e
    have := (h.pend x.resource).2 ⟨v, y, hv, e, ky⟩
    rw [hp] at this
    cases this
  have hws : ∀ v y, a.w v = some y → y.lease ≠ x.lease := by
    intro v y hv e
    cases ky : y.kind with
    | acquire m t p =>
      have := (h.acq v y m t p hv ky).1
      rw [e, hi] at this
      cases this
    | upgrade =>
      have := h.res v y hv
      rw [e, hr] at this
      exact hnu v y hv ky this.symm
  have hwq : ∀ q, w ∉ (a.en q).queue := by
    intro q hq
    obtain ⟨y, hy, _⟩ := (h.mem q w).1 hq
    rw [hw] at hy
    cases hy
  have hvw : ∀ v y, a.w v = some y → v ≠ w := by
    intro v y hv e
    rw [e, hw] at hv
    cases hv
  constructor
  case count => have := h.count; clear h; grind
  case empty => have := h.empty; clear h; grind
  case excl => have := h.excl; clear h; grind
  case share => have := h.share; clear h; grind
  case mode => have := h.mode; clear h; grind
  case epoch => have := h.epoch; clear h; grind
  case stand => have := h.stand; clear h; grind
  case nodup => have := h.nodup; clear h; grind
  case mem => have := h.mem; clear h; grind
  case closed => have := h.closed; clear h; grind
  case res => have := h.res; clear h; grind
  case slot => have := h.slot; clear h; grind
  case acq => have := h.acq; clear h; grind
  case upg => have := h.upg; clear h; grind
  case inj => have := h.inj; clear h; grind
  case rsv => have := h.rsv; clear h; grind
  case pend =>
    have h1 := h.pend; clear h
    intro q
    by_cases hq : q = x.resource
    · have h2 : (b.en q).upgradePending = true := by grind
      rw [h2]
      exact ⟨fun _ => ⟨w, x, by rw [bw, if_pos rfl], hq.symm, hk⟩, fun _ => rfl⟩
    · have h2 : (b.en q).upgradePending = (a.en q).upgradePending := by grind
      rw [h2, h1]
      constructor
      · rintro ⟨v, y, hv, hy⟩
        exact ⟨v, y, by rw [bw, if_neg (hvw v y hv)]; exact hv, hy⟩
      · rintro ⟨v, y, hv, hy⟩
        refine ⟨v, y, ?_, hy⟩
        grind
  case head => have := h.head; clear h; grind
  case prio =>
    have h1 := h.prio; clear h
    have hold : ∀ q, (a.en q).queue.Pairwise fun u v => ∀ y z, b.w u = some y → b.w v = some z → y.notBelow z := by
      intro q
      refine (h1 q).imp_of_mem fun {u v} hu hv k y z hy hz => ?_
      rw [bw, if_neg fun c : u = w => hwq q (c ▸ hu)] at hy
      rw [bw, if_neg fun c : v = w => hwq q (c ▸ hv)] at hz
      exact k y z hy hz
    intro q
    rw [be]
    split
    · refine List.pairwise_cons.2 ⟨fun v _ y z hy _ => ?_, hold q⟩
      rw [bw, if_pos rfl] at hy
      cases hy
      intro m1 t1 p1 m2 t2 p2 k1
      rw [hk] at k1
      cases k1
    · exact hold q

/-- A grant of a FREE record. -/
theorem Tab.Ok.grant {a b : Tab} (h : a.Ok) (ka : a.Counts) {i : RecIx} {r : ResIx} {m : Mode} {e : Epoch}
    (hi : (a.l i).state = .free) (ho : (a.en r).state ≠ .vacant) (hm : m ≠ .none) (hs : m = .shared → 1 ≤ (a.en r).shareLimit)
    (ha : (a.en r).admits m = true) (he : e = (if needsAdvance m (a.en r).holderMode then (a.en r).epoch + 1 else (a.en r).epoch))
    (bw : ∀ v, b.w v = a.w v) (bl : ∀ j, j ≠ i → b.l j = a.l j)
    (bs : (b.l i).state = .held) (br : (b.l i).resource = r) (bm : (b.l i).mode = m) (bv : (b.l i).epoch = e)
    (bc : ∀ q, b.c q = if q = r then a.c q + 1 else a.c q)
    (be : ∀ q, b.en q =
      if q = r then
        { a.en q with
          epoch := e, holderCount := (a.en q).holderCount + 1
          holderMode := if (a.en q).holderMode = .none then m else (a.en q).holderMode }
      else a.en q) : b.Ok := by
  have hws : ∀ v y, a.w v = some y → y.lease ≠ i := by
    intro v y hv e
    have := h.wait_state hv
    rw [e, hi] at this
    rcases this with e | e <;> cases e
  have hadm : (a.en r).holderMode = .none ∨ (m = .shared ∧ (a.en r).holderMode = .shared ∧
      (a.en r).holderCount < (a.en r).shareLimit ∧ (a.en r).upgradePending = false) := by
    unfold Entry.admits at ha
    exact of_decide_eq_true ha
  have hadv : needsAdvance m (a.en r).holderMode = true → (a.en r).holderMode = .none := by
    unfold needsAdvance
    intro hd
    rcases of_decide_eq_true hd with e | e
    · rcases hadm with k | k
      · exact k
      · rw [e] at k
        cases k.1
    · exact e
  have hnone : (a.en r).holderMode = .none → ∀ j, (a.l j).state = .held → (a.l j).resource ≠ r := by
    intro hn j hj e
    have h1 := ka.one j hj
    rw [e, (h.empty r).1 hn] at h1
    cases h1
  constructor
  case count => have := h.count; clear h; grind
  case empty => have := h.empty; clear h; grind
  case excl => have := h.excl; have := h.empty; clear h; grind
  case share => have := h.share; have := h.empty; have := h.count; clear h; grind
  case mode => have := h.mode; clear h; grind
  case epoch => have := h.epoch; clear h; grind
  case stand => have := h.stand; clear h; grind
  case nodup => have := h.nodup; clear h; grind
  case mem => have := h.mem; clear h; grind
  case closed => have := h.closed; clear h; grind
  case res => have := h.res; clear h; grind
  case slot => have := h.slot; clear h; grind
  case acq => have := h.acq; clear h; grind
  case upg => have := h.upg; clear h; grind
  case inj => have := h.inj; clear h; grind
  case rsv => have := h.rsv; clear h; grind
  case pend => have := h.pend; clear h; grind
  case head => have := h.head; clear h; grind
  case prio => exact h.prio_of_sublist (fun q => by rw [be]; split <;> exact .refl _) fun v y hv => (bw v).symm.trans hv

/-- The sole holder of an entry, with no wait on its record, changes its mode, and its epoch with the entry's. -/
theorem Tab.Ok.remode {a b : Tab} (h : a.Ok) (ka : a.Counts) {i : RecIx} {m : Mode} {e : Epoch}
    (hi : (a.l i).state = .held) (hc : a.c (a.l i).resource = 1) (hm : m ≠ .none)
    (hs : m = .shared → 1 ≤ (a.en (a.l i).resource).shareLimit)
    (hn : ∀ w x, a.w w = some x → x.lease ≠ i)
    (bw : ∀ v, b.w v = a.w v) (bl : ∀ j, j ≠ i → b.l j = a.l j)
    (bs : (b.l i).state = .held) (br : (b.l i).resource = (a.l i).resource) (bm : (b.l i).mode = m) (bv : (b.l i).epoch = e)
    (bc : ∀ q, b.c q = a.c q)
    (be : ∀ q, b.en q = if q = (a.l i).resource then { a.en q with epoch := e, holderMode := m } else a.en q) : b.Ok := by
  have hone : ∀ j, j ≠ i → (a.l j).state = .held → (a.l j).resource ≠ (a.l i).resource := by
    intro j hj hh e
    have := ka.two i j (Ne.symm hj) hi hh e.symm
    rw [hc] at this
    omega
  constructor
  case count => have := h.count; clear h; grind
  case empty => have := h.empty; clear h; grind
  case excl => have := h.excl; have := h.empty; clear h; grind
  case share => have := h.share; have := h.empty; have := h.count; clear h; grind
  case mode => have := h.mode; clear h; grind
  case epoch => have := h.epoch; clear h; grind
  case stand => have := h.stand; clear h; grind
  case nodup => have := h.nodup; clear h; grind
  case mem => have := h.mem; clear h; grind
  case closed => have := h.closed; clear h; grind
  case res => have := h.res; clear h; grind
  case slot => have := h.slot; clear h; grind
  case acq => have := h.acq; clear h; grind
  case upg => have := h.upg; clear h; grind
  case inj => have := h.inj; clear h; grind
  case rsv => have := h.rsv; clear h; grind
  case pend => have := h.pend; clear h; grind
  case head => have := h.head; clear h; grind
  case prio => exact h.prio_of_sublist (fun q => by rw [be]; split <;> exact .refl _) fun v y hv => (bw v).symm.trans hv

/-- A record's fields that the agreement says nothing of change. -/
theorem Tab.Ok.same {a b : Tab} (h : a.Ok) (bw : ∀ v, b.w v = a.w v)
    (bl : ∀ j, (b.l j).state = (a.l j).state ∧ (b.l j).resource = (a.l j).resource ∧ (b.l j).slot = (a.l j).slot ∧
      (b.l j).session = (a.l j).session ∧ (b.l j).mode = (a.l j).mode ∧ (b.l j).epoch = (a.l j).epoch ∧
      ((a.l j).state = .reserved → (b.l j).term = (a.l j).term))
    (bc : ∀ q, b.c q = a.c q) (be : ∀ q, b.en q = a.en q) : b.Ok := by
  constructor
  case count => have := h.count; clear h; grind
  case empty => have := h.empty; clear h; grind
  case excl => have := h.excl; clear h; grind
  case share => have := h.share; clear h; grind
  case mode => have := h.mode; clear h; grind
  case epoch => have := h.epoch; clear h; grind
  case stand => have := h.stand; clear h; grind
  case nodup => have := h.nodup; clear h; grind
  case mem => have := h.mem; clear h; grind
  case closed => have := h.closed; clear h; grind
  case res => have := h.res; clear h; grind
  case slot => have := h.slot; clear h; grind
  case acq => have := h.acq; clear h; grind
  case upg => have := h.upg; clear h; grind
  case inj => have := h.inj; clear h; grind
  case rsv => have := h.rsv; clear h; grind
  case pend => have := h.pend; clear h; grind
  case head => have := h.head; clear h; grind
  case prio => exact h.prio_of_sublist (fun q => by rw [be]) fun v y hv => (bw v).symm.trans hv

/-- An entry with no wait in its queue leaves use: it becomes DRAINING, or VACANT where no record in use refers to it. -/
theorem Tab.Ok.close {a b : Tab} (h : a.Ok) (ka : a.Counts) {r : ResIx} (hq : (a.en r).queue = [])
    (bw : ∀ v, b.w v = a.w v) (bl : ∀ j, b.l j = a.l j) (bc : ∀ q, b.c q = a.c q) (be : ∀ q, q ≠ r → b.en q = a.en q)
    (br : (b.en r = { a.en r with state := .draining } ∧ ∃ j, (a.l j).state ≠ .free ∧ (a.l j).resource = r) ∨
      ((∃ e, b.en r = Entry.vacant e) ∧ ∀ j, (a.l j).state ≠ .free → (a.l j).resource ≠ r)) : b.Ok := by
  have hnw : ∀ w x, a.w w = some x → x.resource ≠ r := by
    intro w x hw e
    have := (h.mem r w).2 ⟨x, hw, e⟩
    rw [hq] at this
    cases this
  have hp : (a.en r).upgradePending = false := by
    rw [← Bool.not_eq_true, h.pend]
    rintro ⟨w, x, hw, e, _⟩
    exact hnw w x hw e
  have hz : (∀ j, (a.l j).state ≠ .free → (a.l j).resource ≠ r) → a.c r = 0 := fun hf =>
    ka.zero r fun j hj => hf j (by rw [hj]; decide)
  have hmem : ∀ q w, q ≠ r → (w ∈ (b.en q).queue ↔ ∃ x, a.w w = some x ∧ x.resource = q) := by
    intro q w hqr
    rw [be q hqr]
    exact h.mem q w
  constructor
  case count => have := h.count; clear h; grind [Entry.vacant]
  case empty => have := h.empty; clear h; grind [Entry.vacant]
  case excl => have := h.excl; clear h; grind [Entry.vacant]
  case share => have := h.share; clear h; grind [Entry.vacant]
  case mode => have := h.mode; clear h; grind [Entry.vacant]
  case epoch => have := h.epoch; clear h; grind [Entry.vacant]
  case stand => have := h.stand; clear h; grind [Entry.vacant]
  case nodup => have := h.nodup; clear h; grind [Entry.vacant]
  case mem => clear h; grind [Entry.vacant]
  case closed => have := h.closed; clear h; grind [Entry.vacant]
  case res => have := h.res; clear h; grind
  case slot => have := h.slot; clear h; grind
  case acq => have := h.acq; clear h; grind [Entry.vacant]
  case upg => have := h.upg; clear h; grind
  case inj => have := h.inj; clear h; grind
  case rsv => have := h.rsv; clear h; grind
  case pend => have := h.pend; clear h; grind [Entry.vacant]
  case head => have := h.head; clear h; grind [Entry.vacant]
  case prio =>
    refine h.prio_of_sublist (fun q => ?_) fun v y hv => (bw v).symm.trans hv
    by_cases e : q = r
    · subst e
      rcases br with ⟨e, _⟩ | ⟨⟨_, e⟩, _⟩
      · rw [e]
      · rw [e]; exact List.nil_sublist _
    · rw [be q e]

/-- A resource is entered at a VACANT entry. -/
theorem Tab.Ok.enter {a b : Tab} (h : a.Ok) (ka : a.Counts) {r : ResIx} (hv : (a.en r).state = .vacant)
    (bw : ∀ v, b.w v = a.w v) (bl : ∀ j, b.l j = a.l j) (bc : ∀ q, b.c q = a.c q) (be : ∀ q, q ≠ r → b.en q = a.en q)
    (bs : (b.en r).state = .opened) (bm : (b.en r).holderMode = .none) (bn : (b.en r).holderCount = 0)
    (bq : (b.en r).queue = []) (bp : (b.en r).upgradePending = false) : b.Ok := by
  have hnw : ∀ w x, a.w w = some x → x.resource ≠ r := fun w x hw => h.closed_waits (by rw [hv]; decide) hw
  have hz : a.c r = 0 := ka.zero r fun j hj e => by
    have := h.stand j (by rw [hj]; decide)
    rw [e] at this
    exact this hv
  have hmem : ∀ q w, q ≠ r → (w ∈ (b.en q).queue ↔ ∃ x, a.w w = some x ∧ x.resource = q) := by
    intro q w hqr
    rw [be q hqr]
    exact h.mem q w
  have hnl : ∀ j, (a.l j).state ≠ .free → (a.l j).resource ≠ r := by
    intro j hj e
    have := h.stand j hj
    rw [e] at this
    exact this hv
  constructor
  case count => have := h.count; clear h; grind
  case empty => have := h.empty; clear h; grind
  case excl => have := h.excl; clear h; grind
  case share => have := h.share; clear h; grind
  case mode => have := h.mode; clear h; grind
  case epoch => have := h.epoch; clear h; grind
  case stand => have := h.stand; clear h; grind
  case nodup => have := h.nodup; clear h; grind
  case mem => clear h; grind
  case closed => have := h.closed; clear h; grind
  case res => have := h.res; clear h; grind
  case slot => have := h.slot; clear h; grind
  case acq => have := h.acq; clear h; grind
  case upg => have := h.upg; clear h; grind
  case inj => have := h.inj; clear h; grind
  case rsv => have := h.rsv; clear h; grind
  case pend => have := h.pend; clear h; grind
  case head => have := h.head; clear h; grind
  case prio =>
    refine h.prio_of_sublist (fun q => ?_) fun v y hv => (bw v).symm.trans hv
    by_cases e : q = r
    · subst e
      rw [bq]; exact List.nil_sublist _
    · rw [be q e]

end Sys2Proof.Machine
end

