-- ==== Sys2Proof/Laws/Agreement.lean ====
section
/-! SUPPORT. The agreement of LEN's tables through every operation of an event: ends of waits, frees, revocations and lapses, grants and grant passes, purges. -/

namespace Sys2Proof.Machine

/-- The tables of LEN. -/
def Len.tab (len : Len) : Tab := ⟨fun r => len.catalog[r], fun i => len.leases[i], fun w => len.waits[w], len.heldCount⟩

theorem Len.tablesAgree_iff (len : Len) : len.tablesAgree ↔ len.tab.Ok := by
  constructor
  · rintro ⟨h1, h2, ⟨h3, h4, h5, h11⟩, ⟨h6, h7, h8⟩, ⟨h9, h10⟩⟩
    exact
      { count := fun r => (h1 r).1
        empty := fun r => (h1 r).2.1.trans (by rw [(h1 r).1]; rfl)
        excl := fun r h => (h1 r).1.symm.trans ((h1 r).2.2.1 h)
        share := fun r h => by
          have := (h1 r).2.2.2.1 h
          rw [(h1 r).1] at this
          exact this
        mode := fun i h => ((h1 _).2.2.2.2 i h rfl).1
        epoch := fun i h => ((h1 _).2.2.2.2 i h rfl).2
        stand := h2
        nodup := fun r => (h3 r).1
        mem := fun r w => ⟨(h3 r).2 w, fun ⟨x, hx, e⟩ => e ▸ h4 w x hx⟩
        closed := h5
        res := fun w x h => (h6 w x h).1
        slot := fun w x h => ⟨(h6 w x h).2.1, (h6 w x h).2.2.1⟩
        acq := fun w x m t p h k => (h6 w x h).2.2.2.1 m t p k
        upg := fun w x h k => (h6 w x h).2.2.2.2 k
        inj := h7
        rsv := h8
        pend := h9
        head := h10
        prio := h11 }
  · intro h
    refine ⟨fun r => ⟨h.count r, ?_, fun e => ?_, fun e => ?_, fun i hi hr => ?_⟩, h.stand,
      ⟨fun r => ⟨h.nodup r, fun w => (h.mem r w).1⟩, fun w x hx => (h.mem _ w).2 ⟨x, hx, rfl⟩, h.closed, h.prio⟩,
      ⟨fun w x hx => ⟨h.res w x hx, (h.slot w x hx).1, (h.slot w x hx).2, fun m t p => h.acq w x m t p hx, h.upg w x hx⟩,
        h.inj, h.rsv⟩, ⟨h.pend, h.head⟩⟩
    · exact (h.empty r).trans (by rw [← h.count r]; rfl)
    · exact (h.count r).trans (h.excl r e)
    · have := h.share r e
      rw [← h.count r] at this
      exact this
    · subst hr
      exact ⟨h.mode i hi, h.epoch i hi⟩

theorem Len.agrees_iff (len : Len) : len.agrees ↔ len.tab.Ok ∧ len.upgradesWait ∧ len.ownersAgree := by
  unfold Len.agrees
  rw [Len.tablesAgree_iff]

/-! ## Counting HELD records -/

theorem Len.heldCount_congr {a b : Len} (h : b.leases = a.leases) (r : ResIx) : b.heldCount r = a.heldCount r := by
  unfold Len.heldCount
  rw [h]

theorem Len.heldCount_setLease (len : Len) (i : RecIx) (x : Lease) (r : ResIx) :
    (len.setLease i x).heldCount r + (if len.leases[i].state = .held ∧ len.leases[i].resource = r then 1 else 0) =
      len.heldCount r + (if x.state = .held ∧ x.resource = r then 1 else 0) := by
  have := countP_toList_set (fun l : Lease => decide (l.state = .held ∧ l.resource = r)) len.leases i x
  simp only [decide_eq_true_eq] at this
  exact this

theorem Len.heldCount_zero (len : Len) (r : ResIx)
    (h : ∀ i : RecIx, len.leases[i].state = .held → len.leases[i].resource ≠ r) : len.heldCount r = 0 := by
  unfold Len.heldCount
  rw [List.countP_eq_zero]
  intro l hl
  obtain ⟨i, hi, rfl⟩ := List.mem_iff_getElem.1 hl
  have hi' : i < 128 := by simpa using hi
  have := h ⟨i, hi'⟩
  intro hd
  obtain ⟨h1, h2⟩ := of_decide_eq_true hd
  exact this (by simpa using h1) (by simpa using h2)

theorem Len.heldCount_pos (len : Len) (i : RecIx) (h : len.leases[i].state = .held) :
    1 ≤ len.heldCount len.leases[i].resource := by
  have := len.heldCount_setLease i { len.leases[i] with state := .free } len.leases[i].resource
  rw [if_pos ⟨h, rfl⟩, if_neg (by simp)] at this
  omega

/-- The counts are those of the records. -/
theorem Len.tab_counts (len : Len) : len.tab.Counts := by
  refine ⟨len.heldCount_pos, fun i j hij hi hj e => ?_, len.heldCount_zero⟩
  have h1 := len.heldCount_setLease i { len.leases[i] with state := .free } len.leases[i].resource
  have hi' : len.leases[i].state = .held := hi
  rw [if_pos ⟨hi', rfl⟩, if_neg (by simp)] at h1
  have hj' : (len.setLease i { len.leases[i] with state := .free }).leases[j] = len.leases[j] := by
    rw [Len.setLease_get, if_neg (Ne.symm hij)]
  have h2 := (len.setLease i { len.leases[i] with state := .free }).heldCount_pos j (by rw [hj']; exact hj)
  rw [hj'] at h2
  have e' : len.leases[i].resource = len.leases[j].resource := e
  rw [← e'] at h2
  show 2 ≤ len.heldCount len.leases[i].resource
  omega

/-- Counts depend on which records are HELD, and where. -/
theorem Tab.Counts.of_same {a b : Tab} (h : a.Counts) (hc : ∀ r, b.c r = a.c r)
    (hl : ∀ i, ((b.l i).state = .held ↔ (a.l i).state = .held) ∧
      ((a.l i).state = .held → (b.l i).resource = (a.l i).resource)) : b.Counts := by
  refine ⟨fun i hi => ?_, fun i j hij hi hj e => ?_, fun r hr => ?_⟩
  · have ha := (hl i).1.1 hi
    rw [hc, (hl i).2 ha]
    exact h.one i ha
  · have ha := (hl i).1.1 hi
    have hb := (hl j).1.1 hj
    rw [hc, (hl i).2 ha]
    rw [(hl i).2 ha, (hl j).2 hb] at e
    exact h.two i j hij ha hb e
  · rw [hc]
    exact h.zero r fun i hi => by
      rw [← (hl i).2 hi]
      exact hr i ((hl i).1.2 hi)

/-! ## Events -/

/-- The tables agree at this point of an event. -/
def LenEvent.Ok (e : LenEvent) : Prop := e.len.tab.Ok

theorem LenEvent.Ok.of_tables {a b : LenEvent} (h : a.Ok) (hc : b.len.catalog = a.len.catalog)
    (hl : b.len.leases = a.len.leases) (hw : b.len.waits = a.len.waits) : b.Ok := by
  have : b.len.tab = a.len.tab := by
    unfold Len.tab Len.heldCount
    rw [hc, hl, hw]
  unfold LenEvent.Ok
  rw [this]
  exact h

theorem LenEvent.Ok.complete {e : LenEvent} (h : e.Ok) (n : SlotIx) (c : Completion) : (e.complete n c).Ok := h.of_tables rfl rfl rfl

theorem LenEvent.Ok.replyWith {e : LenEvent} (h : e.Ok) (f : Frame) (st : Status) (b : List Byte) : (e.replyWith f st b).Ok :=
  h.complete _ _

theorem LenEvent.Ok.reply {e : LenEvent} (h : e.Ok) (f : Frame) (st : Status) : (e.reply f st).Ok := h.replyWith f st []

theorem LenEvent.Ok.badOperand {e : LenEvent} (h : e.Ok) (f : Frame) (r : OperandReason) (n : Nat) : (e.badOperand f r n).Ok :=
  h.replyWith f _ _

theorem LenEvent.Ok.profileRefused {e : LenEvent} (h : e.Ok) (f : Frame) (r : ProfileReason) (a b : Nat) :
    (e.profileRefused f r a b).Ok := h.replyWith f _ _

theorem LenEvent.Ok.notify {e : LenEvent} (h : e.Ok) (m : RquMsg) : (e.notify m).Ok := h.of_tables rfl rfl rfl

theorem LenEvent.Ok.modSlot {e : LenEvent} (h : e.Ok) (n : SlotIx) (f : Slot → Slot) : (e.modSlot n f).Ok :=
  h.of_tables rfl rfl rfl

theorem LenEvent.Ok.clearAnswered {e : LenEvent} (h : e.Ok) (n : SlotIx) : (e.clearAnswered n).Ok := h.modSlot n _

theorem LenEvent.Ok.removeKeepalive {e : LenEvent} (h : e.Ok) (n : SlotIx) : (e.removeKeepalive n).Ok :=
  h.of_tables rfl rfl rfl

theorem LenEvent.Ok.beginSession {e : LenEvent} (h : e.Ok) (n : SlotIx) (p : Port) (t : Nat) : (e.beginSession n p t).Ok :=
  h.of_tables rfl rfl rfl

theorem LenEvent.Ok.insertDeadline {e : LenEvent} (h : e.Ok) (d : Deadline) : (e.insertDeadline d).Ok :=
  h.of_tables rfl rfl rfl

theorem LenEvent.Ok.completeGrant {e : LenEvent} (h : e.Ok) (i : RecIx) (n : SlotIx) (t : TagIx) (k : ReqKind) :
    (e.completeGrant i n t k).Ok := h.complete _ _

/-! ### Freeing a record -/

/-- The entries after a record in use that is not HELD has been freed. -/
theorem LenEvent.freeRecord_entry_ended (e : LenEvent) (i : RecIx) (h : e.len.leases[i].state ≠ .free)
    (h' : e.len.leases[i].state ≠ .held) (q : ResIx) :
    (e.freeRecord i).len.catalog[q] =
      if q = e.len.leases[i].resource then e.len.entryAfterFreeing q e.len.catalog[q] else e.len.catalog[q] := by
  rw [LenEvent.freeRecord_ended e i h h', Len.setEntry_get]
  split
  · rename_i hq; rw [hq]
  · rfl

/-- The entries after a HELD record has been freed. -/
theorem LenEvent.freeRecord_entry_held (e : LenEvent) (i : RecIx) (h : e.len.leases[i].state = .held) (q : ResIx) :
    (e.freeRecord i).len.catalog[q] =
      if q = e.len.leases[i].resource then e.len.entryAfterFreeing q e.len.catalog[q].lowered else e.len.catalog[q] := by
  rw [LenEvent.freeRecord_held e i h, Len.setEntry_get]
  split
  · rename_i hq; rw [hq]
  · rfl

theorem LenEvent.freeRecord_leases (e : LenEvent) (i : RecIx) :
    (e.freeRecord i).len.leases =
      (e.len.setLease i (Lease.cleared (nextGeneration e.len.leases[i].generation))).leases := by
  apply Vector.ext
  intro j hj
  have h1 := e.freeRecord_lease i ⟨j, hj⟩
  have h2 := Len.setLease_get e.len i ⟨j, hj⟩ (Lease.cleared (nextGeneration e.len.leases[i].generation))
  exact h1.trans h2.symm

/-- The HELD records after one record has been freed. -/
theorem LenEvent.freeRecord_count (e : LenEvent) (i : RecIx) (r : ResIx) :
    (e.freeRecord i).len.heldCount r =
      if e.len.leases[i].state = .held ∧ e.len.leases[i].resource = r then e.len.heldCount r - 1 else e.len.heldCount r := by
  rw [Len.heldCount_congr (e.freeRecord_leases i)]
  have h := e.len.heldCount_setLease i (Lease.cleared (nextGeneration e.len.leases[i].generation)) r
  rw [if_neg (show ¬((Lease.cleared (nextGeneration e.len.leases[i].generation)).state = .held ∧ _) from
    fun c => by cases c.1)] at h
  split at h
  · rename_i hc; rw [if_pos hc]; omega
  · rename_i hc; rw [if_neg hc]; omega

/-! ### The ends of waits -/

/-- The entries after a wait has ended. -/
theorem LenEvent.endWait_entry (e : LenEvent) (w : WaitIx) (x : Wait) (timedOut : Bool) (h : e.len.waits[w] = some x)
    (q : ResIx) :
    (e.endWait w timedOut).len.catalog[q] =
      if q = x.resource then e.len.catalog[x.resource].without w x.kind else e.len.catalog[q] := by
  rw [LenEvent.endWait_eq e w x timedOut h]
  exact Len.setEntry_get _ _ _ _

theorem LenEvent.Ok.endUpgradeWait {e : LenEvent} (h : e.Ok) {w : WaitIx} {x : Wait} (hw : e.len.waits[w] = some x)
    (hk : x.kind = .upgrade) (timedOut : Bool) : (e.endWait w timedOut).Ok := by
  refine Tab.Ok.endUpgrade h (w := w) (x := x) hw hk (fun v => e.endWait_wait w v timedOut) (fun i => ?_) (fun r => ?_)
    fun q => ?_
  · show (e.endWait w timedOut).len.leases[i] = e.len.leases[i]
    rw [e.endWait_leases w timedOut]
  · exact Len.heldCount_congr (e.endWait_leases w timedOut) r
  · show (e.endWait w timedOut).len.catalog[q] = _
    rw [e.endWait_entry w x timedOut hw q]
    split
    · rename_i hq; rw [hq]; rfl
    · rfl

/-- An ACQUIRE wait's record is in use, not HELD, and its entry is OPEN. -/
theorem LenEvent.Ok.acquireWait {e : LenEvent} (h : e.Ok) {w : WaitIx} {x : Wait} (hw : e.len.waits[w] = some x)
    (hk : x.kind ≠ .upgrade) : e.len.leases[x.lease].state = .reserved ∧ e.len.leases[x.lease].resource = x.resource ∧
      e.len.catalog[x.resource].state = .opened := by
  refine ⟨?_, h.res w x hw, ?_⟩
  · cases hx : x.kind with
    | acquire m t p => exact (h.acq w x m t p hw hx).1
    | upgrade => exact absurd hx hk
  · by_contra hc
    exact h.closed_waits (r := x.resource) hc hw rfl

theorem LenEvent.dropWait_acquire (e : LenEvent) (w : WaitIx) (x : Wait) (timedOut : Bool) (hw : e.len.waits[w] = some x)
    (hk : x.kind ≠ .upgrade) : e.dropWait w timedOut = (e.endWait w timedOut).freeRecord x.lease := by
  unfold LenEvent.dropWait
  rw [hw]
  dsimp only
  split
  · rfl
  · rename_i hx; exact absurd hx hk

theorem LenEvent.dropWait_upgrade (e : LenEvent) (w : WaitIx) (x : Wait) (timedOut : Bool) (hw : e.len.waits[w] = some x)
    (hk : x.kind = .upgrade) : e.dropWait w timedOut = e.endWait w timedOut := by
  unfold LenEvent.dropWait
  rw [hw]
  dsimp only
  rw [hk]

/-- Dropping a wait keeps the agreement. -/
theorem LenEvent.Ok.dropWait {e : LenEvent} (h : e.Ok) (w : WaitIx) (timedOut : Bool) : (e.dropWait w timedOut).Ok := by
  cases hw : e.len.waits[w] with
  | none =>
    unfold LenEvent.dropWait
    rw [hw]
    exact h
  | some x =>
    by_cases hk : x.kind = .upgrade
    · rw [LenEvent.dropWait_upgrade e w x timedOut hw hk]
      exact h.endUpgradeWait hw hk timedOut
    · rw [LenEvent.dropWait_acquire e w x timedOut hw hk]
      obtain ⟨h1, h2, h3⟩ := h.acquireWait hw hk
      have hl : (e.endWait w timedOut).len.leases = e.len.leases := e.endWait_leases w timedOut
      have hs : (e.endWait w timedOut).len.leases[x.lease].state = .reserved := by rw [hl]; exact h1
      have hr : (e.endWait w timedOut).len.leases[x.lease].resource = x.resource := by rw [hl]; exact h2
      have hen : ∀ q : ResIx, ((e.endWait w timedOut).freeRecord x.lease).len.catalog[q] =
          if q = x.resource then e.len.catalog[x.resource].without w x.kind else e.len.catalog[q] := by
        intro q
        have h4 := e.endWait_entry w x timedOut hw q
        rw [LenEvent.freeRecord_entry_ended _ _ (by rw [hs]; decide) (by rw [hs]; decide), h4]
        by_cases hq : q = x.resource
        · subst hq
          rw [if_pos hr.symm, if_pos rfl]
          unfold Len.entryAfterFreeing
          rw [if_neg]
          rintro ⟨hd, _⟩
          have : (e.len.catalog[x.resource].without w x.kind).state = e.len.catalog[x.resource].state := rfl
          rw [this, h3] at hd
          cases hd
        · rw [if_neg (fun c => hq (c.trans hr)), if_neg hq]
      have hlease : ∀ j : RecIx, ((e.endWait w timedOut).freeRecord x.lease).len.leases[j] =
          if j = x.lease then Lease.cleared (nextGeneration e.len.leases[x.lease].generation) else e.len.leases[j] := by
        intro j
        rw [LenEvent.freeRecord_lease, hl]
      refine Tab.Ok.endAcquire h (w := w) (x := x) hw hk (fun v => ?_) ?_ (fun j hj => ?_) (fun r => ?_) fun q => ?_
      · show ((e.endWait w timedOut).freeRecord x.lease).len.waits[v] = _
        rw [LenEvent.freeRecord_waits]
        exact e.endWait_wait w v timedOut
      · show ((e.endWait w timedOut).freeRecord x.lease).len.leases[x.lease].state = _
        rw [hlease, if_pos rfl]
        rfl
      · show ((e.endWait w timedOut).freeRecord x.lease).len.leases[j] = _
        rw [hlease, if_neg hj]
        rfl
      · show ((e.endWait w timedOut).freeRecord x.lease).len.heldCount r = e.len.heldCount r
        rw [LenEvent.freeRecord_count, if_neg (fun c => by rw [hs] at c; cases c.1)]
        exact Len.heldCount_congr hl r
      · show ((e.endWait w timedOut).freeRecord x.lease).len.catalog[q] = _
        rw [hen]
        split
        · rename_i hq; rw [hq]; rfl
        · rfl

theorem LenEvent.Ok.finishWait {e : LenEvent} (h : e.Ok) (w : WaitIx) (timedOut : Bool) (st : Status) :
    (e.finishWait w timedOut st).Ok := by
  unfold LenEvent.finishWait
  split
  · exact h
  · exact (h.dropWait w timedOut).complete _ _

theorem LenEvent.Ok.endUpgradeOf {e : LenEvent} (h : e.Ok) (i : RecIx) (st : Status) : (e.endUpgradeOf i st).Ok := by
  unfold LenEvent.endUpgradeOf
  split
  · exact h
  · exact h.finishWait _ _ _

/-! ### The ends of records -/

/-- The entries after a DRAINING one with no record has been vacated. -/
theorem LenEvent.vacateIfDrained_entry (e : LenEvent) (r q : ResIx) :
    (e.vacateIfDrained r).len.catalog[q] = e.len.catalog[q] ∨
      e.len.catalog[q].state = .draining ∧ (e.vacateIfDrained r).len.catalog[q] = Entry.vacant e.len.catalog[q].epoch ∧
        ∀ j : RecIx, e.len.leases[j].state ≠ .free → e.len.leases[j].resource ≠ q := by
  by_cases h : e.len.catalog[r].state = .draining ∧ e.len.recordsOn r = 0
  · have hf : e.vacateIfDrained r = e.modEntry r fun en => Entry.vacant en.epoch := by
      unfold LenEvent.vacateIfDrained
      rw [if_pos h]
    rw [hf]
    have h1 := Len.setEntry_get e.len r q (Entry.vacant e.len.catalog[r].epoch)
    by_cases hq : q = r
    · subst hq
      exact .inr ⟨h.1, h1.trans (if_pos rfl), (Len.recordsOn_zero _ _).1 h.2⟩
    · exact .inl (h1.trans (if_neg hq))
  · have hf : e.vacateIfDrained r = e := by
      unfold LenEvent.vacateIfDrained
      rw [if_neg h]
    rw [hf]
    exact .inl rfl

/-- Freeing a record that no wait has keeps the agreement. -/
theorem LenEvent.Ok.freeRecord {e : LenEvent} (h : e.Ok) (i : RecIx)
    (hn : ∀ (w : WaitIx) (x : Wait), e.len.waits[w] = some x → x.lease ≠ i) : (e.freeRecord i).Ok := by
  have hl : ∀ j : RecIx, (e.freeRecord i).len.leases[j] =
      if j = i then Lease.cleared (nextGeneration e.len.leases[i].generation) else e.len.leases[j] := e.freeRecord_lease i
  have hw : ∀ v : WaitIx, (e.freeRecord i).len.waits[v] = e.len.waits[v] := fun v => by rw [e.freeRecord_waits i]
  have hrec : ∀ (a : LenEvent) (q : ResIx), a.len.leases = e.len.leases →
      (∀ j : RecIx, (a.modLease i fun l => Lease.cleared (nextGeneration l.generation)).len.leases[j].state ≠ .free →
        (a.modLease i fun l => Lease.cleared (nextGeneration l.generation)).len.leases[j].resource ≠ q) →
      ∀ j, ((e.freeRecord i).len.tab.l j).state ≠ .free → ((e.freeRecord i).len.tab.l j).resource ≠ q := by
    intro a q ha hq j
    have h1 : (a.modLease i fun l => Lease.cleared (nextGeneration l.generation)).len.leases[j] =
        (e.freeRecord i).len.leases[j] := by
      rw [hl, LenEvent.modLease_len, Len.setLease_get, ha]
    have := hq j
    rw [h1] at this
    exact this
  by_cases hi : e.len.leases[i].state = .held
  · have hen : ∀ q : ResIx,
        ((e.freeRecord i).len.catalog[q] =
          if q = e.len.leases[i].resource then e.len.catalog[q].lowered else e.len.catalog[q]) ∨
        (if q = e.len.leases[i].resource then e.len.catalog[q].lowered else e.len.catalog[q]).state = .draining ∧
          (e.freeRecord i).len.catalog[q] =
            Entry.vacant (if q = e.len.leases[i].resource then e.len.catalog[q].lowered else e.len.catalog[q]).epoch ∧
          ∀ j, ((e.freeRecord i).len.tab.l j).state ≠ .free → ((e.freeRecord i).len.tab.l j).resource ≠ q := by
      intro q
      have hc : ∀ q : ResIx,
          ((((e.removeDeadline (e.len.leaseDeadline i)).lowerHolders e.len.leases[i].resource).modLease i fun l =>
            Lease.cleared (nextGeneration l.generation)).len.catalog[q]) =
          if q = e.len.leases[i].resource then e.len.catalog[q].lowered else e.len.catalog[q] := by
        intro q
        refine (Len.setEntry_get e.len e.len.leases[i].resource q e.len.catalog[e.len.leases[i].resource].lowered).trans ?_
        split
        · rename_i hq; rw [hq]
        · rfl
      have hv := (((e.removeDeadline (e.len.leaseDeadline i)).lowerHolders e.len.leases[i].resource).modLease i fun l =>
        Lease.cleared (nextGeneration l.generation)).vacateIfDrained_entry e.len.leases[i].resource q
      rw [hc] at hv
      have hf : e.freeRecord i =
          (((e.removeDeadline (e.len.leaseDeadline i)).lowerHolders e.len.leases[i].resource).modLease i fun l =>
            Lease.cleared (nextGeneration l.generation)).vacateIfDrained e.len.leases[i].resource := by
        unfold LenEvent.freeRecord LenEvent.clearRecord
        rw [if_pos hi]
        rfl
      rw [← hf] at hv
      rcases hv with hv | ⟨h1, h2, h3⟩
      · exact .inl hv
      · exact .inr ⟨h1, h2, hrec _ q rfl h3⟩
    have hT : (⟨fun q => if q = e.len.leases[i].resource then e.len.catalog[q].lowered else e.len.catalog[q],
        fun j => if j = i then { e.len.leases[i] with state := .lapsed } else e.len.leases[j], fun w => e.len.waits[w],
        fun q => if q = e.len.leases[i].resource then e.len.heldCount q - 1 else e.len.heldCount q⟩ : Tab).Ok := by
      refine Tab.Ok.lower h e.len.tab_counts (i := i) hi ?_ ?_ ?_ hn (fun _ => rfl) (fun j hj => ?_) (fun _ => rfl)
        (fun _ => rfl)
      · dsimp only
        rw [if_pos rfl]
        simp
      · dsimp only
        rw [if_pos rfl]
        simp
      · dsimp only
        rw [if_pos rfl]
        rfl
      · dsimp only
        rw [if_neg hj]
        rfl
    refine Tab.Ok.free hT (e.freeRecord i).len.tab_counts (i := i) ?_ ?_ hn hw (fun j hj => ?_) (fun r => ?_) hen
    · dsimp only
      rw [if_pos rfl]
      simp
    · show (e.freeRecord i).len.leases[i].state = .free
      rw [hl, if_pos rfl]
      rfl
    · show (e.freeRecord i).len.leases[j] = _
      rw [hl, if_neg hj]
      dsimp only
      rw [if_neg hj]
    · show (e.freeRecord i).len.heldCount r = _
      rw [LenEvent.freeRecord_count]
      dsimp only
      by_cases hr : r = e.len.leases[i].resource
      · rw [if_pos ⟨hi, hr.symm⟩, if_pos hr]
      · rw [if_neg (fun c => hr c.2.symm), if_neg hr]
  · refine Tab.Ok.free h (e.freeRecord i).len.tab_counts (i := i) hi ?_ hn hw (fun j hj => ?_) (fun r => ?_) fun q => ?_
    · show (e.freeRecord i).len.leases[i].state = .free
      rw [hl, if_pos rfl]
      rfl
    · show (e.freeRecord i).len.leases[j] = _
      rw [hl, if_neg hj]
      rfl
    · show (e.freeRecord i).len.heldCount r = _
      rw [LenEvent.freeRecord_count, if_neg (fun c => hi c.1)]
      rfl
    · have hv := (e.modLease i fun l => Lease.cleared (nextGeneration l.generation)).vacateIfDrained_entry
        e.len.leases[i].resource q
      have hf : e.freeRecord i =
          (e.modLease i fun l => Lease.cleared (nextGeneration l.generation)).vacateIfDrained e.len.leases[i].resource := by
        unfold LenEvent.freeRecord LenEvent.clearRecord
        rw [if_neg hi]
      rw [← hf] at hv
      rcases hv with hv | ⟨h1, h2, h3⟩
      · exact .inl hv
      · exact .inr ⟨h1, h2, hrec e q rfl h3⟩

/-- The UPGRADE wait that a search finds. -/
theorem Len.upgradeWaitOf_some {len : Len} {i : RecIx} {w : WaitIx} (h : len.upgradeWaitOf i = some w) :
    ∃ x, len.waits[w] = some x ∧ x.kind = .upgrade ∧ x.lease = i ∧ w ∈ len.catalog[len.leases[i].resource].queue := by
  unfold Len.upgradeWaitOf at h
  have h1 := List.find?_some h
  have h2 := List.mem_of_find?_eq_some h
  cases hw : len.waits[w] with
  | none => rw [hw] at h1; cases h1
  | some x =>
    rw [hw] at h1
    have := of_decide_eq_true h1
    exact ⟨x, rfl, this.1, this.2, h2⟩

theorem Len.upgradeWaitOf_none {len : Len} {i : RecIx} (h : len.upgradeWaitOf i = none) {w : WaitIx} {x : Wait}
    (hw : len.waits[w] = some x) (hk : x.kind = .upgrade) (hi : x.lease = i) :
    w ∉ len.catalog[len.leases[i].resource].queue := by
  unfold Len.upgradeWaitOf at h
  intro hq
  have := List.find?_eq_none.1 h w hq
  rw [hw] at this
  simp [hk, hi] at this

/-- A HELD record for which no UPGRADE wait stands in its queue has no wait. -/
theorem LenEvent.Ok.no_wait {e : LenEvent} (h : e.Ok) {i : RecIx} (hi : e.len.leases[i].state = .held)
    (hu : e.len.upgradeWaitOf i = none) (w : WaitIx) (x : Wait) (hw : e.len.waits[w] = some x) : x.lease ≠ i := by
  intro e1
  cases hk : x.kind with
  | acquire m t p =>
    have := (h.acq w x m t p hw hk).1
    rw [e1] at this
    have hi' : (e.len.tab.l i).state = .held := hi
    rw [hi'] at this
    cases this
  | upgrade =>
    have h1 := (h.mem x.resource w).2 ⟨x, hw, rfl⟩
    have h2 := h.res w x hw
    rw [e1] at h2
    have := Len.upgradeWaitOf_none hu hw hk e1
    rw [← h2] at h1
    exact this h1

/-- A HELD record leaves HELD for another state, and the UPGRADE wait for it ends. -/
theorem LenEvent.Ok.leaveHeld {e b : LenEvent} (h : e.Ok) (i : RecIx) (st : Status) (x : Lease)
    (hi : e.len.leases[i].state = .held) (hx : x.state = .lapsed ∨ x.state = .revoked)
    (hr : x.resource = e.len.leases[i].resource) (bl : b.len.leases = (e.len.setLease i x).leases)
    (bw : b.len.waits = e.len.waits)
    (be : ∀ q : ResIx, b.len.catalog[q] =
      if q = e.len.leases[i].resource then e.len.catalog[q].lowered else e.len.catalog[q]) : (b.endUpgradeOf i st).Ok := by
  have hxh : x.state ≠ .held := by rcases hx with e | e <;> rw [e] <;> decide
  have hxr : x.state ≠ .reserved := by rcases hx with e | e <;> rw [e] <;> decide
  have hbl : ∀ j : RecIx, b.len.leases[j] = if j = i then x else e.len.leases[j] := by
    intro j
    rw [bl]
    exact Len.setLease_get _ _ _ _
  have hbc : ∀ q : ResIx, b.len.heldCount q =
      if q = e.len.leases[i].resource then e.len.heldCount q - 1 else e.len.heldCount q := by
    intro q
    rw [Len.heldCount_congr bl]
    have hs := e.len.heldCount_setLease i x q
    rw [if_neg (show ¬(x.state = .held ∧ x.resource = q) from fun c => hxh c.1)] at hs
    by_cases hq : q = e.len.leases[i].resource
    · rw [if_pos ⟨hi, hq.symm⟩] at hs
      rw [if_pos hq]
      omega
    · rw [if_neg (fun c => hq c.2.symm)] at hs
      rw [if_neg hq]
      omega
  have hbi : b.len.leases[i].resource = e.len.leases[i].resource := by
    rw [hbl, if_pos rfl, hr]
  have hq : b.len.catalog[b.len.leases[i].resource].queue = e.len.catalog[e.len.leases[i].resource].queue := by
    have : ∀ q : ResIx, b.len.catalog[q].queue = e.len.catalog[q].queue := by
      intro q
      rw [be]
      split <;> rfl
    rw [this]
    have : ∀ r r' : ResIx, r = r' → e.len.catalog[r].queue = e.len.catalog[r'].queue := fun r r' e => e ▸ rfl
    exact this _ _ hbi
  unfold LenEvent.endUpgradeOf
  split
  · rename_i hu
    have hn : ∀ (w : WaitIx) (y : Wait), e.len.waits[w] = some y → y.lease ≠ i := by
      refine h.no_wait hi ?_
      unfold Len.upgradeWaitOf at hu ⊢
      rw [hq, bw] at hu
      exact hu
    refine Tab.Ok.lower h e.len.tab_counts (i := i) hi ?_ ?_ ?_ hn (fun v => ?_) (fun j hj => ?_) hbc be
    · show b.len.leases[i].state ≠ .held
      rw [hbl, if_pos rfl]
      exact hxh
    · show b.len.leases[i].state ≠ .reserved
      rw [hbl, if_pos rfl]
      exact hxr
    · exact hbi
    · show b.len.waits[v] = e.len.waits[v]
      rw [bw]
    · show b.len.leases[j] = e.len.leases[j]
      rw [hbl, if_neg hj]
  · rename_i w hu
    obtain ⟨y, hy, hk, hyl, hmem⟩ := Len.upgradeWaitOf_some hu
    have hy' : e.len.waits[w] = some y := by rw [← hy, bw]
    have hyr : y.resource = e.len.leases[i].resource := by
      have := h.res w y hy'
      rw [hyl] at this
      exact this.symm
    unfold LenEvent.finishWait
    rw [hy]
    refine LenEvent.Ok.complete ?_ _ _
    rw [LenEvent.dropWait_upgrade b w y false hy hk]
    have hT : (⟨fun q => if q = y.resource then e.len.catalog[q].without w y.kind else e.len.catalog[q],
        fun j => e.len.leases[j], fun v => if v = w then none else e.len.waits[v], e.len.heldCount⟩ : Tab).Ok :=
      Tab.Ok.endUpgrade h (w := w) (x := y) hy' hk (fun _ => rfl) (fun _ => rfl) (fun _ => rfl) (fun _ => rfl)
    refine Tab.Ok.lower hT (e.len.tab_counts.of_same (fun _ => rfl) fun _ => ⟨Iff.rfl, fun _ => rfl⟩) (i := i) hi ?_ ?_ ?_
      (fun v z hv hz => ?_) (fun v => ?_) (fun j hj => ?_) (fun q => ?_) fun q => ?_
    · show (b.endWait w false).len.leases[i].state ≠ .held
      rw [b.endWait_leases w false, hbl, if_pos rfl]
      exact hxh
    · show (b.endWait w false).len.leases[i].state ≠ .reserved
      rw [b.endWait_leases w false, hbl, if_pos rfl]
      exact hxr
    · show (b.endWait w false).len.leases[i].resource = _
      rw [b.endWait_leases w false]
      exact hbi
    · dsimp only at hv
      split at hv
      · cases hv
      · rename_i hvw
        exact hvw (h.inj v w z y hv hy' (hz.trans hyl.symm))
    · show (b.endWait w false).len.waits[v] = _
      rw [b.endWait_wait w v false, bw]
    · show (b.endWait w false).len.leases[j] = _
      rw [b.endWait_leases w false, hbl, if_neg hj]
    · show (b.endWait w false).len.heldCount q = _
      rw [Len.heldCount_congr (b.endWait_leases w false), hbc]
    · show (b.endWait w false).len.catalog[q] = _
      rw [b.endWait_entry w y false hy]
      dsimp only
      by_cases hqr : q = y.resource
      · subst hqr
        rw [if_pos rfl, be, if_pos hyr, if_pos hyr, if_pos rfl]
        rfl
      · rw [if_neg hqr, be, if_neg hqr]

theorem LenEvent.Ok.revokeRecord {e : LenEvent} (h : e.Ok) (i : RecIx) (hi : e.len.leases[i].state = .held) :
    (e.revokeRecord i).Ok := by
  unfold LenEvent.revokeRecord
  refine h.leaveHeld i .revoked { e.len.leases[i] with state := .revoked, changeMark := true } hi (.inr rfl) rfl rfl rfl
    fun q => ?_
  refine (Len.setEntry_get e.len e.len.leases[i].resource q e.len.catalog[e.len.leases[i].resource].lowered).trans ?_
  split
  · rename_i hq; rw [hq]
  · rfl

theorem LenEvent.Ok.lapseRecord {e : LenEvent} (h : e.Ok) (i : RecIx) (hi : e.len.leases[i].state = .held) :
    (e.lapseRecord i).Ok := by
  unfold LenEvent.lapseRecord
  refine h.leaveHeld i .lapsed { e.len.leases[i] with state := .lapsed, changeMark := true } hi (.inl rfl) rfl rfl rfl
    fun q => ?_
  refine (Len.setEntry_get e.len e.len.leases[i].resource q e.len.catalog[e.len.leases[i].resource].lowered).trans ?_
  split
  · rename_i hq; rw [hq]
  · rfl

end Sys2Proof.Machine
end

