-- ==== Sys2Proof/Laws/Granting.lean ====
section
/-! SUPPORT. The agreement of LEN's tables through grants, grant passes, revocations of a whole resource and purges, and what these leave of the owners of records. -/

namespace Sys2Proof.Machine

/-! ## Owners -/

/-- Every record in use in `b` was in use in `a`, with the same slot, session and resource. -/
def Len.Stays (a b : Len) : Prop :=
  ∀ i : RecIx, b.leases[i].state ≠ .free → a.leases[i].state ≠ .free ∧ b.leases[i].slot = a.leases[i].slot ∧
    b.leases[i].session = a.leases[i].session ∧ b.leases[i].resource = a.leases[i].resource

theorem Len.Stays.refl (a : Len) : a.Stays a := fun _ h => ⟨h, rfl, rfl, rfl⟩

theorem Len.Stays.trans {a b c : Len} (h : a.Stays b) (k : b.Stays c) : a.Stays c := by
  intro i hi
  obtain ⟨h1, h2, h3, h4⟩ := k i hi
  obtain ⟨k1, k2, k3, k4⟩ := h i h1
  exact ⟨k1, h2.trans k2, h3.trans k3, h4.trans k4⟩

theorem Len.Stays.of_eq {a b : Len} (h : b.leases = a.leases) : a.Stays b := by
  have : ∀ i : RecIx, b.leases[i] = a.leases[i] := fun i => by rw [h]
  intro i hi
  rw [this] at hi ⊢
  exact ⟨hi, rfl, rfl, rfl⟩

theorem Len.Stays.foldl {α : Type} {f : LenEvent → α → LenEvent} (h : ∀ (e : LenEvent) x, e.len.Stays (f e x).len)
    (xs : List α) (e : LenEvent) : e.len.Stays (xs.foldl f e).len := by
  induction xs generalizing e with
  | nil => exact .refl _
  | cons x xs ih => exact (h e x).trans (ih _)

/-- A change of one record that keeps its owner and resource, and takes no FREE record into use. -/
theorem LenEvent.modLease_stays (e : LenEvent) (i : RecIx) (f : Lease → Lease)
    (h : (f e.len.leases[i]).state ≠ .free → e.len.leases[i].state ≠ .free ∧ (f e.len.leases[i]).slot = e.len.leases[i].slot ∧
      (f e.len.leases[i]).session = e.len.leases[i].session ∧ (f e.len.leases[i]).resource = e.len.leases[i].resource) :
    e.len.Stays (e.modLease i f).len := by
  intro j hj
  have h1 : (e.modLease i f).len.leases[j] = if j = i then f e.len.leases[i] else e.len.leases[j] := Len.setLease_get _ _ _ _
  rw [h1] at hj ⊢
  split
  · rename_i hji
    subst hji
    rw [if_pos rfl] at hj
    exact h hj
  · rename_i hji
    rw [if_neg hji] at hj
    exact ⟨hj, rfl, rfl, rfl⟩

theorem LenEvent.freeRecord_stays (e : LenEvent) (i : RecIx) : e.len.Stays (e.freeRecord i).len := by
  intro j hj
  rw [e.freeRecord_lease i j] at hj ⊢
  split
  · rename_i hji
    rw [if_pos hji] at hj
    exact absurd rfl hj
  · rename_i hji
    rw [if_neg hji] at hj
    exact ⟨hj, rfl, rfl, rfl⟩

theorem LenEvent.endWait_stays (e : LenEvent) (w : WaitIx) (timedOut : Bool) : e.len.Stays (e.endWait w timedOut).len :=
  .of_eq (e.endWait_leases w timedOut)

theorem LenEvent.dropWait_stays (e : LenEvent) (w : WaitIx) (timedOut : Bool) : e.len.Stays (e.dropWait w timedOut).len := by
  unfold LenEvent.dropWait
  split
  · exact .refl _
  · split
    · exact (e.endWait_stays w timedOut).trans (LenEvent.freeRecord_stays _ _)
    · exact e.endWait_stays w timedOut

theorem LenEvent.complete_stays (e : LenEvent) (n : SlotIx) (c : Completion) : e.len.Stays (e.complete n c).len := .of_eq rfl

theorem LenEvent.finishWait_stays (e : LenEvent) (w : WaitIx) (timedOut : Bool) (st : Status) :
    e.len.Stays (e.finishWait w timedOut st).len := by
  unfold LenEvent.finishWait
  split
  · exact .refl _
  · exact (e.dropWait_stays w timedOut).trans (LenEvent.complete_stays _ _ _)

theorem LenEvent.endUpgradeOf_stays (e : LenEvent) (i : RecIx) (st : Status) : e.len.Stays (e.endUpgradeOf i st).len := by
  unfold LenEvent.endUpgradeOf
  split
  · exact .refl _
  · exact e.finishWait_stays _ _ _

theorem LenEvent.revokeRecord_stays (e : LenEvent) (i : RecIx) (h : e.len.leases[i].state = .held) :
    e.len.Stays (e.revokeRecord i).len := by
  unfold LenEvent.revokeRecord
  refine Len.Stays.trans (e.modLease_stays i (fun l => { l with state := .revoked, changeMark := true })
    fun _ => ⟨by rw [h]; decide, rfl, rfl, rfl⟩) (.trans (.of_eq rfl) (LenEvent.endUpgradeOf_stays _ _ _))

theorem LenEvent.lapseRecord_stays (e : LenEvent) (i : RecIx) (h : e.len.leases[i].state = .held) :
    e.len.Stays (e.lapseRecord i).len := by
  unfold LenEvent.lapseRecord
  refine Len.Stays.trans (e.modLease_stays i (fun l => { l with state := .lapsed, changeMark := true })
    fun _ => ⟨by rw [h]; decide, rfl, rfl, rfl⟩) (.trans (.of_eq rfl) (LenEvent.endUpgradeOf_stays _ _ _))

theorem LenEvent.grantRecord_stays (e : LenEvent) (i : RecIx) (r : ResIx) (m : Mode) (term : Nat)
    (h : e.len.leases[i].state ≠ .free) : e.len.Stays (e.grantRecord i r m term).len := by
  unfold LenEvent.grantRecord
  refine Len.Stays.trans (.of_eq rfl) (LenEvent.modLease_stays (e.modEntry r _) i _ fun _ => ⟨?_, rfl, rfl, rfl⟩)
  exact h

theorem LenEvent.makeExclusive_stays (e : LenEvent) (i : RecIx) (r : ResIx) : e.len.Stays (e.makeExclusive i r).len := by
  unfold LenEvent.makeExclusive
  exact Len.Stays.trans (.of_eq rfl) (LenEvent.modLease_stays (e.modEntry r _) i _ fun h => ⟨h, rfl, rfl, rfl⟩)

theorem LenEvent.purge_stays (e : LenEvent) (n : SlotIx) (session : Session) : e.len.Stays (e.purge n session).len :=
  (Len.Stays.foldl (fun e w => e.dropWait_stays w false) _ e).trans
    (Len.Stays.foldl (fun e i => e.freeRecord_stays i) _ _)

/-! ## Grants -/

/-- The epoch under which a grant in a mode is made (R15). -/
def Entry.grantEpoch (en : Entry) (m : Mode) : Epoch := if needsAdvance m en.holderMode then en.epoch + 1 else en.epoch

theorem LenEvent.makeExclusive_lease (e : LenEvent) (i j : RecIx) (r : ResIx) :
    (e.makeExclusive i r).len.leases[j] =
      if j = i then { e.len.leases[i] with mode := .exclusive, epoch := e.len.catalog[r].epoch + 1 } else e.len.leases[j] :=
  Len.setLease_get _ _ _ _

theorem LenEvent.makeExclusive_entry (e : LenEvent) (i : RecIx) (r q : ResIx) :
    (e.makeExclusive i r).len.catalog[q] =
      if q = r then { e.len.catalog[r] with epoch := e.len.catalog[r].epoch + 1, holderMode := .exclusive }
      else e.len.catalog[q] := Len.setEntry_get _ _ _ _

/-- A HELD SHARED lease without a wait, the only one of its entry, becomes EXCLUSIVE. -/
theorem LenEvent.Ok.makeExclusive {e : LenEvent} (h : e.Ok) {i : RecIx} {r : ResIx} (hi : e.len.leases[i].state = .held)
    (hr : e.len.leases[i].resource = r) (hc : e.len.catalog[r].holderCount = 1)
    (hn : ∀ (w : WaitIx) (x : Wait), e.len.waits[w] = some x → x.lease ≠ i) : (e.makeExclusive i r).Ok := by
  subst hr
  have hc' : e.len.heldCount e.len.leases[i].resource = 1 := (h.count e.len.leases[i].resource).symm.trans hc
  have hl := (e.makeExclusive_lease i i e.len.leases[i].resource).trans (if_pos rfl)
  refine Tab.Ok.remode h e.len.tab_counts (i := i) (m := .exclusive)
    (e := e.len.catalog[e.len.leases[i].resource].epoch + 1) hi hc' (by decide) (fun e => by cases e) hn (fun _ => rfl)
    (fun j hj => (e.makeExclusive_lease i j _).trans (if_neg hj)) ?_ ?_ ?_ ?_ (fun q => ?_) fun q => ?_
  · exact (congrArg Lease.state hl).trans hi
  · exact (congrArg Lease.resource hl).trans rfl
  · exact congrArg Lease.mode hl
  · exact congrArg Lease.epoch hl
  · exact Nat.add_right_cancel (e.len.heldCount_setLease i
      { e.len.leases[i] with mode := .exclusive, epoch := e.len.catalog[e.len.leases[i].resource].epoch + 1 } q)
  · refine (e.makeExclusive_entry i e.len.leases[i].resource q).trans ?_
    show _ = if q = e.len.leases[i].resource then _ else e.len.catalog[q]
    split
    · rename_i hq; rw [hq]; rfl
    · rfl

/-- The tables at a point of an event, as given by functions, are granted from. -/
theorem LenEvent.Ok.grantFrom {T : Tab} (h : T.Ok) (k : T.Counts) {b : LenEvent} {i : RecIx} {r : ResIx} {m : Mode} {x : Lease}
    (hi : (T.l i).state = .free) (ho : (T.en r).state ≠ .vacant) (hm : m ≠ .none)
    (hs : m = .shared → 1 ≤ (T.en r).shareLimit) (ha : (T.en r).admits m = true)
    (xs : x.state = .held) (xr : x.resource = r) (xm : x.mode = m)
    (xe : x.epoch = (T.en r).grantEpoch m)
    (bw : ∀ v : WaitIx, b.len.waits[v] = T.w v) (bl : ∀ j : RecIx, b.len.leases[j] = if j = i then x else T.l j)
    (bc : ∀ q, b.len.heldCount q = if q = r then T.c q + 1 else T.c q)
    (be : ∀ q : ResIx, b.len.catalog[q] =
      if q = r then
        { T.en q with
          epoch := (T.en r).grantEpoch m
          holderCount := (T.en q).holderCount + 1
          holderMode := if (T.en q).holderMode = .none then m else (T.en q).holderMode }
      else T.en q) : b.Ok := by
  refine Tab.Ok.grant h k hi ho hm hs ha rfl bw (fun j hj => (bl j).trans (if_neg hj)) ?_ ?_ ?_ ?_ bc be
  all_goals
    have h1 := (bl i).trans (if_pos rfl)
    show _ = _
  · exact (congrArg Lease.state h1).trans xs
  · exact (congrArg Lease.resource h1).trans xr
  · exact (congrArg Lease.mode h1).trans xm
  · exact (congrArg Lease.epoch h1).trans xe

theorem LenEvent.grantRecord_lease (e : LenEvent) (i j : RecIx) (r : ResIx) (m : Mode) (term : Nat) :
    (e.grantRecord i r m term).len.leases[j] =
      if j = i then
        { e.len.leases[i] with
          state := .held, mode := m, epoch := e.len.catalog[r].grantEpoch m, term := term,
          deadline := deadlineAfter e.now term }
      else e.len.leases[j] := Len.setLease_get _ _ _ _

theorem LenEvent.grantRecord_entry (e : LenEvent) (i : RecIx) (r q : ResIx) (m : Mode) (term : Nat) :
    (e.grantRecord i r m term).len.catalog[q] =
      if q = r then
        { e.len.catalog[r] with
          epoch := e.len.catalog[r].grantEpoch m
          holderCount := e.len.catalog[r].holderCount + 1
          holderMode := if e.len.catalog[r].holderMode = .none then m else e.len.catalog[r].holderMode }
      else e.len.catalog[q] := Len.setEntry_get _ _ _ _

/-- The HELD records after a grant of a record that was not HELD. -/
theorem LenEvent.grantRecord_count (e : LenEvent) (i : RecIx) (r q : ResIx) (m : Mode) (term : Nat)
    (hi : e.len.leases[i].state ≠ .held) (hr : e.len.leases[i].resource = r) :
    (e.grantRecord i r m term).len.heldCount q = if q = r then e.len.heldCount q + 1 else e.len.heldCount q := by
  have hs := e.len.heldCount_setLease i
    { e.len.leases[i] with
      state := .held, mode := m, epoch := e.len.catalog[r].grantEpoch m, term := term,
      deadline := deadlineAfter e.now term } q
  rw [if_neg (fun c => hi c.1)] at hs
  refine Eq.trans (b := _) (show _ = _ from hs) ?_
  by_cases hq : q = r
  · rw [if_pos hq, if_pos ⟨rfl, hr.trans hq.symm⟩]
  · rw [if_neg hq, if_neg (fun c => hq (c.2.symm.trans hr))]
    rfl

/-- An immediate grant keeps the agreement. -/
theorem LenEvent.Ok.grantNow {e : LenEvent} (h : e.Ok) (f : Frame) {i : RecIx} {r : ResIx} {m : Mode} (term : Nat)
    (hi : e.len.leases[i].state = .free) (ho : e.len.catalog[r].state ≠ .vacant) (hm : m ≠ .none)
    (hs : m = .shared → 1 ≤ e.len.catalog[r].shareLimit) (ha : e.len.catalog[r].admits m = true) :
    (e.grantNow f i r m term).Ok := by
  have hl : ∀ j : RecIx, (e.takeRecord i f.slot r m term).len.leases[j] = if j = i then _ else e.len.leases[j] :=
    fun j => Len.setLease_get _ _ _ _
  have hli := (hl i).trans (if_pos rfl)
  have ht : ∀ q : ResIx, (e.takeRecord i f.slot r m term).len.heldCount q = e.len.heldCount q := by
    intro q
    have h1 := e.len.heldCount_setLease i
      { Lease.cleared e.len.leases[i].generation with
        state := .reserved, resource := r, slot := f.slot, session := e.len.slots[f.slot].session, mode := m,
        term := term } q
    rw [if_neg (fun c => by rw [hi] at c; cases c.1), if_neg (fun c => by cases c.1)] at h1
    exact Nat.add_right_cancel h1
  refine LenEvent.Ok.grantFrom (b := e.grantNow f i r m term) h e.len.tab_counts (i := i) (r := r) (m := m) hi ho hm hs ha
    (x := { (e.takeRecord i f.slot r m term).len.leases[i] with
      state := .held, mode := m, epoch := e.len.catalog[r].grantEpoch m, term := term,
      deadline := deadlineAfter e.now term })
    rfl ?_ rfl rfl (fun _ => rfl) (fun j => ?_) (fun q => ?_) fun q => ?_
  · show (e.takeRecord i f.slot r m term).len.leases[i].resource = r
    rw [hli]
  · refine ((e.takeRecord i f.slot r m term).grantRecord_lease i j r m term).trans ?_
    split
    · rfl
    · rename_i hj
      exact (hl j).trans (if_neg hj)
  · refine ((e.takeRecord i f.slot r m term).grantRecord_count i r q m term ?_ ?_).trans ?_
    · rw [hli]; exact fun c => by cases c
    · rw [hli]
    · rw [ht]; rfl
  · refine ((e.takeRecord i f.slot r m term).grantRecord_entry i r q m term).trans ?_
    show _ = if q = r then _ else e.len.catalog[q]
    split
    · rename_i hq; rw [hq]; rfl
    · rfl

theorem LenEvent.grantAcquireWait_tables (e : LenEvent) (r : ResIx) (w : WaitIx) (x : Wait) (m : Mode) (term : Nat) :
    (e.grantAcquireWait r w x m term).len.catalog = ((e.grantRecord x.lease r m term).endWait w false).len.catalog ∧
      (e.grantAcquireWait r w x m term).len.leases = ((e.grantRecord x.lease r m term).endWait w false).len.leases ∧
      (e.grantAcquireWait r w x m term).len.waits = ((e.grantRecord x.lease r m term).endWait w false).len.waits :=
  ⟨rfl, rfl, rfl⟩

/-- The grant of an ACQUIRE wait keeps the agreement. -/
theorem LenEvent.Ok.grantAcquireWait {e : LenEvent} (h : e.Ok) {w : WaitIx} {x : Wait} {m : Mode} {term p : Nat}
    (hw : e.len.waits[w] = some x) (hk : x.kind = .acquire m term p)
    (ha : e.len.catalog[x.resource].admits m = true) : (e.grantAcquireWait x.resource w x m term).Ok := by
  have hk' : x.kind ≠ .upgrade := by rw [hk]; intro c; cases c
  obtain ⟨h1, h2, h3⟩ := h.acquireWait hw hk'
  obtain ⟨_, _, _, hm, hs⟩ := h.acq w x m term p hw hk
  have hT : (⟨fun q => if q = x.resource then e.len.catalog[q].without w x.kind else e.len.catalog[q],
      fun i => if i = x.lease then { e.len.leases[i] with state := .free } else e.len.leases[i],
      fun v => if v = w then none else e.len.waits[v], e.len.heldCount⟩ : Tab).Ok := by
    refine Tab.Ok.endAcquire h (w := w) (x := x) hw hk' (fun _ => rfl) ?_ (fun j hj => ?_) (fun _ => rfl) fun _ => rfl
    · dsimp only
      rw [if_pos rfl]
    · dsimp only
      rw [if_neg hj]
      rfl
  have hC : (⟨fun q => if q = x.resource then e.len.catalog[q].without w x.kind else e.len.catalog[q],
      fun i => if i = x.lease then { e.len.leases[i] with state := .free } else e.len.leases[i],
      fun v => if v = w then none else e.len.waits[v], e.len.heldCount⟩ : Tab).Counts := by
    refine e.len.tab_counts.of_same (fun _ => rfl) fun i => ?_
    show ((if i = x.lease then { e.len.leases[i] with state := .free } else e.len.leases[i]).state = .held ↔
      e.len.leases[i].state = .held) ∧ (e.len.leases[i].state = .held →
        (if i = x.lease then { e.len.leases[i] with state := .free } else e.len.leases[i]).resource =
          e.len.leases[i].resource)
    by_cases hi : i = x.lease
    · subst hi
      rw [if_pos rfl, h1]
      exact ⟨⟨fun c => (by cases c), fun c => (by cases c)⟩, fun c => (by cases c)⟩
    · rw [if_neg hi]
      exact ⟨Iff.rfl, fun _ => rfl⟩
  have hgw : (e.grantRecord x.lease x.resource m term).len.waits[w] = some x := hw
  have hge : (e.len.catalog[x.resource].without w x.kind).grantEpoch m = e.len.catalog[x.resource].grantEpoch m := rfl
  obtain ⟨t1, t2, t3⟩ := e.grantAcquireWait_tables x.resource w x m term
  have hls : ∀ j : RecIx, (e.grantAcquireWait x.resource w x m term).len.leases[j] =
      (e.grantRecord x.lease x.resource m term).len.leases[j] := by
    intro j
    have : (e.grantAcquireWait x.resource w x m term).len.leases = (e.grantRecord x.lease x.resource m term).len.leases :=
      t2.trans (LenEvent.endWait_leases _ _ _)
    rw [this]
  refine LenEvent.Ok.grantFrom (b := e.grantAcquireWait x.resource w x m term) hT hC (i := x.lease) (r := x.resource) (m := m)
    (x := { e.len.leases[x.lease] with
      state := .held, mode := m, epoch := e.len.catalog[x.resource].grantEpoch m, term := term,
      deadline := deadlineAfter e.now term }) ?_ ?_ hm ?_ ?_ rfl h2 rfl ?_ (fun v => ?_) (fun j => ?_) (fun q => ?_) fun q => ?_
  · dsimp only
    rw [if_pos rfl]
  · dsimp only
    rw [if_pos rfl]
    show e.len.catalog[x.resource].state ≠ .vacant
    rw [h3]; decide
  · dsimp only
    rw [if_pos rfl]
    exact hs
  · dsimp only
    rw [if_pos rfl]
    unfold Entry.admits at ha ⊢
    unfold Entry.without
    rw [if_neg hk']
    exact ha
  · dsimp only
    rw [if_pos rfl, hge]
  · have : (e.grantAcquireWait x.resource w x m term).len.waits[v] =
      ((e.grantRecord x.lease x.resource m term).endWait w false).len.waits[v] := rfl
    rw [this, LenEvent.endWait_wait]
    rfl
  · rw [hls, LenEvent.grantRecord_lease]
    split
    · rfl
    · rename_i hj
      dsimp only
      rw [if_neg hj]
  · rw [Len.heldCount_congr (t2.trans (LenEvent.endWait_leases _ _ _)),
      e.grantRecord_count x.lease x.resource q m term (by rw [h1]; decide) h2]
  · have hq := (e.grantRecord x.lease x.resource m term).endWait_entry w x false hgw q
    rw [e.grantRecord_entry, e.grantRecord_entry, if_pos rfl] at hq
    have hg : (e.grantAcquireWait x.resource w x m term).len.catalog[q] =
      ((e.grantRecord x.lease x.resource m term).endWait w false).len.catalog[q] := rfl
    rw [hg, hq]
    dsimp only
    by_cases hr : q = x.resource
    · have hen : ∀ a b : Entry, b = a.without w x.kind →
          ({ a with
              epoch := a.grantEpoch m
              holderCount := a.holderCount + 1
              holderMode := if a.holderMode = .none then m else a.holderMode } : Entry).without w x.kind =
            { b with
              epoch := b.grantEpoch m
              holderCount := b.holderCount + 1
              holderMode := if b.holderMode = .none then m else b.holderMode } := by
        rintro a b rfl
        rfl
      subst hr
      rw [if_pos rfl, if_pos rfl]
      exact hen _ _ (if_pos rfl)
    · rw [if_neg hr, if_neg hr, if_neg hr, if_neg hr]

/-- The grant of an UPGRADE wait keeps the agreement. -/
theorem LenEvent.Ok.grantUpgradeWait {e : LenEvent} (h : e.Ok) {w : WaitIx} {x : Wait} (hw : e.len.waits[w] = some x)
    (hk : x.kind = .upgrade) (hc : e.len.catalog[x.resource].holderCount = 1) : (e.grantUpgradeWait x.resource w x).Ok := by
  have h2 := h.res w x hw
  have h3 := (h.upg w x hw hk).1
  have hm := h.endUpgradeWait hw hk false
  have hl : (e.endWait w false).len.leases = e.len.leases := e.endWait_leases w false
  have hle : (e.endWait w false).len.leases[x.lease] = e.len.leases[x.lease] := by rw [hl]
  have hr : (e.endWait w false).len.leases[x.lease].resource = x.resource := by rw [hle]; exact h2
  have he : ∀ q : ResIx, (e.endWait w false).len.catalog[q] = _ := e.endWait_entry w x false hw
  have hx := hm.makeExclusive (i := x.lease) (r := x.resource) (by rw [hle]; exact h3) hr (by
      rw [he, if_pos rfl]
      exact hc) fun v y hv hy => by
    rw [e.endWait_wait w v false] at hv
    split at hv
    · cases hv
    · rename_i hvw
      exact hvw (h.inj v w y x hv hw hy)
  have hgw : (e.makeExclusive x.lease x.resource).len.waits[w] = some x := hw
  refine hx.of_tables ?_ ?_ ?_
  · apply Vector.ext
    intro j hj
    have h5 := (e.makeExclusive x.lease x.resource).endWait_entry w x false hgw ⟨j, hj⟩
    have h7 := (e.endWait w false).makeExclusive_entry x.lease x.resource ⟨j, hj⟩
    rw [e.makeExclusive_entry, e.makeExclusive_entry, if_pos rfl] at h5
    refine Eq.trans h5 (Eq.trans ?_ h7.symm)
    by_cases hq : (⟨j, hj⟩ : ResIx) = x.resource
    · rw [if_pos hq, if_pos hq, he, if_pos rfl]
      rfl
    · rw [if_neg hq, if_neg hq, if_neg hq, he, if_neg hq]
  · have h4 : (e.grantUpgradeWait x.resource w x).len.leases =
        ((e.makeExclusive x.lease x.resource).endWait w false).len.leases := rfl
    rw [h4, LenEvent.endWait_leases]
    apply Vector.ext
    intro j hj
    have h5 := e.makeExclusive_lease x.lease ⟨j, hj⟩ x.resource
    have h7 := (e.endWait w false).makeExclusive_lease x.lease ⟨j, hj⟩ x.resource
    refine Eq.trans h5 (Eq.trans ?_ h7.symm)
    rw [hle, he, if_pos rfl]
    split
    · rfl
    · exact congrArg (fun v : Vector Lease 128 => v[(⟨j, hj⟩ : RecIx)]) hl.symm
  · have h4 : (e.grantUpgradeWait x.resource w x).len.waits =
        ((e.makeExclusive x.lease x.resource).endWait w false).len.waits := rfl
    rw [h4]
    apply Vector.ext
    intro j hj
    have h5 := (e.makeExclusive x.lease x.resource).endWait_wait w ⟨j, hj⟩ false
    have h6 := e.endWait_wait w ⟨j, hj⟩ false
    exact h5.trans h6.symm

/-! ## Grant passes -/

/-- One step of a grant pass keeps the agreement, and takes no record into use that is not reserved for its wait. -/
theorem LenEvent.Ok.passStep {e b : LenEvent} {r : ResIx} (h : e.Ok) (hb : e.passStep r = some b) :
    b.Ok ∧ e.len.Stays b.len := by
  unfold LenEvent.passStep at hb
  dsimp only at hb
  split at hb
  · cases hb
  · rename_i w rest hq
    split at hb
    · cases hb
    · rename_i x hw
      have hx : x.resource = r := by
        have hm : w ∈ e.len.catalog[r].queue := by rw [hq]; exact List.mem_cons_self
        obtain ⟨y, hy, hyr⟩ := (h.mem r w).1 hm
        have hy' : e.len.waits[w] = some y := hy
        rw [hw] at hy'
        cases hy'
        exact hyr
      subst hx
      split at hb
      · rename_i hk
        split at hb
        · rename_i hc
          split at hb <;> cases hb
          · exact ⟨h.finishWait w false .epochSpent, e.finishWait_stays _ _ _⟩
          · refine ⟨h.grantUpgradeWait hw hk hc, ?_⟩
            exact ((e.makeExclusive_stays _ _).trans (LenEvent.endWait_stays _ _ _)).trans (LenEvent.complete_stays _ _ _)
        · cases hb
      · rename_i m term p hk
        split at hb
        · rename_i ha
          split at hb <;> cases hb
          · exact ⟨h.finishWait w false .epochSpent, e.finishWait_stays _ _ _⟩
          · refine ⟨h.grantAcquireWait hw hk ha, ?_⟩
            have hs := (h.acquireWait hw (by rw [hk]; intro c; cases c)).1
            exact ((e.grantRecord_stays _ _ _ _ (by rw [hs]; decide)).trans (LenEvent.endWait_stays _ _ _)).trans (.of_eq rfl)
        · cases hb

theorem LenEvent.Ok.passSteps {e : LenEvent} (h : e.Ok) (r : ResIx) (fuel : Nat) :
    (e.passSteps r fuel).Ok ∧ e.len.Stays (e.passSteps r fuel).len := by
  induction fuel generalizing e with
  | zero => exact ⟨h, .refl _⟩
  | succ k ih =>
    unfold LenEvent.passSteps
    split
    · exact ⟨h, .refl _⟩
    · rename_i b hb
      obtain ⟨h1, h2⟩ := h.passStep hb
      obtain ⟨h3, h4⟩ := ih h1
      exact ⟨h3, h2.trans h4⟩

/-- A grant pass keeps the agreement. -/
theorem LenEvent.Ok.grantPass {e : LenEvent} (h : e.Ok) (r : ResIx) : (e.grantPass r).Ok ∧ e.len.Stays (e.grantPass r).len :=
  h.passSteps r _

theorem LenEvent.Ok.purgePasses {e : LenEvent} (h : e.Ok) (rs : List ResIx) :
    (e.purgePasses rs).Ok ∧ e.len.Stays (e.purgePasses rs).len := by
  unfold LenEvent.purgePasses
  induction rs generalizing e with
  | nil => exact ⟨h, .refl _⟩
  | cons r rs ih =>
    rw [List.foldl_cons]
    split
    · exact ih h
    · obtain ⟨h1, h2⟩ := h.grantPass r
      obtain ⟨h3, h4⟩ := ih h1
      exact ⟨h3, h2.trans h4⟩

/-! ## Purges -/

theorem LenEvent.Ok.dropWaits {e : LenEvent} (h : e.Ok) (ws : List WaitIx) :
    (ws.foldl (fun e w => e.dropWait w false) e).Ok := by
  induction ws generalizing e with
  | nil => exact h
  | cons w ws ih => exact ih (h.dropWait w false)

/-- Freeing records that have no wait keeps the agreement. -/
theorem LenEvent.Ok.freeRecords {e : LenEvent} (h : e.Ok) (is : List RecIx)
    (hn : ∀ i ∈ is, ∀ (w : WaitIx) (x : Wait), e.len.waits[w] = some x → x.lease ≠ i) :
    (is.foldl LenEvent.freeRecord e).Ok := by
  induction is generalizing e with
  | nil => exact h
  | cons i is ih =>
    refine ih (h.freeRecord i (hn i List.mem_cons_self)) fun j hj w x hx => ?_
    rw [e.freeRecord_waits i] at hx
    exact hn j (List.mem_cons_of_mem _ hj) w x hx

theorem LenEvent.dropWaits_wait (ws : List WaitIx) (e : LenEvent) (v : WaitIx) (x : Wait)
    (h : (ws.foldl (fun e w => e.dropWait w false) e).len.waits[v] = some x) : e.len.waits[v] = some x := by
  induction ws generalizing e with
  | nil => exact h
  | cons w ws ih =>
    have h1 := ih (e.dropWait w false) h
    rw [e.dropWait_wait w v false] at h1
    split at h1
    · cases h1
    · exact h1

/-- A purge keeps the agreement. -/
theorem LenEvent.Ok.purge {e : LenEvent} (h : e.Ok) (n : SlotIx) (session : Session) : (e.purge n session).Ok := by
  refine (h.dropWaits _).freeRecords _ fun i hi w x hx hxi => ?_
  have h1 := LenEvent.dropWaits_wait _ e w x hx
  obtain ⟨h2, h3, h4⟩ := (Len.mem_recordsOf _ _ _ _).1 hi
  obtain ⟨h5, h6, h7, h8⟩ := Len.Stays.foldl (fun e w => e.dropWait_stays w false) (e.len.waitsOf n session) e i h2
  obtain ⟨h9, h10⟩ := h.slot w x h1
  rw [hxi] at h9 h10
  have h11 : w ∈ e.len.waitsOf n session :=
    (Len.mem_waitsOf _ _ _ _).2 ⟨x, h1, h9.symm.trans (h6.symm.trans h3), h10.symm.trans (h7.symm.trans h4)⟩
  rw [LenEvent.foldl_dropWait _ e w h11] at hx
  cases hx

/-! ## Revocations -/

theorem LenEvent.endUpgradeOf_lease (e : LenEvent) (i j : RecIx) (st : Status) :
    (e.endUpgradeOf i st).len.leases[j] = e.len.leases[j] := by
  unfold LenEvent.endUpgradeOf
  split
  · rfl
  · rename_i w hu
    obtain ⟨x, hx, hk, _⟩ := Len.upgradeWaitOf_some hu
    unfold LenEvent.finishWait
    rw [hx]
    show (e.dropWait w false).len.leases[j] = _
    rw [LenEvent.dropWait_upgrade e w x false hx hk, e.endWait_leases w false]

/-- A revocation changes no other record. -/
theorem LenEvent.revokeRecord_lease (e : LenEvent) (i j : RecIx) (h : j ≠ i) :
    (e.revokeRecord i).len.leases[j] = e.len.leases[j] := by
  unfold LenEvent.revokeRecord
  rw [LenEvent.endUpgradeOf_lease]
  exact (Len.setLease_get e.len i j _).trans (if_neg h)

theorem LenEvent.Ok.revokeList {e : LenEvent} (h : e.Ok) (is : List RecIx) (hn : is.Nodup)
    (hi : ∀ i ∈ is, e.len.leases[i].state = .held) :
    (is.foldl LenEvent.revokeRecord e).Ok ∧ e.len.Stays (is.foldl LenEvent.revokeRecord e).len := by
  induction is generalizing e with
  | nil => exact ⟨h, .refl _⟩
  | cons i is ih =>
    rw [List.nodup_cons] at hn
    have h1 := hi i List.mem_cons_self
    obtain ⟨h2, h3⟩ := ih (h.revokeRecord i h1) hn.2 fun j hj => by
      rw [e.revokeRecord_lease i j fun c => hn.1 (c ▸ hj)]
      exact hi j (List.mem_cons_of_mem _ hj)
    exact ⟨h2, (e.revokeRecord_stays i h1).trans h3⟩

/-- The revocation of every HELD record of an entry keeps the agreement. -/
theorem LenEvent.Ok.revokeAll {e : LenEvent} (h : e.Ok) (r : ResIx) : (e.revokeAll r).Ok ∧ e.len.Stays (e.revokeAll r).len := by
  obtain ⟨h1, h2⟩ := e.len.heldOn_spec r
  exact h.revokeList _ (h1.imp fun hab c => by subst c; exact absurd hab (lt_irrefl _)) fun i hi => ((h2 i).1 hi).1

end Sys2Proof.Machine
end

