-- ==== Sys2Proof/Laws/Calm.lean ====
section
/-! SUPPORT. An UPGRADE stays pending only beside another holder: no operation lowers the holders of an entry but those that are followed by a grant pass on it, and a grant pass leaves no UPGRADE pending beside no other holder. -/

namespace Sys2Proof.Machine

/-- Outside a set of entries, every pending UPGRADE was pending before, and no holder has gone. -/
def Len.Rises (S : ResIx → Prop) (a b : Len) : Prop :=
  ∀ q : ResIx, ¬S q → b.catalog[q].upgradePending = true →
    a.catalog[q].upgradePending = true ∧ a.catalog[q].holderCount ≤ b.catalog[q].holderCount

theorem Len.Rises.refl {S : ResIx → Prop} (a : Len) : Len.Rises S a a := fun _ _ h => ⟨h, Nat.le_refl _⟩

theorem Len.Rises.trans {S : ResIx → Prop} {a b c : Len} (h : Len.Rises S a b) (k : Len.Rises S b c) : Len.Rises S a c := by
  intro q hq hp
  obtain ⟨h1, h2⟩ := k q hq hp
  obtain ⟨h3, h4⟩ := h q hq h1
  exact ⟨h3, Nat.le_trans h4 h2⟩

theorem Len.Rises.weaken {S T : ResIx → Prop} {a b : Len} (h : Len.Rises S a b) (k : ∀ q, S q → T q) : Len.Rises T a b :=
  fun q hq => h q fun c => hq (k q c)

theorem Len.Rises.of_eq {S : ResIx → Prop} {a b : Len} (h : b.catalog = a.catalog) : Len.Rises S a b := by
  have : ∀ q : ResIx, b.catalog[q] = a.catalog[q] := fun q => by rw [h]
  intro q _ hp
  rw [this] at hp ⊢
  exact ⟨hp, Nat.le_refl _⟩

/-- No entry of LEN's is left out. -/
def nowhere (_ : ResIx) : Prop := False

theorem Len.Rises.all {S : ResIx → Prop} {a b : Len} (h : Len.Rises nowhere a b) : Len.Rises S a b := h.weaken fun _ c => c.elim

/-- What rises keeps every UPGRADE beside another holder. -/
theorem Len.upgradesWait.rises {a b : Len} (h : a.upgradesWait) (k : Len.Rises nowhere a b) : b.upgradesWait := by
  intro q hp
  obtain ⟨h1, h2⟩ := k q id hp
  exact Nat.le_trans (h q h1) h2

/-! ## Waits and records -/

theorem LenEvent.endWait_rises (e : LenEvent) (w : WaitIx) (timedOut : Bool) : Len.Rises nowhere e.len (e.endWait w timedOut).len := by
  cases hw : e.len.waits[w] with
  | none =>
    unfold LenEvent.endWait
    rw [hw]
    exact .refl _
  | some x =>
    intro q _ hp
    rw [e.endWait_entry w x timedOut hw q] at hp ⊢
    split
    · rename_i hq
      subst hq
      rw [if_pos rfl] at hp
      refine ⟨?_, Nat.le_refl _⟩
      unfold Entry.without at hp
      dsimp only at hp
      split at hp
      · cases hp
      · exact hp
    · rename_i hq
      rw [if_neg hq] at hp
      exact ⟨hp, Nat.le_refl _⟩

/-- Freeing a record that is not HELD lowers no holders. -/
theorem LenEvent.freeRecord_rises (e : LenEvent) (i : RecIx) (h : e.len.leases[i].state ≠ .held) :
    Len.Rises nowhere e.len (e.freeRecord i).len := by
  intro q _ hp
  have hf : e.freeRecord i =
      (e.modLease i fun l => Lease.cleared (nextGeneration l.generation)).vacateIfDrained e.len.leases[i].resource := by
    unfold LenEvent.freeRecord LenEvent.clearRecord
    rw [if_neg h]
  rw [hf] at hp ⊢
  have hv := (e.modLease i fun l => Lease.cleared (nextGeneration l.generation)).vacateIfDrained_entry
    e.len.leases[i].resource q
  rcases hv with hv | ⟨_, hv, _⟩
  · rw [hv] at hp ⊢
    exact ⟨hp, Nat.le_refl _⟩
  · rw [hv] at hp
    cases hp

/-- Freeing a HELD record lowers the holders of its entry alone. -/
theorem LenEvent.freeRecord_lowers (e : LenEvent) (i : RecIx) :
    Len.Rises (· = e.len.leases[i].resource) e.len (e.freeRecord i).len := by
  by_cases h : e.len.leases[i].state = .held
  · intro q hq hp
    rw [e.freeRecord_entry_held i h, if_neg hq] at hp ⊢
    exact ⟨hp, Nat.le_refl _⟩
  · exact (e.freeRecord_rises i h).all

theorem LenEvent.Ok.dropWait_rises {e : LenEvent} (h : e.Ok) (w : WaitIx) (timedOut : Bool) :
    Len.Rises nowhere e.len (e.dropWait w timedOut).len := by
  cases hw : e.len.waits[w] with
  | none =>
    unfold LenEvent.dropWait
    rw [hw]
    exact .refl _
  | some x =>
    by_cases hk : x.kind = .upgrade
    · rw [LenEvent.dropWait_upgrade e w x timedOut hw hk]
      exact e.endWait_rises w timedOut
    · rw [LenEvent.dropWait_acquire e w x timedOut hw hk]
      refine (e.endWait_rises w timedOut).trans (LenEvent.freeRecord_rises _ _ ?_)
      have : (e.endWait w timedOut).len.leases[x.lease] = e.len.leases[x.lease] := by rw [e.endWait_leases w timedOut]
      rw [this, (h.acquireWait hw hk).1]
      decide

theorem LenEvent.Ok.finishWait_rises {e : LenEvent} (h : e.Ok) (w : WaitIx) (timedOut : Bool) (st : Status) :
    Len.Rises nowhere e.len (e.finishWait w timedOut st).len := by
  unfold LenEvent.finishWait
  split
  · exact .refl _
  · exact (h.dropWait_rises w timedOut).trans (.of_eq rfl)

/-- The end of an UPGRADE wait of a record lowers no holders. -/
theorem LenEvent.endUpgradeOf_rises (e : LenEvent) (i : RecIx) (st : Status) :
    Len.Rises nowhere e.len (e.endUpgradeOf i st).len := by
  unfold LenEvent.endUpgradeOf
  split
  · exact .refl _
  · rename_i w hu
    obtain ⟨x, hx, hk, _⟩ := Len.upgradeWaitOf_some hu
    unfold LenEvent.finishWait
    rw [hx]
    refine Len.Rises.trans (b := (e.dropWait w false).len) ?_ (.of_eq rfl)
    rw [LenEvent.dropWait_upgrade e w x false hx hk]
    exact e.endWait_rises w false

theorem LenEvent.lowerHolders_lowers (e : LenEvent) (r : ResIx) : Len.Rises (· = r) e.len (e.lowerHolders r).len := by
  intro q hq hp
  have h : (e.lowerHolders r).len.catalog[q] = e.len.catalog[q] := (Len.setEntry_get e.len r q _).trans (if_neg hq)
  rw [h] at hp ⊢
  exact ⟨hp, Nat.le_refl _⟩

theorem LenEvent.revokeRecord_lowers (e : LenEvent) (i : RecIx) :
    Len.Rises (· = e.len.leases[i].resource) e.len (e.revokeRecord i).len := by
  unfold LenEvent.revokeRecord
  refine Len.Rises.trans (Len.Rises.trans (b := _) (.of_eq rfl) (LenEvent.lowerHolders_lowers _ _)) ?_
  exact (LenEvent.endUpgradeOf_rises _ _ _).all

theorem LenEvent.lapseRecord_lowers (e : LenEvent) (i : RecIx) :
    Len.Rises (· = e.len.leases[i].resource) e.len (e.lapseRecord i).len := by
  unfold LenEvent.lapseRecord
  refine Len.Rises.trans (Len.Rises.trans (b := _) (.of_eq rfl) (LenEvent.lowerHolders_lowers _ _)) ?_
  exact (LenEvent.endUpgradeOf_rises _ _ _).all

theorem LenEvent.revokeList_lowers (r : ResIx) (is : List RecIx) (e : LenEvent) (hn : is.Nodup)
    (hr : ∀ i ∈ is, e.len.leases[i].resource = r) : Len.Rises (· = r) e.len (is.foldl LenEvent.revokeRecord e).len := by
  induction is generalizing e with
  | nil => exact .refl _
  | cons i is ih =>
    rw [List.nodup_cons] at hn
    have h1 := e.revokeRecord_lowers i
    rw [hr i List.mem_cons_self] at h1
    refine h1.trans (ih _ hn.2 fun j hj => ?_)
    rw [e.revokeRecord_lease i j fun c => hn.1 (c ▸ hj)]
    exact hr j (List.mem_cons_of_mem _ hj)

theorem LenEvent.revokeAll_lowers (e : LenEvent) (r : ResIx) : Len.Rises (· = r) e.len (e.revokeAll r).len := by
  obtain ⟨h1, h2⟩ := e.len.heldOn_spec r
  exact LenEvent.revokeList_lowers r _ e (h1.imp fun hab c => by subst c; exact absurd hab (lt_irrefl _))
    fun i hi => ((h2 i).1 hi).2

/-! ## Grants -/

theorem LenEvent.grantRecord_rises (e : LenEvent) (i : RecIx) (r : ResIx) (m : Mode) (term : Nat) :
    Len.Rises nowhere e.len (e.grantRecord i r m term).len := by
  intro q _ hp
  rw [e.grantRecord_entry] at hp ⊢
  split
  · rename_i hq
    subst hq
    rw [if_pos rfl] at hp
    exact ⟨hp, Nat.le_succ _⟩
  · rename_i hq
    rw [if_neg hq] at hp
    exact ⟨hp, Nat.le_refl _⟩

theorem LenEvent.makeExclusive_rises (e : LenEvent) (i : RecIx) (r : ResIx) :
    Len.Rises nowhere e.len (e.makeExclusive i r).len := by
  intro q _ hp
  rw [e.makeExclusive_entry] at hp ⊢
  split
  · rename_i hq
    subst hq
    rw [if_pos rfl] at hp
    exact ⟨hp, Nat.le_refl _⟩
  · rename_i hq
    rw [if_neg hq] at hp
    exact ⟨hp, Nat.le_refl _⟩

/-- One step of a grant pass takes the head from the queue, and lowers no holders. -/
theorem LenEvent.Ok.passStep_rises {e b : LenEvent} {r : ResIx} (h : e.Ok) (hb : e.passStep r = some b) :
    Len.Rises nowhere e.len b.len ∧ b.len.catalog[r].queue.length + 1 = e.len.catalog[r].queue.length := by
  unfold LenEvent.passStep at hb
  dsimp only at hb
  split at hb
  · cases hb
  · rename_i w rest hq
    split at hb
    · cases hb
    · rename_i x hw
      have hx : x.resource = r := by
        have hm : w ∈ e.len.catalog[r].queue := by rw [hq]; exact List.mem_cons_self
        obtain ⟨y, hy, hyr⟩ := (h.mem r w).1 hm
        have hy' : e.len.waits[w] = some y := hy
        rw [hw] at hy'
        cases hy'
        exact hyr
      subst hx
      have hlen : ∀ a : LenEvent, a.len.waits[w] = some x →
          a.len.catalog[x.resource].queue = e.len.catalog[x.resource].queue →
          (a.endWait w false).len.catalog[x.resource].queue.length + 1 = e.len.catalog[x.resource].queue.length := by
        intro a ha hqa
        rw [a.endWait_entry w x false ha, if_pos rfl]
        unfold Entry.without
        rw [hqa, hq]
        simp
      have hfin : (e.finishWait w false .epochSpent).len.catalog[x.resource].queue.length + 1 =
          e.len.catalog[x.resource].queue.length := by
        unfold LenEvent.finishWait
        rw [hw]
        show (e.dropWait w false).len.catalog[x.resource].queue.length + 1 = _
        by_cases hk : x.kind = .upgrade
        · rw [LenEvent.dropWait_upgrade e w x false hw hk]
          exact hlen e hw rfl
        · rw [LenEvent.dropWait_acquire e w x false hw hk]
          obtain ⟨h1, h2, h3⟩ := h.acquireWait hw hk
          have hl : (e.endWait w false).len.leases[x.lease] = e.len.leases[x.lease] := by rw [e.endWait_leases w false]
          rw [LenEvent.freeRecord_entry_ended _ _ (by rw [hl, h1]; decide) (by rw [hl, h1]; decide)]
          have h4 := hlen e hw rfl
          have h5 : (e.endWait w false).len.catalog[x.resource].state = .opened := by
            rw [e.endWait_entry w x false hw, if_pos rfl]
            exact h3
          unfold Len.entryAfterFreeing
          rw [h5]
          simp only [reduceCtorEq, false_and, if_false, ite_self]
          exact h4
      split at hb
      · rename_i hk
        split at hb
        · rename_i hc
          split at hb <;> cases hb
          · exact ⟨h.finishWait_rises w false .epochSpent, hfin⟩
          · exact ⟨((e.makeExclusive_rises _ _).trans (LenEvent.endWait_rises _ _ _)).trans (.of_eq rfl),
              hlen (e.makeExclusive x.lease x.resource) hw (by rw [e.makeExclusive_entry, if_pos rfl])⟩
        · cases hb
      · rename_i m term p hk
        split at hb
        · rename_i ha
          split at hb <;> cases hb
          · exact ⟨h.finishWait_rises w false .epochSpent, hfin⟩
          · exact ⟨((e.grantRecord_rises _ _ _ _).trans (LenEvent.endWait_rises _ _ _)).trans (.of_eq rfl),
              hlen (e.grantRecord x.lease x.resource m term) hw (by rw [e.grantRecord_entry, if_pos rfl])⟩
        · cases hb

/-- Where a grant pass stops, an UPGRADE that is pending is so beside another holder. -/
theorem LenEvent.Ok.stopped {e : LenEvent} {r : ResIx} (h : e.Ok) (hn : e.passStep r = none)
    (hp : e.len.catalog[r].upgradePending = true) : 2 ≤ e.len.catalog[r].holderCount := by
  obtain ⟨v, y, hv, hy, hk⟩ := (h.pend r).1 hp
  have hv' : e.len.waits[v] = some y := hv
  have hh := h.head v y hv hk
  rw [hy] at hh
  have hh' : e.len.catalog[r].queue.head? = some v := hh
  unfold LenEvent.passStep at hn
  dsimp only at hn
  split at hn
  · rename_i hq
    rw [hq] at hh'
    cases hh'
  · rename_i w rest hq
    rw [hq] at hh'
    cases hh'
    rw [hv'] at hn
    dsimp only at hn
    rw [hk] at hn
    dsimp only at hn
    have hc : e.len.catalog[r].holderCount ≠ 1 := by
      intro c
      rw [if_pos c] at hn
      cases hn
    have h1 := e.len.tab_counts.one y.lease (h.upg v y hv hk).1
    rw [h.res v y hv, hy] at h1
    have h2 : e.len.catalog[r].holderCount = e.len.heldCount r := h.count r
    have h3 : 1 ≤ e.len.heldCount r := h1
    omega

theorem LenEvent.Ok.passSteps_rises {e : LenEvent} (h : e.Ok) (r : ResIx) (fuel : Nat) :
    Len.Rises nowhere e.len (e.passSteps r fuel).len ∧
      (e.len.catalog[r].queue.length ≤ fuel → (e.passSteps r fuel).passStep r = none) := by
  induction fuel generalizing e with
  | zero =>
    refine ⟨.refl _, fun hq => ?_⟩
    have : e.len.catalog[r].queue = [] := List.length_eq_zero_iff.1 (Nat.le_zero.1 hq)
    show e.passStep r = none
    unfold LenEvent.passStep
    dsimp only
    rw [this]
  | succ k ih =>
    unfold LenEvent.passSteps
    split
    · rename_i hn
      exact ⟨.refl _, fun _ => hn⟩
    · rename_i b hb
      obtain ⟨h1, h2⟩ := h.passStep_rises hb
      obtain ⟨h3, h4⟩ := ih (h.passStep hb).1
      exact ⟨h1.trans h3, fun hq => h4 (by omega)⟩

/-- A grant pass lowers no holders, and stops at a head that it may not grant (R56). -/
theorem LenEvent.Ok.grantPass_rises {e : LenEvent} (h : e.Ok) (r : ResIx) :
    Len.Rises nowhere e.len (e.grantPass r).len ∧ (e.grantPass r).passStep r = none := by
  obtain ⟨h1, h2⟩ := h.passSteps_rises r e.len.catalog[r].queue.length
  exact ⟨h1, h2 (Nat.le_refl _)⟩

/-- Every pending UPGRADE outside a set of entries is so beside another holder. -/
def Len.upgradesWaitBut (S : ResIx → Prop) (len : Len) : Prop :=
  ∀ r : ResIx, ¬S r → len.catalog[r].upgradePending = true → 2 ≤ len.catalog[r].holderCount

theorem Len.upgradesWait.but {S : ResIx → Prop} {a b : Len} (h : a.upgradesWait) (k : Len.Rises S a b) : b.upgradesWaitBut S := by
  intro q hq hp
  obtain ⟨h1, h2⟩ := k q hq hp
  exact Nat.le_trans (h q h1) h2

/-- A grant pass on the one entry left out leaves out none. -/
theorem LenEvent.Ok.grantPass_waits {e : LenEvent} (h : e.Ok) (r : ResIx) (k : e.len.upgradesWaitBut (· = r)) :
    (e.grantPass r).len.upgradesWait := by
  obtain ⟨h1, h2⟩ := h.grantPass_rises r
  intro q hp
  by_cases hq : q = r
  · subst hq
    exact (h.grantPass q).1.stopped h2 hp
  · obtain ⟨h3, h4⟩ := h1 q id hp
    exact Nat.le_trans (k q hq h3) h4

/-- Grant passes on all the entries left out leave out none. -/
theorem LenEvent.Ok.purgePasses_waits {e : LenEvent} (h : e.Ok) (rs : List ResIx) (k : e.len.upgradesWaitBut (· ∈ rs)) :
    (e.purgePasses rs).len.upgradesWait := by
  unfold LenEvent.purgePasses
  induction rs generalizing e with
  | nil => exact fun r hp => k r List.not_mem_nil hp
  | cons r rs ih =>
    rw [List.foldl_cons]
    split
    · rename_i hv
      refine ih h fun q hq hp => ?_
      by_cases hqr : q = r
      · subst hqr
        have h1 : (e.len.tab.en q).upgradePending = false := h.closed_pending (by
          show e.len.catalog[q].state ≠ .opened
          rw [hv]; decide)
        have h2 : e.len.catalog[q].upgradePending = false := h1
        rw [h2] at hp
        cases hp
      · exact k q (fun c => (List.mem_cons.1 c).elim hqr hq) hp
    · obtain ⟨h1, h2⟩ := h.grantPass_rises r
      refine ih (h.grantPass r).1 fun q hq hp => ?_
      by_cases hqr : q = r
      · subst hqr
        exact (h.grantPass q).1.stopped h2 hp
      · obtain ⟨h3, h4⟩ := h1 q id hp
        exact Nat.le_trans (k q (fun c => (List.mem_cons.1 c).elim hqr hq) h3) h4

/-! ## Purges -/

/-- Every record of `b` is as in `a`, or FREE. -/
def Len.Frees (a b : Len) : Prop := ∀ i : RecIx, b.leases[i] = a.leases[i] ∨ b.leases[i].state = .free

theorem Len.Frees.refl (a : Len) : a.Frees a := fun _ => .inl rfl

theorem Len.Frees.trans {a b c : Len} (h : a.Frees b) (k : b.Frees c) : a.Frees c := by
  intro i
  rcases k i with e | e
  · rw [e]
    exact h i
  · exact .inr e

theorem LenEvent.freeRecord_frees (e : LenEvent) (i : RecIx) : e.len.Frees (e.freeRecord i).len := by
  intro j
  rw [e.freeRecord_lease i j]
  split
  · exact .inr rfl
  · exact .inl rfl

theorem LenEvent.dropWait_frees (e : LenEvent) (w : WaitIx) (timedOut : Bool) : e.len.Frees (e.dropWait w timedOut).len := by
  have h : e.len.Frees (e.endWait w timedOut).len := fun j => .inl (by rw [e.endWait_leases w timedOut])
  unfold LenEvent.dropWait
  split
  · exact .refl _
  · split
    · exact h.trans (LenEvent.freeRecord_frees _ _)
    · exact h

theorem LenEvent.dropWaits_frees (ws : List WaitIx) (e : LenEvent) :
    e.len.Frees (ws.foldl (fun e w => e.dropWait w false) e).len := by
  induction ws generalizing e with
  | nil => exact .refl _
  | cons w ws ih => exact (e.dropWait_frees w false).trans (ih _)

theorem LenEvent.Ok.dropWaits_rises {e : LenEvent} (h : e.Ok) (ws : List WaitIx) :
    Len.Rises nowhere e.len (ws.foldl (fun e w => e.dropWait w false) e).len := by
  induction ws generalizing e with
  | nil => exact .refl _
  | cons w ws ih => exact (h.dropWait_rises w false).trans (ih (h.dropWait w false))

/-- Freeing records lowers the holders of the entries of the HELD ones alone. -/
theorem LenEvent.freeRecords_lowers (S : ResIx → Prop) (is : List RecIx) (e : LenEvent)
    (hs : ∀ i ∈ is, e.len.leases[i].state = .held → S e.len.leases[i].resource) :
    Len.Rises S e.len (is.foldl LenEvent.freeRecord e).len := by
  induction is generalizing e with
  | nil => exact .refl _
  | cons i is ih =>
    have h1 : Len.Rises S e.len (e.freeRecord i).len := by
      by_cases hi : e.len.leases[i].state = .held
      · exact (e.freeRecord_lowers i).weaken fun q hq => hq ▸ hs i List.mem_cons_self hi
      · exact (e.freeRecord_rises i hi).all
    refine h1.trans (ih _ fun j hj hh => ?_)
    rcases e.freeRecord_frees i j with k | k
    · rw [k] at hh ⊢
      exact hs j (List.mem_cons_of_mem _ hj) hh
    · rw [k] at hh
      cases hh

/-- A purge lowers the holders of the entries it touches alone (R98). -/
theorem LenEvent.Ok.purge_lowers {e : LenEvent} (h : e.Ok) (n : SlotIx) (session : Session) :
    Len.Rises (· ∈ e.len.touchedBy n session) e.len (e.purge n session).len := by
  refine (h.dropWaits_rises _).all.trans (LenEvent.freeRecords_lowers _ _ _ fun i hi hh => ?_)
  rcases e.dropWaits_frees (e.len.waitsOf n session) i with k | k
  · rw [k] at hh ⊢
    obtain ⟨h1, h2, h3⟩ := (Len.mem_recordsOf _ _ _ _).1 hi
    rw [k] at h2 h3
    unfold Len.touchedBy
    rw [List.mem_filter]
    refine ⟨List.mem_finRange _, ?_⟩
    rw [Bool.or_eq_true]
    right
    rw [List.any_eq_true]
    refine ⟨e.len.leases[i], by simp, ?_⟩
    have h4 : e.len.leases[i].ofSession n session = true := by
      unfold Lease.ofSession
      rw [decide_eq_true_eq]
      exact ⟨by rw [hh]; decide, h2, h3⟩
    rw [h4, Bool.true_and, decide_eq_true_eq]
    exact ⟨hh, rfl⟩
  · rw [k] at hh
    cases hh

end Sys2Proof.Machine
end

