-- ==== Sys2Proof/Laws/Steps.lean ====
section
/-! SUPPORT. What one command can do to LEN and to LCK, said once for every command: the laws of LEN's tables, the news, the freeze, the epochs, the clock and the deadline list, and the queue of commands. -/

namespace Sys2Proof.Machine

/-! ## The take of a frame -/

theorem LenEvent.refreshKeepalive_keeps (e : LenEvent) (n : SlotIx) (h : e.len.slots[n].state = .active) :
    e.len.Keeps (e.refreshKeepalive n).len :=
  (e.modSlot_keeps n
    (fun s => { s with keepaliveDeadline := some (deadlineAfter e.now e.len.slots[n].keepaliveTerm) })
    (fun _ => ⟨rfl, rfl⟩) fun _ => by simpa using h : _)

/-- A frame whose session is in force is performed with no law broken, if its request breaks none. -/
theorem LenEvent.performFrame_keeps (e : LenEvent) (f : Frame) (request : LenEvent → LenEvent)
    (hl : e.len.live f = true) (h : ∀ a : LenEvent, a.len.Keeps (request a).len) :
    e.len.Keeps (e.performFrame f request).len := by
  unfold LenEvent.performFrame
  dsimp only
  have h1 : e.len.Keeps (e.modSlot f.slot fun s => { s with answered := s.answered.set f.tag false }).len :=
    e.modSlot_keeps f.slot _ (fun _ => ⟨rfl, rfl⟩) id
  have ha : (e.modSlot f.slot fun s => { s with answered := s.answered.set f.tag false }).len.slots[f.slot].state = .active := by
    rw [LenEvent.modSlot_len, Len.setSlot_get, if_pos rfl]
    unfold Len.live at hl
    exact (of_decide_eq_true hl).1
  generalize (e.modSlot f.slot fun s => { s with answered := s.answered.set f.tag false }) = a at h1 ha
  have h2 : e.len.Keeps (if f.kind = .detach then a else a.refreshKeepalive f.slot).len := by
    split
    · exact h1
    · exact h1.trans (a.refreshKeepalive_keeps f.slot ha)
  split
  · exact h2.trans (h _)
  · exact h2.trans (LenEvent.badOperand_grows _ f _ _).keeps

/-- What a state's LEN has become by a command that is no reset: an event that keeps, with the news brought up to date. -/
def State.LenKeeps (s t : State) : Prop := ∃ m : Len, s.len.Keeps m ∧ t.len = m.withNews s.len

theorem State.LenKeeps.of_eq {s t : State} (h : t.len = s.len) : s.LenKeeps t :=
  ⟨s.len, .refl _, h.trans (Len.withNews_of_marked fun _ => rfl).symm⟩

theorem State.LenKeeps.popFrame (s : State) (p : Port) : s.LenKeeps (s.popFrame p) :=
  ⟨(s.popFrame p).len, .of_settings rfl rfl rfl fun h => ⟨h, rfl⟩,
    (Len.withNews_of_marked (before := s.len) (after := (s.popFrame p).len) fun _ => rfl).symm⟩

theorem State.refuseAtTake_len (s : State) (p : Port) (r : RefusalReason) (f : Frame) :
    (s.refuseAtTake p r f).len = s.len := by
  unfold State.refuseAtTake
  cases p <;> rfl

theorem State.LenKeeps.runLen (s : State) (event : LenEvent → LenEvent)
    (h : ∀ a : LenEvent, a.len = s.len → a.len.Keeps (event a).len) : s.LenKeeps (s.runLen event) :=
  ⟨_, h { now := s.lck.clock, len := s.len, toLck := [], toRqu := [], toTwp := [] } rfl, rfl⟩

theorem State.LenKeeps.popRun (s : State) (p : Port) (event : LenEvent → LenEvent)
    (h : ∀ a : LenEvent, a.len = (s.popFrame p).len → a.len.Keeps (event a).len) :
    s.LenKeeps ((s.popFrame p).runLen event) :=
  ⟨_, (Len.Keeps.of_settings rfl rfl rfl fun h => ⟨h, rfl⟩ : s.len.Keeps (s.popFrame p).len).trans
    (h { now := s.lck.clock, len := (s.popFrame p).len, toLck := [], toRqu := [], toTwp := [] } rfl), rfl⟩

theorem State.LenKeeps.takeRequest (s : State) (k : ReqKind) (request : Frame → LenEvent → LenEvent)
    (h : ∀ (f : Frame) (a : LenEvent), a.len.Keeps (request f a).len) : s.LenKeeps (s.takeRequest k request) := by
  unfold State.takeRequest
  split
  · exact .of_eq rfl
  · rename_i p f _
    dsimp only
    split
    · rename_i hl
      exact .popRun s p _ fun a ha => a.performFrame_keeps f _ (by rw [ha]; exact hl) (h f)
    · obtain ⟨m, hm, hm'⟩ := State.LenKeeps.popFrame s p
      exact ⟨m, hm, (State.refuseAtTake_len _ _ _ _).trans hm'⟩

/-- Every command but a reset leaves LEN by an event that keeps. -/
theorem exec_lenKeeps (c : Instr) (s : State) (h1 : c ≠ .powerOnReset) (h2 : c ≠ .pinReset) :
    ∃ t, exec c s = .next t ∧ s.LenKeeps t := by
  by_cases hp : portCommand c = true
  · obtain ⟨u, hu, ha⟩ := portCommand_aside c hp s
    exact ⟨u, hu, .of_eq ha.len⟩
  cases c <;> first
    | exact absurd rfl hp
    | exact absurd rfl h1
    | exact absurd rfl h2
    | refine ⟨_, rfl, ?_⟩
  case detach => exact .takeRequest s _ _ fun f a => a.detach_keeps f
  case ping => exact .takeRequest s _ _ fun f a => (a.replyWith_grows f _ _).keeps
  case querySlot => exact .takeRequest s _ _ fun f a => (a.querySlot_grows f).keeps
  case acquire => exact .takeRequest s _ _ fun f a => (a.acquire_grows f).keeps
  case release => exact .takeRequest s _ _ fun f a => (a.release_grows f).keeps
  case renew => exact .takeRequest s _ _ fun f a => (a.renew_grows f).keeps
  case downgrade => exact .takeRequest s _ _ fun f a => (a.downgrade_grows f).keeps
  case upgrade => exact .takeRequest s _ _ fun f a => (a.upgrade_grows f).keeps
  case cancel => exact .takeRequest s _ _ fun f a => (a.cancel_grows f).keeps
  case breakLease => exact .takeRequest s _ _ fun f a => (a.breakLease_grows f).keeps
  case notices => exact .takeRequest s _ _ fun f a => (a.notices_grows f).keeps
  case queryLease => exact .takeRequest s _ _ fun f a => (a.queryLease_grows f).keeps
  case queryResource => exact .takeRequest s _ _ fun f a => (a.queryResource_grows f).keeps
  case define => exact .takeRequest s _ _ fun f a => a.define_keeps f
  case retire => exact .takeRequest s _ _ fun f a => a.retire_keeps f
  case tokenCheck => exact .takeRequest s _ _ fun f a => (a.tokenCheck_grows f).keeps
  case profileRead => exact .takeRequest s _ _ fun f a => (a.profileRead_grows f).keeps
  case profileSet => exact .takeRequest s _ _ fun f a => a.profileSet_keeps f
  case profileRestore => exact .takeRequest s _ _ fun f a => a.profileRestore_keeps f
  case profileFreeze => exact .takeRequest s _ _ fun f a => a.profileFreeze_keeps f
  case config => exact .takeRequest s _ _ fun f a => a.config_keeps f
  case attach =>
    split
    · exact .of_eq rfl
    · rename_i p f _
      dsimp only
      split
      · refine .popRun s p _ fun a _ => ?_
        split
        · exact a.attachReplacing_keeps p f _
        · exact a.attachFresh_keeps p f _
      · obtain ⟨m, hm, hm'⟩ := State.LenKeeps.popFrame s p
        exact ⟨m, hm, (State.refuseAtTake_len _ _ _ _).trans hm'⟩
  case porRelease => split <;> exact .of_eq rfl
  case pinResetRelease =>
    split
    · split <;> exact .of_eq rfl
    · exact .of_eq rfl
  case tick =>
    split
    · exact .of_eq rfl
    · refine .of_eq ?_
      unfold State.finishTick
      split <;> rfl
  case deadlineExpiry =>
    refine .of_eq ?_
    repeat' split
    all_goals rfl
  case deadlineInsert =>
    refine .of_eq ?_
    unfold State.finishTick
    repeat' split
    all_goals rfl
  case deadlineRemove =>
    refine .of_eq ?_
    unfold State.finishTick
    repeat' split
    all_goals rfl
  case leaseExpiry =>
    split
    · split
      · exact .runLen s.popExpiry _ fun a _ => (a.lapse_grows _).keeps
      · exact .of_eq rfl
    · exact .of_eq rfl
  case waitExpiry =>
    split
    · split
      · exact .runLen s.popExpiry _ fun a _ => (a.timeOut_grows _).keeps
      · exact .of_eq rfl
    · exact .of_eq rfl
  case keepaliveExpiry =>
    split
    · split
      · exact .runLen s.popExpiry _ fun a _ => a.loseSession_keeps _
      · exact .of_eq rfl
    · exact .of_eq rfl
  case configReport =>
    split
    · exact .of_eq rfl
    · dsimp only
      split
      · rename_i rest _ _ c _ _
        exact .runLen { s with paths := { s.paths with reports := rest } } _ fun a _ => a.closeConfig_keeps c
      · exact .of_eq rfl
  case checkOnlyQuery =>
    refine .of_eq ?_
    repeat' split
    all_goals rfl

/-! ## The rest of the machine -/

/-- A state comes from another with nothing changed but LEN, RQU and the paths. -/
def State.LenSide (a b : State) : Prop := b = { a with len := b.len, rqu := b.rqu, paths := b.paths }

theorem State.LenSide.trans {a b c : State} (h : a.LenSide b) (k : b.LenSide c) : a.LenSide c := by
  unfold State.LenSide at *
  rw [k, h]

theorem State.LenSide.lck {a b : State} (h : a.LenSide b) : b.lck = a.lck := by unfold State.LenSide at h; rw [h]
theorem State.LenSide.pending {a b : State} (h : a.LenSide b) : b.pending = a.pending := by unfold State.LenSide at h; rw [h]
theorem State.LenSide.twp {a b : State} (h : a.LenSide b) : b.twp = a.twp := by unfold State.LenSide at h; rw [h]
theorem State.LenSide.fwp {a b : State} (h : a.LenSide b) : b.fwp = a.fwp := by unfold State.LenSide at h; rw [h]

theorem State.refuseAtTake_lenSide (s : State) (p : Port) (r : RefusalReason) (f : Frame) :
    s.LenSide (s.refuseAtTake p r f) := by cases p <;> rfl

theorem State.takeRequest_lenSide (s : State) (k : ReqKind) (request : Frame → LenEvent → LenEvent) :
    s.LenSide (s.takeRequest k request) := by
  unfold State.takeRequest
  split
  · rfl
  · dsimp only
    split
    · rfl
    · refine State.LenSide.trans ?_ (State.refuseAtTake_lenSide _ _ _ _)
      rfl

/-- The commands that are LEN's. -/
def lenCommand : Instr → Bool
  | .attach | .detach | .ping | .querySlot | .acquire | .release | .renew | .downgrade | .upgrade | .cancel | .breakLease
  | .notices | .queryLease | .queryResource | .define | .retire | .tokenCheck | .profileRead | .profileSet
  | .profileRestore | .profileFreeze | .config | .leaseExpiry | .waitExpiry | .keepaliveExpiry | .configReport
  | .checkOnlyQuery => true
  | _ => false

/-- Every command of LEN leaves all but LEN, RQU and the paths alone. -/
theorem lenCommand_side (c : Instr) (h : lenCommand c = true) (s : State) : ∃ t, exec c s = .next t ∧ s.LenSide t := by
  cases c <;> first
    | exact absurd h Bool.false_ne_true
    | exact ⟨_, rfl, State.takeRequest_lenSide s _ _⟩
    | refine ⟨_, rfl, ?_⟩
  case attach =>
    split
    · rfl
    · dsimp only
      split
      · rfl
      · refine State.LenSide.trans ?_ (State.refuseAtTake_lenSide _ _ _ _)
        rfl
  case configReport =>
    split
    · rfl
    · dsimp only
      split <;> rfl
  all_goals
    repeat' split
    all_goals rfl

/-! ## The queue of commands -/

/-- Every command answers a next state and leaves the queue alone. -/
theorem exec_next (c : Instr) (s : State) : ∃ t, exec c s = .next t ∧ t.pending = s.pending := by
  by_cases hp : portCommand c = true
  · obtain ⟨t, ht, ha⟩ := portCommand_aside c hp s
    exact ⟨t, ht, ha.pending⟩
  by_cases hl : lenCommand c = true
  · obtain ⟨t, ht, ha⟩ := lenCommand_side c hl s
    exact ⟨t, ht, ha.pending⟩
  cases c <;> first
    | exact absurd rfl hp
    | exact absurd rfl hl
    | refine ⟨_, rfl, ?_⟩
  all_goals
    try unfold State.finishTick
    repeat' split
    all_goals rfl

/-! ## The lease clock and its deadline list -/

/-- Inserting in order of deadline keeps a list ordered (R77, R78). -/
theorem insertDeadlineSorted_mem {d x : Deadline} {l : List Deadline} (h : x ∈ insertDeadlineSorted d l) : x = d ∨ x ∈ l := by
  induction l with
  | nil => exact .inl (List.mem_singleton.1 h)
  | cons y ys ih =>
    unfold insertDeadlineSorted at h
    split at h
    · rcases List.mem_cons.1 h with h | h
      · exact .inl h
      · exact .inr h
    · rcases List.mem_cons.1 h with h | h
      · exact .inr (h ▸ List.mem_cons_self)
      · exact (ih h).imp id (List.mem_cons_of_mem _)

theorem insertDeadlineSorted_ordered (d : Deadline) {l : List Deadline}
    (h : l.Pairwise fun a b => a.deadline ≤ b.deadline) :
    (insertDeadlineSorted d l).Pairwise fun a b => a.deadline ≤ b.deadline := by
  induction l with
  | nil => exact List.pairwise_singleton _ _
  | cons y ys ih =>
    obtain ⟨h1, h2⟩ := List.pairwise_cons.1 h
    unfold insertDeadlineSorted
    split
    · rename_i hd
      refine List.pairwise_cons.2 ⟨fun x hx => ?_, h⟩
      rcases List.mem_cons.1 hx with rfl | hx
      · exact BitVec.le_of_lt hd
      · exact BitVec.le_trans (BitVec.le_of_lt hd) (h1 x hx)
    · rename_i hd
      refine List.pairwise_cons.2 ⟨fun x hx => ?_, ih h2⟩
      rcases insertDeadlineSorted_mem hx with rfl | hx
      · exact BitVec.not_lt.1 hd
      · exact h1 x hx

theorem State.finishTick_ordered {s : State} (h : s.lck.ordered) : s.finishTick.lck.ordered := by
  unfold State.finishTick
  split
  · exact List.Pairwise.sublist (List.dropWhile_sublist _) h
  · exact h

theorem State.finishTick_clock (s : State) : s.finishTick.lck.clock = s.lck.clock := by
  unfold State.finishTick
  split <;> rfl

/-- What one command does to LCK: the list stays ordered, and the clock stands but for a tick and power-on reset (R75, R77). -/
theorem exec_lck (c : Instr) (s : State) : ∃ t, exec c s = .next t ∧ (s.lck.ordered → t.lck.ordered) ∧
    (c = .powerOnReset ∨ t.lck.clock = s.lck.clock ∨
      (∃ source, c = .tick source) ∧ s.lck.clock < 0xFFFFFFFFFFFF ∧ t.lck.clock = s.lck.clock + 1) := by
  by_cases hp : portCommand c = true
  · obtain ⟨t, ht, ha⟩ := portCommand_aside c hp s
    exact ⟨t, ht, by rw [ha.lck]; exact id, .inr (.inl (by rw [ha.lck]))⟩
  by_cases hl : lenCommand c = true
  · obtain ⟨t, ht, ha⟩ := lenCommand_side c hl s
    exact ⟨t, ht, by rw [ha.lck]; exact id, .inr (.inl (by rw [ha.lck]))⟩
  cases c <;> first
    | exact absurd rfl hp
    | exact absurd rfl hl
    | refine ⟨_, rfl, ?_⟩
  case powerOnReset => exact ⟨fun _ => List.Pairwise.nil, .inl rfl⟩
  case porRelease => split <;> exact ⟨id, .inr (.inl rfl)⟩
  case pinReset => exact ⟨fun _ => List.Pairwise.nil, .inr (.inl rfl)⟩
  case pinResetRelease =>
    split
    · split <;> exact ⟨id, .inr (.inl rfl)⟩
    · exact ⟨id, .inr (.inl rfl)⟩
  case tick source =>
    split
    · exact ⟨id, .inr (.inl rfl)⟩
    · refine ⟨fun h => State.finishTick_ordered h, .inr ?_⟩
      have hc : ({ s.finishTick with lck := s.finishTick.lck.count } : State).lck.clock =
          if s.finishTick.lck.clock = BitVec.allOnes 48 then s.finishTick.lck.clock else s.finishTick.lck.clock + 1 := rfl
      dsimp only at hc ⊢
      rw [hc, State.finishTick_clock]
      by_cases ha : s.lck.clock = BitVec.allOnes 48
      · exact .inl (by rw [if_pos ha])
      · refine .inr ⟨⟨source, rfl⟩, ?_, by rw [if_neg ha]⟩
        have : BitVec.allOnes 48 = 0xFFFFFFFFFFFF#48 := by decide
        rw [this] at ha
        bv_omega
  case deadlineExpiry =>
    split
    · split
      · exact ⟨fun h => h, .inr (.inl rfl)⟩
      · rename_i d ds hd
        split
        · refine ⟨fun h => ?_, .inr (.inl rfl)⟩
          unfold Lck.ordered at h
          rw [hd] at h
          exact (List.pairwise_cons.1 h).2
        · exact ⟨fun h => h, .inr (.inl rfl)⟩
    · exact ⟨id, .inr (.inl rfl)⟩
  case deadlineInsert =>
    split
    · exact ⟨fun h => insertDeadlineSorted_ordered _ (State.finishTick_ordered h), .inr (.inl (State.finishTick_clock s))⟩
    · exact ⟨id, .inr (.inl rfl)⟩
  case deadlineRemove =>
    split
    · exact ⟨fun h => (State.finishTick_ordered h).sublist List.erase_sublist, .inr (.inl (State.finishTick_clock s))⟩
    · exact ⟨id, .inr (.inl rfl)⟩

/-! ## The epochs -/

/-- No epoch of an entry in use has decreased (R15). -/
def Len.Ages (a b : Len) : Prop := ∀ r : ResIx, a.catalog[r].state ≠ .vacant → a.catalog[r].epoch ≤ b.catalog[r].epoch

/-- No epoch has decreased. -/
def Len.AgesAll (a b : Len) : Prop := ∀ r : ResIx, a.catalog[r].epoch ≤ b.catalog[r].epoch

theorem Len.AgesAll.ages {a b : Len} (h : a.AgesAll b) : a.Ages b := fun r _ => h r

theorem Len.AgesAll.of_eq {a b : Len} (h : b.catalog = a.catalog) : a.AgesAll b := fun r => by
  rw [h]
  exact BitVec.le_refl _

theorem Len.AgesAll.trans {a b c : Len} (h : a.AgesAll b) (k : b.AgesAll c) : a.AgesAll c := fun r => BitVec.le_trans (h r) (k r)

theorem LenEvent.Grows.ages {a b : LenEvent} (h : a.Grows b) : a.len.AgesAll b.len := fun r => (h.entry r).epoch

theorem LenEvent.modSlot_ages (e : LenEvent) (n : SlotIx) (f : Slot → Slot) : e.len.AgesAll (e.modSlot n f).len := .of_eq rfl

theorem LenEvent.clearAnswered_ages (e : LenEvent) (n : SlotIx) : e.len.AgesAll (e.clearAnswered n).len := .of_eq rfl

theorem LenEvent.notify_ages (e : LenEvent) (m : RquMsg) : e.len.AgesAll (e.notify m).len := .of_eq rfl

theorem LenEvent.removeKeepalive_ages (e : LenEvent) (n : SlotIx) : e.len.AgesAll (e.removeKeepalive n).len := .of_eq rfl

theorem LenEvent.beginSession_ages (e : LenEvent) (n : SlotIx) (p : Port) (ticks : Nat) :
    e.len.AgesAll (e.beginSession n p ticks).len := .of_eq rfl

theorem LenEvent.restoreProfile_ages (e : LenEvent) (n : SlotIx) : e.len.AgesAll (e.restoreProfile n).len := .of_eq rfl

theorem LenEvent.attachFresh_ages (e : LenEvent) (p : Port) (f : Frame) (ticks : Nat) :
    e.len.AgesAll (e.attachFresh p f ticks).len := .of_eq rfl

theorem LenEvent.attachReplacing_ages (e : LenEvent) (p : Port) (f : Frame) (ticks : Nat) :
    e.len.AgesAll (e.attachReplacing p f ticks).len := by
  unfold LenEvent.attachReplacing
  refine Len.AgesAll.trans ?_ (LenEvent.purgePasses_grows _ _).ages
  refine Len.AgesAll.trans ?_ (LenEvent.replyWith_grows _ f _ _).ages
  refine Len.AgesAll.trans ?_ (LenEvent.clearAnswered_ages _ _)
  refine Len.AgesAll.trans ?_ (LenEvent.notify_ages _ _)
  refine Len.AgesAll.trans ?_ (LenEvent.notify_ages _ _)
  refine Len.AgesAll.trans ?_ (LenEvent.beginSession_ages _ _ _ _)
  refine Len.AgesAll.trans ?_ (LenEvent.modSlot_ages _ _ _)
  exact (e.purge_quiet _ _).toGrows.ages.trans (LenEvent.removeKeepalive_ages _ _)

theorem LenEvent.detach_ages (e : LenEvent) (f : Frame) : e.len.AgesAll (e.detach f).len := by
  unfold LenEvent.detach
  refine Len.AgesAll.trans ?_ (LenEvent.purgePasses_grows _ _).ages
  refine Len.AgesAll.trans ?_ (LenEvent.notify_ages _ _)
  refine Len.AgesAll.trans ?_ (LenEvent.clearAnswered_ages _ _)
  refine Len.AgesAll.trans ?_ (LenEvent.modSlot_ages _ _ _)
  exact (e.purge_quiet _ _).toGrows.ages.trans (LenEvent.removeKeepalive_ages _ _)

theorem LenEvent.loseSession_ages (e : LenEvent) (n : SlotIx) : e.len.AgesAll (e.loseSession n).len := by
  unfold LenEvent.loseSession
  refine Len.AgesAll.trans ?_ (LenEvent.purgePasses_grows _ _).ages
  refine Len.AgesAll.trans ?_ (LenEvent.notify_ages _ _)
  refine Len.AgesAll.trans ?_ (LenEvent.clearAnswered_ages _ _)
  exact (e.purge_quiet _ _).toGrows.ages.trans (LenEvent.modSlot_ages _ _ _)

theorem LenEvent.modEntry_ages (e : LenEvent) (q : ResIx) (f : Entry → Entry)
    (h : e.len.catalog[q].epoch ≤ (f e.len.catalog[q]).epoch) : e.len.AgesAll (e.modEntry q f).len := by
  intro r
  rw [LenEvent.modEntry_len, Len.setEntry_get]
  split
  · rename_i hq; subst hq; exact h
  · exact BitVec.le_refl _

theorem LenEvent.leaveOpen_ages (e : LenEvent) (r : ResIx) : e.len.AgesAll (e.leaveOpen r).len := by
  unfold LenEvent.leaveOpen
  split <;> exact e.modEntry_ages r _ (BitVec.le_refl _)

theorem LenEvent.retire_ages (e : LenEvent) (f : Frame) : e.len.AgesAll (e.retire f).len := by
  unfold LenEvent.retire
  dsimp only
  split
  · exact (e.reply_grows f _).ages
  · split
    · exact (e.badOperand_grows f _ _).ages
    · split
      · exact (e.reply_grows f _).ages
      · unfold LenEvent.retireEntry
        dsimp only
        refine Len.AgesAll.trans ?_ (LenEvent.replyWith_grows _ f _ _).ages
        refine Len.AgesAll.trans ?_ (LenEvent.leaveOpen_ages _ _)
        refine Len.AgesAll.trans ?_ (LenEvent.retireWaits_grows _ _).ages
        split
        · exact (e.revokeAll_grows _).ages
        · exact .of_eq rfl

theorem LenEvent.profileSet_ages (e : LenEvent) (f : Frame) : e.len.AgesAll (e.profileSet f).len := by
  unfold LenEvent.profileSet
  dsimp only
  repeat' split
  all_goals exact .of_eq rfl

theorem LenEvent.restoreProfiles_ages (ns : List SlotIx) (e : LenEvent) :
    e.len.AgesAll (ns.foldl LenEvent.restoreProfile e).len := by
  induction ns generalizing e with
  | nil => exact .of_eq rfl
  | cons n ns ih => exact (e.restoreProfile_ages n).trans (ih _)

theorem LenEvent.profileRestore_ages (e : LenEvent) (f : Frame) : e.len.AgesAll (e.profileRestore f).len := by
  unfold LenEvent.profileRestore
  dsimp only
  split
  · exact .of_eq rfl
  · split
    · exact .of_eq rfl
    · split
      · exact (LenEvent.restoreProfiles_ages _ e).trans (LenEvent.reply_grows _ f _).ages
      · split <;> exact .of_eq rfl

theorem LenEvent.profileFreeze_ages (e : LenEvent) (f : Frame) : e.len.AgesAll (e.profileFreeze f).len := by
  unfold LenEvent.profileFreeze
  repeat' split
  all_goals exact .of_eq rfl

theorem LenEvent.config_ages (e : LenEvent) (f : Frame) : e.len.AgesAll (e.config f).len := by
  unfold LenEvent.config
  dsimp only
  repeat' split
  all_goals exact .of_eq rfl

/-- A DEFINE gives an epoch to an entry that was VACANT, and changes no other's (R6). -/
theorem LenEvent.define_ages (e : LenEvent) (f : Frame) : e.len.Ages (e.define f).len := by
  unfold LenEvent.define
  dsimp only
  split
  · exact (e.reply_grows f _).ages.ages
  · split
    · exact (e.badOperand_grows f _ _).ages.ages
    · split
      · exact (e.reply_grows f _).ages.ages
      · split
        · exact (e.reply_grows f _).ages.ages
        · rename_i r hr
          intro q hq
          have hv : e.len.catalog[r].state = .vacant := by
            unfold Len.vacantEntry? at hr
            simpa using List.find?_some hr
          have h : ∀ d : DefineOperands, ((e.modEntry r fun _ => d.entry).replyWith f .ok d.payload).len.catalog[q] =
              if q = r then d.entry else e.len.catalog[q] := fun d => Len.setEntry_get e.len r q d.entry
          rw [h]
          by_cases hqr : q = r
          · subst hqr
            exact absurd hv hq
          · rw [if_neg hqr]
            exact BitVec.le_refl _

theorem LenEvent.performFrame_ages (e : LenEvent) (f : Frame) (request : LenEvent → LenEvent)
    (h : ∀ a : LenEvent, a.len.Ages (request a).len) : e.len.Ages (e.performFrame f request).len := by
  unfold LenEvent.performFrame
  dsimp only
  have h1 : (if f.kind = .detach then e.modSlot f.slot fun s => { s with answered := s.answered.set f.tag false }
      else (e.modSlot f.slot fun s => { s with answered := s.answered.set f.tag false }).refreshKeepalive f.slot).len.catalog =
      e.len.catalog := by
    split <;> rfl
  generalize (if f.kind = .detach then e.modSlot f.slot fun s => { s with answered := s.answered.set f.tag false }
      else (e.modSlot f.slot fun s => { s with answered := s.answered.set f.tag false }).refreshKeepalive f.slot) = a at h1
  have h2 : e.len.Ages (if f.operands.length ∈ operandLengths f.kind then request a
      else a.badOperand f .length f.operands.length).len := by
    intro r hr
    have hc : e.len.catalog[r] = a.len.catalog[r] := by rw [h1]
    rw [hc] at hr ⊢
    split
    · exact h a r hr
    · exact (a.badOperand_grows f _ _).ages r
  exact h2

theorem State.takeRequest_ages (s : State) (k : ReqKind) (request : Frame → LenEvent → LenEvent)
    (h : ∀ (f : Frame) (a : LenEvent), a.len.Ages (request f a).len) : s.len.Ages (s.takeRequest k request).len := by
  unfold State.takeRequest
  split
  · exact (Len.AgesAll.of_eq rfl).ages
  · rename_i p f _
    dsimp only
    split
    · exact LenEvent.performFrame_ages { now := s.lck.clock, len := (s.popFrame p).len, toLck := [], toRqu := [], toTwp := [] }
        f _ (h f)
    · refine (Len.AgesAll.of_eq ?_).ages
      rw [State.refuseAtTake_len]
      rfl

theorem Len.afterPinReset_ages (len : Len) : len.AgesAll len.afterPinReset := by
  intro r
  have h : len.afterPinReset.catalog[r] = len.catalog[r].afterPinReset := by
    unfold Len.afterPinReset
    exact Vector.getElem_map _ _
  rw [h]
  unfold Entry.afterPinReset
  split <;> exact BitVec.le_refl _

/-- No command but power-on reset lowers the epoch of an entry in use (R15). -/
theorem exec_ages (c : Instr) (s : State) (hc : c ≠ .powerOnReset) : ∃ t, exec c s = .next t ∧ s.len.Ages t.len := by
  by_cases hp : portCommand c = true
  · obtain ⟨t, ht, ha⟩ := portCommand_aside c hp s
    exact ⟨t, ht, (Len.AgesAll.of_eq (by rw [ha.len])).ages⟩
  cases c <;> first
    | exact absurd rfl hp
    | exact absurd rfl hc
    | refine ⟨_, rfl, ?_⟩
  case detach => exact State.takeRequest_ages s _ _ fun f a => (a.detach_ages f).ages
  case ping => exact State.takeRequest_ages s _ _ fun f a => (a.replyWith_grows f _ _).ages.ages
  case querySlot => exact State.takeRequest_ages s _ _ fun f a => (a.querySlot_grows f).ages.ages
  case acquire => exact State.takeRequest_ages s _ _ fun f a => (a.acquire_grows f).ages.ages
  case release => exact State.takeRequest_ages s _ _ fun f a => (a.release_grows f).ages.ages
  case renew => exact State.takeRequest_ages s _ _ fun f a => (a.renew_grows f).ages.ages
  case downgrade => exact State.takeRequest_ages s _ _ fun f a => (a.downgrade_grows f).ages.ages
  case upgrade => exact State.takeRequest_ages s _ _ fun f a => (a.upgrade_grows f).ages.ages
  case cancel => exact State.takeRequest_ages s _ _ fun f a => (a.cancel_grows f).ages.ages
  case breakLease => exact State.takeRequest_ages s _ _ fun f a => (a.breakLease_grows f).ages.ages
  case notices => exact State.takeRequest_ages s _ _ fun f a => (a.notices_grows f).ages.ages
  case queryLease => exact State.takeRequest_ages s _ _ fun f a => (a.queryLease_grows f).ages.ages
  case queryResource => exact State.takeRequest_ages s _ _ fun f a => (a.queryResource_grows f).ages.ages
  case define => exact State.takeRequest_ages s _ _ fun f a => a.define_ages f
  case retire => exact State.takeRequest_ages s _ _ fun f a => (a.retire_ages f).ages
  case tokenCheck => exact State.takeRequest_ages s _ _ fun f a => (a.tokenCheck_grows f).ages.ages
  case profileRead => exact State.takeRequest_ages s _ _ fun f a => (a.profileRead_grows f).ages.ages
  case profileSet => exact State.takeRequest_ages s _ _ fun f a => (a.profileSet_ages f).ages
  case profileRestore => exact State.takeRequest_ages s _ _ fun f a => (a.profileRestore_ages f).ages
  case profileFreeze => exact State.takeRequest_ages s _ _ fun f a => (a.profileFreeze_ages f).ages
  case config => exact State.takeRequest_ages s _ _ fun f a => (a.config_ages f).ages
  case pinReset => exact s.len.afterPinReset_ages.ages
  case attach =>
    split
    · exact (Len.AgesAll.of_eq rfl).ages
    · rename_i p f _
      dsimp only
      split
      · refine Len.AgesAll.ages ?_
        have key : ∀ a : LenEvent, a.len.catalog = s.len.catalog → s.len.AgesAll
            (if a.len.slots[f.slot].state = .active then a.attachReplacing p f (operandAt f.operands 0 2)
              else a.attachFresh p f (operandAt f.operands 0 2)).len := by
          intro a ha
          refine (Len.AgesAll.of_eq ha).trans ?_
          split
          · exact a.attachReplacing_ages p f _
          · exact a.attachFresh_ages p f _
        exact key { now := s.lck.clock, len := (s.popFrame p).len, toLck := [], toRqu := [], toTwp := [] } rfl
      · refine (Len.AgesAll.of_eq ?_).ages
        rw [State.refuseAtTake_len]
        rfl
  case leaseExpiry =>
    split
    · split
      · exact (LenEvent.lapse_grows { now := s.lck.clock, len := s.len, toLck := [], toRqu := [], toTwp := [] } _).ages.ages
      · exact (Len.AgesAll.of_eq rfl).ages
    · exact (Len.AgesAll.of_eq rfl).ages
  case waitExpiry =>
    split
    · split
      · exact (LenEvent.timeOut_grows { now := s.lck.clock, len := s.len, toLck := [], toRqu := [], toTwp := [] } _).ages.ages
      · exact (Len.AgesAll.of_eq rfl).ages
    · exact (Len.AgesAll.of_eq rfl).ages
  case keepaliveExpiry =>
    split
    · split
      · exact (LenEvent.loseSession_ages { now := s.lck.clock, len := s.len, toLck := [], toRqu := [], toTwp := [] } _).ages
      · exact (Len.AgesAll.of_eq rfl).ages
    · exact (Len.AgesAll.of_eq rfl).ages
  all_goals
    refine (Len.AgesAll.of_eq ?_).ages
    try unfold State.finishTick
    try dsimp only
    repeat' (first | split | dsimp only)
    all_goals rfl

end Sys2Proof.Machine
end

