-- ==== Sys2Proof/Laws/Agreed.lean ====
section
/-! SUPPORT. The agreement of LEN's tables, through every command. -/

namespace Sys2Proof.Machine

/-- The tables agree at this point of an event, and could so stand between events. -/
structure LenEvent.Fit (e : LenEvent) : Prop where
  ok : e.Ok
  wait : e.len.upgradesWait
  own : e.len.ownersAgree

theorem LenEvent.fit_iff (e : LenEvent) : e.Fit ↔ e.len.agrees := by
  rw [Len.agrees_iff]
  exact ⟨fun h => ⟨h.ok, h.wait, h.own⟩, fun h => ⟨h.1, h.2.1, h.2.2⟩⟩

/-! ## Owners -/

/-- Records that stay, in slots that stay, keep their owners. -/
theorem Len.ownersAgree.stays {a b : Len} (h : a.ownersAgree) (k : a.Stays b)
    (hs : ∀ n : SlotIx, b.slots[n].state = a.slots[n].state ∧ b.slots[n].session = a.slots[n].session) : b.ownersAgree := by
  refine ⟨fun i hi => ?_, fun i j hi hj es er => ?_⟩
  · obtain ⟨h1, h2, h3, _⟩ := k i hi
    rw [(hs _).1, (hs _).2, h3]
    have : ∀ n m : SlotIx, n = m → a.slots[m].state = .active ∧ a.slots[m].session = a.leases[i].session →
        a.slots[n].state = .active ∧ a.slots[n].session = a.leases[i].session := by
      rintro n m rfl c
      exact c
    exact this _ _ h2 (h.1 i h1)
  · obtain ⟨h1, h2, h3, h4⟩ := k i hi
    obtain ⟨k1, k2, k3, k4⟩ := k j hj
    exact h.2 i j h1 k1 (h2.symm.trans (es.trans k2)) (h4.symm.trans (er.trans k4))

/-- A FREE record is taken into use for the session in force of an ACTIVE slot that has none on the entry. -/
theorem Len.ownersAgree.take {a b : Len} (h : a.ownersAgree) {i : RecIx} {x : Lease}
    (hl : ∀ j : RecIx, b.leases[j] = if j = i then x else a.leases[j])
    (hx : x.session = a.slots[x.slot].session) (ha : a.slots[x.slot].state = .active)
    (hn : ¬∃ j : RecIx, a.leases[j].state ≠ .free ∧ a.leases[j].slot = x.slot ∧ a.leases[j].resource = x.resource)
    (hs : ∀ n : SlotIx, b.slots[n].state = a.slots[n].state ∧ b.slots[n].session = a.slots[n].session) : b.ownersAgree := by
  have key : ∀ l : Lease, a.slots[l.slot].state = .active ∧ a.slots[l.slot].session = l.session →
      b.slots[l.slot].state = .active ∧ b.slots[l.slot].session = l.session := by
    intro l c
    rw [(hs _).1, (hs _).2]
    exact c
  refine ⟨fun j hj => ?_, fun j k hj hk es er => ?_⟩
  · have : ∀ l : Lease, b.leases[j] = l → b.slots[l.slot].state = .active ∧ b.slots[l.slot].session = l.session →
        b.slots[b.leases[j].slot].state = .active ∧ b.slots[b.leases[j].slot].session = b.leases[j].session := by
      rintro l rfl c
      exact c
    by_cases hji : j = i
    · exact this x ((hl j).trans (if_pos hji)) (key x ⟨ha, hx.symm⟩)
    · have he := (hl j).trans (if_neg hji)
      refine this _ he (key _ (h.1 j ?_))
      rw [he] at hj
      exact hj
  · by_cases hji : j = i
    · by_cases hki : k = i
      · exact hji.trans hki.symm
      · rw [hl j, if_pos hji, hl k, if_neg hki] at es er
        rw [hl k, if_neg hki] at hk
        exact absurd ⟨k, hk, es.symm, er.symm⟩ hn
    · by_cases hki : k = i
      · rw [hl j, if_neg hji, hl k, if_pos hki] at es er
        rw [hl j, if_neg hji] at hj
        exact absurd ⟨j, hj, es, er⟩ hn
      · rw [hl j, if_neg hji, hl k, if_neg hki] at es er
        rw [hl j, if_neg hji] at hj
        rw [hl k, if_neg hki] at hk
        exact h.2 j k hj hk es er

/-- A slot that owns no record may change. -/
theorem Len.ownersAgree.leave {a b : Len} (h : a.ownersAgree) (n : SlotIx) (hl : b.leases = a.leases)
    (hn : ∀ i : RecIx, a.leases[i].state ≠ .free → a.leases[i].slot ≠ n)
    (hs : ∀ m : SlotIx, m ≠ n → b.slots[m].state = a.slots[m].state ∧ b.slots[m].session = a.slots[m].session) :
    b.ownersAgree := by
  have he : ∀ i : RecIx, b.leases[i] = a.leases[i] := fun i => by rw [hl]
  refine ⟨fun i hi => ?_, fun i j hi hj es er => ?_⟩
  · have : ∀ l : Lease, b.leases[i] = l → b.slots[l.slot].state = .active ∧ b.slots[l.slot].session = l.session →
        b.slots[b.leases[i].slot].state = .active ∧ b.slots[b.leases[i].slot].session = b.leases[i].session := by
      rintro l rfl c
      exact c
    rw [he] at hi
    refine this _ (he i) ?_
    rw [(hs _ (hn i hi)).1, (hs _ (hn i hi)).2]
    exact h.1 i hi
  · rw [he] at hi hj
    rw [he i, he j] at es er
    exact h.2 i j hi hj es er

/-! ## Joining the parts -/

theorem LenEvent.Grows.same {a b : LenEvent} (h : a.Grows b) (n : SlotIx) :
    b.len.slots[n].state = a.len.slots[n].state ∧ b.len.slots[n].session = a.len.slots[n].session :=
  ⟨(h.session n).1, (h.session n).2.1⟩

theorem LenEvent.Fit.go {a b : LenEvent} (h : a.Fit) (ok : b.Ok) (r : Len.Rises nowhere a.len b.len) (st : a.len.Stays b.len)
    (g : a.Grows b) : b.Fit := ⟨ok, h.wait.rises r, h.own.stays st g.same⟩

theorem LenEvent.Fit.pass {a b : LenEvent} (h : a.Fit) {r : ResIx} (ok : b.Ok) (k : Len.Rises (· = r) a.len b.len)
    (st : a.len.Stays b.len) (g : a.Grows b) : (b.grantPass r).Fit :=
  ⟨(ok.grantPass r).1, ok.grantPass_waits r (h.wait.but k),
    h.own.stays (st.trans (ok.grantPass r).2) (g.trans (b.grantPass_grows r)).same⟩

/-- What changes no catalog entry, no record, no wait, and no slot's state and session. -/
theorem LenEvent.Fit.of_tables {a b : LenEvent} (h : a.Fit) (hc : b.len.catalog = a.len.catalog)
    (hl : b.len.leases = a.len.leases) (hw : b.len.waits = a.len.waits)
    (hs : ∀ n : SlotIx, b.len.slots[n].state = a.len.slots[n].state ∧ b.len.slots[n].session = a.len.slots[n].session) : b.Fit :=
  ⟨h.ok.of_tables hc hl hw, h.wait.rises (.of_eq hc), h.own.stays (.of_eq hl) hs⟩

theorem LenEvent.Fit.replyWith {e : LenEvent} (h : e.Fit) (f : Frame) (st : Status) (b : List Byte) : (e.replyWith f st b).Fit :=
  h.of_tables rfl rfl rfl (e.replyWith_grows f st b).same

theorem LenEvent.Fit.reply {e : LenEvent} (h : e.Fit) (f : Frame) (st : Status) : (e.reply f st).Fit := h.replyWith f st []

theorem LenEvent.Fit.badOperand {e : LenEvent} (h : e.Fit) (f : Frame) (r : OperandReason) (n : Nat) :
    (e.badOperand f r n).Fit := h.replyWith f _ _

theorem LenEvent.Fit.profileRefused {e : LenEvent} (h : e.Fit) (f : Frame) (r : ProfileReason) (a b : Nat) :
    (e.profileRefused f r a b).Fit := h.replyWith f _ _

theorem LenEvent.Fit.modSlot {e : LenEvent} (h : e.Fit) (n : SlotIx) (g : Slot → Slot)
    (hg : (g e.len.slots[n]).state = e.len.slots[n].state ∧ (g e.len.slots[n]).session = e.len.slots[n].session) :
    (e.modSlot n g).Fit := by
  refine h.of_tables rfl rfl rfl fun m => ?_
  have hm : (e.modSlot n g).len.slots[m] = if m = n then g e.len.slots[n] else e.len.slots[m] := Len.setSlot_get _ _ _ _
  rw [hm]
  split
  · rename_i c; subst c; exact hg
  · exact ⟨rfl, rfl⟩

theorem LenEvent.Fit.notify {e : LenEvent} (h : e.Fit) (m : RquMsg) : (e.notify m).Fit := h.of_tables rfl rfl rfl fun _ => ⟨rfl, rfl⟩

/-! ## RELEASE, RENEW, DOWNGRADE -/

/-- A record that has ended has no wait. -/
theorem LenEvent.Ok.no_wait_ended {e : LenEvent} (h : e.Ok) {i : RecIx}
    (hi : e.len.leases[i].state = .lapsed ∨ e.len.leases[i].state = .revoked) (w : WaitIx) (x : Wait)
    (hw : e.len.waits[w] = some x) : x.lease ≠ i := by
  rintro rfl
  have h1 : e.len.leases[x.lease].state = .reserved ∨ e.len.leases[x.lease].state = .held := by
    have := h.wait_state hw
    exact this
  rcases h1 with c | c <;> rw [c] at hi <;> rcases hi with d | d <;> cases d

/-- After the end of its UPGRADE wait, a HELD record has no wait. -/
theorem LenEvent.Ok.no_wait_after {e : LenEvent} (h : e.Ok) {i : RecIx} (hi : e.len.leases[i].state = .held) (st : Status)
    (w : WaitIx) (x : Wait) (hw : (e.endUpgradeOf i st).len.waits[w] = some x) : x.lease ≠ i := by
  unfold LenEvent.endUpgradeOf at hw
  split at hw
  · rename_i hu
    exact h.no_wait hi hu w x hw
  · rename_i v hu
    obtain ⟨y, hy, hk, hyi, _⟩ := Len.upgradeWaitOf_some hu
    unfold LenEvent.finishWait at hw
    rw [hy] at hw
    have hw' : (e.dropWait v false).len.waits[w] = some x := hw
    rw [e.dropWait_wait v w false] at hw'
    split at hw'
    · cases hw'
    · rename_i hwv
      exact fun c => hwv (h.inj w v x y hw' hy (c.trans hyi.symm))

theorem LenEvent.release_fit {e : LenEvent} (h : e.Fit) (f : Frame) : (e.release f).Fit := by
  unfold LenEvent.release
  split
  · exact h.reply f _
  · rename_i i hr
    split
    · rename_i st hst
      have hi : e.len.leases[i].state = .lapsed ∨ e.len.leases[i].state = .revoked := by
        rcases Len.resolved_state hr with c | c | c
        · rw [endedStatus_held c] at hst
          cases hst
        · exact .inl c
        · exact .inr c
      refine LenEvent.Fit.reply (h.go (h.ok.freeRecord i (h.ok.no_wait_ended hi)) (e.freeRecord_rises i ?_)
        (e.freeRecord_stays i) (e.freeRecord_quiet i).toGrows) f st
      rcases hi with c | c <;> rw [c] <;> decide
    · rename_i hst
      have hi : e.len.leases[i].state = .held := by
        rcases Len.resolved_state hr with c | c | c
        · exact c
        · rw [endedStatus_lapsed c] at hst
          cases hst
        · rw [endedStatus_revoked c] at hst
          cases hst
      dsimp only
      have h1 := h.ok.endUpgradeOf i .cancelled
      have h2 : (e.endUpgradeOf i .cancelled).len.leases[i].resource = e.len.leases[i].resource := by
        rw [e.endUpgradeOf_lease]
      have h3 := (e.endUpgradeOf i .cancelled).freeRecord_lowers i
      rw [h2] at h3
      exact h.pass ((h1.freeRecord i (h.ok.no_wait_after hi .cancelled)).reply f .ok)
        (((e.endUpgradeOf_rises i .cancelled).all.trans h3).trans (.of_eq rfl))
        (((e.endUpgradeOf_stays i .cancelled).trans (LenEvent.freeRecord_stays _ _)).trans (.of_eq rfl))
        (((e.endUpgradeOf_grows i .cancelled).trans (LenEvent.freeRecord_quiet _ _).toGrows).trans (LenEvent.reply_grows _ f _))

/-- The count of HELD records depends on the records' states and resources alone. -/
theorem Len.heldCount_same {a b : Len}
    (h : ∀ i : RecIx, b.leases[i].state = a.leases[i].state ∧ b.leases[i].resource = a.leases[i].resource) (r : ResIx) :
    b.heldCount r = a.heldCount r := by
  have key : ∀ l : Len, l.heldCount r =
      (List.finRange 128).countP fun i => decide (l.leases[i].state = .held ∧ l.leases[i].resource = r) := by
    intro l
    unfold Len.heldCount
    have : l.leases.toList = (List.finRange 128).map fun i : RecIx => l.leases[i] := by
      apply List.ext_getElem
      · simp
      · intro k h1 h2
        simp
    rw [this, List.countP_map]
    rfl
  rw [key, key]
  refine List.countP_congr fun i _ => ?_
  rw [(h i).1, (h i).2]

/-- Records change only in what the agreement says nothing of. -/
theorem LenEvent.Ok.records {a b : LenEvent} (h : a.Ok) (hc : b.len.catalog = a.len.catalog) (hw : b.len.waits = a.len.waits)
    (hl : ∀ j : RecIx, b.len.leases[j].state = a.len.leases[j].state ∧ b.len.leases[j].resource = a.len.leases[j].resource ∧
      b.len.leases[j].slot = a.len.leases[j].slot ∧ b.len.leases[j].session = a.len.leases[j].session ∧
      b.len.leases[j].mode = a.len.leases[j].mode ∧ b.len.leases[j].epoch = a.len.leases[j].epoch ∧
      (a.len.leases[j].state = .reserved → b.len.leases[j].term = a.len.leases[j].term)) : b.Ok := by
  refine Tab.Ok.same h (fun v => ?_) hl (fun q => Len.heldCount_same (fun i => ⟨(hl i).1, (hl i).2.1⟩) q) fun q => ?_
  · show b.len.waits[v] = a.len.waits[v]
    rw [hw]
  · show b.len.catalog[q] = a.len.catalog[q]
    rw [hc]

theorem LenEvent.Fit.records {a b : LenEvent} (h : a.Fit) (hc : b.len.catalog = a.len.catalog) (hw : b.len.waits = a.len.waits)
    (hl : ∀ j : RecIx, b.len.leases[j].state = a.len.leases[j].state ∧ b.len.leases[j].resource = a.len.leases[j].resource ∧
      b.len.leases[j].slot = a.len.leases[j].slot ∧ b.len.leases[j].session = a.len.leases[j].session ∧
      b.len.leases[j].mode = a.len.leases[j].mode ∧ b.len.leases[j].epoch = a.len.leases[j].epoch ∧
      (a.len.leases[j].state = .reserved → b.len.leases[j].term = a.len.leases[j].term)) (g : a.Grows b) : b.Fit := by
  refine ⟨h.ok.records hc hw hl, h.wait.rises (.of_eq hc), h.own.stays (fun i hi => ?_) g.same⟩
  obtain ⟨h1, h2, h3, h4, _⟩ := hl i
  exact ⟨h1 ▸ hi, h3, h4, h2⟩

theorem LenEvent.renew_fit {e : LenEvent} (h : e.Fit) (f : Frame) : (e.renew f).Fit := by
  unfold LenEvent.renew
  dsimp only
  split
  · exact h.badOperand f _ _
  · split
    · exact h.reply f _
    · rename_i i hr
      split
      · exact h.reply f _
      · rename_i hn
        have hi : e.len.leases[i].state = .held := by
          unfold Len.renewRefusal at hn
          dsimp only at hn
          rcases Len.resolved_state hr with c | c | c
          · exact c
          · rw [endedStatus_lapsed c] at hn
            cases hn
          · rw [endedStatus_revoked c] at hn
            cases hn
        refine LenEvent.Fit.replyWith (h.records (b := e.renewRecord i _) rfl rfl (fun j => ?_) (e.renewRecord_grows i _)) f _ _
        have hj : ∀ t, (e.renewRecord i t).len.leases[j] = if j = i then _ else e.len.leases[j] :=
          fun t => Len.setLease_get _ _ _ _
        rw [hj]
        split
        · rename_i c
          subst c
          exact ⟨rfl, rfl, rfl, rfl, rfl, rfl, fun c => by rw [hi] at c; cases c⟩
        · exact ⟨rfl, rfl, rfl, rfl, rfl, rfl, fun _ => rfl⟩

theorem LenEvent.downgrade_fit {e : LenEvent} (h : e.Fit) (f : Frame) : (e.downgrade f).Fit := by
  unfold LenEvent.downgrade
  split
  · exact h.reply f _
  · rename_i i hr
    split
    · exact h.reply f _
    · rename_i hn
      have hk : e.len.leases[i].state = .held ∧ e.len.leases[i].mode = .exclusive ∧
          e.len.catalog[e.len.leases[i].resource].shareLimit ≠ 0 := by
        unfold Len.downgradeRefusal at hn
        dsimp only at hn
        rcases Len.resolved_state hr with c | c | c
        · rw [endedStatus_held c] at hn
          refine ⟨c, ?_⟩
          dsimp only at hn
          split at hn
          · cases hn
          · rename_i h1
            split at hn
            · cases hn
            · rename_i h2
              exact ⟨not_not.1 h1, h2⟩
        · rw [endedStatus_lapsed c] at hn
          cases hn
        · rw [endedStatus_revoked c] at hn
          cases hn
      obtain ⟨hi, hm, hs⟩ := hk
      have hmode : e.len.leases[i].mode = e.len.catalog[e.len.leases[i].resource].holderMode := h.ok.mode i hi
      have hcx : e.len.heldCount e.len.leases[i].resource = 1 :=
        h.ok.excl e.len.leases[i].resource (hmode.symm.trans hm)
      dsimp only
      let b := (e.modLease i fun l => { l with mode := .shared }).modEntry e.len.leases[i].resource
        fun en => { en with holderMode := .shared }
      have hbl : ∀ j : RecIx, b.len.leases[j] = if j = i then { e.len.leases[i] with mode := .shared } else e.len.leases[j] :=
        fun j => Len.setLease_get _ _ _ _
      have hbe : ∀ q : ResIx, b.len.catalog[q] = if q = e.len.leases[i].resource then
          { e.len.catalog[e.len.leases[i].resource] with holderMode := .shared } else e.len.catalog[q] :=
        fun q => Len.setEntry_get _ _ _ _
      have hli := (hbl i).trans (if_pos rfl)
      have hok : b.Ok := by
        refine Tab.Ok.remode h.ok e.len.tab_counts (i := i) (m := .shared)
          (e := e.len.catalog[e.len.leases[i].resource].epoch) hi hcx (by decide) (fun _ => Nat.pos_of_ne_zero hs) ?_
          (fun _ => rfl) (fun j hj => (hbl j).trans (if_neg hj)) ?_ ?_ ?_ ?_ (fun q => ?_) fun q => ?_
        · intro w x hw c
          cases hk : x.kind with
          | acquire m t p =>
            have := (h.ok.acq w x m t p hw hk).1
            rw [c] at this
            have hi' : (e.len.tab.l i).state = .held := hi
            rw [hi'] at this
            cases this
          | upgrade =>
            have := (h.ok.upg w x hw hk).2
            rw [c] at this
            have hm' : (e.len.tab.l i).mode = .exclusive := hm
            rw [hm'] at this
            cases this
        · exact (congrArg Lease.state hli).trans hi
        · exact (congrArg Lease.resource hli).trans rfl
        · exact congrArg Lease.mode hli
        · exact (congrArg Lease.epoch hli).trans (h.ok.epoch i hi)
        · refine Len.heldCount_same (fun j => ?_) q
          rw [hbl]
          split
          · rename_i c; subst c; exact ⟨rfl, rfl⟩
          · exact ⟨rfl, rfl⟩
        · refine (hbe q).trans ?_
          show _ = if q = e.len.leases[i].resource then _ else e.len.catalog[q]
          split
          · rename_i c
            rw [c]
            rfl
          · rfl
      refine h.pass (b := b.reply f .ok) (hok.reply f .ok) ?_ ?_ ?_
      · refine Len.Rises.trans (b := b.len) (fun q hq hp => ?_) (.of_eq rfl)
        rw [hbe, if_neg hq] at hp ⊢
        exact ⟨hp, Nat.le_refl _⟩
      · refine Len.Stays.trans (b := b.len) (fun j hj => ?_) (.of_eq rfl)
        rw [hbl] at hj ⊢
        split
        · rename_i c
          subst c
          exact ⟨by rw [hi]; decide, rfl, rfl, rfl⟩
        · rename_i c
          rw [if_neg c] at hj
          exact ⟨hj, rfl, rfl, rfl⟩
      · have : e.Grows (b.reply f .ok) := by
          refine LenEvent.Grows.trans (b := b) ?_ (b.reply_grows f .ok)
          exact (e.modLease_quiet i (fun l => { l with mode := .shared }) id fun h => h).toGrows.trans
            (LenEvent.modEntry_quiet _ _ _ ⟨BitVec.le_refl _, .inl ⟨rfl, rfl⟩⟩).toGrows
        exact this

/-! ## ACQUIRE and UPGRADE -/

/-- What the checks of an ACQUIRE say once all have passed. -/
theorem Len.acquireRefusal_none {len : Len} {n : SlotIx} {r : ResIx} {m : Mode} (h : len.acquireRefusal n r m = none) :
    len.catalog[r].state ≠ .draining ∧ (m ≠ .exclusive → len.catalog[r].shareLimit ≠ 0) ∧
      ¬∃ j : RecIx, len.leases[j].state ≠ .free ∧ len.leases[j].slot = n ∧ len.leases[j].resource = r := by
  unfold Len.acquireRefusal at h
  dsimp only at h
  split at h
  · cases h
  · rename_i h1
    split at h
    · cases h
    · split at h
      · cases h
      · split at h
        · cases h
        · rename_i h4
          split at h
          · cases h
          · rename_i h5
            exact ⟨h1, fun c d => h4 ⟨c, d⟩, fun c => h5 ((Len.hasRecordOn_iff len n r).2 c)⟩

theorem LenEvent.grantNow_lease (e : LenEvent) (f : Frame) (i j : RecIx) (r : ResIx) (m : Mode) (term : Nat) :
    (e.grantNow f i r m term).len.leases[j] =
      if j = i then
        { (e.takeRecord i f.slot r m term).len.leases[i] with
          state := .held, mode := m, epoch := e.len.catalog[r].grantEpoch m, term := term,
          deadline := deadlineAfter e.now term }
      else e.len.leases[j] := by
  refine ((e.takeRecord i f.slot r m term).grantRecord_lease i j r m term).trans ?_
  split
  · rfl
  · rename_i hj
    exact (Len.setLease_get _ _ _ _).trans (if_neg hj)

theorem LenEvent.takeRecord_lease (e : LenEvent) (i : RecIx) (n : SlotIx) (r : ResIx) (m : Mode) (term : Nat) :
    (e.takeRecord i n r m term).len.leases[i] =
      { Lease.cleared e.len.leases[i].generation with
        state := .reserved, resource := r, slot := n, session := e.len.slots[n].session, mode := m, term := term } :=
  (Len.setLease_get _ _ _ _).trans (if_pos rfl)

theorem LenEvent.grantNow_fit {e : LenEvent} (h : e.Fit) (f : Frame) {i : RecIx} {r : ResIx} {m : Mode} (term : Nat)
    (ha : e.len.slots[f.slot].state = .active) (hi : e.len.leases[i].state = .free) (ho : e.len.catalog[r].state ≠ .vacant)
    (hm : m ≠ .none) (hs : m = .shared → 1 ≤ e.len.catalog[r].shareLimit) (had : e.len.catalog[r].admits m = true)
    (hn : ¬∃ j : RecIx, e.len.leases[j].state ≠ .free ∧ e.len.leases[j].slot = f.slot ∧ e.len.leases[j].resource = r)
    (hsp : e.len.catalog[r].spentFor m = false) : (e.grantNow f i r m term).Fit := by
  have hl := e.takeRecord_lease i f.slot r m term
  refine ⟨h.ok.grantNow f term hi ho hm hs had, h.wait.rises ?_,
    h.own.take (e.grantNow_lease f i · r m term) ?_ ?_ ?_ (e.grantNow_grows f i r m term hsp).same⟩
  · refine Len.Rises.trans (b := (e.takeRecord i f.slot r m term).len) (.of_eq rfl) ?_
    exact ((e.takeRecord i f.slot r m term).grantRecord_rises i r m term).trans (.of_eq rfl)
  all_goals dsimp only; rw [hl]
  · exact ha
  · exact hn

/-- Where the last wait of the front of a queue stands ahead of a priority class, every ACQUIRE wait of that front has at least the class (R52). -/
theorem LenEvent.Ok.ahead_priority {e : LenEvent} (h : e.Ok) {r : ResIx} {n : Nat} {ahead behind : List WaitIx}
    (hq : e.len.catalog[r].queue = ahead ++ behind) (hlast : ∀ v, ahead.getLast? = some v → e.len.standsAhead n v = true) :
    ∀ v ∈ ahead, ∀ (y : Wait) (m : Mode) (t p : Nat), e.len.waits[v] = some y → y.kind = .acquire m t p → n ≤ p := by
  intro v hv y m t p hy hk
  obtain ⟨front, u, rfl⟩ : ∃ front u, ahead = front ++ [u] := ⟨_, _, (List.dropLast_append_getLast (List.ne_nil_of_mem hv)).symm⟩
  have hu := hlast u (by simp)
  have hqr : (e.len.tab.en r).queue = front ++ [u] ++ behind := hq
  have hnd := h.nodup r
  have hpw := h.prio r
  rw [hqr] at hnd hpw
  unfold Len.standsAhead at hu
  rcases List.mem_append.1 hv with hf | hf
  · split at hu
    · cases hu
    · rename_i x hx
      split at hu
      · rename_i hkx
        have hr : x.resource = r := by
          obtain ⟨x', hx', hr⟩ := (h.mem r u).1 (by rw [hqr]; simp)
          have hx'' : e.len.waits[u] = some x' := hx'
          rw [hx] at hx''
          cases hx''
          exact hr
        have hh := h.head u x hx hkx
        rw [hr, hqr] at hh
        cases front with
        | nil => cases hf
        | cons c cs =>
          cases hh
          simp at hnd
      · rename_i m' t' p' hkx
        have h1 := (List.pairwise_append.1 (List.pairwise_append.1 hpw).1).2.2 v hf u (List.mem_singleton.2 rfl) y x hy hx
        exact Nat.le_trans (of_decide_eq_true hu) (h1 m t p m' t' p' hk hkx)
  · cases List.mem_singleton.1 hf
    rw [hy] at hu
    dsimp only at hu
    rw [hk] at hu
    exact of_decide_eq_true hu

/-- An ACQUIRE parks. -/
theorem LenEvent.parkAcquire_fit {e : LenEvent} (h : e.Fit) (f : Frame) {w : WaitIx} {i : RecIx} {r : ResIx} {m : Mode}
    (term limit : Nat) (ha : e.len.slots[f.slot].state = .active) (hw : e.len.waits[w] = none)
    (hi : e.len.leases[i].state = .free) (ho : e.len.catalog[r].state = .opened) (hm : m ≠ .none)
    (hs : m = .shared → 1 ≤ e.len.catalog[r].shareLimit)
    (hn : ¬∃ j : RecIx, e.len.leases[j].state ≠ .free ∧ e.len.leases[j].slot = f.slot ∧ e.len.leases[j].resource = r) :
    (e.parkAcquire f w i r m term limit).Fit := by
  obtain ⟨ahead, behind, hq, hq', hb, hlast⟩ :=
    insertBehind_split (e.len.standsAhead e.len.slots[f.slot].profile.priority) w e.len.catalog[r].queue
  let x : Wait :=
    { kind := .acquire m term e.len.slots[f.slot].profile.priority, slot := f.slot, session := e.len.slots[f.slot].session,
      tag := f.tag, resource := r, lease := i, serial := e.len.freshSerial e.len.waitSerial 96,
      deadline := waitDeadline e.now limit }
  have hbw : ∀ v : WaitIx, (e.parkAcquire f w i r m term limit).len.waits[v] = if v = w then some x else e.len.waits[v] :=
    fun v => Len.setWait_get _ _ _ _
  let y : Lease :=
    { Lease.cleared e.len.leases[i].generation with
      state := .reserved, resource := r, slot := f.slot, session := e.len.slots[f.slot].session, mode := m, term := term }
  have hbl : ∀ j : RecIx, (e.parkAcquire f w i r m term limit).len.leases[j] = if j = i then y else e.len.leases[j] :=
    fun j => Len.setLease_get _ _ _ _
  have hbe : ∀ q : ResIx, (e.parkAcquire f w i r m term limit).len.catalog[q] =
      if q = r then
        { e.len.catalog[r] with
          queue := insertBehind (e.len.standsAhead e.len.slots[f.slot].profile.priority) w e.len.catalog[r].queue }
      else e.len.catalog[q] := fun q => Len.setEntry_get _ _ _ _
  have hli := (hbl i).trans (if_pos rfl)
  refine ⟨?_, h.wait.rises fun q _ hp => ?_, h.own.take hbl rfl ha hn (e.parkAcquire_grows f w i r m term limit).same⟩
  · refine Tab.Ok.park h.ok (w := w) (x := x) (m := m) (t := term) (p := e.len.slots[f.slot].profile.priority)
      (ahead := ahead) (behind := behind) hw hi rfl ho hm hs hq ?_ ?_ ?_ hbw (fun j hj => (hbl j).trans (if_neg hj))
      (congrArg Lease.state hli) (congrArg Lease.resource hli) (congrArg Lease.slot hli) (congrArg Lease.session hli)
      (congrArg Lease.mode hli) (congrArg Lease.term hli) (fun q => ?_) fun q => ?_
    · intro v z hv hk hr
      have hh := h.ok.head v z hv hk
      have hh' : e.len.catalog[z.resource].queue.head? = some v := hh
      have hzr : z.resource = r := hr
      have : ∀ q q' : ResIx, q = q' → e.len.catalog[q].queue = e.len.catalog[q'].queue := by rintro q q' rfl; rfl
      rw [this _ _ hzr, hq] at hh'
      cases ahead with
      | nil =>
        have hvb : v ∈ behind := List.mem_of_mem_head? hh'
        have := hb v hvb
        unfold Len.standsAhead at this
        have hv' : e.len.waits[v] = some z := hv
        rw [hv'] at this
        dsimp only at this
        rw [hk] at this
        cases this
      | cons u us => exact hh'
    · exact h.ok.ahead_priority hq hlast
    · intro v hv z m' t' p' hz hk
      have h1 := hb v hv
      unfold Len.standsAhead at h1
      have hz' : e.len.waits[v] = some z := hz
      rw [hz'] at h1
      dsimp only at h1
      rw [hk] at h1
      have := of_decide_eq_false h1
      omega
    · have h1 := e.len.heldCount_setLease i y q
      rw [if_neg (fun c => by rw [hi] at c; cases c.1), if_neg (fun c => by cases c.1)] at h1
      exact Nat.add_right_cancel h1
    · refine (hbe q).trans ?_
      show _ = if q = r then { e.len.catalog[q] with queue := ahead ++ w :: behind } else e.len.catalog[q]
      split
      · rename_i c
        rw [c, hq']
      · rfl
  · rw [hbe] at hp ⊢
    split
    · rename_i c
      subst c
      rw [if_pos rfl] at hp
      exact ⟨hp, Nat.le_refl _⟩
    · rename_i c
      rw [if_neg c] at hp
      exact ⟨hp, Nat.le_refl _⟩

theorem LenEvent.acquire_fit {e : LenEvent} (h : e.Fit) (f : Frame) (ha : e.len.slots[f.slot].state = .active) :
    (e.acquire f).Fit := by
  unfold LenEvent.acquire
  dsimp only
  split
  · exact h.badOperand f _ _
  · rename_i m hmode
    split
    · exact h.badOperand f _ _
    · split
      · exact h.badOperand f _ _
      · split
        · exact h.reply f _
        · rename_i r hlook
          split
          · exact h.reply f _
          · rename_i href
            obtain ⟨h1, h2, h3⟩ := Len.acquireRefusal_none href
            have hv : e.len.catalog[r].state ≠ .vacant := (Len.lookup_stands hlook).1
            have ho : e.len.catalog[r].state = .opened := by
              cases hc : e.len.catalog[r].state with
              | opened => rfl
              | vacant => exact absurd hc hv
              | draining => exact absurd hc h1
            have hm : m ≠ .none := by rcases modeOfCode_cases hmode with c | c <;> rw [c] <;> decide
            have hs : m = .shared → 1 ≤ e.len.catalog[r].shareLimit := fun c =>
              Nat.pos_of_ne_zero (h2 (by rw [c]; decide))
            unfold LenEvent.acquireOn
            dsimp only
            split
            · rename_i hg
              have had : e.len.catalog[r].admits m = true := by
                unfold Entry.grantable at hg
                rw [Bool.and_eq_true] at hg
                exact hg.2
              split
              · exact h.reply f _
              · exact h.reply f _
              · rename_i i hgr hfree
                exact LenEvent.grantNow_fit h f _ ha ((Len.freeLease_some _ _).1 hfree).1 hv hm hs had h3
                  (Len.grantRefusal_spent hgr)
            · split
              · exact h.reply f _
              · rename_i w i hfw hfl
                exact LenEvent.parkAcquire_fit h f _ _ ha ((Len.freeWait_some _ _).1 hfw).1
                  ((Len.freeLease_some _ _).1 hfl).1 ho hm hs h3
              · exact h.reply f _
              · exact h.reply f _

theorem LenEvent.parkUpgrade_fit {e : LenEvent} (h : e.Fit) (f : Frame) {w : WaitIx} {i : RecIx} (limit : Nat)
    (hw : e.len.waits[w] = none) (hi : e.len.leases[i].state = .held) (hm : e.len.leases[i].mode = .shared)
    (ho : e.len.catalog[e.len.leases[i].resource].state = .opened)
    (hp : e.len.catalog[e.len.leases[i].resource].upgradePending = false)
    (hc : e.len.catalog[e.len.leases[i].resource].holderCount ≠ 1) (ht : e.len.leases[i].slot = f.slot) :
    (e.parkUpgrade f w i limit).Fit := by
  let x : Wait :=
    { kind := .upgrade, slot := f.slot, session := e.len.slots[f.slot].session,
      tag := f.tag, resource := e.len.leases[i].resource, lease := i, serial := e.len.freshSerial e.len.waitSerial 96,
      deadline := waitDeadline e.now limit }
  have hbw : ∀ v : WaitIx, (e.parkUpgrade f w i limit).len.waits[v] = if v = w then some x else e.len.waits[v] :=
    fun v => Len.setWait_get _ _ _ _
  have hbe : ∀ q : ResIx, (e.parkUpgrade f w i limit).len.catalog[q] =
      if q = e.len.leases[i].resource then
        { e.len.catalog[e.len.leases[i].resource] with
          queue := w :: e.len.catalog[e.len.leases[i].resource].queue, upgradePending := true }
      else e.len.catalog[q] := fun q => Len.setEntry_get _ _ _ _
  have hu : e.len.leases[i].session = e.len.slots[f.slot].session := by
    have h1 := (h.own.1 i (by rw [hi]; decide)).2
    have : ∀ n m : SlotIx, n = m → e.len.slots[n].session = e.len.slots[m].session := by rintro n m rfl; rfl
    rw [← h1, this _ _ ht]
  refine ⟨?_, fun q hq => ?_, h.own.stays (.of_eq rfl) (e.parkUpgrade_grows f w i limit).same⟩
  · refine Tab.Ok.parkUpgrade h.ok (w := w) (x := x) hw hi hm rfl ho hp rfl ht hu hbw (fun _ => rfl) (fun _ => rfl) fun q => ?_
    refine (hbe q).trans ?_
    show _ = if q = e.len.leases[i].resource then
      { e.len.catalog[q] with queue := w :: e.len.catalog[q].queue, upgradePending := true } else e.len.catalog[q]
    split
    · rename_i c; rw [c]
    · rfl
  · rw [hbe] at hq ⊢
    split
    · rename_i c
      have h1 := e.len.heldCount_pos i hi
      have h2 : e.len.catalog[e.len.leases[i].resource].holderCount = e.len.heldCount e.len.leases[i].resource :=
        h.ok.count e.len.leases[i].resource
      show 2 ≤ e.len.catalog[e.len.leases[i].resource].holderCount
      omega
    · rename_i c
      rw [if_neg c] at hq
      exact h.wait q hq

theorem LenEvent.upgrade_fit {e : LenEvent} (h : e.Fit) (f : Frame) : (e.upgrade f).Fit := by
  unfold LenEvent.upgrade
  dsimp only
  split
  · exact h.badOperand f _ _
  · split
    · exact h.reply f _
    · split
      · exact h.reply f _
      · rename_i i hr
        split
        · exact h.reply f _
        · rename_i hn
          have hk : e.len.leases[i].state = .held ∧ e.len.leases[i].mode = .shared ∧
              e.len.catalog[e.len.leases[i].resource].state = .opened := by
            unfold Len.upgradeRefusal at hn
            dsimp only at hn
            rcases Len.resolved_state hr with c | c | c
            · rw [endedStatus_held c] at hn
              refine ⟨c, ?_⟩
              dsimp only at hn
              split at hn
              · cases hn
              · rename_i h1
                split at hn
                · cases hn
                · rename_i h2
                  exact ⟨not_not.1 h1, not_not.1 h2⟩
            · rw [endedStatus_lapsed c] at hn
              cases hn
            · rw [endedStatus_revoked c] at hn
              cases hn
          obtain ⟨hi, hm, ho⟩ := hk
          unfold LenEvent.upgradeLease
          dsimp only
          split
          · rename_i hc
            split
            · exact h.reply f _
            · rename_i hsp
              have hp : e.len.catalog[e.len.leases[i].resource].upgradePending = false := by
                rw [← Bool.not_eq_true]
                intro c
                have := h.wait _ c
                omega
              have hnw : ∀ (w : WaitIx) (x : Wait), e.len.waits[w] = some x → x.lease ≠ i := by
                intro w x hw c
                cases hk : x.kind with
                | acquire m t p =>
                  have := (h.ok.acq w x m t p hw hk).1
                  rw [c] at this
                  have hi' : (e.len.tab.l i).state = .held := hi
                  rw [hi'] at this
                  cases this
                | upgrade =>
                  have h1 := h.ok.res w x hw
                  rw [c] at h1
                  have h2 : e.len.catalog[e.len.leases[i].resource].upgradePending = true :=
                    (h.ok.pend e.len.leases[i].resource).2 ⟨w, x, hw, h1.symm, hk⟩
                  rw [hp] at h2
                  cases h2
              exact h.go ((h.ok.makeExclusive hi rfl hc hnw).completeGrant _ _ _ _)
                ((e.makeExclusive_rises i _).trans (.of_eq rfl)) ((e.makeExclusive_stays i _).trans (.of_eq rfl))
                ((e.makeExclusive_quiet i _ hsp).toGrows.trans (LenEvent.completeGrant_grows _ _ _ _ _))
          · rename_i hc
            split
            · exact h.reply f _
            · rename_i w hpark hfw
              have hp : e.len.catalog[e.len.leases[i].resource].upgradePending = false := by
                unfold Len.upgradeParkRefusal at hpark
                split at hpark
                · cases hpark
                · rename_i c
                  exact Bool.eq_false_iff.2 c
              have ht : e.len.leases[i].slot = f.slot := by
                have := (Len.resolve_ok _ _ _ _).1 hr
                rw [this.1]
                exact this.2.2
              exact LenEvent.parkUpgrade_fit h f _ ((Len.freeWait_some _ _).1 hfw).1 hi hm ho hp hc ht
            · exact h.reply f _

/-! ## CANCEL, BREAK, NOTICES -/

theorem LenEvent.cancel_fit {e : LenEvent} (h : e.Fit) (f : Frame) : (e.cancel f).Fit := by
  unfold LenEvent.cancel
  dsimp only
  split
  · exact h.badOperand f _ _
  · unfold LenEvent.cancelTag
    split
    · rename_i w _
      exact h.pass ((h.ok.finishWait w false .cancelled).reply f .ok)
        ((h.ok.finishWait_rises w false .cancelled).all.trans (.of_eq rfl))
        ((e.finishWait_stays w false .cancelled).trans (.of_eq rfl))
        ((e.finishWait_grows w false .cancelled).trans (LenEvent.reply_grows _ f _))
    · exact h.reply f _

theorem Len.resolveHeld_held {len : Len} {n : Nat} {i : RecIx} (h : len.resolveHeld n = some i) : len.leases[i].state = .held := by
  unfold Len.resolveHeld at h
  dsimp only at h
  split at h
  · rename_i c
    cases h
    exact c.1
  · cases h

theorem LenEvent.breakLease_fit {e : LenEvent} (h : e.Fit) (f : Frame) : (e.breakLease f).Fit := by
  unfold LenEvent.breakLease
  dsimp only
  split
  · exact h.reply f _
  · split
    · exact h.badOperand f _ _
    · split
      · split
        · exact h.reply f _
        · rename_i i hi
          have hi := Len.resolveHeld_held hi
          split
          · exact h.pass ((h.ok.revokeRecord i hi).replyWith f .ok [1])
              ((e.revokeRecord_lowers i).trans (.of_eq rfl)) ((e.revokeRecord_stays i hi).trans (.of_eq rfl))
              ((e.revokeRecord_grows i).trans (LenEvent.replyWith_grows _ f _ _))
          · exact h.reply f _
      · split
        · exact h.reply f _
        · rename_i r _
          split
          · exact h.pass ((h.ok.revokeAll r).1.replyWith f .ok _)
              ((e.revokeAll_lowers r).trans (.of_eq rfl)) ((h.ok.revokeAll r).2.trans (.of_eq rfl))
              ((e.revokeAll_grows r).trans (LenEvent.replyWith_grows _ f _ _))
          · exact h.reply f _

theorem LenEvent.unmark_fit (is : List RecIx) {e : LenEvent} (h : e.Fit) :
    (is.foldl (fun e i => e.modLease i fun l => { l with changeMark := false }) e).Fit := by
  induction is generalizing e with
  | nil => exact h
  | cons i is ih =>
    refine ih (h.records (b := e.modLease i fun l => { l with changeMark := false }) rfl rfl (fun j => ?_)
      (e.modLease_quiet i (fun l => { l with changeMark := false }) id fun h => h).toGrows)
    have hj : (e.modLease i fun l => { l with changeMark := false }).len.leases[j] =
        if j = i then { e.len.leases[i] with changeMark := false } else e.len.leases[j] := Len.setLease_get _ _ _ _
    rw [hj]
    split
    · rename_i c
      subst c
      exact ⟨rfl, rfl, rfl, rfl, rfl, rfl, fun _ => rfl⟩
    · exact ⟨rfl, rfl, rfl, rfl, rfl, rfl, fun _ => rfl⟩

theorem LenEvent.notices_fit {e : LenEvent} (h : e.Fit) (f : Frame) : (e.notices f).Fit := by
  unfold LenEvent.notices
  exact (LenEvent.unmark_fit _ h).replyWith f _ _

/-! ## DEFINE and RETIRE -/

theorem LenEvent.define_fit {e : LenEvent} (h : e.Fit) (f : Frame) : (e.define f).Fit := by
  unfold LenEvent.define
  dsimp only
  split
  · exact h.reply f _
  · split
    · exact h.badOperand f _ _
    · split
      · exact h.reply f _
      · split
        · exact h.reply f _
        · rename_i r hr
          have hv := ((Len.vacantEntry_some _ _).1 hr).1
          refine LenEvent.Fit.replyWith ?_ f _ _
          generalize defineOperands f.operands = d
          have hbe : ∀ q : ResIx, (e.modEntry r fun _ => d.entry).len.catalog[q] =
              if q = r then d.entry else e.len.catalog[q] := fun q => Len.setEntry_get _ _ _ _
          have hbr := (hbe r).trans (if_pos rfl)
          refine ⟨?_, fun q hq => ?_, h.own.stays (.of_eq rfl) fun _ => ⟨rfl, rfl⟩⟩
          · exact Tab.Ok.enter h.ok e.len.tab_counts (r := r) hv (fun _ => rfl) (fun _ => rfl) (fun _ => rfl)
              (fun q hq => (hbe q).trans (if_neg hq)) (congrArg Entry.state hbr) (congrArg Entry.holderMode hbr)
              (congrArg Entry.holderCount hbr) (congrArg Entry.queue hbr) (congrArg Entry.upgradePending hbr)
          · rw [hbe] at hq ⊢
            split
            · rename_i c
              rw [if_pos c] at hq
              cases hq
            · rename_i c
              rw [if_neg c] at hq
              exact h.wait q hq

/-- Ending every wait of a list keeps the agreement, ends them all, and lowers no holders. -/
theorem LenEvent.Ok.finishWaits {e : LenEvent} (h : e.Ok) (ws : List WaitIx) (st : Status) :
    (ws.foldl (fun e w => e.finishWait w false st) e).Ok ∧
      Len.Rises nowhere e.len (ws.foldl (fun e w => e.finishWait w false st) e).len ∧
      e.len.Stays (ws.foldl (fun e w => e.finishWait w false st) e).len ∧
      ∀ v : WaitIx, (ws.foldl (fun e w => e.finishWait w false st) e).len.waits[v] =
        if v ∈ ws then none else e.len.waits[v] := by
  induction ws generalizing e with
  | nil => exact ⟨h, .refl _, .refl _, fun v => by rw [if_neg List.not_mem_nil]; rfl⟩
  | cons w ws ih =>
    obtain ⟨h1, h2, h3, h4⟩ := ih (h.finishWait w false st)
    refine ⟨h1, (h.finishWait_rises w false st).trans h2, (e.finishWait_stays w false st).trans h3, fun v => ?_⟩
    have hw : (e.finishWait w false st).len.waits[v] = if v = w then none else e.len.waits[v] := by
      unfold LenEvent.finishWait
      split
      · rename_i hn
        split
        · rename_i c; rw [c]; exact hn
        · rfl
      · exact e.dropWait_wait w v false
    rw [List.foldl_cons, h4, hw]
    by_cases hv : v = w
    · rw [if_pos hv, ite_self, if_pos (hv ▸ List.mem_cons_self)]
    · rw [if_neg hv]
      by_cases hm : v ∈ ws
      · rw [if_pos hm, if_pos (List.mem_cons_of_mem _ hm)]
      · rw [if_neg hm, if_neg fun c => (List.mem_cons.1 c).elim hv hm]

theorem LenEvent.leaveOpen_entry (e : LenEvent) (r q : ResIx) :
    (e.leaveOpen r).len.catalog[q] =
      if q = r then
        if e.len.recordsOn r = 0 then Entry.vacant e.len.catalog[r].epoch else { e.len.catalog[r] with state := .draining }
      else e.len.catalog[q] := by
  unfold LenEvent.leaveOpen
  split
  · exact Len.setEntry_get _ _ _ _
  · exact Len.setEntry_get _ _ _ _

theorem LenEvent.leaveOpen_rest (e : LenEvent) (r : ResIx) : (e.leaveOpen r).len.leases = e.len.leases ∧
    (e.leaveOpen r).len.waits = e.len.waits ∧ (e.leaveOpen r).len.slots = e.len.slots := by
  unfold LenEvent.leaveOpen
  split <;> exact ⟨rfl, rfl, rfl⟩

/-- An entry without waits leaves OPEN. -/
theorem LenEvent.Ok.leaveOpen {e : LenEvent} (h : e.Ok) (r : ResIx) (hq : e.len.catalog[r].queue = []) : (e.leaveOpen r).Ok := by
  obtain ⟨hl, hw, _⟩ := e.leaveOpen_rest r
  refine Tab.Ok.close h e.len.tab_counts (r := r) hq (fun v => ?_) (fun j => ?_) (fun q => Len.heldCount_congr hl q)
    (fun q hqr => (e.leaveOpen_entry r q).trans (if_neg hqr)) ?_
  · show (e.leaveOpen r).len.waits[v] = e.len.waits[v]
    rw [hw]
  · show (e.leaveOpen r).len.leases[j] = e.len.leases[j]
    rw [hl]
  · have h1 := (e.leaveOpen_entry r r).trans (if_pos rfl)
    by_cases hz : e.len.recordsOn r = 0
    · exact .inr ⟨⟨_, h1.trans (if_pos hz)⟩, (Len.recordsOn_zero _ _).1 hz⟩
    · refine .inl ⟨h1.trans (if_neg hz), ?_⟩
      by_contra hc
      exact hz ((Len.recordsOn_zero _ _).2 fun j hj e => hc ⟨j, hj, e⟩)

theorem LenEvent.retireEntry_fit {e : LenEvent} (h : e.Fit) (f : Frame) (r : ResIx) (force : Bool) :
    (e.retireEntry f r force).Fit := by
  unfold LenEvent.retireEntry
  dsimp only
  refine LenEvent.Fit.replyWith ?_ f _ _
  have h1 : (if force then e.revokeAll r else e).Ok ∧ Len.Rises (· = r) e.len (if force then e.revokeAll r else e).len ∧
      e.len.Stays (if force then e.revokeAll r else e).len ∧ e.Grows (if force then e.revokeAll r else e) := by
    split
    · exact ⟨(h.ok.revokeAll r).1, e.revokeAll_lowers r, (h.ok.revokeAll r).2, e.revokeAll_grows r⟩
    · exact ⟨h.ok, .refl _, .refl _, .refl _⟩
  generalize (if force then e.revokeAll r else e) = a at h1
  obtain ⟨k1, k2, k3, k4⟩ := h1
  obtain ⟨m1, m2, m3, m4⟩ := k1.finishWaits a.len.catalog[r].queue .retired
  have m5 := a.retireWaits_grows r
  have hq : (a.retireWaits r).len.catalog[r].queue = [] := by
    refine List.eq_nil_iff_forall_not_mem.2 fun w hw => ?_
    obtain ⟨x, hx, hxr⟩ := (m1.mem r w).1 hw
    have hx' : (a.retireWaits r).len.waits[w] = some x := hx
    have h4 : (a.retireWaits r).len.waits[w] = if w ∈ a.len.catalog[r].queue then none else a.len.waits[w] := m4 w
    rw [h4] at hx'
    split at hx'
    · cases hx'
    · rename_i hn
      exact hn ((k1.mem r w).2 ⟨x, hx', hxr⟩)
  have m1' : (a.retireWaits r).Ok := m1
  obtain ⟨hl, hw, hs⟩ := (a.retireWaits r).leaveOpen_rest r
  refine ⟨m1'.leaveOpen r hq, fun q hp => ?_, h.own.stays ((k3.trans m3).trans (.of_eq hl)) fun n => ?_⟩
  · by_cases hqr : q = r
    · subst hqr
      obtain ⟨v, y, hv, hy, _⟩ := ((m1'.leaveOpen q hq).pend q).1 hp
      have hv' : ((a.retireWaits q).leaveOpen q).len.waits[v] = some y := hv
      rw [hw] at hv'
      have := (m1'.mem q v).2 ⟨y, hv', hy⟩
      have hq' : ((a.retireWaits q).len.tab.en q).queue = [] := hq
      rw [hq'] at this
      cases this
    · rw [(a.retireWaits r).leaveOpen_entry, if_neg hqr] at hp ⊢
      have m2' : Len.Rises nowhere a.len (a.retireWaits r).len := m2
      obtain ⟨h1, h2⟩ := m2' q id hp
      obtain ⟨h3, h4⟩ := k2 q hqr h1
      exact Nat.le_trans (h.wait q h3) (Nat.le_trans h4 h2)
  · have := (k4.trans m5).same n
    have hs' : ((a.retireWaits r).leaveOpen r).len.slots[n] = (a.retireWaits r).len.slots[n] := by rw [hs]
    rw [hs']
    exact this

theorem LenEvent.retire_fit {e : LenEvent} (h : e.Fit) (f : Frame) : (e.retire f).Fit := by
  unfold LenEvent.retire
  dsimp only
  split
  · exact h.reply f _
  · split
    · exact h.badOperand f _ _
    · split
      · exact h.reply f _
      · exact LenEvent.retireEntry_fit h f _ _

/-! ## Requests that change no table -/

theorem LenEvent.querySlot_fit {e : LenEvent} (h : e.Fit) (f : Frame) : (e.querySlot f).Fit := by
  unfold LenEvent.querySlot
  repeat' split
  all_goals exact h.replyWith f _ _

theorem LenEvent.queryLease_fit {e : LenEvent} (h : e.Fit) (f : Frame) : (e.queryLease f).Fit := by
  unfold LenEvent.queryLease
  repeat' split
  all_goals exact h.replyWith f _ _

theorem LenEvent.queryResource_fit {e : LenEvent} (h : e.Fit) (f : Frame) : (e.queryResource f).Fit := by
  unfold LenEvent.queryResource
  repeat' split
  all_goals exact h.replyWith f _ _

theorem LenEvent.tokenCheck_fit {e : LenEvent} (h : e.Fit) (f : Frame) : (e.tokenCheck f).Fit := by
  unfold LenEvent.tokenCheck
  dsimp only
  repeat' split
  all_goals exact h.replyWith f _ _

theorem LenEvent.profileRead_fit {e : LenEvent} (h : e.Fit) (f : Frame) : (e.profileRead f).Fit := by
  unfold LenEvent.profileRead
  repeat' split
  all_goals exact h.replyWith f _ _

theorem LenEvent.profileSet_fit {e : LenEvent} (h : e.Fit) (f : Frame) : (e.profileSet f).Fit := by
  unfold LenEvent.profileSet
  dsimp only
  split
  · exact h.reply f _
  · split
    · exact h.badOperand f _ _
    · split
      · exact h.profileRefused f _ _ _
      · split
        · exact h.profileRefused f _ _ _
        · split
          · exact h.profileRefused f _ _ _
          · exact (h.modSlot _ _ ⟨rfl, rfl⟩).reply f _

theorem LenEvent.restoreProfiles_fit (ns : List SlotIx) {e : LenEvent} (h : e.Fit) : (ns.foldl LenEvent.restoreProfile e).Fit := by
  induction ns generalizing e with
  | nil => exact h
  | cons n ns ih => exact ih (h.modSlot n _ ⟨rfl, rfl⟩)

theorem LenEvent.profileRestore_fit {e : LenEvent} (h : e.Fit) (f : Frame) : (e.profileRestore f).Fit := by
  unfold LenEvent.profileRestore
  dsimp only
  split
  · exact h.reply f _
  · split
    · exact h.profileRefused f _ _ _
    · split
      · exact (LenEvent.restoreProfiles_fit _ h).reply f _
      · split
        · exact h.profileRefused f _ _ _
        · exact (h.modSlot _ _ ⟨rfl, rfl⟩).reply f _

theorem LenEvent.profileFreeze_fit {e : LenEvent} (h : e.Fit) (f : Frame) : (e.profileFreeze f).Fit := by
  unfold LenEvent.profileFreeze
  split
  · exact h.reply f _
  · split
    · exact h.profileRefused f _ _ _
    · exact LenEvent.Fit.reply
        (h.of_tables (b := { e with len := { e.len with frozen := true } }) rfl rfl rfl fun _ => ⟨rfl, rfl⟩) f _

theorem LenEvent.config_fit {e : LenEvent} (h : e.Fit) (f : Frame) : (e.config f).Fit := by
  unfold LenEvent.config
  dsimp only
  split
  · exact h.reply f _
  · split
    · exact h.badOperand f _ _
    · split
      · exact h.profileRefused f _ _ _
      · exact h.of_tables rfl rfl rfl fun _ => ⟨rfl, rfl⟩

/-! ## Sessions -/

theorem LenEvent.foldl_freeRecord_free (is : List RecIx) (e : LenEvent) (i : RecIx) (h : i ∈ is) :
    (is.foldl LenEvent.freeRecord e).len.leases[i].state = .free := by
  have key : ∀ (js : List RecIx) (a : LenEvent), a.len.leases[i].state = .free →
      (js.foldl LenEvent.freeRecord a).len.leases[i].state = .free := by
    intro js
    induction js with
    | nil => exact fun _ h => h
    | cons j js ih =>
      intro a ha
      refine ih _ ?_
      rcases a.freeRecord_frees j i with c | c
      · rw [c]; exact ha
      · exact c
  induction is generalizing e with
  | nil => cases h
  | cons j is ih =>
    rcases List.mem_cons.1 h with rfl | hm
    · refine key is _ ?_
      rw [e.freeRecord_lease i i, if_pos rfl]
      rfl
    · exact ih _ hm

/-- After the purge of the session in force, the slot owns no record. -/
theorem LenEvent.purge_leaves {e : LenEvent} (h : e.len.ownersAgree) (n : SlotIx) (i : RecIx)
    (hi : (e.purge n e.len.slots[n].session).len.leases[i].state ≠ .free) :
    (e.purge n e.len.slots[n].session).len.leases[i].slot ≠ n := by
  intro hn
  obtain ⟨h1, h2, h3, _⟩ := e.purge_stays n e.len.slots[n].session i hi
  have h4 := (h.1 i h1).2
  rw [hn] at h2
  have h5 : ∀ m k : SlotIx, m = k → e.len.slots[m].session = e.len.slots[k].session := by rintro m k rfl; rfl
  rw [h5 _ _ h2.symm] at h4
  have hd := e.dropWaits_frees (e.len.waitsOf n e.len.slots[n].session) i
  unfold LenEvent.purge at hi
  dsimp only at hi
  by_cases hm : i ∈ ((e.len.waitsOf n e.len.slots[n].session).foldl (fun e w => e.dropWait w false) e).len.recordsOf n
      e.len.slots[n].session
  · exact hi (LenEvent.foldl_freeRecord_free _ _ i hm)
  · have hf : ∀ (js : List RecIx) (a : LenEvent), a.len.Frees (js.foldl LenEvent.freeRecord a).len := by
      intro js
      induction js with
      | nil => exact fun a => .refl _
      | cons j js ih => exact fun a => (a.freeRecord_frees j).trans (ih _)
    rcases hd with c | c
    · refine hm ((Len.mem_recordsOf _ _ _ _).2 ?_)
      rw [c]
      exact ⟨h1, h2.symm, h4.symm⟩
    · rcases hf (((e.len.waitsOf n e.len.slots[n].session).foldl (fun e w => e.dropWait w false) e).len.recordsOf n
        e.len.slots[n].session) ((e.len.waitsOf n e.len.slots[n].session).foldl (fun e w => e.dropWait w false) e) i with d | d
      · rw [d] at hi
        exact hi c
      · exact hi d

/-- A session ends: its purge, a change of its own slot, and the grant passes. -/
theorem LenEvent.Fit.ended {e : LenEvent} (h : e.Fit) (n : SlotIx) (g : LenEvent → LenEvent)
    (hg : ∀ a : LenEvent, (g a).len.catalog = a.len.catalog ∧ (g a).len.leases = a.len.leases ∧
      (g a).len.waits = a.len.waits ∧ ∀ m : SlotIx, m ≠ n → (g a).len.slots[m] = a.len.slots[m]) :
    ((g (e.purge n e.len.slots[n].session)).purgePasses (e.len.touchedBy n e.len.slots[n].session)).Fit := by
  have hp := h.ok.purge n e.len.slots[n].session
  have hr := h.ok.purge_lowers n e.len.slots[n].session
  have ho : (e.purge n e.len.slots[n].session).len.ownersAgree :=
    h.own.stays (e.purge_stays n _) (e.purge_quiet n _).toGrows.same
  have hv := fun i => LenEvent.purge_leaves h.own n i
  generalize e.purge n e.len.slots[n].session = a at hp hr ho hv
  obtain ⟨hc, hl, hw, hs⟩ := hg a
  have hb : (g a).Ok := hp.of_tables hc hl hw
  refine ⟨(hb.purgePasses _).1, hb.purgePasses_waits _ (h.wait.but (hr.trans (.of_eq hc))), ?_⟩
  exact (ho.leave n hl hv fun m hm => by rw [hs m hm]; exact ⟨rfl, rfl⟩).stays (hb.purgePasses _).2
    ((g a).purgePasses_grows _).same

theorem LenEvent.detach_fit {e : LenEvent} (h : e.Fit) (f : Frame) : (e.detach f).Fit :=
  h.ended f.slot
    (fun a => (((a.removeKeepalive f.slot).modSlot f.slot fun s =>
      { s with state := .vacant, endCause := .detached, keepaliveDeadline := none }).clearAnswered f.slot).notify
        (.ended f.slot .vacant))
    fun _ => ⟨rfl, rfl, rfl, fun _ hm => (Len.setSlot_get _ _ _ _).trans
      ((if_neg hm).trans ((Len.setSlot_get _ _ _ _).trans (if_neg hm)))⟩

theorem LenEvent.loseSession_fit {e : LenEvent} (h : e.Fit) (n : SlotIx) : (e.loseSession n).Fit :=
  h.ended n
    (fun a => ((a.modSlot n fun s =>
      { s with state := .lost, endCause := .keepalive, keepaliveDeadline := none }).clearAnswered n).notify (.ended n .lost))
    fun _ => ⟨rfl, rfl, rfl, fun _ hm => (Len.setSlot_get _ _ _ _).trans
      ((if_neg hm).trans ((Len.setSlot_get _ _ _ _).trans (if_neg hm)))⟩

/-- What an ATTACH to an ACTIVE slot does between the purge and the grant passes. -/
def LenEvent.replaceSession (a : LenEvent) (p : Port) (f : Frame) (ticks : Nat) (session : Session) : LenEvent :=
  ((((((a.removeKeepalive f.slot).modSlot f.slot fun s => { s with endCause := .replaced }).beginSession f.slot p
    ticks).notify (.ended f.slot .active)).notify (.begun f.slot session p)).clearAnswered f.slot).replyWith f .replaced
      (attachPayload session .replaced (resolveKeepalive ticks))

theorem LenEvent.replaceSession_rest (a : LenEvent) (p : Port) (f : Frame) (ticks : Nat) (session : Session) :
    (a.replaceSession p f ticks session).len.catalog = a.len.catalog ∧
      (a.replaceSession p f ticks session).len.leases = a.len.leases ∧
      (a.replaceSession p f ticks session).len.waits = a.len.waits ∧
      ∀ m : SlotIx, m ≠ f.slot → (a.replaceSession p f ticks session).len.slots[m] = a.len.slots[m] := by
  refine ⟨rfl, rfl, rfl, fun m hm => ?_⟩
  have hset : ∀ (len : Len) (x : Slot), (len.setSlot f.slot x).slots[m] = len.slots[m] :=
    fun len x => (Len.setSlot_get _ _ _ _).trans (if_neg hm)
  have h1 : ∀ (b : LenEvent) (st : Status) (bs : List Byte), (b.replyWith f st bs).len.slots[m] = b.len.slots[m] :=
    fun b _ _ => hset b.len _
  have h2 : ∀ b : LenEvent, (b.clearAnswered f.slot).len.slots[m] = b.len.slots[m] := fun b => hset b.len _
  have h3 : ∀ (b : LenEvent) (q : RquMsg), (b.notify q).len.slots[m] = b.len.slots[m] := fun _ _ => rfl
  have h4 : ∀ b : LenEvent, (b.beginSession f.slot p ticks).len.slots[m] = b.len.slots[m] := fun b => hset b.len _
  have h5 : ∀ (b : LenEvent) (g : Slot → Slot), (b.modSlot f.slot g).len.slots[m] = b.len.slots[m] := fun b _ => hset b.len _
  have h6 : ∀ b : LenEvent, (b.removeKeepalive f.slot).len.slots[m] = b.len.slots[m] := fun _ => rfl
  unfold LenEvent.replaceSession
  rw [h1, h2, h3, h3, h4, h5, h6]

theorem LenEvent.attachReplacing_eq (e : LenEvent) (p : Port) (f : Frame) (ticks : Nat) :
    e.attachReplacing p f ticks =
      ((e.purge f.slot e.len.slots[f.slot].session).replaceSession p f ticks
        (nextSession e.len.slots[f.slot].session)).purgePasses (e.len.touchedBy f.slot e.len.slots[f.slot].session) := by
  unfold LenEvent.attachReplacing LenEvent.replaceSession
  rfl

theorem LenEvent.attachReplacing_fit {e : LenEvent} (h : e.Fit) (p : Port) (f : Frame) (ticks : Nat) :
    (e.attachReplacing p f ticks).Fit := by
  rw [LenEvent.attachReplacing_eq]
  exact h.ended f.slot (fun a => a.replaceSession p f ticks (nextSession e.len.slots[f.slot].session))
    fun a => a.replaceSession_rest p f ticks _

theorem LenEvent.attachFresh_fit {e : LenEvent} (h : e.Fit) (p : Port) (f : Frame) (ticks : Nat)
    (ha : e.len.slots[f.slot].state ≠ .active) : (e.attachFresh p f ticks).Fit := by
  refine ⟨h.ok.of_tables rfl rfl rfl, h.wait.rises (.of_eq rfl), h.own.leave f.slot rfl (fun i hi c => ?_) fun m hm => ?_⟩
  · have h1 := (h.own.1 i hi).1
    have h5 : ∀ m k : SlotIx, m = k → e.len.slots[m].state = e.len.slots[k].state := by rintro m k rfl; rfl
    rw [h5 _ _ c] at h1
    exact ha h1
  · have hset : ∀ (len : Len) (x : Slot), (len.setSlot f.slot x).slots[m] = len.slots[m] := fun len x =>
      (Len.setSlot_get _ _ _ _).trans (if_neg hm)
    have hs : (e.attachFresh p f ticks).len.slots[m] = e.len.slots[m] :=
      (hset _ _).trans ((hset _ _).trans (hset _ _))
    rw [hs]
    exact ⟨rfl, rfl⟩

/-! ## Expiries -/

theorem LenEvent.lapse_fit {e : LenEvent} (h : e.Fit) (i : RecIx) (hi : e.len.leases[i].state = .held) : (e.lapse i).Fit :=
  h.pass (h.ok.lapseRecord i hi) (e.lapseRecord_lowers i) (e.lapseRecord_stays i hi) (e.lapseRecord_grows i)

theorem LenEvent.timeOut_fit {e : LenEvent} (h : e.Fit) (w : WaitIx) : (e.timeOut w).Fit := by
  unfold LenEvent.timeOut
  split
  · exact h
  · exact h.pass (h.ok.finishWait w true .timedOut) (h.ok.finishWait_rises w true .timedOut).all
      (e.finishWait_stays w true .timedOut) (e.finishWait_grows w true .timedOut)

/-! ## The commands -/

theorem LenEvent.performFrame_fit {e : LenEvent} (h : e.Fit) (f : Frame) (request : LenEvent → LenEvent)
    (hl : e.len.live f = true)
    (hr : ∀ a : LenEvent, a.Fit → a.len.slots[f.slot].state = .active → (request a).Fit) : (e.performFrame f request).Fit := by
  unfold LenEvent.performFrame
  dsimp only
  have hs : ∀ (a : LenEvent) (g : Slot → Slot), (g a.len.slots[f.slot]).state = a.len.slots[f.slot].state →
      a.len.slots[f.slot].state = .active → (a.modSlot f.slot g).len.slots[f.slot].state = .active := by
    intro a g hg ha
    rw [LenEvent.modSlot_len, Len.setSlot_get, if_pos rfl, hg, ha]
  have ha : e.len.slots[f.slot].state = .active := by
    unfold Len.live at hl
    exact (of_decide_eq_true hl).1
  have h1 : (e.modSlot f.slot fun s => { s with answered := s.answered.set f.tag false }).Fit := h.modSlot _ _ ⟨rfl, rfl⟩
  have h2 := hs e (fun s => { s with answered := s.answered.set f.tag false }) rfl ha
  generalize (e.modSlot f.slot fun s => { s with answered := s.answered.set f.tag false }) = a at h1 h2
  have h3 : (if f.kind = .detach then a else a.refreshKeepalive f.slot).Fit ∧
      (if f.kind = .detach then a else a.refreshKeepalive f.slot).len.slots[f.slot].state = .active := by
    split
    · exact ⟨h1, h2⟩
    · exact ⟨LenEvent.Fit.of_tables (h1.modSlot f.slot
        (fun s => { s with keepaliveDeadline := some (deadlineAfter a.now a.len.slots[f.slot].keepaliveTerm) }) ⟨rfl, rfl⟩)
          rfl rfl rfl fun _ => ⟨rfl, rfl⟩,
        hs a (fun s => { s with keepaliveDeadline := some (deadlineAfter a.now a.len.slots[f.slot].keepaliveTerm) }) rfl h2⟩
  generalize (if f.kind = .detach then a else a.refreshKeepalive f.slot) = b at h3
  split
  · exact hr b h3.1 h3.2
  · exact h3.1.badOperand f _ _

/-- News are no part of the agreement. -/
theorem Len.agrees_withNews {a b : Len} (h : a.agrees) : (a.withNews b).agrees := by
  have h' : ({ now := 0, len := a, toLck := [], toRqu := [], toTwp := [] } : LenEvent).Fit := (LenEvent.fit_iff _).2 h
  have : ({ now := 0, len := a.withNews b, toLck := [], toRqu := [], toTwp := [] } : LenEvent).Fit :=
    h'.of_tables rfl rfl rfl fun n => by
      show (a.withNews b).slots[n].state = a.slots[n].state ∧ (a.withNews b).slots[n].session = a.slots[n].session
      rw [Len.withNews_slot]
      exact ⟨rfl, rfl⟩
  exact (LenEvent.fit_iff _).1 this

theorem Len.agrees.of_tables {a b : Len} (h : a.agrees) (hc : b.catalog = a.catalog) (hl : b.leases = a.leases)
    (hw : b.waits = a.waits) (hs : b.slots = a.slots) : b.agrees := by
  have h' : ({ now := 0, len := a, toLck := [], toRqu := [], toTwp := [] } : LenEvent).Fit := (LenEvent.fit_iff _).2 h
  have : ({ now := 0, len := b, toLck := [], toRqu := [], toTwp := [] } : LenEvent).Fit :=
    h'.of_tables hc hl hw fun n => by
      show b.slots[n].state = a.slots[n].state ∧ b.slots[n].session = a.slots[n].session
      rw [hs]
      exact ⟨rfl, rfl⟩
  exact (LenEvent.fit_iff _).1 this

theorem State.runLen_agrees {s : State} (h : s.len.agrees) (event : LenEvent → LenEvent)
    (he : ∀ a : LenEvent, a.Fit → a.len = s.len → (event a).Fit) : (s.runLen event).len.agrees :=
  Len.agrees_withNews ((LenEvent.fit_iff _).1 (he _ ((LenEvent.fit_iff _).2 h) rfl))

theorem State.takeRequest_agrees {s : State} (h : s.len.agrees) (k : ReqKind) (request : Frame → LenEvent → LenEvent)
    (hr : ∀ (f : Frame) (a : LenEvent), a.Fit → a.len.slots[f.slot].state = .active → (request f a).Fit) :
    (s.takeRequest k request).len.agrees := by
  unfold State.takeRequest
  split
  · exact h
  · rename_i p f _
    dsimp only
    have hp : (s.popFrame p).len.agrees := h.of_tables rfl rfl rfl rfl
    split
    · rename_i hl
      exact State.runLen_agrees hp _ fun a ha he => LenEvent.performFrame_fit ha f _ (by rw [he]; exact hl) (hr f)
    · rw [State.refuseAtTake_len]
      exact hp

/-- Tables without a record in use, a wait, or a holder agree. -/
theorem Len.agrees_empty {len : Len} (he : ∀ r : ResIx, len.catalog[r].holderMode = .none ∧ len.catalog[r].holderCount = 0 ∧
      len.catalog[r].queue = [] ∧ len.catalog[r].upgradePending = false)
    (hl : ∀ i : RecIx, len.leases[i].state = .free) (hw : ∀ w : WaitIx, len.waits[w] = none) : len.agrees := by
  have hc : ∀ r, len.heldCount r = 0 := fun r => len.heldCount_zero r fun i hi => by rw [hl] at hi; cases hi
  refine ⟨⟨fun r => ⟨by rw [(he r).2.1, hc], ?_, fun c => ?_, fun c => ?_, fun i hi => ?_⟩, fun i hi => absurd (hl i) hi,
    ⟨fun r => ⟨by rw [(he r).2.2.1]; exact List.nodup_nil, fun w h => by rw [(he r).2.2.1] at h; cases h⟩,
      fun w x h => ?_, fun r _ => (he r).2.2.1, fun r => by rw [(he r).2.2.1]; exact List.Pairwise.nil⟩,
    ⟨fun w x h => ?_, fun w v x y h => ?_, fun i hi => ?_⟩, ⟨fun r => ?_, fun w x h => ?_⟩⟩, fun r hr => ?_,
    fun i hi => absurd (hl i) hi, fun i j hi => absurd (hl i) hi⟩
  · rw [(he r).1, (he r).2.1]
    exact ⟨fun _ => rfl, fun _ => rfl⟩
  · rw [(he r).1] at c; cases c
  · rw [(he r).1] at c; cases c
  · rw [hl] at hi; cases hi
  · rw [hw] at h; cases h
  · rw [hw] at h; cases h
  · rw [hw] at h; cases h
  · rw [hl] at hi; cases hi
  · rw [(he r).2.2.2]
    refine ⟨fun c => (by cases c), ?_⟩
    rintro ⟨w, x, h, _⟩
    rw [hw] at h; cases h
  · rw [hw] at h; cases h
  · rw [(he r).2.2.2] at hr; cases hr

theorem Len.afterPor_agrees : Len.afterPor.agrees := by
  refine Len.agrees_empty (fun r => ?_) (fun i => ?_) fun w => ?_
  · have : Len.afterPor.catalog[r] = Entry.vacant 0 := by
      show (Vector.replicate 64 (Entry.vacant 0))[r.val] = _
      exact Vector.getElem_replicate _
    rw [this]
    exact ⟨rfl, rfl, rfl, rfl⟩
  · have : Len.afterPor.leases[i] = Lease.cleared 1 := by
      show (Vector.replicate 128 (Lease.cleared 1))[i.val] = _
      exact Vector.getElem_replicate _
    rw [this]
    rfl
  · show (Vector.replicate 96 (none : Option Wait))[w.val] = _
    exact Vector.getElem_replicate _

theorem Len.afterPinReset_agrees (len : Len) : len.afterPinReset.agrees := by
  refine Len.agrees_empty (fun r => ?_) (fun i => ?_) fun w => ?_
  · have : len.afterPinReset.catalog[r] = len.catalog[r].afterPinReset := by
      show (len.catalog.map Entry.afterPinReset)[r.val] = _
      exact Vector.getElem_map _ _
    rw [this]
    unfold Entry.afterPinReset
    split <;> exact ⟨rfl, rfl, rfl, rfl⟩
  · have : len.afterPinReset.leases[i] = len.leases[i].afterPinReset := by
      show (len.leases.map Lease.afterPinReset)[i.val] = _
      exact Vector.getElem_map _ _
    rw [this]
    unfold Lease.afterPinReset
    split
    · rename_i h; exact h
    · rfl
  · show (Vector.replicate 96 (none : Option Wait))[w.val] = _
    exact Vector.getElem_replicate _

/-- Every command keeps the agreement of the tables. -/
theorem exec_agrees (c : Instr) (s : State) (h : s.len.agrees) : ∃ t, exec c s = .next t ∧ t.len.agrees := by
  by_cases hp : portCommand c = true
  · obtain ⟨t, ht, ha⟩ := portCommand_aside c hp s
    exact ⟨t, ht, by rw [ha.len]; exact h⟩
  cases c <;> first
    | exact absurd rfl hp
    | refine ⟨_, rfl, ?_⟩
  case powerOnReset => exact Len.afterPor_agrees
  case pinReset => exact s.len.afterPinReset_agrees
  case detach => exact State.takeRequest_agrees h _ _ fun f a ha _ => LenEvent.detach_fit ha f
  case ping => exact State.takeRequest_agrees h _ _ fun f a ha _ => ha.replyWith f _ _
  case querySlot => exact State.takeRequest_agrees h _ _ fun f a ha _ => LenEvent.querySlot_fit ha f
  case acquire => exact State.takeRequest_agrees h _ _ fun f a ha hs => LenEvent.acquire_fit ha f hs
  case release => exact State.takeRequest_agrees h _ _ fun f a ha _ => LenEvent.release_fit ha f
  case renew => exact State.takeRequest_agrees h _ _ fun f a ha _ => LenEvent.renew_fit ha f
  case downgrade => exact State.takeRequest_agrees h _ _ fun f a ha _ => LenEvent.downgrade_fit ha f
  case upgrade => exact State.takeRequest_agrees h _ _ fun f a ha _ => LenEvent.upgrade_fit ha f
  case cancel => exact State.takeRequest_agrees h _ _ fun f a ha _ => LenEvent.cancel_fit ha f
  case breakLease => exact State.takeRequest_agrees h _ _ fun f a ha _ => LenEvent.breakLease_fit ha f
  case notices => exact State.takeRequest_agrees h _ _ fun f a ha _ => LenEvent.notices_fit ha f
  case queryLease => exact State.takeRequest_agrees h _ _ fun f a ha _ => LenEvent.queryLease_fit ha f
  case queryResource => exact State.takeRequest_agrees h _ _ fun f a ha _ => LenEvent.queryResource_fit ha f
  case define => exact State.takeRequest_agrees h _ _ fun f a ha _ => LenEvent.define_fit ha f
  case retire => exact State.takeRequest_agrees h _ _ fun f a ha _ => LenEvent.retire_fit ha f
  case tokenCheck => exact State.takeRequest_agrees h _ _ fun f a ha _ => LenEvent.tokenCheck_fit ha f
  case profileRead => exact State.takeRequest_agrees h _ _ fun f a ha _ => LenEvent.profileRead_fit ha f
  case profileSet => exact State.takeRequest_agrees h _ _ fun f a ha _ => LenEvent.profileSet_fit ha f
  case profileRestore => exact State.takeRequest_agrees h _ _ fun f a ha _ => LenEvent.profileRestore_fit ha f
  case profileFreeze => exact State.takeRequest_agrees h _ _ fun f a ha _ => LenEvent.profileFreeze_fit ha f
  case config => exact State.takeRequest_agrees h _ _ fun f a ha _ => LenEvent.config_fit ha f
  case attach =>
    split
    · exact h
    · rename_i p f _
      dsimp only
      have hq : (s.popFrame p).len.agrees := h.of_tables rfl rfl rfl rfl
      split
      · refine State.runLen_agrees hq _ fun a ha _ => ?_
        split
        · exact LenEvent.attachReplacing_fit ha p f _
        · rename_i hn
          exact LenEvent.attachFresh_fit ha p f _ hn
      · rw [State.refuseAtTake_len]
        exact hq
  case leaseExpiry =>
    split
    · split
      · rename_i d i g _ hg
        unfold Len.leaseExpiryGenuine at hg
        exact State.runLen_agrees (s := s.popExpiry) h _ fun a ha he =>
          LenEvent.lapse_fit ha i (by rw [he]; exact (of_decide_eq_true hg).1)
      · exact h
    · exact h
  case waitExpiry =>
    split
    · split
      · exact State.runLen_agrees (s := s.popExpiry) h _ fun a ha _ => LenEvent.timeOut_fit ha _
      · exact h
    · exact h
  case keepaliveExpiry =>
    split
    · split
      · exact State.runLen_agrees (s := s.popExpiry) h _ fun a ha _ => LenEvent.loseSession_fit ha _
      · exact h
    · exact h
  case configReport =>
    split
    · exact h
    · dsimp only
      split
      · rename_i rest _ _ c _ _
        refine State.runLen_agrees (s := { s with paths := { s.paths with reports := rest } }) h _ fun a ha _ => ?_
        have h1 : ({ a with len := { a.len with configOpen := none } } : LenEvent).Fit :=
          ha.of_tables rfl rfl rfl fun _ => ⟨rfl, rfl⟩
        exact h1.of_tables rfl rfl rfl (LenEvent.complete_grows _ _ _).same
      · exact h
  all_goals
    refine h.of_tables ?_ ?_ ?_ ?_
    all_goals
      try unfold State.finishTick
      try dsimp only
      repeat' (first | split | dsimp only)
      all_goals rfl

end Sys2Proof.Machine
end

