-- ==== Sys2Proof/Laws/Ports.lean ====
section
/-! SUPPORT. What each command keeps of the laws of RQU and the ports: the attention lines, the marks of collects, the intake of each port, and the frame each front end receives. -/

namespace Sys2Proof.Machine

/-! ## RQU's slots -/

/-- The attention lines are driven, and the marks stand. -/
def Rqu.lawful (q : Rqu) : Prop := q.attentionDriven ∧ q.marksStand

theorem Rqu.port_setPort (q : Rqu) (p r : Port) (x : RquPort) : (q.setPort p x).port r = if r = p then x else q.port r := by
  cases p <;> cases r <;> rfl

theorem Rqu.slots_setPort (q : Rqu) (p : Port) (x : RquPort) : (q.setPort p x).slots = q.slots := by cases p <;> rfl

theorem Rqu.lawful.of_same {a b : Rqu} (h : a.lawful) (hs : b.slots = a.slots)
    (hm : ∀ p, (b.port p).mark = (a.port p).mark ∨ (b.port p).mark = none) : b.lawful := by
  refine ⟨fun n => ?_, fun p n hn => ?_⟩
  · rw [hs]
    exact h.1 n
  · rw [hs]
    rcases hm p with e | e
    · exact h.2 p n (e ▸ hn)
    · rw [e] at hn
      cases hn

/-- A change of RQU's record of a port that leaves its mark, or drops it. -/
theorem State.modRquPort_lawful (s : State) (p : Port) (f : RquPort → RquPort)
    (hf : (f (s.rqu.port p)).mark = (s.rqu.port p).mark ∨ (f (s.rqu.port p)).mark = none) (h : s.rqu.lawful) :
    (s.modRquPort p f).rqu.lawful := by
  refine h.of_same (Rqu.slots_setPort _ _ _) fun r => ?_
  unfold State.modRquPort
  rw [Rqu.port_setPort]
  split
  · rename_i e; subst e; exact hf
  · exact .inl rfl

theorem State.modRquSlot_slot (s : State) (n m : SlotIx) (f : RquSlot → RquSlot) :
    (s.modRquSlot n f).rqu.slots[m] =
      if m = n then
        { f s.rqu.slots[n] with
          attention := attentionLow (f s.rqu.slots[n]).view (f s.rqu.slots[n]).completions (f s.rqu.slots[n]).news }
      else s.rqu.slots[m] := getElem_set_fin _ n m _

/-- A change of one slot keeps the attention lines. -/
theorem State.modRquSlot_attention (s : State) (n : SlotIx) (f : RquSlot → RquSlot) (h : s.rqu.attentionDriven) :
    (s.modRquSlot n f).rqu.attentionDriven := by
  intro m
  rw [State.modRquSlot_slot]
  split
  · rfl
  · exact h m

/-- A change of one slot that leaves its list, or makes it longer, keeps. -/
theorem State.modRquSlot_lawful (s : State) (n : SlotIx) (f : RquSlot → RquSlot)
    (hf : s.rqu.slots[n].completions ≠ [] → (f s.rqu.slots[n]).completions ≠ []) (h : s.rqu.lawful) :
    (s.modRquSlot n f).rqu.lawful := by
  refine ⟨s.modRquSlot_attention n f h.1, fun p m hm => ?_⟩
  rw [State.modRquSlot_slot]
  have k := h.2 p m hm
  split
  · rename_i e
    subst e
    exact hf k
  · exact k

/-- A change of one slot, with every mark of it dropped, keeps. -/
theorem State.modRquSlot_dropMarks_lawful (s : State) (n : SlotIx) (f : RquSlot → RquSlot) (h : s.rqu.lawful) :
    ((s.modRquSlot n f).dropMarks n).rqu.lawful := by
  have hs : ((s.modRquSlot n f).dropMarks n).rqu.slots = (s.modRquSlot n f).rqu.slots := rfl
  refine ⟨fun m => ?_, fun p m hm => ?_⟩
  · rw [hs]
    exact s.modRquSlot_attention n f h.1 m
  · rw [hs, State.modRquSlot_slot]
    have hp : ((s.modRquSlot n f).dropMarks n).rqu.port p =
        if (s.rqu.port p).mark = some n then { s.rqu.port p with mark := none } else s.rqu.port p := by cases p <;> rfl
    rw [hp] at hm
    split at hm
    · cases hm
    · rename_i hne
      have hmn : m ≠ n := fun e => hne (e ▸ hm)
      rw [if_neg hmn]
      exact h.2 p m hm

theorem State.releaseClaim_lawful (s : State) (p : Port) (h : s.rqu.lawful) : (s.releaseClaim p).rqu.lawful :=
  s.modRquPort_lawful p _ (.inl rfl) h

theorem State.refuseFrame_lawful (s : State) (p : Port) (r : RefusalRecord) (h : s.rqu.lawful) :
    (s.refuseFrame p r).rqu.lawful :=
  State.releaseClaim_lawful _ p (by rw [State.writeRefusal_rqu]; exact h)

theorem State.answerClaim_lawful (s : State) (p : Port) (h : s.rqu.lawful) : (s.answerClaim p).rqu.lawful := by
  unfold State.answerClaim
  split
  · rw [State.setAck_rqu]
    exact s.modRquPort_lawful p _ (.inl rfl) h
  · rw [State.setAck_rqu]
    unfold State.enterRefusing
    rw [State.setFront_rqu, State.writeRefusal_rqu]
    exact h

theorem State.answerArrival_lawful (s : State) (p : Port) (f : Frame) (h : s.rqu.lawful) :
    (s.answerArrival p f).rqu.lawful := by
  unfold State.answerArrival
  split
  · unfold State.acceptFrame
    have h1 := s.modRquPort_lawful p (fun q => { q with queue := q.queue ++ [f], claim := false }) (.inl rfl) h
    dsimp only
    split
    · exact h1
    · exact State.modRquSlot_lawful _ _ _ id h1
  · exact s.refuseFrame_lawful p _ h

theorem State.answerSelect_lawful (s : State) (p : Port) (n : SlotIx) (session : Session) (h : s.rqu.lawful) :
    (s.answerSelect p n session).rqu.lawful := by
  unfold State.answerSelect
  dsimp only
  rw [State.setFront_rqu]
  refine ⟨fun m => ?_, fun r m hm => ?_⟩
  · unfold State.modRquPort
    dsimp only
    rw [Rqu.slots_setPort]
    exact h.1 m
  · unfold State.modRquPort at hm ⊢
    dsimp only at hm ⊢
    rw [Rqu.slots_setPort]
    rw [Rqu.port_setPort] at hm
    split at hm
    · dsimp only at hm
      split at hm
      · rename_i hshown
        cases hm
        unfold RquSlot.presents at hshown
        split at hshown
        · split at hshown
          · intro e
            rw [e] at hshown
            cases hshown
          · cases hshown
        · cases hshown
      · cases hm
    · exact h.2 r m hm

theorem State.removeHead_lawful (s : State) (n : SlotIx) (h : s.rqu.lawful) : (s.removeHead n).rqu.lawful := by
  unfold State.removeHead
  split
  · exact h
  · exact s.modRquSlot_dropMarks_lawful n _ h

theorem State.answerCollectEnd_lawful (s : State) (p : Port) (full : Bool) (h : s.rqu.lawful) :
    (s.answerCollectEnd p full).rqu.lawful := by
  unfold State.answerCollectEnd
  dsimp only
  refine State.modRquPort_lawful _ p _ (.inr rfl) ?_
  split
  · exact s.removeHead_lawful _ h
  · exact h

theorem State.takePortMsg_lawful (s : State) (p : Port) (m : PortMsg) (h : s.rqu.lawful) :
    (s.takePortMsg p m).rqu.lawful := by
  cases m
  · exact s.answerClaim_lawful p h
  · exact s.answerArrival_lawful p _ h
  · exact s.answerSelect_lawful p _ _ h
  · exact s.answerCollectEnd_lawful p _ h

theorem State.foldPortMsgs_lawful (p : Port) (ms : List PortMsg) (s : State) (h : s.rqu.lawful) :
    (ms.foldl (fun s m => s.takePortMsg p m) s).rqu.lawful := by
  induction ms generalizing s with
  | nil => exact h
  | cons m ms ih => exact ih _ (s.takePortMsg_lawful p m h)

theorem State.settle_lawful (s : State) (p : Port) (h : s.rqu.lawful) : (s.settle p).rqu.lawful := by
  unfold State.settle
  split
  · exact State.foldPortMsgs_lawful p _ _ (by rw [State.setToRqu_rqu]; exact h)
  · exact h

theorem State.changeView_lawful (s : State) (n : SlotIx) (v : SlotView) (h : s.rqu.lawful) :
    (s.changeView n v).rqu.lawful := s.modRquSlot_dropMarks_lawful n _ h

/-! ### What the ports do to RQU: they release claims -/

/-- RQU's record comes from another by the release of claims. -/
def Rqu.Releases (a b : Rqu) : Prop :=
  b.slots = a.slots ∧ ∀ p, b.port p = a.port p ∨ b.port p = { a.port p with claim := false }

theorem Rqu.Releases.refl (a : Rqu) : a.Releases a := ⟨rfl, fun _ => .inl rfl⟩

theorem Rqu.Releases.of_eq {a b : Rqu} (h : b = a) : a.Releases b := h ▸ .refl a

theorem Rqu.Releases.trans {a b c : Rqu} (h : a.Releases b) (k : b.Releases c) : a.Releases c := by
  refine ⟨k.1.trans h.1, fun p => ?_⟩
  rcases h.2 p with e | e <;> rcases k.2 p with g | g <;> rw [g, e]
  · exact .inl rfl
  · exact .inr rfl
  · exact .inr rfl
  · exact .inr rfl

theorem Rqu.Releases.lawful {a b : Rqu} (h : a.Releases b) (k : a.lawful) : b.lawful :=
  k.of_same h.1 fun p => .inl (by rcases h.2 p with e | e <;> rw [e])

theorem State.refuseFrame_releases (s : State) (p : Port) (r : RefusalRecord) : s.rqu.Releases (s.refuseFrame p r).rqu := by
  refine ⟨?_, fun q => ?_⟩
  · cases p <;> rfl
  · cases p <;> cases q
    · exact .inr rfl
    · exact .inl rfl
    · exact .inl rfl
    · exact .inr rfl

theorem State.judgeRequest_releases (s : State) (p : Port) : s.rqu.Releases (s.judgeRequest p).rqu := by
  unfold State.judgeRequest
  dsimp only
  split
  · exact s.refuseFrame_releases p _
  · split
    · exact s.refuseFrame_releases p _
    · exact .of_eq (s.setToRqu_rqu p _)

theorem State.endStatus_rqu (s : State) (p : Port) : (s.endStatus p).rqu = s.rqu := by
  unfold State.endStatus
  split
  · exact s.setPortStatus_rqu p _
  · rfl

theorem State.fixStatus_rqu (s : State) (p : Port) : (s.fixStatus p).rqu = s.rqu :=
  (State.setFront_rqu _ p _).trans (s.setPortStatus_rqu p _)

theorem State.endPresentation_rqu (s : State) (p : Port) : (s.endPresentation p).rqu = s.rqu := by
  unfold State.endPresentation
  split
  · exact s.setToRqu_rqu p _
  · exact s.endStatus_rqu p
  · rfl
  · rfl

theorem State.judgeQuery_rqu (s : State) : s.judgeQuery.rqu = s.rqu := by
  unfold State.judgeQuery
  dsimp only
  repeat' split
  all_goals rfl

theorem State.judgeSelect_releases (s : State) (item : Held) : s.rqu.Releases (s.judgeSelect item).rqu := by
  unfold State.judgeSelect
  split
  · exact s.refuseFrame_releases .twp _
  · exact .refl _

theorem State.judgeTwp_releases (s : State) : s.rqu.Releases s.judgeTwp.rqu := by
  unfold State.judgeTwp
  dsimp only
  split
  · exact .refl _
  · exact .of_eq s.judgeQuery_rqu
  · split
    · exact .refl _
    · split
      · exact s.judgeRequest_releases .twp
      · exact s.judgeSelect_releases _
      · exact s.judgeSelect_releases _

theorem State.endSegment_releases (s : State) (e : SegmentEnd) : s.rqu.Releases (s.endSegment e).rqu := by
  unfold State.endSegment
  have h : s.rqu.Releases (match s.twp.front.state with
    | .receiving => s.judgeTwp
    | .refusing => s.judgeTwp
    | .presenting => s.endPresentation .twp
    | .idle => s).rqu := by
    split
    · exact s.judgeTwp_releases
    · exact s.judgeTwp_releases
    · exact .of_eq (s.endPresentation_rqu .twp)
    · exact .refl _
  cases e
  · exact h.trans (.of_eq rfl)
  · exact h.trans (.of_eq rfl)

theorem State.readPrimary_rqu (s : State) : s.readPrimary.rqu = s.rqu := by
  unfold State.readPrimary
  rcases s.twp.held with _ | (⟨n, session⟩ | _ | ⟨q, stage⟩) <;> rfl

theorem State.readCheckOnly_rqu (s : State) : s.readCheckOnly.rqu = s.rqu := by
  unfold State.readCheckOnly
  rcases s.twp.held with _ | (_ | _ | ⟨q, _ | _ | a⟩) <;> rfl

theorem State.addressTwp_rqu (s : State) (b : Byte) : (s.addressTwp b).rqu = s.rqu := by
  unfold State.addressTwp
  dsimp only
  repeat' split
  all_goals first
    | exact s.readPrimary_rqu
    | exact s.readCheckOnly_rqu
    | rfl

theorem State.refuseTwpByte_releases (s : State) (b : Byte) (r : RefusalReason) :
    s.rqu.Releases (s.refuseTwpByte b r).rqu :=
  (State.refuseFrame_releases (s.setFront .twp (s.twp.front.take b)) .twp _).trans (.of_eq rfl)

theorem State.receiveTwp_releases (s : State) (b : Byte) : s.rqu.Releases (s.receiveTwp b).rqu := by
  unfold State.receiveTwp
  dsimp only
  split
  · unfold State.leadTwp
    split
    · exact s.refuseTwpByte_releases b _
    · exact .refl _
    · exact .refl _
  · split
    · exact .refl _
    · split
      · exact s.refuseTwpByte_releases b _
      · exact .refl _

theorem State.refuseFwp_releases (s : State) (r : RefusalRecord) : s.rqu.Releases (s.refuseFwp r).rqu :=
  (s.refuseFrame_releases .fwp r).trans (.of_eq rfl)

theorem State.receiveFwp_releases (s : State) (b : Byte) : s.rqu.Releases (s.receiveFwp b).rqu := by
  unfold State.receiveFwp
  dsimp only
  split
  · unfold State.leadFwp
    dsimp only
    split
    · exact .refl _
    · split
      · exact (Rqu.Releases.of_eq rfl).trans (State.refuseFwp_releases _ ((s.fwp.front.take b).refusal .badLead))
      · exact .refl _
      · exact .refl _
  · split
    · exact s.refuseFwp_releases _
    · split
      · unfold State.requestFwp
        dsimp only
        split
        · exact .refl _
        · split
          · exact (Rqu.Releases.of_eq rfl).trans (State.refuseFwp_releases _ ((s.fwp.front.take b).refusal .badLength))
          · exact .refl _
      · unfold State.selectFwp
        dsimp only
        split
        · exact .refl _
        · split
          · exact (Rqu.Releases.of_eq rfl).trans (State.refuseFwp_releases _ ((s.fwp.front.take b).refusal .checkFailed))
          · split <;> exact .refl _

theorem State.clockFwp_releases (s : State) (b : Byte) : s.rqu.Releases (s.clockFwp b).rqu := by
  unfold State.clockFwp
  dsimp only
  split
  · exact State.receiveFwp_releases { s with fwp := { s.fwp with sdoOut := s.fwp.outByte } } b
  · exact .refl _
  · exact .refl _
  · exact .refl _

theorem State.judgeFwp_releases (s : State) : s.rqu.Releases s.judgeFwp.rqu := by
  unfold State.judgeFwp
  split
  · exact .refl _
  · exact s.judgeRequest_releases .fwp
  · split
    · exact s.refuseFrame_releases .fwp _
    · exact .refl _

theorem State.endTransaction_releases (s : State) : s.rqu.Releases s.endTransaction.rqu := by
  unfold State.endTransaction
  have h : s.rqu.Releases (match s.fwp.front.state with
    | .receiving => s.judgeFwp
    | .presenting => s.endPresentation .fwp
    | .refusing => s
    | .idle => s).rqu := by
    split
    · exact s.judgeFwp_releases
    · exact .of_eq (s.endPresentation_rqu .fwp)
    · exact .refl _
    · exact .refl _
  exact h.trans (.of_eq rfl)

theorem State.takeAnswer_rqu (s : State) (a : CheckAnswer) : (s.takeAnswer a).rqu = s.rqu := by
  unfold State.takeAnswer
  rcases h : s.twp.held with _ | (_ | _ | ⟨q, _ | _ | b⟩) <;> simp only [h] <;> rfl

/-! ### Every command -/

theorem State.popFrame_lawful (s : State) (p : Port) (h : s.rqu.lawful) : (s.popFrame p).rqu.lawful :=
  s.modRquPort_lawful p (fun q => { q with queue := q.queue.tail }) (.inl rfl) h

theorem State.refuseAtTake_rqu (s : State) (p : Port) (r : RefusalReason) (f : Frame) : (s.refuseAtTake p r f).rqu = s.rqu := by
  cases p <;> rfl

/-- Every command of LEN leaves RQU as it was, or with a frame taken from a queue. -/
theorem State.takeRequest_rqu (s : State) (k : ReqKind) (request : Frame → LenEvent → LenEvent) :
    (s.takeRequest k request).rqu = s.rqu ∨ ∃ p, (s.takeRequest k request).rqu = (s.popFrame p).rqu := by
  unfold State.takeRequest
  split
  · exact .inl rfl
  · rename_i p f _
    refine .inr ⟨p, ?_⟩
    dsimp only
    split
    · rfl
    · exact State.refuseAtTake_rqu _ _ _ _

theorem lenCommand_rqu (c : Instr) (h : lenCommand c = true) (s : State) :
    ∃ t, exec c s = .next t ∧ (t.rqu = s.rqu ∨ ∃ p, t.rqu = (s.popFrame p).rqu) := by
  cases c <;> first
    | exact absurd h Bool.false_ne_true
    | exact ⟨_, rfl, State.takeRequest_rqu s _ _⟩
    | refine ⟨_, rfl, ?_⟩
  case attach =>
    split
    · exact .inl rfl
    · rename_i p f _
      refine .inr ⟨p, ?_⟩
      dsimp only
      split
      · rfl
      · exact State.refuseAtTake_rqu _ _ _ _
  case configReport =>
    refine .inl ?_
    split
    · rfl
    · dsimp only
      split <;> rfl
  all_goals
    refine .inl ?_
    repeat' split
    all_goals rfl

theorem Rqu.afterReset_lawful : Rqu.afterReset.lawful := by
  refine ⟨fun n => ?_, fun p n hn => ?_⟩
  · have h : Rqu.afterReset.slots[n] = RquSlot.afterReset := Vector.getElem_replicate _
    rw [h]
    rfl
  · cases p <;> cases hn

/-- Every command keeps the attention lines driven and the marks standing (R133, R135). -/
theorem exec_rquLawful (c : Instr) (s : State) (h : s.rqu.lawful) : ∃ t, exec c s = .next t ∧ t.rqu.lawful := by
  by_cases hl : lenCommand c = true
  · obtain ⟨t, ht, e | ⟨p, e⟩⟩ := lenCommand_rqu c hl s
    · exact ⟨t, ht, e ▸ h⟩
    · exact ⟨t, ht, e ▸ s.popFrame_lawful p h⟩
  cases c <;> first
    | exact absurd rfl hl
    | refine ⟨_, rfl, ?_⟩
  case powerOnReset => exact Rqu.afterReset_lawful
  case pinReset => exact Rqu.afterReset_lawful
  case porRelease => split <;> exact h
  case pinResetRelease =>
    split
    · split <;> exact h
    · exact h
  case tick =>
    split
    · exact h
    · unfold State.finishTick
      dsimp only
      split <;> exact h
  case deadlineExpiry =>
    repeat' split
    all_goals exact h
  case deadlineInsert =>
    unfold State.finishTick
    repeat' (first | split | dsimp only)
    all_goals exact h
  case deadlineRemove =>
    unfold State.finishTick
    repeat' (first | split | dsimp only)
    all_goals exact h
  case checkOnlyEnableTake => split <;> exact h
  case checkOnlyAnswer =>
    split
    · rw [State.takeAnswer_rqu]
      exact h
    · exact h
  case takeTimeRefusal p => cases p <;> (dsimp only; split; all_goals exact h)
  case intakeClaim p =>
    split
    · exact State.answerClaim_lawful _ p (by rw [State.setToRqu_rqu]; exact h)
    · exact h
  case arrivalCheck p =>
    split
    · exact State.answerArrival_lawful _ p _ (by rw [State.setToRqu_rqu]; exact h)
    · exact h
  case completionFiled =>
    split
    · exact State.modRquSlot_lawful s.popRquMsg _ _ (fun _ => by simp) h
    · exact h
  case sessionBegun =>
    split
    · exact State.changeView_lawful s.popRquMsg _ _ h
    · exact h
  case sessionEnded =>
    split
    · exact State.changeView_lawful s.popRquMsg _ _ h
    · exact h
  case slotLost =>
    split
    · exact State.changeView_lawful s.popRquMsg _ _ h
    · exact h
  case slotNewsOn =>
    split
    · exact State.modRquSlot_lawful s.popRquMsg _ _ id h
    · exact h
  case slotNewsOff =>
    split
    · exact State.modRquSlot_lawful s.popRquMsg _ _ id h
    · exact h
  case collectSelect p =>
    split
    · exact State.answerSelect_lawful _ p _ _ (by rw [State.setToRqu_rqu]; exact h)
    · exact h
  case collectEnd p =>
    split
    · exact State.answerCollectEnd_lawful _ p _ (by rw [State.setToRqu_rqu]; exact h)
    · exact h
  case twpAddress b =>
    split
    · exact h
    · dsimp only
      rw [State.addressTwp_rqu]
      split
      · exact s.settle_lawful .twp h
      · exact State.settle_lawful _ .twp ((State.endSegment_releases _ _).lawful (s.settle_lawful .twp h))
  case twpWriteByte b =>
    split
    · exact h
    · dsimp only
      split
      · exact (State.receiveTwp_releases _ b).lawful (s.settle_lawful .twp h)
      · exact s.settle_lawful .twp h
  case twpSegmentEnd e =>
    split
    · exact h
    · exact (State.endSegment_releases _ e).lawful (s.settle_lawful .twp h)
  case busClear =>
    split
    · exact h
    · have h1 := s.settle_lawful .twp h
      dsimp only
      generalize s.settle .twp = a at h1
      have h2 : (if a.twp.front.presentation = .completion then a.sendToRqu .twp (.collectEnd false) else a).rqu.lawful := by
        split <;> exact h1
      rw [State.setAck_rqu, State.dropHeld_rqu, State.idleTwp_rqu]
      exact State.refuseFrame_lawful _ .twp _ h2
  case ssnFall high =>
    split
    · exact h
    · split
      · exact h
      · exact s.settle_lawful .fwp h
  case fwpByteReceived b =>
    split
    · exact h
    · exact (State.clockFwp_releases _ b).lawful (s.settle_lawful .fwp h)
  case ssnRise =>
    split
    · dsimp only
      split
      · exact h
      · exact (State.endTransaction_releases _).lawful (s.settle_lawful .fwp h)
    · exact h
  case byteClockedOut ack =>
    split
    · exact h
    · dsimp only
      split <;> exact s.settle_lawful .twp h

end Sys2Proof.Machine
end

