-- ==== Sys2Proof/Laws/Intake.lean ====
section
/-! SUPPORT. What each command keeps of a port's intake and of the frame its front end receives (R120, R146 to R148, R159). -/

namespace Sys2Proof.Machine

/-- What the laws of a port's intake and front end are about. -/
structure PortView where
  queue : List Frame
  claim : Bool
  front : Front
  path : List PortMsg

def State.view (s : State) (p : Port) : PortView :=
  ⟨(s.rqu.port p).queue, (s.rqu.port p).claim, s.front p, s.toRqu p⟩

/-- The laws of one port. -/
structure PortView.Lawful (v : PortView) (p : Port) : Prop where
  places : v.queue.length + (if v.claim then 1 else 0) ≤ 4
  arrival : ∀ f, .arrival f ∈ v.path → v.claim = true ∧ ¬(v.front.state = .receiving ∧ v.front.kind = some .request)
  receiving : v.front.state = .receiving → v.front.kind = some .request → v.claim = true ∨ .claim ∈ v.path
  awaited : (v.path.filter PortMsg.awaited).length ≤ 1
  check : v.front.checkRuns
  bounded : v.front.bounded
  short : p = .fwp → v.front.selectShort

theorem State.lawful_views (s : State) :
    ((∀ p, s.intakeKept p) ∧ s.framesKept) ↔ ∀ p, (s.view p).Lawful p := by
  constructor
  · rintro ⟨h1, h2, h3⟩ p
    obtain ⟨a, b, c, d⟩ := h1 p
    exact ⟨a, b, c, d, (h2 p).1, (h2 p).2, fun e => e ▸ h3⟩
  · intro h
    exact ⟨fun p => ⟨(h p).places, (h p).arrival, (h p).receiving, (h p).awaited⟩, fun p => ⟨(h p).check, (h p).bounded⟩,
      (h .fwp).short rfl⟩

/-! ## Front ends -/

/-- The laws of a front end alone. -/
structure Front.Lawful (x : Front) (p : Port) : Prop where
  check : x.checkRuns
  bounded : x.bounded
  short : p = .fwp → x.selectShort

theorem PortView.Lawful.frontLawful {v : PortView} {p : Port} (h : v.Lawful p) : v.front.Lawful p := ⟨h.check, h.bounded, h.short⟩

theorem Front.Lawful.idle (p : Port) : Front.idle.Lawful p := by
  refine ⟨rfl, ⟨by decide, fun h => ?_, fun k h => ?_⟩, fun _ k h => ?_⟩ <;> cases h

/-- A front end that receives nothing keeps its laws whatever else changes. -/
theorem Front.Lawful.not_receiving {x y : Front} {p : Port} (h : x.Lawful p) (hb : y.bytes = x.bytes) (hc : y.check = x.check)
    (hs : y.state ≠ .receiving) : y.Lawful p :=
  ⟨by unfold Front.checkRuns; rw [hb, hc]; exact h.check, ⟨by rw [hb]; exact h.bounded.1, fun e => absurd e hs,
    fun k e => absurd e hs⟩, fun _ k e => absurd e hs⟩

theorem Front.Lawful.same {x y : Front} {p : Port} (h : x.Lawful p) (hb : y.bytes = x.bytes) (hc : y.check = x.check)
    (hs : y.state = x.state) (hk : y.kind = x.kind) : y.Lawful p := by
  refine ⟨by unfold Front.checkRuns; rw [hb, hc]; exact h.check, ?_, fun e => ?_⟩
  · unfold Front.bounded
    rw [hb, hs, hk]
    exact h.bounded
  · unfold Front.selectShort
    rw [hb, hs, hk]
    exact h.short e

theorem Front.take_check {x : Front} (h : x.checkRuns) (b : Byte) : (x.take b).checkRuns := by
  unfold Front.checkRuns at h ⊢
  unfold Front.take
  dsimp only
  rw [h]
  unfold frameCheck
  rw [List.foldl_append]
  rfl

theorem FrameKind.length_le (k : FrameKind) (bytes : List Byte) (h : bytes.length ≤ 4) : k.length bytes ≤ 22 := by
  cases k
  case request =>
    unfold FrameKind.length operandByte
    dsimp only
    rw [List.getD_eq_getElem?_getD, List.getElem?_eq_none h]
    decide
  all_goals
    unfold FrameKind.length
    dsimp only
    omega

theorem operandByte_append_lt (l : List Byte) (b : Byte) (i : Nat) (h : i < l.length) : operandByte (l ++ [b]) i = operandByte l i := by
  unfold operandByte
  rw [List.getD_eq_getElem?_getD, List.getD_eq_getElem?_getD, List.getElem?_append_left h]

/-- A byte taken before the frame's last, and no length byte above 16, leaves the frame within its length. -/
theorem FrameKind.length_take (k : FrameKind) (l : List Byte) (b : Byte) (hl : l.length < k.length l)
    (hk : k.length l ≤ 22) (hb : ¬(k = .request ∧ l.length = 4 ∧ 16 < b.toNat)) :
    (l ++ [b]).length ≤ k.length (l ++ [b]) ∧ k.length (l ++ [b]) ≤ 22 ∧
      (k ≠ .request → k.length (l ++ [b]) = k.length l) := by
  rw [List.length_append, List.length_singleton]
  cases k
  case request =>
    refine ⟨?_, ?_, fun h => absurd rfl h⟩
    · by_cases h4 : l.length = 4
      · unfold FrameKind.length
        dsimp only
        omega
      · by_cases h5 : 4 < l.length
        · unfold FrameKind.length at hl ⊢
          dsimp only at hl ⊢
          rw [operandByte_append_lt l b 4 h5]
          omega
        · unfold FrameKind.length
          dsimp only
          omega
    · by_cases h4 : l.length = 4
      · have hb' : ¬16 < b.toNat := fun h => hb ⟨rfl, h4, h⟩
        unfold FrameKind.length operandByte
        dsimp only
        rw [List.getD_eq_getElem?_getD, List.getElem?_append_right (by omega), h4]
        simp only [Nat.sub_self, List.getElem?_cons_zero, Option.getD_some]
        omega
      · by_cases h5 : 4 < l.length
        · unfold FrameKind.length at hk ⊢
          dsimp only at hk ⊢
          rw [operandByte_append_lt l b 4 h5]
          exact hk
        · apply FrameKind.length_le
          rw [List.length_append, List.length_singleton]
          omega
  all_goals
    unfold FrameKind.length at hl ⊢
    dsimp only at hl ⊢
    exact ⟨by omega, by omega, fun _ => rfl⟩

theorem Front.total_of_kind {x : Front} {k : FrameKind} (h : x.kind = some k) : x.total = k.length x.bytes := by
  unfold Front.total FrameKind.length requestTotal
  rw [h]
  cases k <;> rfl

/-- A byte taken into a frame that is not complete, and is no length byte above 16. -/
theorem Front.Lawful.take_some {x : Front} {p : Port} {k : FrameKind} (h : x.Lawful p) (b : Byte) (hs : x.state = .receiving)
    (hk : x.kind = some k) (hc : x.complete = false) (hl : x.badLength b = false)
    (hp : p = .fwp → k ≠ .request → (x.take b).complete = false) : (x.take b).Lawful p := by
  unfold Front.complete at hc
  rw [Front.total_of_kind hk] at hc
  have hc' : x.bytes.length < k.length x.bytes := by simpa using hc
  have hbl : ¬(k = .request ∧ x.bytes.length = 4 ∧ 16 < b.toNat) := by
    unfold Front.badLength at hl
    rw [hk] at hl
    intro ⟨h1, h2, h3⟩
    simp [h1, h2, h3] at hl
  obtain ⟨t1, t2, t3⟩ := k.length_take x.bytes b hc' (h.bounded.2.2 k hs hk).2 hbl
  refine ⟨Front.take_check h.check b, ⟨?_, fun _ e => ?_, fun k' _ e => ?_⟩, fun ep k' es e hne => ?_⟩
  · exact Nat.le_trans t1 t2
  · exact absurd (hk.symm.trans e) (by simp)
  · have : k' = k := by
      have : some k' = some k := e.symm.trans hk
      simpa using this
    subst this
    exact ⟨t1, t2⟩
  · have : k' = k := by
      have : some k' = some k := e.symm.trans hk
      simpa using this
    subst this
    have := hp ep hne
    unfold Front.complete at this
    rw [Front.total_of_kind (x := x.take b) hk] at this
    simpa using this

/-- The first byte of a frame, with the kind it tells. -/
theorem Front.Lawful.lead {x : Front} {p : Port} (h : x.Lawful p) (b : Byte) (hx : x.bytes.length ≤ 1)
    (hp : p = .fwp → x.bytes = []) (k : FrameKind) : ({ x.take b with kind := some k } : Front).Lawful p := by
  have hlen : (x.take b).bytes.length = x.bytes.length + 1 := by
    unfold Front.take
    rw [List.length_append, List.length_singleton]
  have h2 : ∀ l : List Byte, 2 ≤ k.length l := by
    intro l
    cases k <;> unfold FrameKind.length <;> dsimp only <;> omega
  refine ⟨Front.take_check h.check b, ⟨?_, fun _ e => absurd e (by simp), fun k' _ e => ?_⟩, fun ep k' es e hne => ?_⟩
  · show (x.take b).bytes.length ≤ 22
    omega
  · cases e
    refine ⟨?_, FrameKind.length_le _ _ (by show (x.take b).bytes.length ≤ 4; omega)⟩
    have := h2 (x.take b).bytes
    show (x.take b).bytes.length ≤ _
    dsimp only
    omega
  · cases e
    have := h2 (x.take b).bytes
    have h0 : (x.take b).bytes.length = 1 := by rw [hlen, hp ep]; rfl
    show (x.take b).bytes.length < _
    dsimp only
    omega

/-- A byte taken by a front end that goes on to receive nothing. -/
theorem Front.Lawful.take_stop {x y : Front} {p : Port} (h : x.Lawful p) (b : Byte) (hx : x.bytes.length < 22)
    (hb : y.bytes = (x.take b).bytes) (hc : y.check = (x.take b).check) (hs : y.state ≠ .receiving) : y.Lawful p := by
  refine ⟨by unfold Front.checkRuns; rw [hb, hc]; exact Front.take_check h.check b, ⟨?_, fun e => absurd e hs,
    fun k e => absurd e hs⟩, fun _ k e => absurd e hs⟩
  rw [hb]
  unfold Front.take
  rw [List.length_append, List.length_singleton]
  exact hx

/-- A front end that receives holds fewer than the 22 bytes before its frame is complete. -/
theorem Front.Lawful.room {x : Front} {p : Port} (h : x.Lawful p) (hs : x.state = .receiving)
    (hc : x.kind = none ∨ x.complete = false) : x.bytes.length < 22 := by
  cases hk : x.kind with
  | none => exact Nat.lt_of_le_of_lt (h.bounded.2.1 hs hk) (by decide)
  | some k =>
    have := (h.bounded.2.2 k hs hk).2
    rcases hc with hc | hc
    · rw [hk] at hc; cases hc
    · unfold Front.complete at hc
      rw [Front.total_of_kind hk] at hc
      have hc' : x.bytes.length < k.length x.bytes := by simpa using hc
      omega

/-! ## Views -/

/-- A view with nothing awaited in its path. -/
def PortView.Calm (v : PortView) : Prop := v.path.filter PortMsg.awaited = []

theorem PortView.Calm.no_arrival {v : PortView} (h : v.Calm) (f : Frame) : .arrival f ∉ v.path := by
  intro hf
  have : PortMsg.arrival f ∈ v.path.filter PortMsg.awaited := List.mem_filter.2 ⟨hf, rfl⟩
  rw [h] at this
  cases this

theorem PortView.Calm.no_claim {v : PortView} (h : v.Calm) : .claim ∉ v.path := by
  intro hf
  have : PortMsg.claim ∈ v.path.filter PortMsg.awaited := List.mem_filter.2 ⟨hf, rfl⟩
  rw [h] at this
  cases this

/-- A calm view stays lawful under a front end that receives no REQUEST, and fewer claims and frames. -/
theorem PortView.Lawful.calm_front {v w : PortView} {p : Port} (h : v.Lawful p) (hv : v.Calm) (hq : w.queue = v.queue)
    (hc : w.claim = v.claim ∨ w.claim = false) (hx : w.front.Lawful p)
    (hr : w.front.state = .receiving → w.front.kind = some .request → w.claim = true)
    (hp : w.path = v.path) : w.Lawful p := by
  refine ⟨?_, fun f hf => ?_, fun e1 e2 => .inl (hr e1 e2), ?_, hx.check, hx.bounded, hx.short⟩
  · have := h.places
    rw [hq]
    rcases hc with e | e <;> rw [e]
    · exact this
    · simp only [Bool.false_eq_true, if_false]
      omega
  · rw [hp] at hf
    exact absurd hf (hv.no_arrival f)
  · rw [hp, show v.path.filter PortMsg.awaited = [] from hv]
    decide

/-- A calm view stays lawful when one message joins its path. -/
theorem PortView.Lawful.calm_send {v w : PortView} {p : Port} (h : v.Lawful p) (hv : v.Calm) (m : PortMsg)
    (hq : w.queue = v.queue) (hc : w.claim = v.claim ∨ w.claim = false) (hx : w.front.Lawful p)
    (ha : ∀ f, m = .arrival f → w.claim = true ∧ ¬(w.front.state = .receiving ∧ w.front.kind = some .request))
    (hr : w.front.state = .receiving → w.front.kind = some .request → w.claim = true ∨ m = .claim)
    (hp : w.path = v.path ++ [m]) : w.Lawful p := by
  refine ⟨?_, fun f hf => ?_, fun e1 e2 => ?_, ?_, hx.check, hx.bounded, hx.short⟩
  · have := h.places
    rw [hq]
    rcases hc with e | e <;> rw [e]
    · exact this
    · simp only [Bool.false_eq_true, if_false]
      omega
  · rw [hp] at hf
    rcases List.mem_append.1 hf with hf | hf
    · exact absurd hf (hv.no_arrival f)
    · exact ha f (List.mem_singleton.1 hf).symm
  · rw [hp]
    rcases hr e1 e2 with e | e
    · exact .inl e
    · exact .inr (by simp [e])
  · rw [hp, List.filter_append, show v.path.filter PortMsg.awaited = [] from hv]
    exact List.length_filter_le _ _

/-! ## RQU's answers -/

/-- A view with another path. -/
def State.viewOn (s : State) (p : Port) (ms : List PortMsg) : PortView :=
  ⟨(s.rqu.port p).queue, (s.rqu.port p).claim, s.front p, ms⟩

/-- A take of a message of a port keeps the port's laws. -/
theorem State.takePortMsg_view (s : State) (p : Port) (m : PortMsg) (rest : List PortMsg)
    (h : (s.viewOn p (m :: rest)).Lawful p) : ((s.takePortMsg p m).viewOn p rest).Lawful p := by
  obtain ⟨h1, h2, h3, h4, h5, h6, h7⟩ := h
  unfold State.viewOn at h1 h2 h3 h4 h5 h6 h7
  dsimp only at h1 h2 h3 h4 h5 h6 h7
  have hx : (s.front p).Lawful p := ⟨h5, h6, h7⟩
  have hrest : (rest.filter PortMsg.awaited).length ≤ 1 := by
    refine Nat.le_trans ?_ h4
    rw [List.filter_cons]
    split
    · exact Nat.le_succ _
    · exact Nat.le_refl _
  have hnone : m.awaited = true → rest.filter PortMsg.awaited = [] := by
    intro hm
    rw [List.filter_cons, if_pos hm] at h4
    exact List.eq_nil_of_length_eq_zero (by simpa using h4)
  have hnoarr : m.awaited = true → ∀ f, .arrival f ∉ rest := by
    intro hm f hf
    have : PortMsg.arrival f ∈ rest.filter PortMsg.awaited := List.mem_filter.2 ⟨hf, rfl⟩
    rw [hnone hm] at this
    cases this
  cases m with
  | claim =>
    have hn := hnoarr rfl
    unfold State.takePortMsg
    dsimp only
    unfold State.answerClaim
    split
    · rename_i hlt
      have hv : ((s.modRquPort p fun q => { q with claim := true }).setAck p true).viewOn p rest =
          ⟨(s.rqu.port p).queue, true, s.front p, rest⟩ := by cases p <;> rfl
      rw [hv]
      exact ⟨by simp; omega, fun f hf => absurd hf (hn f), fun _ _ => .inl rfl, hrest, h5, h6, h7⟩
    · have hv : (((s.writeRefusal p ((s.front p).refusal .intakeFull)).enterRefusing p).setAck p false).viewOn p rest =
          ⟨(s.rqu.port p).queue, (s.rqu.port p).claim, { s.front p with state := .refusing }, rest⟩ := by cases p <;> rfl
      rw [hv]
      have hy : ({ s.front p with state := .refusing } : Front).Lawful p := hx.not_receiving rfl rfl (by simp)
      exact ⟨h1, fun f hf => absurd hf (hn f), fun e => absurd e (by simp), hrest, hy.check, hy.bounded, hy.short⟩
  | arrival f =>
    have hn := hnoarr rfl
    obtain ⟨hc, hr⟩ := h2 f List.mem_cons_self
    have hrec : (s.front p).state = .receiving → (s.front p).kind = some .request → False := fun a b => hr ⟨a, b⟩
    simp only [hc, if_true] at h1
    unfold State.takePortMsg
    dsimp only
    unfold State.answerArrival
    split
    · have hv : (s.acceptFrame p f).viewOn p rest = ⟨(s.rqu.port p).queue ++ [f], false, s.front p, rest⟩ := by
        unfold State.acceptFrame
        dsimp only
        split <;> (cases p <;> rfl)
      rw [hv]
      refine ⟨?_, fun g hg => absurd hg (hn g), fun a b => (hrec a b).elim, hrest, h5, h6, h7⟩
      dsimp only
      rw [List.length_append, List.length_singleton]
      simpa using h1
    · have hv : ∀ r, (s.refuseFrame p r).viewOn p rest = ⟨(s.rqu.port p).queue, false, s.front p, rest⟩ := by
        intro r
        cases p <;> rfl
      rw [hv]
      refine ⟨?_, fun g hg => absurd hg (hn g), fun a b => (hrec a b).elim, hrest, h5, h6, h7⟩
      simp only [Bool.false_eq_true, if_false]
      omega
  | select n session =>
    have hn := hnoarr rfl
    unfold State.takePortMsg
    dsimp only
    have hv : ∃ out, (s.answerSelect p n session).viewOn p rest =
        ⟨(s.rqu.port p).queue, (s.rqu.port p).claim, (s.front p).present .completion out, rest⟩ := by
      unfold State.answerSelect
      dsimp only
      cases p <;> exact ⟨_, rfl⟩
    obtain ⟨out, hv⟩ := hv
    rw [hv]
    have hy : ((s.front p).present .completion out).Lawful p := hx.not_receiving rfl rfl (by simp [Front.present])
    exact ⟨h1, fun g hg => absurd hg (hn g), fun e => absurd e (by simp [Front.present]), hrest, hy.check, hy.bounded,
      hy.short⟩
  | collectEnd full =>
    have hv : (s.takePortMsg p (.collectEnd full)).viewOn p rest = s.viewOn p rest := by
      have hd : ∀ n : SlotIx, ((s.removeHead n).modRquPort p fun q => { q with mark := none }).viewOn p rest =
          s.viewOn p rest := by
        intro n
        unfold State.removeHead
        split
        · cases p <;> rfl
        · unfold State.viewOn State.modRquPort State.dropMarks State.modRquSlot
          cases p <;>
          · dsimp only [Rqu.port, Rqu.setPort]
            split <;> rfl
      unfold State.takePortMsg State.answerCollectEnd
      dsimp only
      split
      · exact hd _
      · cases p <;> rfl
    rw [hv]
    exact ⟨h1, fun g hg => h2 g (List.mem_cons_of_mem _ hg), fun a b => (h3 a b).imp id fun e => by
      rcases List.mem_cons.1 e with e | e
      · cases e
      · exact e, hrest, h5, h6, h7⟩

theorem State.takePortMsg_path (s : State) (p : Port) (m : PortMsg) : (s.takePortMsg p m).toRqu p = s.toRqu p := by
  unfold State.takePortMsg
  cases m
  · unfold State.answerClaim
    cases p <;> (dsimp only; split <;> rfl)
  · unfold State.answerArrival State.acceptFrame
    cases p <;>
    · dsimp only
      split
      · split <;> rfl
      · rfl
  · cases p <;> rfl
  · unfold State.answerCollectEnd State.removeHead
    cases p <;>
    · dsimp only
      split
      · split <;> rfl
      · rfl

/-- A take of a message of a port leaves the other port's view alone. -/
theorem State.takePortMsg_other (s : State) (p r : Port) (m : PortMsg) (h : r ≠ p) :
    (s.takePortMsg p m).view r = s.view r := by
  unfold State.takePortMsg
  cases m
  · unfold State.answerClaim
    cases p <;> cases r <;> first
      | exact absurd rfl h
      | (dsimp only; split <;> rfl)
  · unfold State.answerArrival State.acceptFrame
    cases p <;> cases r <;> first
      | exact absurd rfl h
      | (dsimp only
         split
         · split <;> rfl
         · rfl)
  · cases p <;> cases r <;> first
      | exact absurd rfl h
      | rfl
  · unfold State.answerCollectEnd State.removeHead
    cases p <;> cases r <;> first
      | exact absurd rfl h
      | (dsimp only
         split
         · split
           · rfl
           · unfold State.view State.modRquPort State.dropMarks State.modRquSlot
             dsimp only [Rqu.port, Rqu.setPort]
             split <;> rfl
         · rfl)

theorem State.view_eq (s : State) (p : Port) : s.view p = s.viewOn p (s.toRqu p) := rfl

theorem State.foldPortMsgs_view (p : Port) (ms : List PortMsg) (s : State) (h : (s.viewOn p ms).Lawful p) :
    ((ms.foldl (fun s m => s.takePortMsg p m) s).viewOn p []).Lawful p := by
  induction ms generalizing s with
  | nil => exact h
  | cons m ms ih => exact ih _ (s.takePortMsg_view p m ms h)

theorem State.foldPortMsgs_path (p : Port) (ms : List PortMsg) (s : State) :
    (ms.foldl (fun s m => s.takePortMsg p m) s).toRqu p = s.toRqu p := by
  induction ms generalizing s with
  | nil => rfl
  | cons m ms ih => exact (ih _).trans (s.takePortMsg_path p m)

theorem State.foldPortMsgs_other (p r : Port) (hr : r ≠ p) (ms : List PortMsg) (s : State) :
    (ms.foldl (fun s m => s.takePortMsg p m) s).view r = s.view r := by
  induction ms generalizing s with
  | nil => rfl
  | cons m ms ih => exact (ih _).trans (s.takePortMsg_other p r m hr)

theorem State.setToRqu_viewOn (s : State) (p : Port) (l ms : List PortMsg) : (s.setToRqu p l).viewOn p ms = s.viewOn p ms := by
  cases p <;> rfl

theorem State.setToRqu_path (s : State) (p : Port) (l : List PortMsg) : (s.setToRqu p l).toRqu p = l := by cases p <;> rfl

theorem State.setToRqu_other (s : State) (p r : Port) (l : List PortMsg) (h : r ≠ p) : (s.setToRqu p l).view r = s.view r := by
  cases p <;> cases r <;> first
    | exact absurd rfl h
    | rfl

/-- A port that has its answers in hand stands calm, its laws kept. -/
theorem State.settle_view (s : State) (p : Port) (h : (s.view p).Lawful p) :
    ((s.settle p).view p).Lawful p ∧ ((s.settle p).view p).Calm := by
  unfold State.settle
  split
  · have hp := (State.foldPortMsgs_path p (s.toRqu p) (s.setToRqu p [])).trans (s.setToRqu_path p [])
    have hv := State.foldPortMsgs_view p (s.toRqu p) (s.setToRqu p []) (by rw [State.setToRqu_viewOn]; exact h)
    rw [State.view_eq, hp]
    exact ⟨hv, rfl⟩
  · rename_i hn
    refine ⟨h, ?_⟩
    unfold PortView.Calm State.view
    dsimp only
    rw [List.filter_eq_nil_iff]
    intro m hm hma
    exact hn (List.any_eq_true.2 ⟨m, hm, hma⟩)

theorem State.settle_other (s : State) (p r : Port) (h : r ≠ p) : (s.settle p).view r = s.view r := by
  unfold State.settle
  split
  · exact (State.foldPortMsgs_other p r h _ _).trans (s.setToRqu_other p r [] h)
  · rfl

/-! ## The other port -/

theorem State.endSegment_other (s : State) (e : SegmentEnd) : (s.endSegment e).view .fwp = s.view .fwp := by
  have h1 : ∀ r, (s.refuseFrame .twp r).view .fwp = s.view .fwp := fun _ => rfl
  have h2 : (s.judgeRequest .twp).view .fwp = s.view .fwp := by
    unfold State.judgeRequest
    dsimp only
    repeat' split
    all_goals rfl
  have h3 : ∀ item, (s.judgeSelect item).view .fwp = s.view .fwp := by
    intro item
    unfold State.judgeSelect
    split <;> rfl
  have h4 : s.judgeQuery.view .fwp = s.view .fwp := by
    unfold State.judgeQuery
    dsimp only
    repeat' split
    all_goals rfl
  have h5 : s.judgeTwp.view .fwp = s.view .fwp := by
    unfold State.judgeTwp
    dsimp only
    split
    · rfl
    · exact h4
    · split
      · rfl
      · split
        · exact h2
        · exact h3 _
        · exact h3 _
  have h6 : (s.endPresentation .twp).view .fwp = s.view .fwp := by
    unfold State.endPresentation State.endStatus
    repeat' split
    all_goals rfl
  unfold State.endSegment
  have h : (match s.twp.front.state with
    | .receiving => s.judgeTwp
    | .refusing => s.judgeTwp
    | .presenting => s.endPresentation .twp
    | .idle => s).view .fwp = s.view .fwp := by
    split
    · exact h5
    · exact h5
    · exact h6
    · rfl
  cases e
  · exact h
  · exact h

theorem State.addressTwp_other (s : State) (b : Byte) : (s.addressTwp b).view .fwp = s.view .fwp := by
  have h1 : s.readPrimary.view .fwp = s.view .fwp := by
    unfold State.readPrimary
    rcases s.twp.held with _ | (⟨n, session⟩ | _ | ⟨q, stage⟩) <;> rfl
  have h2 : s.readCheckOnly.view .fwp = s.view .fwp := by
    unfold State.readCheckOnly
    rcases s.twp.held with _ | (_ | _ | ⟨q, _ | _ | a⟩) <;> rfl
  unfold State.addressTwp
  dsimp only
  repeat' split
  all_goals first
    | exact h1
    | exact h2
    | rfl

theorem State.receiveTwp_other (s : State) (b : Byte) : (s.receiveTwp b).view .fwp = s.view .fwp := by
  unfold State.receiveTwp
  dsimp only
  split
  · unfold State.leadTwp
    split <;> rfl
  · split
    · rfl
    · split <;> rfl

theorem State.clockFwp_other (s : State) (b : Byte) : (s.clockFwp b).view .twp = s.view .twp := by
  have h : ∀ a : State, (a.receiveFwp b).view .twp = a.view .twp := by
    intro a
    unfold State.receiveFwp
    dsimp only
    split
    · unfold State.leadFwp
      dsimp only
      split
      · rfl
      · split <;> rfl
    · split
      · rfl
      · split
        · unfold State.requestFwp
          dsimp only
          repeat' split
          all_goals rfl
        · unfold State.selectFwp
          dsimp only
          repeat' split
          all_goals rfl
  unfold State.clockFwp
  dsimp only
  split
  · exact h _
  · rfl
  · rfl
  · rfl

theorem State.endTransaction_other (s : State) : s.endTransaction.view .twp = s.view .twp := by
  have h1 : s.judgeFwp.view .twp = s.view .twp := by
    unfold State.judgeFwp State.judgeRequest
    dsimp only
    repeat' split
    all_goals rfl
  have h2 : (s.endPresentation .fwp).view .twp = s.view .twp := by
    unfold State.endPresentation State.endStatus
    repeat' split
    all_goals rfl
  unfold State.endTransaction
  have h : (match s.fwp.front.state with
    | .receiving => s.judgeFwp
    | .presenting => s.endPresentation .fwp
    | .refusing => s
    | .idle => s).view .twp = s.view .twp := by
    split
    · exact h1
    · exact h2
    · rfl
    · rfl
  exact h

/-! ## The ends of segments and transactions -/

/-- A view at the end of a segment or transaction: IDLE, perhaps with a claim released, perhaps with one message sent. -/
structure PortView.Ends (v w : PortView) : Prop where
  queue : w.queue = v.queue
  front : w.front = Front.idle
  claim : w.claim = v.claim ∨ w.claim = false
  path : w.path = v.path ∨ ∃ m, w.path = v.path ++ [m] ∧ ∀ f, m = .arrival f → w.claim = true

theorem PortView.Ends.lawful {v w : PortView} {p : Port} (h : v.Ends w) (hl : v.Lawful p) (hv : v.Calm) : w.Lawful p := by
  have hx : w.front.Lawful p := by
    rw [h.front]
    exact .idle p
  have hs : w.front.state ≠ .receiving := by
    rw [h.front]
    decide
  rcases h.path with hp | ⟨m, hp, ha⟩
  · exact hl.calm_front hv h.queue h.claim hx (fun e => absurd e hs) hp
  · exact hl.calm_send hv m h.queue h.claim hx (fun f e => ⟨ha f e, fun e => hs e.1⟩) (fun e => absurd e hs) hp

/-- A REQUEST that passes its checks had been received to its end. -/
theorem Front.fault_none_extra {x : Front} (h : x.fault = none) : x.extra = false := by
  unfold Front.fault at h
  split at h
  · cases h
  · split at h
    · cases h
    · rename_i he
      exact Bool.not_eq_true _ |>.mp he

/-- The judgement of a REQUEST releases its claim, or sends the frame with its claim kept. -/
theorem State.judgeRequest_view (s : State) (p : Port) :
    ((s.judgeRequest p).view p = { s.view p with claim := false }) ∨
      ∃ f, (s.judgeRequest p).view p = { s.view p with path := (s.view p).path ++ [.arrival f] } ∧ (s.front p).fault = none := by
  unfold State.judgeRequest
  dsimp only
  split
  · exact .inl (by cases p <;> rfl)
  · rename_i hf
    split
    · exact .inl (by cases p <;> rfl)
    · rename_i f _
      exact .inr ⟨f, by cases p <;> rfl, hf⟩

theorem State.endPresentation_view (s : State) (p : Port) :
    (s.endPresentation p).view p = s.view p ∨
      ∃ full, (s.endPresentation p).view p = { s.view p with path := (s.view p).path ++ [.collectEnd full] } := by
  unfold State.endPresentation
  split
  · exact .inr ⟨(s.front p).readInFull, by cases p <;> rfl⟩
  · refine .inl ?_
    unfold State.endStatus
    split
    · cases p <;> rfl
    · rfl
  · exact .inl rfl
  · exact .inl rfl

/-- A view whose front end goes IDLE. -/
def PortView.idled (v : PortView) : PortView := { v with front := Front.idle }

theorem PortView.Ends.kept (v : PortView) : v.Ends v.idled := ⟨rfl, rfl, .inl rfl, .inl rfl⟩

theorem PortView.Ends.released (v : PortView) : v.Ends ({ v with claim := false } : PortView).idled :=
  ⟨rfl, rfl, .inr rfl, .inl rfl⟩

theorem PortView.Ends.sent (v : PortView) (m : PortMsg) (h : ∀ f, m = .arrival f → v.claim = true) :
    v.Ends ({ v with path := v.path ++ [m] } : PortView).idled := ⟨rfl, rfl, .inl rfl, .inr ⟨m, rfl, h⟩⟩

theorem State.judgeTwp_ends (s : State) (hl : (s.view .twp).Lawful .twp) (hv : (s.view .twp).Calm)
    (hs : s.twp.front.state = .receiving ∨ s.twp.front.state = .refusing) :
    (s.view .twp).Ends (s.judgeTwp.view .twp).idled := by
  have hq : s.judgeQuery.view .twp = s.view .twp := by
    unfold State.judgeQuery
    dsimp only
    repeat' split
    all_goals rfl
  have hsel : ∀ item, (s.view .twp).Ends ((s.judgeSelect item).view .twp).idled := by
    intro item
    unfold State.judgeSelect
    split
    · exact .released _
    · exact .kept _
  unfold State.judgeTwp
  dsimp only
  split
  · exact .kept _
  · rw [hq]
    exact .kept _
  · rename_i k hk
    split
    · exact .kept _
    · rename_i hn
      split
      · rcases s.judgeRequest_view .twp with e | ⟨f, e, hf⟩
        · rw [e]
          exact .released _
        · rw [e]
          refine .sent _ _ fun _ _ => ?_
          have hx := Front.fault_none_extra (x := s.twp.front) hf
          rcases hs with hs | hs
          · rcases hl.receiving hs hk with hc | hc
            · exact hc
            · exact absurd hc hv.no_claim
          · exact absurd ⟨hs, hx⟩ hn
      · exact hsel _
      · exact hsel _

theorem State.endSegment_ends (s : State) (e : SegmentEnd) (hl : (s.view .twp).Lawful .twp) (hv : (s.view .twp).Calm) :
    (s.view .twp).Ends ((s.endSegment e).view .twp) := by
  unfold State.endSegment
  have h : (s.view .twp).Ends ((match s.twp.front.state with
    | .receiving => s.judgeTwp
    | .refusing => s.judgeTwp
    | .presenting => s.endPresentation .twp
    | .idle => s).view .twp).idled := by
    split
    · rename_i h
      exact s.judgeTwp_ends hl hv (.inl h)
    · rename_i h
      exact s.judgeTwp_ends hl hv (.inr h)
    · rcases s.endPresentation_view .twp with e | ⟨full, e⟩
      · rw [e]
        exact .kept _
      · rw [e]
        exact .sent _ _ fun f h => by cases h
    · exact .kept _
  cases e
  · exact h
  · exact h

theorem State.endTransaction_ends (s : State) (hl : (s.view .fwp).Lawful .fwp) (hv : (s.view .fwp).Calm) :
    (s.view .fwp).Ends (s.endTransaction.view .fwp) := by
  have hj : s.fwp.front.state = .receiving → (s.view .fwp).Ends (s.judgeFwp.view .fwp).idled := by
    intro hs
    unfold State.judgeFwp
    split
    · exact .kept _
    · rename_i hk
      rcases s.judgeRequest_view .fwp with e | ⟨f, e, hf⟩
      · rw [e]
        exact .released _
      · rw [e]
        refine .sent _ _ fun _ _ => ?_
        rcases hl.receiving hs hk with hc | hc
        · exact hc
        · exact absurd hc hv.no_claim
    · split
      · exact .released _
      · exact .kept _
  unfold State.endTransaction
  have h : (s.view .fwp).Ends ((match s.fwp.front.state with
    | .receiving => s.judgeFwp
    | .presenting => s.endPresentation .fwp
    | .refusing => s
    | .idle => s).view .fwp).idled := by
    split
    · rename_i h
      exact hj h
    · rcases s.endPresentation_view .fwp with e | ⟨full, e⟩
      · rw [e]
        exact .kept _
      · rw [e]
        exact .sent _ _ fun f h => by cases h
    · exact .kept _
    · exact .kept _
  exact h

/-! ## What the two-wire port takes and shows -/

theorem Front.Lawful.begin (kind : Option FrameKind) (h : kind ≠ some .request) :
    ({ Front.idle with state := .receiving, kind := kind } : Front).Lawful .twp := by
  refine ⟨rfl, ⟨Nat.zero_le _, fun _ _ => Nat.zero_le _, fun k _ hk => ?_⟩, fun e => by cases e⟩
  exact ⟨Nat.zero_le _, FrameKind.length_le k _ (Nat.zero_le _)⟩

theorem Front.Lawful.shows (p : Port) (k : Presentation) (out : List Byte) : (Front.idle.present k out).Lawful p :=
  (Front.Lawful.idle p).not_receiving rfl rfl (by simp [Front.present])

theorem PortView.Lawful.shows {v w : PortView} {p : Port} (h : v.Lawful p) (hv : v.Calm) (hq : w.queue = v.queue)
    (hc : w.claim = v.claim) (hx : w.front.Lawful p) (hs : w.front.state ≠ .receiving) (hp : w.path = v.path) : w.Lawful p :=
  h.calm_front hv hq (.inl hc) hx (fun e => absurd e hs) hp

theorem State.addressTwp_view (s : State) (b : Byte) (hl : (s.view .twp).Lawful .twp) (hv : (s.view .twp).Calm) :
    ((s.addressTwp b).view .twp).Lawful .twp := by
  have hread : ∀ (a : State) (k : Presentation) (out : List Byte), a.view .twp = s.view .twp →
      ((a.beginRead k out).view .twp).Lawful .twp := by
    intro a k out ha
    have hw : (a.beginRead k out).view .twp = { a.view .twp with front := Front.idle.present k out } := rfl
    rw [hw, ha]
    exact hl.shows hv rfl rfl (.shows _ _ _) (by simp [Front.present]) rfl
  have hign : (s.ignoreSegment.view .twp).Lawful .twp :=
    hl.shows hv rfl rfl (.idle _) (fun e => by cases e) rfl
  have hwrite : ∀ kind, kind ≠ some .request → ((s.beginWrite kind).view .twp).Lawful .twp := by
    intro kind hk
    have hw : (s.beginWrite kind).view .twp =
        { s.view .twp with front := { Front.idle with state := .receiving, kind := kind } } := rfl
    rw [hw]
    exact hl.calm_front hv rfl (.inl rfl) (.begin kind hk) (fun _ e => absurd e hk) rfl
  have h1 : (s.readPrimary.view .twp).Lawful .twp := by
    unfold State.readPrimary
    rcases s.twp.held with _ | (⟨n, session⟩ | _ | ⟨q, stage⟩)
    · exact hread _ _ _ rfl
    · have hw : ((s.dropHeld.beginRead .completion []).sendToRqu .twp (.select n session)).view .twp =
          { s.view .twp with
            front := Front.idle.present .completion [], path := (s.view .twp).path ++ [.select n session] } := rfl
      exact hl.calm_send hv (.select n session) (w := _) rfl (.inl rfl) (by rw [hw]; exact .shows _ _ _)
        (fun f e => by cases e) (fun e => by rw [hw] at e; simp [Front.present] at e) (by rw [hw])
    · have hw : ∃ out, ((s.dropHeld.beginRead .status []).fixStatus .twp).view .twp =
          { s.view .twp with front := (Front.idle.present .status []).present .status out } := ⟨_, rfl⟩
      obtain ⟨out, hw⟩ := hw
      dsimp only
      rw [hw]
      exact hl.shows hv rfl rfl
        ((Front.Lawful.shows .twp .status []).not_receiving rfl rfl (by simp [Front.present])) (by simp [Front.present]) rfl
    · exact hread _ _ _ rfl
  have h2 : (s.readCheckOnly.view .twp).Lawful .twp := by
    unfold State.readCheckOnly
    rcases s.twp.held with _ | (_ | _ | ⟨q, _ | _ | a⟩) <;> exact hread _ _ _ rfl
  unfold State.addressTwp
  dsimp only
  repeat' split
  all_goals first
    | exact h1
    | exact h2
    | exact hign
    | exact hwrite _ (by decide)

theorem State.refuseTwpByte_view (s : State) (b : Byte) (r : RefusalReason) :
    (s.refuseTwpByte b r).view .twp =
      { s.view .twp with claim := false, front := { s.twp.front.take b with state := .refusing } } := rfl

theorem State.receiveTwp_view (s : State) (b : Byte) (hs : s.twp.front.state = .receiving)
    (hl : (s.view .twp).Lawful .twp) (hv : (s.view .twp).Calm) : ((s.receiveTwp b).view .twp).Lawful .twp := by
  have hx : s.twp.front.Lawful .twp := hl.frontLawful
  have hrefuse : ∀ r, s.twp.front.bytes.length < 22 → ((s.refuseTwpByte b r).view .twp).Lawful .twp := by
    intro r hlen
    rw [State.refuseTwpByte_view]
    exact hl.calm_front hv rfl (.inr rfl) (hx.take_stop b hlen rfl rfl (by simp)) (fun e => absurd e (by simp)) rfl
  unfold State.receiveTwp
  dsimp only
  split
  · rename_i hk
    have hone := hx.bounded.2.1 hs hk
    unfold State.leadTwp
    split
    · exact hrefuse _ (Nat.lt_of_le_of_lt hone (by decide))
    · have hw : (((s.setFront .twp { s.twp.front.take b with kind := some .request }).setAck .twp false).sendToRqu .twp
          .claim).view .twp =
          { s.view .twp with
            front := { s.twp.front.take b with kind := some .request }, path := (s.view .twp).path ++ [.claim] } := rfl
      rw [hw]
      exact hl.calm_send hv .claim rfl (.inl rfl) (hx.lead b hone (fun e => by cases e) _) (fun f e => by cases e)
        (fun _ _ => .inr rfl) rfl
    · rename_i k hk' _
      have hw : ((s.setFront .twp { s.twp.front.take b with kind := some k }).setAck .twp true).view .twp =
          { s.view .twp with front := { s.twp.front.take b with kind := some k } } := rfl
      rw [hw]
      refine hl.calm_front hv rfl (.inl rfl) (hx.lead b hone (fun e => by cases e) _) (fun _ e => ?_) rfl
      exact absurd (by simpa using e) hk'
  · rename_i hk
    split
    · have hw : s.refuseTwpExtra.view .twp =
          { s.view .twp with front := { s.twp.front with extra := true, state := .refusing } } := rfl
      rw [hw]
      exact hl.shows hv rfl rfl (hx.not_receiving rfl rfl (by simp)) (by simp) rfl
    · rename_i hc
      have hc' : s.twp.front.complete = false := Bool.not_eq_true _ |>.mp hc
      split
      · exact hrefuse _ (hx.room hs (.inr hc'))
      · rename_i hb
        have hw : (s.takeTwp b).view .twp = { s.view .twp with front := s.twp.front.take b } := rfl
        rw [hw]
        obtain ⟨k, hk'⟩ := Option.ne_none_iff_exists'.1 hk
        refine hl.calm_front hv rfl (.inl rfl)
          (hx.take_some b hs hk' hc' (Bool.not_eq_true _ |>.mp hb) fun e => by cases e) (fun _ e => ?_) rfl
        rcases hl.receiving hs e with h | h
        · exact h
        · exact absurd h hv.no_claim

theorem State.clockOut_view (s : State) (ack : Bool) (hs : s.twp.front.state = .presenting)
    (hl : (s.view .twp).Lawful .twp) (hv : (s.view .twp).Calm) : ((s.clockOut ack).view .twp).Lawful .twp := by
  have hx : s.twp.front.Lawful .twp := hl.frontLawful
  have hw : (s.clockOut ack).view .twp =
      { s.view .twp with front := if s.twp.nacked then s.twp.front else s.twp.front.advance } := rfl
  rw [hw]
  refine hl.shows hv rfl rfl ?_ ?_ rfl
  · dsimp only
    split
    · exact hx
    · exact hx.same rfl rfl rfl rfl
  · dsimp only
    split
    · rw [hs]; decide
    · show s.twp.front.state ≠ _
      rw [hs]; decide

/-! ## What the four-wire port takes -/

theorem State.refuseFwp_view (s : State) (r : RefusalRecord) :
    (s.refuseFwp r).view .fwp = { s.view .fwp with claim := false, front := { s.fwp.front with state := .refusing } } := rfl

theorem State.receiveFwp_view (s : State) (b : Byte) (hs : s.fwp.front.state = .receiving)
    (hl : (s.view .fwp).Lawful .fwp) (hv : (s.view .fwp).Calm) : ((s.receiveFwp b).view .fwp).Lawful .fwp := by
  have hx : s.fwp.front.Lawful .fwp := hl.frontLawful
  have hrefuse : ∀ r, s.fwp.front.bytes.length < 22 →
      (((s.setFront .fwp (s.fwp.front.take b)).refuseFwp r).view .fwp).Lawful .fwp := by
    intro r hlen
    have hw : ((s.setFront .fwp (s.fwp.front.take b)).refuseFwp r).view .fwp =
        { s.view .fwp with claim := false, front := { s.fwp.front.take b with state := .refusing } } := rfl
    rw [hw]
    exact hl.calm_front hv rfl (.inr rfl) (hx.take_stop b hlen rfl rfl (by simp)) (fun e => absurd e (by simp)) rfl
  have hset : ∀ x : Front, x.Lawful .fwp → (x.state = .receiving → x.kind = some .request → (s.view .fwp).claim = true) →
      ((s.setFront .fwp x).view .fwp).Lawful .fwp := by
    intro x hx' hr
    have hw : (s.setFront .fwp x).view .fwp = { s.view .fwp with front := x } := rfl
    rw [hw]
    exact hl.calm_front hv rfl (.inl rfl) hx' hr rfl
  unfold State.receiveFwp
  dsimp only
  split
  · rename_i hb0
    have hone : s.fwp.front.bytes.length ≤ 1 := by rw [hb0]; decide
    unfold State.leadFwp
    dsimp only
    split
    · cases hk : s.fwp.front.kind with
      | none =>
        refine hset _ ⟨Front.take_check hx.check b, ⟨?_, fun _ _ => ?_, fun k _ e => ?_⟩, fun _ k _ e => ?_⟩ fun _ e => ?_
        · unfold Front.take
          rw [hb0]
          exact Nat.le_of_ble_eq_true rfl
        · unfold Front.take
          rw [hb0]
          exact Nat.le_refl 1
        · exact absurd (hk.symm.trans e) (by simp)
        · exact absurd (hk.symm.trans e) (by simp)
        · exact absurd (hk.symm.trans e) (by simp)
      | some k =>
        have h2 : ∀ k : FrameKind, 2 ≤ k.length [b] := by
          intro k
          cases k <;> unfold FrameKind.length <;> dsimp only <;> omega
        have h2' : ∀ k : FrameKind, 2 ≤ k.length [] := by
          intro k
          cases k <;> decide
        refine hset _ (hx.take_some b hs hk ?_ ?_ fun _ _ => ?_) fun _ e => ?_
        · unfold Front.complete
          rw [Front.total_of_kind hk, hb0]
          have := h2' k
          simp
          omega
        · unfold Front.badLength
          simp [hb0]
        · unfold Front.complete
          have ht : (s.fwp.front.take b).bytes = [b] := by
            unfold Front.take
            rw [hb0]
            rfl
          rw [Front.total_of_kind (x := s.fwp.front.take b) hk, ht]
          have := h2 k
          simp
          omega
        · rcases hl.receiving hs e with h | h
          · exact h
          · exact absurd h hv.no_claim
    · split
      · exact hrefuse _ (Nat.lt_of_le_of_lt hone (by decide))
      · have hw : ((s.setFront .fwp { s.fwp.front.take b with kind := some .request }).sendToRqu .fwp .claim).view .fwp =
            { s.view .fwp with
              front := { s.fwp.front.take b with kind := some .request }, path := (s.view .fwp).path ++ [.claim] } := rfl
        rw [hw]
        exact hl.calm_send hv .claim rfl (.inl rfl) (hx.lead b hone (fun _ => hb0) _) (fun f e => by cases e)
          (fun _ _ => .inr rfl) rfl
      · rename_i k hk' _
        exact hset _ (hx.lead b hone (fun _ => hb0) _) fun _ e => absurd (by simpa using e) hk'
  · split
    · rw [State.refuseFwp_view]
      exact hl.calm_front hv rfl (.inr rfl) (hx.not_receiving rfl rfl (by simp)) (fun e => absurd e (by simp)) rfl
    · rename_i hk
      split
      · rename_i hreq
        have hcl : (s.view .fwp).claim = true := by
          rcases hl.receiving hs hreq with h | h
          · exact h
          · exact absurd h hv.no_claim
        unfold State.requestFwp
        dsimp only
        split
        · exact hset _ (hx.same rfl rfl rfl rfl) fun _ _ => hcl
        · rename_i hc
          have hc' : s.fwp.front.complete = false := Bool.not_eq_true _ |>.mp hc
          split
          · exact hrefuse _ (hx.room hs (.inr hc'))
          · rename_i hb
            exact hset _ (hx.take_some b hs hreq hc' (Bool.not_eq_true _ |>.mp hb) fun _ h => absurd rfl h) fun _ _ => hcl
      · rename_i hnr
        obtain ⟨k, hk'⟩ := Option.ne_none_iff_exists'.1 hk
        have hkr : k ≠ .request := fun e => hnr (e ▸ hk')
        have hc' : s.fwp.front.complete = false := by
          unfold Front.complete
          rw [Front.total_of_kind hk']
          have := hx.short rfl k hs hk' hkr
          simpa using this
        have hb : s.fwp.front.badLength b = false := by
          unfold Front.badLength
          simp [hnr]
        unfold State.selectFwp
        dsimp only
        split
        · rename_i hlast
          exact hset _ (hx.take_some b hs hk' hc' hb fun _ _ => hlast) fun _ e => absurd e hnr
        · split
          · exact hrefuse _ (hx.room hs (.inr hc'))
          · have hstop : ∀ (k : Presentation) (out : List Byte), ((s.fwp.front.take b).present k out).Lawful .fwp := fun k out =>
              hx.take_stop b (hx.room hs (.inr hc')) rfl rfl (by simp [Front.present])
            split
            · have hw : (((s.setFront .fwp (s.fwp.front.take b)).setFront .fwp
                  ((s.fwp.front.take b).present .completion [])).sendToRqu .fwp
                    (.select (leadSlot (operandByte (s.fwp.front.take b).bytes 0))
                      (frameSession (s.fwp.front.take b).bytes))).view .fwp =
                  { s.view .fwp with
                    front := (s.fwp.front.take b).present .completion []
                    path := (s.view .fwp).path ++
                      [.select (leadSlot (operandByte (s.fwp.front.take b).bytes 0))
                        (frameSession (s.fwp.front.take b).bytes)] } := rfl
              rw [hw]
              exact hl.calm_send hv _ rfl (.inl rfl) (hstop _ _) (fun f e => by cases e)
                (fun e => by simp [Front.present] at e) rfl
            · have hw : ∃ out, ((s.setFront .fwp (s.fwp.front.take b)).fixStatus .fwp).view .fwp =
                  { s.view .fwp with front := (s.fwp.front.take b).present .status out } := ⟨_, rfl⟩
              obtain ⟨out, hw⟩ := hw
              rw [hw]
              exact hl.shows hv rfl rfl (hstop _ _) (by simp [Front.present]) rfl

theorem State.clockFwp_view (s : State) (b : Byte) (hl : (s.view .fwp).Lawful .fwp) (hv : (s.view .fwp).Calm) :
    ((s.clockFwp b).view .fwp).Lawful .fwp := by
  unfold State.clockFwp
  dsimp only
  split
  · rename_i hs
    exact State.receiveFwp_view { s with fwp := { s.fwp with sdoOut := s.fwp.outByte } } b hs hl hv
  · rename_i hs
    have hx : s.fwp.front.Lawful .fwp := hl.frontLawful
    refine PortView.Lawful.shows (v := s.view .fwp) hl hv rfl rfl (hx.same rfl rfl rfl rfl) ?_ rfl
    show s.fwp.front.state ≠ _
    rw [hs]
    decide
  · exact hl
  · exact hl

/-! ## Every command -/

theorem State.views_of {s t : State} (h : ∀ p, (s.view p).Lawful p) (hv : ∀ p, t.view p = s.view p) :
    ∀ p, (t.view p).Lawful p := fun p => hv p ▸ h p

theorem State.views_twp {s t : State} (h : ∀ p, (s.view p).Lawful p) (h1 : (t.view .twp).Lawful .twp)
    (h2 : t.view .fwp = s.view .fwp) : ∀ p, (t.view p).Lawful p
  | .twp => h1
  | .fwp => h2 ▸ h .fwp

theorem State.views_fwp {s t : State} (h : ∀ p, (s.view p).Lawful p) (h1 : (t.view .fwp).Lawful .fwp)
    (h2 : t.view .twp = s.view .twp) : ∀ p, (t.view p).Lawful p
  | .twp => h2 ▸ h .twp
  | .fwp => h1

theorem State.reset_views {t : State} (hq : t.rqu = Rqu.afterReset) (hx : ∀ p, t.front p = Front.idle)
    (hm : t.paths = Paths.empty) : ∀ p, (t.view p).Lawful p := by
  intro p
  have hv : t.view p = ⟨[], false, Front.idle, []⟩ := by
    unfold State.view State.toRqu
    rw [hq, hx, hm]
    cases p <;> rfl
  rw [hv]
  have hi := Front.Lawful.idle p
  exact ⟨by decide, fun f hf => absurd hf (by simp), fun e => absurd e (by decide), by decide, hi.check, hi.bounded, hi.short⟩

/-- A take of a frame by LEN leaves a port's queue no longer than it was. -/
theorem State.popFrame_views (s : State) (r : Port) (h : ∀ p, (s.view p).Lawful p) :
    ∀ p, ((s.popFrame r).view p).Lawful p := by
  intro p
  by_cases hp : p = r
  · subst hp
    have hv : (s.popFrame p).view p = { s.view p with queue := (s.rqu.port p).queue.tail } := by cases p <;> rfl
    rw [hv]
    obtain ⟨h1, h2, h3, h4, h5, h6, h7⟩ := h p
    refine ⟨?_, h2, h3, h4, h5, h6, h7⟩
    have : (s.rqu.port p).queue.tail.length ≤ (s.rqu.port p).queue.length := by
      rw [List.length_tail]
      omega
    exact Nat.le_trans (Nat.add_le_add_right this _) h1
  · have hv : (s.popFrame r).view p = s.view p := by
      cases p <;> cases r <;> first
        | exact absurd rfl hp
        | rfl
    rw [hv]
    exact h p

theorem State.refuseAtTake_view (s : State) (p q : Port) (r : RefusalReason) (f : Frame) :
    (s.refuseAtTake p r f).view q = s.view q := by cases p <;> cases q <;> rfl

theorem State.takeRequest_views (s : State) (k : ReqKind) (request : Frame → LenEvent → LenEvent)
    (h : ∀ p, (s.view p).Lawful p) : ∀ p, ((s.takeRequest k request).view p).Lawful p := by
  unfold State.takeRequest
  split
  · exact h
  · rename_i r f _
    dsimp only
    split
    · exact State.views_of (s.popFrame_views r h) fun p => by cases p <;> rfl
    · exact State.views_of (s.popFrame_views r h) fun p => State.refuseAtTake_view _ _ _ _ _

theorem State.changeView_view (s : State) (n : SlotIx) (v : SlotView) (p : Port) : (s.changeView n v).view p = s.view p := by
  unfold State.view State.changeView State.dropMarks State.modRquSlot
  cases p <;>
  · dsimp only [Rqu.port]
    split <;> rfl

/-- Every command keeps the laws of the intakes and of the front ends (R120, R147). -/
theorem exec_views (c : Instr) (s : State) (h : ∀ p, (s.view p).Lawful p) :
    ∃ t, exec c s = .next t ∧ ∀ p, (t.view p).Lawful p := by
  cases c <;> first
    | exact ⟨_, rfl, State.takeRequest_views s _ _ h⟩
    | refine ⟨_, rfl, ?_⟩
  case powerOnReset => exact State.reset_views rfl (fun p => by cases p <;> rfl) rfl
  case pinReset => exact State.reset_views rfl (fun p => by cases p <;> rfl) rfl
  case porRelease =>
    split
    · exact State.views_of h fun p => by cases p <;> rfl
    · exact h
  case pinResetRelease =>
    split
    · split <;> exact State.views_of h fun p => by cases p <;> rfl
    · exact h
  case attach =>
    split
    · exact h
    · rename_i r f _
      dsimp only
      split
      · exact State.views_of (s.popFrame_views r h) fun p => by cases p <;> rfl
      · exact State.views_of (s.popFrame_views r h) fun p => State.refuseAtTake_view _ _ _ _ _
  case takeTimeRefusal p =>
    refine State.views_of h fun r => ?_
    cases p <;> (dsimp only; split; all_goals (cases r <;> rfl))
  case intakeClaim p =>
    split
    · rename_i rest hp
      intro r
      by_cases hr : r = p
      · subst hr
        have hk := State.takePortMsg_view (s.setToRqu r rest) r .claim rest
          (by rw [State.setToRqu_viewOn, ← hp]; exact h r)
        rw [State.view_eq, show ((s.setToRqu r rest).answerClaim r).toRqu r = rest from
          (State.takePortMsg_path _ r .claim).trans (s.setToRqu_path r rest)]
        exact hk
      · rw [show ((s.setToRqu p rest).answerClaim p).view r = s.view r from
          (State.takePortMsg_other _ p r .claim hr).trans (s.setToRqu_other p r rest hr)]
        exact h r
    · exact h
  case arrivalCheck p =>
    split
    · rename_i f rest hp
      intro r
      by_cases hr : r = p
      · subst hr
        have hk := State.takePortMsg_view (s.setToRqu r rest) r (.arrival f) rest
          (by rw [State.setToRqu_viewOn, ← hp]; exact h r)
        rw [State.view_eq, show ((s.setToRqu r rest).answerArrival r f).toRqu r = rest from
          (State.takePortMsg_path _ r (.arrival f)).trans (s.setToRqu_path r rest)]
        exact hk
      · rw [show ((s.setToRqu p rest).answerArrival p f).view r = s.view r from
          (State.takePortMsg_other _ p r (.arrival f) hr).trans (s.setToRqu_other p r rest hr)]
        exact h r
    · exact h
  case collectSelect p =>
    split
    · rename_i n session rest hp
      intro r
      by_cases hr : r = p
      · subst hr
        have hk := State.takePortMsg_view (s.setToRqu r rest) r (.select n session) rest
          (by rw [State.setToRqu_viewOn, ← hp]; exact h r)
        rw [State.view_eq, show ((s.setToRqu r rest).answerSelect r n session).toRqu r = rest from
          (State.takePortMsg_path _ r (.select n session)).trans (s.setToRqu_path r rest)]
        exact hk
      · rw [show ((s.setToRqu p rest).answerSelect p n session).view r = s.view r from
          (State.takePortMsg_other _ p r (.select n session) hr).trans (s.setToRqu_other p r rest hr)]
        exact h r
    · exact h
  case collectEnd p =>
    split
    · rename_i full rest hp
      intro r
      by_cases hr : r = p
      · subst hr
        have hk := State.takePortMsg_view (s.setToRqu r rest) r (.collectEnd full) rest
          (by rw [State.setToRqu_viewOn, ← hp]; exact h r)
        rw [State.view_eq, show ((s.setToRqu r rest).answerCollectEnd r full).toRqu r = rest from
          (State.takePortMsg_path _ r (.collectEnd full)).trans (s.setToRqu_path r rest)]
        exact hk
      · rw [show ((s.setToRqu p rest).answerCollectEnd p full).view r = s.view r from
          (State.takePortMsg_other _ p r (.collectEnd full) hr).trans (s.setToRqu_other p r rest hr)]
        exact h r
    · exact h
  case twpAddress b =>
    split
    · exact State.views_of h fun p => by cases p <;> rfl
    · dsimp only
      obtain ⟨h1, h2⟩ := s.settle_view .twp (h .twp)
      have h3 := s.settle_other .twp .fwp (by decide)
      generalize s.settle .twp = a at h1 h2 h3
      split
      · exact State.views_twp h (a.addressTwp_view b h1 h2) ((a.addressTwp_other b).trans h3)
      · have k1 := (a.endSegment_ends .repeatedStart h1 h2).lawful h1 h2
        obtain ⟨k2, k3⟩ := State.settle_view (a.endSegment .repeatedStart) .twp k1
        exact State.views_twp h (State.addressTwp_view _ b k2 k3)
          ((State.addressTwp_other _ b).trans
            ((State.settle_other _ .twp .fwp (by decide)).trans ((a.endSegment_other .repeatedStart).trans h3)))
  case twpWriteByte b =>
    split
    · exact State.views_of h fun p => by cases p <;> rfl
    · dsimp only
      obtain ⟨h1, h2⟩ := s.settle_view .twp (h .twp)
      have h3 := s.settle_other .twp .fwp (by decide)
      generalize s.settle .twp = a at h1 h2 h3
      split
      · rename_i hs
        exact State.views_twp h (a.receiveTwp_view b hs h1 h2) ((a.receiveTwp_other b).trans h3)
      · exact State.views_twp h h1 h3
  case twpSegmentEnd e =>
    split
    · exact h
    · obtain ⟨h1, h2⟩ := s.settle_view .twp (h .twp)
      have h3 := s.settle_other .twp .fwp (by decide)
      generalize s.settle .twp = a at h1 h2 h3
      exact State.views_twp h ((a.endSegment_ends e h1 h2).lawful h1 h2) ((a.endSegment_other e).trans h3)
  case busClear =>
    split
    · exact h
    · dsimp only
      obtain ⟨h1, h2⟩ := s.settle_view .twp (h .twp)
      have h3 := s.settle_other .twp .fwp (by decide)
      generalize s.settle .twp = a at h1 h2 h3
      split
      · refine State.views_twp h (PortView.Ends.lawful ?_ h1 h2) h3
        exact ⟨rfl, rfl, .inr rfl, .inr ⟨.collectEnd false, rfl, fun f e => by cases e⟩⟩
      · refine State.views_twp h (PortView.Ends.lawful ?_ h1 h2) h3
        exact ⟨rfl, rfl, .inr rfl, .inl rfl⟩
  case byteClockedOut ack =>
    split
    · exact State.views_of h fun p => by cases p <;> rfl
    · dsimp only
      obtain ⟨h1, h2⟩ := s.settle_view .twp (h .twp)
      have h3 := s.settle_other .twp .fwp (by decide)
      generalize s.settle .twp = a at h1 h2 h3
      split
      · rename_i hs
        exact State.views_twp h (a.clockOut_view ack hs h1 h2) h3
      · exact State.views_twp h h1 h3
  case ssnFall high =>
    split
    · exact h
    · split
      · exact State.views_of h fun p => by cases p <;> rfl
      · dsimp only
        obtain ⟨h1, h2⟩ := s.settle_view .fwp (h .fwp)
        have h3 := s.settle_other .fwp .twp (by decide)
        generalize s.settle .fwp = a at h1 h2 h3
        refine State.views_fwp h ?_ h3
        have hx : ({ Front.idle with state := .receiving } : Front).Lawful .fwp :=
          ⟨rfl, ⟨Nat.zero_le _, fun _ _ => Nat.zero_le _, fun k _ e => by cases e⟩, fun _ k _ e => by cases e⟩
        exact h1.calm_front h2 rfl (.inl rfl) hx (fun _ e => by cases e) rfl
  case fwpByteReceived b =>
    split
    · exact h
    · obtain ⟨h1, h2⟩ := s.settle_view .fwp (h .fwp)
      have h3 := s.settle_other .fwp .twp (by decide)
      generalize s.settle .fwp = a at h1 h2 h3
      exact State.views_fwp h (a.clockFwp_view b h1 h2) ((a.clockFwp_other b).trans h3)
  case ssnRise =>
    split
    · dsimp only
      split
      · exact State.views_of h fun p => by cases p <;> rfl
      · obtain ⟨h1, h2⟩ := s.settle_view .fwp (h .fwp)
        have h3 := s.settle_other .fwp .twp (by decide)
        generalize s.settle .fwp = a at h1 h2 h3
        exact State.views_fwp h ((a.endTransaction_ends h1 h2).lawful h1 h2) (a.endTransaction_other.trans h3)
    · exact h
  case checkOnlyAnswer =>
    split
    · refine State.views_of h fun p => ?_
      unfold State.takeAnswer
      dsimp only
      split <;> (cases p <;> rfl)
    · exact h
  case sessionBegun =>
    split
    · exact State.views_of h (State.changeView_view s.popRquMsg _ _)
    · exact h
  case sessionEnded =>
    split
    · exact State.views_of h (State.changeView_view s.popRquMsg _ _)
    · exact h
  case slotLost =>
    split
    · exact State.views_of h (State.changeView_view s.popRquMsg _ _)
    · exact h
  all_goals
    refine State.views_of h fun p => ?_
    try unfold State.finishTick
    repeat' (first | split | dsimp only)
    all_goals (cases p <;> rfl)

end Sys2Proof.Machine
end

