-- ==== Sys2Proof/Laws/Frames.lean ====
section
/-! SUPPORT. The ports' frames and answers: what a lead byte, a frame at its end and a status presentation come to, and how a port settles. -/

namespace Sys2Proof.Machine

/-- A port that awaits nothing is settled as it stands. -/
theorem State.settle_of {s : State} {p} (h : s.settled p) : s.settle p = s := by
  unfold State.settle
  rw [if_neg]
  intro hh
  obtain ⟨m, hm, ha⟩ := List.any_eq_true.1 hh
  obtain ⟨b, rfl⟩ := h m hm
  simp [PortMsg.awaited] at ha

theorem State.settle_not {s : State} {p} (h : ¬ s.settled p) : s.settle p = (s.toRqu p).foldl (fun s m => s.takePortMsg p m) (s.setToRqu p []) := by
  unfold State.settle
  rw [if_pos]
  rw [List.any_eq_true]
  apply Classical.byContradiction; intro hn
  apply h; intro m hm
  cases m with
  | collectEnd full => exact ⟨full, rfl⟩
  | claim => exact absurd ⟨_, hm, rfl⟩ hn
  | arrival f => exact absurd ⟨_, hm, rfl⟩ hn
  | select a b => exact absurd ⟨_, hm, rfl⟩ hn

/-- A take of a message does not read the rest of the path. -/
theorem State.takePortMsg_setToRqu (p : Port) (m : PortMsg) (s : State) (l : List PortMsg) : (s.setToRqu p l).takePortMsg p m = (s.takePortMsg p m).setToRqu p l := by
  cases m with
  | claim =>
    simp only [State.takePortMsg, State.answerClaim]
    cases p
    · by_cases h : s.rqu.twp.queue.length < 4
      · rw [if_pos (show ((s.setToRqu .twp l).rqu.port .twp).queue.length < 4 from h), if_pos (show (s.rqu.port .twp).queue.length < 4 from h)]; rfl
      · rw [if_neg (show ¬ ((s.setToRqu .twp l).rqu.port .twp).queue.length < 4 from h), if_neg (show ¬ (s.rqu.port .twp).queue.length < 4 from h)]; rfl
    · by_cases h : s.rqu.fwp.queue.length < 4
      · rw [if_pos (show ((s.setToRqu .fwp l).rqu.port .fwp).queue.length < 4 from h), if_pos (show (s.rqu.port .fwp).queue.length < 4 from h)]; rfl
      · rw [if_neg (show ¬ ((s.setToRqu .fwp l).rqu.port .fwp).queue.length < 4 from h), if_neg (show ¬ (s.rqu.port .fwp).queue.length < 4 from h)]; rfl
  | arrival f =>
    simp only [State.takePortMsg, State.answerArrival]
    have : (s.setToRqu p l).rqu = s.rqu := by cases p <;> rfl
    rw [this]
    split
    · unfold State.acceptFrame; cases p <;> (simp only; split <;> rfl)
    · cases p <;> rfl
  | select n ses => cases p <;> rfl
  | collectEnd full =>
    simp only [State.takePortMsg, State.answerCollectEnd]
    have : (s.setToRqu p l).rqu = s.rqu := by cases p <;> rfl
    rw [this]
    split
    · unfold State.removeHead; rw [this]; split <;> (cases p <;> rfl)
    · cases p <;> rfl

theorem State.takePortMsg_toRqu (p : Port) (m : PortMsg) (s : State) : (s.takePortMsg p m).toRqu p = s.toRqu p := by
  have h := congrArg (fun t => State.toRqu t p) (State.takePortMsg_setToRqu p m s (s.toRqu p))
  have e1 : s.setToRqu p (s.toRqu p) = s := by cases p <;> rfl
  have e2 : ∀ (t : State) l, (t.setToRqu p l).toRqu p = l := by intro t l; cases p <;> rfl
  simp only [e1, e2] at h; exact h

theorem State.setToRqu_setToRqu (p : Port) (s : State) (a b) : (s.setToRqu p a).setToRqu p b = s.setToRqu p b := by cases p <;> rfl

/-- The command by which RQU takes a message of a port, on the message at the head. -/
theorem exec_command (p : Port) (m : PortMsg) (s : State) (rest) (h : s.toRqu p = m :: rest) : exec (m.command p) s = .next ((s.setToRqu p rest).takePortMsg p m) := by
  cases m <;> simp only [PortMsg.command, exec, execIntakeClaim, execArrivalCheck, execCollectSelect, execCollectEnd, h] <;> rfl

/-- The commands that take a port's messages, one after the other, are the fold of the takes. -/
theorem State.after_map (p : Port) : ∀ (ms : List PortMsg) (s : State), s.toRqu p = ms → s.after (ms.map (PortMsg.command p)) = some (ms.foldl (fun s m => s.takePortMsg p m) (s.setToRqu p [])) := by
  intro ms
  induction ms with
  | nil => intro s h; have : s.setToRqu p [] = s := by rw [← h]; cases p <;> rfl
           simp [State.after, this]
  | cons m ms ih =>
    intro s h
    simp only [List.map, State.after, exec_command p m s ms h]
    rw [ih _ (by rw [State.takePortMsg_toRqu]; cases p <;> rfl)]
    simp only [List.foldl]
    rw [← State.takePortMsg_setToRqu, State.setToRqu_setToRqu]

theorem State.foldPortMsgs_toRqu (p : Port) : ∀ (ms : List PortMsg) (s : State), (ms.foldl (fun s m => s.takePortMsg p m) s).toRqu p = s.toRqu p := by
  intro ms; induction ms with
  | nil => intro s; rfl
  | cons m ms ih => intro s; simp only [List.foldl]; rw [ih, State.takePortMsg_toRqu]

theorem State.setToRqu_inReset (s : State) (p l) : (s.setToRqu p l).inReset = s.inReset := by cases p <;> rfl

theorem State.takePortMsg_keeps (p : Port) (m : PortMsg) (s : State) : (s.takePortMsg p m).inReset = s.inReset ∧ (s.takePortMsg p m).fwp.ssnLow = s.fwp.ssnLow ∧ ((s.front .fwp).state ≠ .idle → ((s.takePortMsg p m).front .fwp).state ≠ .idle) ∧ (s.twp.front.state = .idle → m.awaited = false ∨ (∃ f, m = .arrival f) → (s.takePortMsg p m).twp.front.state = .idle) := by
  cases m with
  | claim => 
    simp only [State.takePortMsg, State.answerClaim]
    split <;> cases p <;> simp [State.modRquPort, State.setAck, State.inReset, State.front, State.writeRefusal, State.enterRefusing, State.setFront, State.setPortStatus, PortMsg.awaited]
  | arrival f => 
    simp only [State.takePortMsg, State.answerArrival]
    split
    · unfold State.acceptFrame; cases p <;> (simp only; split <;> simp [State.modRquPort, State.modRquSlot, State.inReset, State.front])
    · cases p <;> simp [State.refuseFrame, State.releaseClaim, State.modRquPort, State.inReset, State.front, State.writeRefusal, State.setPortStatus]
  | select n ses => cases p <;> simp [State.takePortMsg, State.answerSelect, State.modRquPort, State.inReset, State.front, State.setFront, Front.present, PortMsg.awaited]
  | collectEnd full =>
    simp only [State.takePortMsg, State.answerCollectEnd]
    split
    · unfold State.removeHead; split <;> (cases p <;> simp [State.modRquPort, State.modRquSlot, State.dropMarks, State.inReset, State.front] <;> exact fun h _ => h)
    · cases p <;> simp [State.modRquPort, State.inReset, State.front] <;> exact fun h _ => h

theorem State.foldPortMsgs_keeps (p : Port) : ∀ (ms : List PortMsg) (s : State), (ms.foldl (fun s m => s.takePortMsg p m) s).inReset = s.inReset ∧ (ms.foldl (fun s m => s.takePortMsg p m) s).fwp.ssnLow = s.fwp.ssnLow ∧ ((s.front .fwp).state ≠ .idle → ((ms.foldl (fun s m => s.takePortMsg p m) s).front .fwp).state ≠ .idle) := by
  intro ms; induction ms with
  | nil => intro s; exact ⟨rfl, rfl, id⟩
  | cons m ms ih => 
    intro s; obtain ⟨a, b, c⟩ := ih (s.takePortMsg p m); obtain ⟨a', b', c', _⟩ := State.takePortMsg_keeps p m s
    exact ⟨a.trans a', b.trans b', fun h => c (c' h)⟩

/-- The kind that a lead byte tells (section 11.1). -/
theorem leadKind_iff (b : Byte) : leadKind b = if b.toNat % 8 ≠ 0 ∨ b.toNat / 64 = 0 then none else if b.toNat / 64 = 1 then some .request else if b.toNat / 64 = 2 then some .collectSelect else some .statusSelect := by
  revert b; decide +kernel

theorem answerFrame_eq (a : CheckAnswer) : answerFrame a = [answerCode a, frameCheck [answerCode a]] := rfl

theorem byte_bit0 (b : Byte) : b.getLsbD 0 = decide (b.toNat % 2 = 1) := by revert b; decide +kernel

theorem byte_shift_iff (b c : Byte) : (b >>> 1 = c) ↔ b.toNat / 2 = c.toNat := by
  rw [← BitVec.toNat_inj]; simp [Nat.shiftRight_eq_div_pow]

theorem noAnswerFrame_eq : noAnswerFrame = [0xFF, 0x00] := by decide +kernel

theorem State.fixStatus_twp (s : State) (out) (h : s.statusPresentation .twp = out) : s.fixStatus .twp = {s with twp := {s.twp with front := s.twp.front.present .status out, status := {s.twp.status with refusedSince := false}}} := by subst h; rfl

theorem State.statusPresentation_twp (s : State) : s.statusPresentation .twp = withCheck [portStatusByte (s.rqu.twp.freeCount) s.twp.status s.twp.checkOnly, refusalCode s.twp.status.record.reason, s.twp.status.record.lead, s.twp.status.record.tagKind] := by
  unfold State.statusPresentation statusFrame; simp [Rqu.port, State.portStatus]

theorem State.readPrimary_nothing (s : State) (h1 : ∀ n ses, s.twp.held ≠ some (.collect n ses)) (h2 : s.twp.held ≠ some .status) : s.readPrimary = s.beginRead .nothing [] := by
  unfold State.readPrimary
  rcases hh : s.twp.held with _ | (⟨n, ses⟩ | _ | ⟨q, st⟩)
  · rfl
  · exact absurd hh (h1 n ses)
  · exact absurd hh h2
  · rfl

theorem State.foldPortMsgs_idle : ∀ (ms : List PortMsg) (s : State), (∀ m ∈ ms, m.awaited = false ∨ ∃ f, m = .arrival f) → s.twp.front.state = .idle → (ms.foldl (fun s m => s.takePortMsg .twp m) s).twp.front.state = .idle := by
  intro ms; induction ms with
  | nil => intro s _ h; exact h
  | cons m ms ih =>
    intro s h hi
    exact ih _ (fun m' hm => h m' (List.mem_cons_of_mem _ hm)) ((State.takePortMsg_keeps .twp m s).2.2.2 hi (h m (List.mem_cons_self ..)))

theorem State.endSegment_path (s : State) (e) : (s.endSegment e).paths.twpToRqu = s.paths.twpToRqu ∨ (∃ f, (s.endSegment e).paths.twpToRqu = s.paths.twpToRqu ++ [.arrival f]) ∨ ∃ b, (s.endSegment e).paths.twpToRqu = s.paths.twpToRqu ++ [.collectEnd b] := by
  have h1 : (s.judgeRequest .twp).paths.twpToRqu = s.paths.twpToRqu ∨ ∃ f, (s.judgeRequest .twp).paths.twpToRqu = s.paths.twpToRqu ++ [.arrival f] := by
    unfold State.judgeRequest; simp only; split
    · exact .inl rfl
    · split
      · exact .inl rfl
      · exact .inr ⟨_, rfl⟩
  have h2 : ∀ i, (s.judgeSelect i).paths.twpToRqu = s.paths.twpToRqu := by
    intro i; unfold State.judgeSelect; split <;> rfl
  have h3 : (s.judgeQuery).paths.twpToRqu = s.paths.twpToRqu := by
    unfold State.judgeQuery; simp only; repeat' split
    all_goals rfl
  have h4 : (s.judgeTwp).paths.twpToRqu = s.paths.twpToRqu ∨ ∃ f, (s.judgeTwp).paths.twpToRqu = s.paths.twpToRqu ++ [.arrival f] := by
    unfold State.judgeTwp; simp only
    repeat' split
    all_goals first | exact .inl rfl | exact .inl h3 | exact .inl (h2 _) | exact h1
  have h5 : (s.endPresentation .twp).paths.twpToRqu = s.paths.twpToRqu ∨ ∃ b, (s.endPresentation .twp).paths.twpToRqu = s.paths.twpToRqu ++ [.collectEnd b] := by
    unfold State.endPresentation; split
    · exact .inr ⟨_, rfl⟩
    · left; unfold State.endStatus; split <;> rfl
    · exact .inl rfl
    · exact .inl rfl
  unfold State.endSegment; simp only
  cases e <;> cases hs : s.twp.front.state <;> simp only
  all_goals first
    | exact .inl rfl
    | exact h4.elim .inl (fun h => .inr (.inl h))
    | exact h5.elim .inl (fun h => .inr (.inr h))

/-- The first check that a frame fails at its end, by its length, its extra bytes and its check (R121). -/
theorem Front.fault_iff (x : Front) (k) (h : x.kind = some k) : x.fault = if x.bytes.length < k.length x.bytes then some .shortFrame else if x.extra then some .badLength else if x.check ≠ 0 then some .checkFailed else none := by
  unfold Front.fault Front.complete; rw [Front.total_of_kind h]
  by_cases hl : x.bytes.length < k.length x.bytes
  · rw [if_pos hl, if_pos]; simp; omega
  · rw [if_neg hl, if_neg]; simp; omega

theorem kindOfCode_none {c : Nat} (h : ∀ k, kindCode k ≠ c) : kindOfCode c = none := by
  unfold kindOfCode; rw [List.find?_eq_none]; intro k _; simp [h k]

theorem kindOfCode_some {c : Nat} {k} (h : kindCode k = c) : kindOfCode c = some k := by
  subst h; cases k <;> decide

theorem parseFrame_some {bytes : List Byte} {kind} (h : kindCode kind = (operandByte bytes 3).toNat % 32) : parseFrame bytes = some
      { slot := Fin.ofNat 8 ((operandByte bytes 0).toNat / 8)
        session := BitVec.ofNat 16 (operandAt bytes 1 2)
        tag := Fin.ofNat 8 ((operandByte bytes 3).toNat / 32)
        kind := kind
        operands := (bytes.drop 5).take (operandByte bytes 4).toNat } := by
  unfold parseFrame; simp only; rw [kindOfCode_some h]; rfl

theorem parseFrame_none {bytes : List Byte} (h : ∀ kind, kindCode kind ≠ (operandByte bytes 3).toNat % 32) : parseFrame bytes = none := by
  unfold parseFrame; simp only; rw [kindOfCode_none h]; rfl

theorem Front.received_take {x : Front} (b) (hc : x.check = frameCheck x.bytes) : x.take b = x.received b := by
  unfold Front.take Front.received; rw [hc]; unfold frameCheck; rw [List.foldl_append]; rfl

theorem State.fixStatus_fwp (s : State) (out) (h : s.statusPresentation .fwp = out) : s.fixStatus .fwp = {s with fwp := {s.fwp with front := s.fwp.front.present .status out, status := {s.fwp.status with refusedSince := false}}} := by subst h; rfl

theorem State.statusPresentation_fwp (s : State) : s.statusPresentation .fwp = withCheck [portStatusByte (s.rqu.fwp.freeCount) s.fwp.status false, refusalCode s.fwp.status.record.reason, s.fwp.status.record.lead, s.fwp.status.record.tagKind] := by
  unfold State.statusPresentation statusFrame; simp [Rqu.port, State.portStatus]

end Sys2Proof.Machine
end

