-- ==== Sys2Proof/Laws/Turns.lean ====
section
/-! SUPPORT. Turns of the ports: whichever request LEN performs, the port its frame came from stays the one taken from last, and the intake queues lose that frame alone (R126). -/

namespace Sys2Proof.Machine

/-- An event leaves the port taken from last as it is. -/
def LenEvent.KeepsTurn (a b : LenEvent) : Prop := b.len.lastPort = a.len.lastPort

theorem LenEvent.Grows.turn {a b : LenEvent} (h : a.Grows b) : a.KeepsTurn b := h.lastPort

theorem LenEvent.KeepsTurn.trans {a b c : LenEvent} (h : a.KeepsTurn b) (k : b.KeepsTurn c) : a.KeepsTurn c := Eq.trans k h

theorem LenEvent.attachFresh_turn (e : LenEvent) (p : Port) (f : Frame) (ticks : Nat) :
    e.KeepsTurn (e.attachFresh p f ticks) := rfl

theorem LenEvent.attachReplacing_turn (e : LenEvent) (p : Port) (f : Frame) (ticks : Nat) :
    e.KeepsTurn (e.attachReplacing p f ticks) := by
  unfold LenEvent.attachReplacing
  dsimp only
  refine LenEvent.KeepsTurn.trans ?_ (LenEvent.purgePasses_grows _ _).turn
  have h := (e.purge_quiet f.slot e.len.slots[f.slot].session).toGrows.turn
  generalize e.purge f.slot e.len.slots[f.slot].session = a at h ⊢
  exact h

theorem LenEvent.detach_turn (e : LenEvent) (f : Frame) : e.KeepsTurn (e.detach f) := by
  unfold LenEvent.detach
  dsimp only
  refine LenEvent.KeepsTurn.trans ?_ (LenEvent.purgePasses_grows _ _).turn
  have h := (e.purge_quiet f.slot e.len.slots[f.slot].session).toGrows.turn
  generalize e.purge f.slot e.len.slots[f.slot].session = a at h ⊢
  exact h

theorem LenEvent.define_turn (e : LenEvent) (f : Frame) : e.KeepsTurn (e.define f) := by
  unfold LenEvent.define
  dsimp only
  repeat' split
  all_goals rfl

theorem LenEvent.leaveOpen_turn (e : LenEvent) (r : ResIx) : e.KeepsTurn (e.leaveOpen r) := by
  unfold LenEvent.leaveOpen
  split <;> rfl

theorem LenEvent.retireEntry_turn (e : LenEvent) (f : Frame) (r : ResIx) (force : Bool) :
    e.KeepsTurn (e.retireEntry f r force) := by
  have h (e : LenEvent) (st : Status) (b : List Byte) : e.KeepsTurn (((e.retireWaits r).leaveOpen r).replyWith f st b) :=
    (e.retireWaits_grows r).turn.trans (LenEvent.leaveOpen_turn _ r)
  cases force
  · exact h e _ _
  · exact (e.revokeAll_grows r).turn.trans (h _ _ _)

theorem LenEvent.retire_turn (e : LenEvent) (f : Frame) : e.KeepsTurn (e.retire f) := by
  unfold LenEvent.retire
  dsimp only
  split
  · rfl
  · split
    · rfl
    · split
      · rfl
      · exact e.retireEntry_turn f _ _

theorem LenEvent.profileSet_turn (e : LenEvent) (f : Frame) : e.KeepsTurn (e.profileSet f) := by
  unfold LenEvent.profileSet
  dsimp only
  repeat' split
  all_goals rfl

theorem LenEvent.restoreProfiles_turn (ns : List SlotIx) (e : LenEvent) :
    e.KeepsTurn (ns.foldl LenEvent.restoreProfile e) := by
  induction ns generalizing e with
  | nil => rfl
  | cons n ns ih => exact LenEvent.KeepsTurn.trans rfl (ih (e.restoreProfile n))

theorem LenEvent.profileRestore_turn (e : LenEvent) (f : Frame) : e.KeepsTurn (e.profileRestore f) := by
  have h := LenEvent.restoreProfiles_turn (List.finRange 8) e
  unfold LenEvent.profileRestore
  generalize (List.finRange 8).foldl LenEvent.restoreProfile e = a at h ⊢
  dsimp only
  split
  · rfl
  · split
    · rfl
    · split
      · exact h
      · split <;> rfl

theorem LenEvent.profileFreeze_turn (e : LenEvent) (f : Frame) : e.KeepsTurn (e.profileFreeze f) := by
  unfold LenEvent.profileFreeze
  repeat' split
  all_goals rfl

theorem LenEvent.config_turn (e : LenEvent) (f : Frame) : e.KeepsTurn (e.config f) := by
  unfold LenEvent.config
  dsimp only
  repeat' split
  all_goals rfl

theorem LenEvent.performFrame_turn {request : LenEvent → LenEvent} (h : ∀ e : LenEvent, e.KeepsTurn (request e)) (e : LenEvent)
    (f : Frame) : e.KeepsTurn (e.performFrame f request) := by
  unfold LenEvent.performFrame
  dsimp only
  split <;> split
  · exact h _
  · exact h _
  · rfl
  · rfl

/-- A take whose event keeps the turn leaves RQU as the take of the frame alone left it, and the frame's port the one taken from last. -/
theorem State.runLen_turn (s : State) (p : Port) {event : LenEvent → LenEvent} (h : ∀ e : LenEvent, e.KeepsTurn (event e)) :
    ((s.popFrame p).runLen event).rqu = (s.popFrame p).rqu ∧ ((s.popFrame p).runLen event).len.lastPort = p :=
  ⟨rfl, h _⟩

theorem State.refuseAtTake_turn (s : State) (p : Port) (reason : RefusalReason) (f : Frame) :
    ((s.popFrame p).refuseAtTake p reason f).rqu = (s.popFrame p).rqu ∧
      ((s.popFrame p).refuseAtTake p reason f).len.lastPort = p := by
  cases p <;> exact ⟨rfl, rfl⟩

theorem State.takeRequest_turn {s : State} {k : ReqKind} {p : Port} {f : Frame} (hf : s.frameOf k = some (p, f))
    {request : Frame → LenEvent → LenEvent} (h : ∀ f e, LenEvent.KeepsTurn e (request f e)) :
    (s.takeRequest k request).rqu = (s.popFrame p).rqu ∧ (s.takeRequest k request).len.lastPort = p := by
  unfold State.takeRequest
  rw [hf]
  dsimp only
  split
  · exact s.runLen_turn p fun e => LenEvent.performFrame_turn (h f) e f
  · exact s.refuseAtTake_turn p _ f

end Sys2Proof.Machine
end

