-- ==== Sys2Proof/Tests/Slice0.lean ====
section
/-! SUPPORT. Tests on fixed values: the checks that refuse ill-formed terms, the frame check and layouts of the manual, one row of a table for each outcome of a request, and for each statement states and operands that meet its hypotheses, clause by clause. -/

namespace Sys2Proof.Tests

open Sys2Proof.Machine

set_option Elab.async false

/-! ## Helpers -/

/-- The machine after a command, if it answers a next state. -/
def did (c : Instr) (s : State) : State :=
  match exec c s with
  | .next t => t
  | _ => State.reset

/-- A machine at which a port's intake queue holds one frame, and the other port's none. -/
def offer (s : State) (f : Frame) (p : Port := .twp) : State :=
  let q : Rqu := { s.rqu with twp := RquPort.afterReset, fwp := RquPort.afterReset }
  { s with rqu := q.setPort p { RquPort.afterReset with queue := [f] } }

/-- The machine after LEN has taken a frame. -/
def take (s : State) (f : Frame) : State := did (commandOf f.kind) (offer s f)

/-- The machine after LEN has taken some frames. -/
def takes (s : State) (fs : List Frame) : State := fs.foldl take s

/-- LEN's next frame is `f`, of a session in force and of an operand length of its kind. -/
def meets (s : State) (f : Frame) : Bool :=
  decide ((offer s f).frameOf f.kind = some (.twp, f)) && (offer s f).len.live f &&
    decide (f.operands.length ∈ operandLengths f.kind)

/-- What `meets` says is the premise of the statements about requests. -/
theorem offersWell_of_meets {s : State} {f : Frame} (h : meets s f = true) : (offer s f).offersWell f.kind .twp f := by
  unfold meets at h
  simp only [Bool.and_eq_true, decide_eq_true_eq] at h
  exact ⟨⟨h.1.1, h.1.2⟩, h.2⟩

/-- The completion that the take of a frame sends under the frame's tag, if it sends one. -/
def answer (s : State) (f : Frame) : Option (Status × List Byte) :=
  ((take { s with paths := Paths.empty } f).paths.lenToRqu.filterMap fun m =>
    match m with
    | .completion n c => if n = f.slot ∧ c.tag = f.tag then some (c.status, c.payload) else none
    | _ => none).getLast?

/-- A row of a table of outcomes: a state, a frame and the completion it must have there. -/
structure Row where
  state : State
  frame : Frame
  answer : Option (Status × List Byte)

/-- Every row's frame is offered as the statements ask, and completes as the row says. -/
def allAnswer (rows : List Row) : Bool := rows.all fun r => meets r.state r.frame && decide (answer r.state r.frame = r.answer)

/-- The frame of a slot's first session under tag 7. -/
def ask (n : SlotIx) (k : ReqKind) (ops : List Byte) : Frame := ⟨n, 1, 7, k, ops⟩

/-- Slots 0 and 1 attached. -/
def attached : State := takes State.reset [⟨0, 0, 0, .attach, [0, 100]⟩, ⟨1, 0, 0, .attach, [0, 100]⟩]

/-- The resource 0010h: share limit 2, cap 1000, default term 100, renew limit 3, waiting and BREAK allowed, every slot admitted, epoch 5. -/
def defined : State :=
  take attached ⟨0, 1, 1, .define, [0x00, 0x10, 2, 0, 0x03, 0xE8, 0, 0, 100, 3, 3, 0xFF, 0, 0, 0, 5]⟩

/-- An ACQUIRE of 0010h in a mode, with the default term and a wait limit below 256. -/
def acquire (n : SlotIx) (mode limit : Byte) : Frame := ⟨n, 1, 2, .acquire, [0x00, 0x10, mode, 0, 0, 0, 0, 0, limit]⟩

/-- Slot 0 holds record 0, SHARED. -/
def shared : State := take defined (acquire 0 1 0)

/-- Slots 0 and 1 hold records 0 and 1, SHARED. -/
def sharedByTwo : State := take shared (acquire 1 1 0)

/-- Slot 0 holds record 0, EXCLUSIVE. -/
def exclusive : State := take defined (acquire 0 2 0)

/-- Slot 1 waits for what slot 0 holds EXCLUSIVE. -/
def waiting : State := take exclusive (acquire 1 2 50)

/-- Slot 0 waits to upgrade beside slot 1. -/
def upgrading : State := take sharedByTwo ⟨0, 1, 3, .upgrade, [0, 1, 0, 0, 50]⟩

/-- Change the entry of the resource 0010h. -/
def entry (s : State) (g : Entry → Entry) : State := { s with len := s.len.setEntry 0 (g s.len.catalog[(0 : ResIx)]) }

/-- Change record 0. -/
def record (s : State) (g : Lease → Lease) : State := { s with len := s.len.setLease 0 (g s.len.leases[(0 : RecIx)]) }

/-- Change the profile of a slot. -/
def profile (s : State) (n : SlotIx) (g : Profile → Profile) : State :=
  { s with len := s.len.setSlot n { s.len.slots[n] with profile := g s.len.slots[n].profile } }

/-- Give a slot a profile without one right. -/
def without (s : State) (n : SlotIx) (r : Right) : State :=
  profile s n fun x => { x with rights := x.rights &&& ~~~(BitVec.twoPow 7 (rightNumber r)) }

/-- Every record in use, by slot 7 on another resource, but those in use already. -/
def recordsFull (s : State) : State :=
  let used (l : Lease) : Lease := if l.state = .free then { l with state := .revoked, resource := 9, slot := 7 } else l
  { s with len := { s.len with leases := s.len.leases.map used } }

/-- Every wait entry taken, by slot 7 on another resource, but those taken already. -/
def waitsFull (s : State) : State :=
  let used (w : Option Wait) : Option Wait := w.or (some ⟨.upgrade, 7, 9, 0, 9, 9, 0, none⟩)
  { s with len := { s.len with waits := s.len.waits.map used } }

/-! ## Well-formedness -/

/-- A frame with 16 operand bytes is the manual's, one with 17 is refused. -/
theorem test_frameWellFormed :
    (Frame.wellFormed ⟨0, 1, 0, .define, List.replicate 16 0⟩ = true) ∧
      Frame.wellFormed ⟨0, 1, 0, .define, List.replicate 17 0⟩ = false := by decide

/-- A completion with 16 payload bytes is the manual's, one with 17 is refused. -/
theorem test_completionWellFormed :
    (Completion.wellFormed ⟨0, .ping, .ok, List.replicate 16 0⟩ = true) ∧
      Completion.wellFormed ⟨0, .ping, .ok, List.replicate 17 0⟩ = false := by decide

/-! ## Layouts -/

/-- The frame checks of the manual's tables and its PING frame (section 11.5). -/
theorem test_frameCheck :
    frameCheck [0x00] = 0x7B ∧ frameCheck [0x00, 0x01] = 0x2A ∧ frameCheck [0xFF] = 0x00 ∧
      frameCheck [0x50, 0x00, 0x03, 0x23, 0x00] = 0x85 := by decide +kernel

/-- The PING frame of section 11.5: slot 2, session 3, tag 1. -/
theorem test_parsePing : parseFrame [0x50, 0x00, 0x03, 0x23, 0x00, 0x85] = some ⟨2, 3, 1, .ping, []⟩ := by decide +kernel

/-- Every kind has the code of section 11.2, and no code is another kind's. -/
theorem test_kindCodes : allKinds.map kindCode =
    [1, 2, 3, 4, 8, 9, 10, 11, 12, 13, 14, 15, 16, 17, 18, 19, 20, 24, 25, 26, 27, 28] := by decide

/-! ## The queue, and reset -/

/-- A step performs the command at the front and leaves the rest; on an empty queue the part idles. -/
theorem witness_step :
    step { State.reset with pending := [.tick .oscillator, .busClear] } =
        .next (did (.tick .oscillator) { State.reset with pending := [.busClear] }) ∧
      step State.reset = .next State.reset := ⟨rfl, rfl⟩

/-- Power-on reset, its release, a pin reset, its release, and a pin reset's release inside power-on reset meet the statements on releases. -/
theorem witness_resets :
    let p := did .powerOnReset waiting
    let r := did .pinReset waiting
    (p.por = true ∧ (did (.porRelease true 3) p).lck.tbsel = true ∧ (did (.porRelease true 3) p).twp.adr = 3) ∧
      (r.rstnLow = true ∧ r.por = false ∧
        (did (.pinResetRelease false 0) r).paths.lenToRqu = [.lost 0, .lost 1] ∧
        (did (.pinResetRelease false 0) r).paths.lenToTwp = [.enable false false]) ∧
      (did .pinReset p).rstnLow = true ∧ (did .pinReset p).por = true := by decide +kernel

/-- After power-on reset the lowest FREE record is record 0 of generation 1, and nothing is held. -/
theorem test_powerOnReset :
    let p := did .powerOnReset waiting
    p.len.freeLease? = some 0 ∧ p.len.leases[(0 : RecIx)] = Lease.cleared 1 ∧ p.len.lookup 0x0010 = none := by
  decide +kernel

/-- A pin reset keeps the catalog and the clock, frees record 0 with its generation raised, and loses the session. -/
theorem test_pinReset :
    let r := did .pinReset waiting
    r.len.lookup 0x0010 = some 0 ∧ r.len.catalog[(0 : ResIx)].epoch = 6 ∧
      r.len.catalog[(0 : ResIx)].holderMode = .none ∧ r.len.leases[(0 : RecIx)] = Lease.cleared 2 ∧
      r.len.slots[(0 : SlotIx)].state = .lost ∧ r.len.slots[(0 : SlotIx)].endCause = .reset := by
  decide +kernel

/-- An open CONFIG is abandoned at a pin reset and at power-on reset. -/
theorem test_resetsAbandonAConfig :
    let s := take attached (ask 0 .config [1])
    s.len.configOpen = some ⟨0, 7⟩ ∧ (did .pinReset s).len.configOpen = none ∧ (did .pinReset s).len.checkOnly = true ∧
      (did .powerOnReset s).len.configOpen = none := by
  decide +kernel

/-! ## The lease clock and the deadline list -/

/-- A machine whose deadline list holds three keepalive deadlines, its clock one tick before the first two. -/
def ticking : State :=
  { State.reset with
    lck :=
      { State.reset.lck with
        clock := 9
        deadlines := [⟨10, .keepalive 0 1⟩, ⟨10, .keepalive 1 1⟩, ⟨11, .keepalive 2 1⟩] } }

/-- Ticks: of the source selected, at the clock's last value, while an earlier tick has not ended, of the other source, and in reset. -/
theorem witness_tick :
    (ticking.inReset = false ∧ (did (.tick .oscillator) ticking).lck.clock = 10 ∧
        (did (.tick .oscillator) ticking).lck.tickOpen = true) ∧
      (did (.tick .oscillator) { ticking with lck := { ticking.lck with clock := 0xFFFFFFFFFFFF } }).lck.clock =
        0xFFFFFFFFFFFF ∧
      (let t := did (.tick .oscillator) { ticking with lck := { ticking.lck with clock := 10, tickOpen := true } }
       t.paths.lckToLen = [⟨10, .keepalive 0 1⟩, ⟨10, .keepalive 1 1⟩] ∧ t.lck.deadlines = [⟨11, .keepalive 2 1⟩] ∧
         t.lck.clock = 11 ∧ t.lck.tickOpen = true) ∧
      (did (.tick .tbi) ticking).lck = ticking.lck ∧ (did .powerOnReset ticking).inReset = true ∧
      (did (.tick .oscillator) (did .powerOnReset ticking)).lck = Lck.afterPor := by
  decide +kernel

/-- A whole tick sends the two expiries due, in order, and leaves the third; a head that is not due ends a tick. -/
theorem witness_dueEntries :
    let t := ticking.after [.tick .oscillator, .deadlineExpiry, .deadlineExpiry]
    t.map (fun t => (t.paths.lckToLen, t.lck.deadlines, t.lck.tickOpen)) =
        some ([⟨10, .keepalive 0 1⟩, ⟨10, .keepalive 1 1⟩], [⟨11, .keepalive 2 1⟩], false) ∧
      (did .deadlineExpiry { ticking with lck := { ticking.lck with tickOpen := true } }).lck.tickOpen = false := by
  decide +kernel

/-- Deadlines below the clock's last value, at it, and held at it; and at a clock that stands there. -/
theorem test_deadlineAfter :
    deadlineAfter 9 0 = 9 ∧ deadlineAfter 9 100 = 109 ∧ deadlineAfter 0xFFFFFFFFFFF0 15 = 0xFFFFFFFFFFFF ∧
      deadlineAfter 0xFFFFFFFFFFF0 16 = 0xFFFFFFFFFFFF ∧ deadlineAfter 0xFFFFFFFFFFFF 0 = 0xFFFFFFFFFFFF := by
  decide +kernel

/-- An ordered list with an insert between entries and behind an equal one, and removals with a match and without. -/
theorem witness_insertsAndRemovals :
    let d : Deadline := ⟨10, .lease 5 1⟩
    let gone : Deadline := ⟨10, .keepalive 1 1⟩
    ticking.lck.ordered ∧
      (did .deadlineInsert { ticking with paths := { ticking.paths with lenToLck := [.insert d] } }).lck.deadlines =
        [⟨10, .keepalive 0 1⟩, ⟨10, .keepalive 1 1⟩, d, ⟨11, .keepalive 2 1⟩] ∧
      (did .deadlineRemove { ticking with paths := { ticking.paths with lenToLck := [.remove gone] } }).lck.deadlines =
        [⟨10, .keepalive 0 1⟩, ⟨11, .keepalive 2 1⟩] ∧
      d ∉ ticking.lck.deadlines ∧
      (did .deadlineRemove { ticking with paths := { ticking.paths with lenToLck := [.remove d] } }).lck.deadlines =
        ticking.lck.deadlines := by
  unfold Lck.ordered
  decide +kernel

/-- A step from a machine that keeps the deadline order, not the idle step, and one that neither the clock nor an epoch goes back at. -/
theorem witness_order :
    let s : State := { ticking with pending := [.tick .oscillator] }
    s.lck.ordered ∧ (∃ t, step s = .next t) ∧ (∃ t, exec (.tick .oscillator) s = .next t) ∧
      Instr.tick .oscillator ≠ .powerOnReset ∧ defined.len.catalog[(0 : ResIx)].state ≠ .vacant := by
  refine ⟨?_, ⟨_, rfl⟩, ⟨_, rfl⟩, by decide, by decide +kernel⟩
  unfold Lck.ordered
  decide +kernel

/-! ## Expiries -/

/-- A machine with one expiry message in flight. -/
def expiring (s : State) (d : Deadline) : State := { s with paths := { Paths.empty with lckToLen := [d] } }

/-- Expiries that fail one test each are discarded: a lease of another generation, deadline or state, a wait of another serial or gone, a keepalive of another session or deadline. -/
theorem witness_staleExpiries :
    let same (c : Instr) (s : State) (d : Deadline) : Bool :=
      let t := did c (expiring s d)
      decide (t.paths = Paths.empty ∧ t.len.leases[(0 : RecIx)].state = .held ∧
        t.len.slots[(0 : SlotIx)].state = .active ∧ t.len.waits[(0 : WaitIx)] = s.len.waits[(0 : WaitIx)])
    shared.len.configOpen = none ∧
      [(⟨100, .lease 0 2⟩ : Deadline), ⟨101, .lease 0 1⟩, ⟨100, .lease 1 1⟩].all (same .leaseExpiry shared) ∧
      [(⟨50, .wait 0 1⟩ : Deadline), ⟨51, .wait 0 0⟩, ⟨50, .wait 1 0⟩].all (same .waitExpiry waiting) ∧
      [(⟨100, .keepalive 0 2⟩ : Deadline), ⟨101, .keepalive 0 1⟩, ⟨100, .keepalive 2 0⟩].all
        (same .keepaliveExpiry shared) := by
  decide +kernel

/-- A genuine LEASE expiry, of a lease that waits to be upgraded and of one that does not, and a genuine WAIT expiry. -/
theorem witness_genuineExpiries :
    (shared.len.configOpen = none ∧ shared.len.leases[(0 : RecIx)].state = .held ∧
        shared.len.leases[(0 : RecIx)].generation = 1 ∧ shared.len.leases[(0 : RecIx)].deadline = 100 ∧
        shared.len.upgradeWaitOf 0 = none ∧
        (did .leaseExpiry (expiring shared ⟨100, .lease 0 1⟩)).len.leases[(0 : RecIx)].state = .lapsed) ∧
      (upgrading.len.upgradeWaitOf 0 = some 0 ∧
        upgrading.len.waits[(0 : WaitIx)].map (fun x => x.resource) = some upgrading.len.leases[(0 : RecIx)].resource ∧
        (did .leaseExpiry (expiring upgrading ⟨100, .lease 0 1⟩)).paths.lenToRqu =
          [.newsOn 0, .completion 0 ⟨3, .upgrade, .lapsed, []⟩]) ∧
      (waiting.len.waits[(0 : WaitIx)].map (fun x => (x.serial, x.deadline)) = some (0, some 50) ∧
        (did .waitExpiry (expiring waiting ⟨50, .wait 0 0⟩)).paths.lenToRqu =
          [.completion 1 ⟨2, .acquire, .timedOut, []⟩]) := by
  decide +kernel

/-- A genuine KEEPALIVE expiry of the holder loses its session and grants the wait that stood behind it. -/
theorem witness_keepaliveExpiry :
    waiting.len.configOpen = none ∧ waiting.len.slots[(0 : SlotIx)].state = .active ∧
      waiting.len.slots[(0 : SlotIx)].keepaliveDeadline = some 100 ∧
      waiting.len.touchedBy 0 1 = [0] ∧
      (did .keepaliveExpiry (expiring waiting ⟨100, .keepalive 0 1⟩)).paths.lenToRqu =
        [.ended 0 .lost, .completion 1 ⟨2, .acquire, .granted, [0x02, 0x01, 0x02, 0, 0, 0, 7, 0, 0, 100]⟩] := by
  decide +kernel

/-! ## Sessions -/

/-- ATTACHes of a VACANT and of a LOST slot, with keepalive terms at the bounds of the rule and past them, and after the last session number. -/
theorem witness_attach :
    let lost := did .keepaliveExpiry (expiring waiting ⟨100, .keepalive 0 1⟩)
    let last : State := { State.reset with len := State.reset.len.setSlot 2 { Slot.afterPor 2 with session := 65535 } }
    let at0 (hi lo : Byte) : Frame := ⟨0, 0, 7, .attach, [hi, lo]⟩
    (offer State.reset (at0 0 49)).frameOf .attach = some (.twp, at0 0 49) ∧
      State.reset.len.slots[(0 : SlotIx)].state = .vacant ∧ lost.len.slots[(0 : SlotIx)].state = .lost ∧
      answer State.reset (at0 0 49) = some (.ok, [0, 1, 0, 0, 50]) ∧
      answer State.reset (at0 0 50) = some (.ok, [0, 1, 0, 0, 50]) ∧
      answer State.reset (at0 0xEA 0x60) = some (.ok, [0, 1, 0, 0xEA, 0x60]) ∧
      answer State.reset (at0 0xEA 0x61) = some (.ok, [0, 1, 0, 0xEA, 0x60]) ∧
      answer lost (at0 0 100) = some (.ok, [0, 2, 2, 0, 100]) ∧
      answer last ⟨2, 0, 7, .attach, [0, 100]⟩ = some (.ok, [0, 1, 0, 0, 100]) := by
  decide +kernel

/-- An ATTACH to an ACTIVE slot that owns a lease, and a DETACH of it: the lease goes to the wait behind it. -/
theorem witness_sessionsEnded :
    let again : Frame := ⟨0, 0, 7, .attach, [0, 100]⟩
    let leaving : Frame := ask 0 .detach []
    (waiting.len.slots[(0 : SlotIx)].state = .active ∧ (offer waiting again).frameOf .attach = some (.twp, again) ∧
        answer waiting again = some (.replaced, [0, 2, 4, 0, 100])) ∧
      (meets waiting leaving = true ∧ (take waiting leaving).len.slots[(0 : SlotIx)].state = .vacant) := by
  decide +kernel

/-- The commands that build the scenes keep the tables in agreement. -/
theorem agrees_take {s : State} (h : s.len.agrees) (f : Frame) : (take s f).len.agrees := by
  obtain ⟨t, ht, ha⟩ := exec_agrees (commandOf f.kind) (offer s f) h
  unfold take did
  rw [ht]
  exact ha

theorem agrees_takes {s : State} (h : s.len.agrees) (fs : List Frame) : (takes s fs).len.agrees := by
  unfold takes
  induction fs generalizing s with
  | nil => exact h
  | cons f fs ih => exact ih (agrees_take h f)

/-- Slot 2 waits before slot 1, which asked earlier in a lower priority class, for what slot 0 holds EXCLUSIVE. -/
def queued : State :=
  takes exclusive
    [⟨0, 1, 3, .profileSet, [1, 0x3F, 32, 16, 1]⟩, acquire 1 2 50, ⟨2, 0, 0, .attach, [0, 100]⟩, acquire 2 2 50]

/-- The resource 0010h drains: slot 0 holds it alone. -/
def draining : State := take exclusive (ask 0 .retire [0, 0x10, 0])

/-- The tables agree in the scenes in which a wait stands behind a lease, in which two do in order of priority, in which an UPGRADE waits, and in which a resource drains. -/
theorem witness_tablesAgree :
    waiting.len.agrees ∧ upgrading.len.agrees ∧ sharedByTwo.len.agrees ∧ queued.len.agrees ∧ draining.len.agrees := by
  have h0 : attached.len.agrees := by
    unfold attached
    exact agrees_takes Len.afterPor_agrees _
  have h1 : defined.len.agrees := by unfold defined; exact agrees_take h0 _
  have h2 : exclusive.len.agrees := by unfold exclusive; exact agrees_take h1 _
  have h3 : shared.len.agrees := by unfold shared; exact agrees_take h1 _
  have h4 : sharedByTwo.len.agrees := by unfold sharedByTwo; exact agrees_take h3 _
  refine ⟨?_, ?_, h4, ?_, ?_⟩
  · unfold waiting
    exact agrees_take h2 _
  · unfold upgrading
    exact agrees_take h4 _
  · unfold queued
    exact agrees_takes h2 _
  · unfold draining
    exact agrees_take h2 _

/-- The queue of the two waits, and their classes. -/
theorem test_queued :
    queued.len.catalog[(0 : ResIx)].queue = [1, 0] ∧
      queued.len.waits[(1 : WaitIx)].map (fun x => (x.slot, x.kind)) = some (2, .acquire .exclusive 100 3) ∧
      queued.len.waits[(0 : WaitIx)].map (fun x => (x.slot, x.kind)) = some (1, .acquire .exclusive 100 1) := by
  decide +kernel

/-- The purge of the slot that waits, of the slot that waits to upgrade and of the slot that holds: each owns something, and another slot keeps something; the removals sent; and a DRAINING resource that becomes VACANT with its holder's purge, and stays DRAINING at another's. -/
theorem witness_purge :
    (waiting.len.waitsOf 1 1 = [0] ∧ waiting.len.recordsOf 1 1 = [1] ∧ waiting.len.touchedBy 1 1 = [0]) ∧
      (upgrading.len.waitsOf 0 1 = [0] ∧ upgrading.len.recordsOf 0 1 = [0]) ∧ waiting.len.recordsOf 0 1 = [0] ∧
      waiting.len.slots[(1 : SlotIx)].session ≠ 0 ∧
      (waiting.expiryEvent.purge 1 1).toLck = [.remove ⟨50, .wait 0 0⟩] ∧
      (upgrading.expiryEvent.purge 0 1).toLck = [.remove ⟨50, .wait 0 0⟩, .remove ⟨100, .lease 0 1⟩] ∧
      draining.len.catalog[(0 : ResIx)].state = .draining ∧
      (draining.expiryEvent.purge 0 1).len.catalog[(0 : ResIx)] = Entry.vacant 6 ∧
      (draining.expiryEvent.purge 1 1).len.catalog[(0 : ResIx)].state = .draining := by
  decide +kernel

/-- No FREE record of the scene carries a session, as the statement on ended sessions asks. -/
theorem witness_freeRecordsSessionless : waiting.len.freeRecordsSessionless := by
  unfold Len.freeRecordsSessionless
  decide +kernel

/-! ## The take -/

/-- A machine at which both ports' intake queues hold PINGs: slot 0's at TWP, slot 1's and then slot 0's at FWP. -/
def bothOffer : State :=
  let first (n : SlotIx) : Frame := ask n .ping []
  { attached with
    rqu :=
      { attached.rqu with
        twp := { RquPort.afterReset with queue := [first 0] }
        fwp := { RquPort.afterReset with queue := [first 1, first 0] } } }

/-- The next frame with both queues filled, for either port taken from last; after it, from the other port, and then from the one queue left; with none, with a CONFIG open, and for another kind. -/
theorem witness_turns :
    let last (p : Port) : State := { bothOffer with len := { bothOffer.len with lastPort := p } }
    let one := did .ping (last .fwp)
    let two := did .ping one
    ((last .fwp).frameOf .ping = some (.twp, ask 0 .ping []) ∧ (last .twp).frameOf .ping = some (.fwp, ask 1 .ping [])) ∧
      (one.len.lastPort = .twp ∧ one.rqu.twp.queue = [] ∧ one.frameOf .ping = some (.fwp, ask 1 .ping [])) ∧
      (two.len.lastPort = .fwp ∧ two.frameOf .ping = some (.fwp, ask 0 .ping [])) ∧
      ((did .ping two).frameOf .ping = none ∧ (last .fwp).frameOf .acquire = none ∧
        ({ bothOffer with len := { bothOffer.len with configOpen := some ⟨0, 7⟩ } } : State).frameOf .ping = none) := by
  decide +kernel

/-- Frames refused at the take: an ATTACH of another length, a frame of another session, a frame of a VACANT slot; a frame of a live session whose length is not its kind's; and a refusal that each port takes. -/
theorem witness_refusedAtTheTake :
    let long : Frame := ⟨3, 0, 2, .attach, [0, 1, 0]⟩
    let old : Frame := ⟨0, 2, 2, .ping, []⟩
    let gone : Frame := ⟨5, 1, 2, .ping, []⟩
    let r : RefusalRecord := ⟨.staleSession, 0x40, 0x43⟩
    let sent : State := { shared with paths := { Paths.empty with twpRefusals := [r], fwpRefusals := [r] } }
    ((offer shared long).frameOf .attach = some (.twp, long) ∧ long.operands.length ≠ 2 ∧
        (take shared long).paths.twpRefusals = [⟨.badLength, 0x58, 0x41⟩]) ∧
      ((offer shared old).frameOf .ping = some (.twp, old) ∧ shared.len.live old = false ∧ shared.len.live gone = false ∧
        (take shared old).paths.twpRefusals = [⟨.staleSession, 0x40, 0x43⟩] ∧
        (take shared gone).paths.twpRefusals = [⟨.staleSession, 0x68, 0x43⟩] ∧
        (did .ping (offer shared gone .fwp)).paths.fwpRefusals = [⟨.staleSession, 0x68, 0x43⟩]) ∧
      (shared.len.live (ask 0 .ping [0]) = true ∧ answer shared (ask 0 .ping [0]) = some (.badOperand, [4, 1]) ∧
        answer shared (ask 0 .define []) = some (.badOperand, [4, 0])) ∧
      ((did (.takeTimeRefusal .twp) sent).twp.status.record = r ∧
        (did (.takeTimeRefusal .fwp) sent).fwp.status.refusalUnread = true) := by
  decide +kernel

/-- PING and the queries: slot numbers at 0, 7 and 8, a slot asked for by itself, by slot 0 and by another; a held and a lapsed lease; a name known and unknown. -/
theorem witness_queries :
    let lapsed := did .leaseExpiry (expiring shared ⟨100, .lease 0 1⟩)
    let late : State := { shared with lck := { shared.lck with clock := 0x123456789A } }
    let soon : State := { shared with lck := { shared.lck with clock := 60 } }
    allAnswer
      [⟨late, ask 0 .ping [], some (.ok, [0x34, 0x56, 0x78, 0x9A])⟩,
        ⟨shared, ask 0 .querySlot [8], some (.badOperand, [1, 0])⟩,
        ⟨shared, ask 0 .querySlot [7], some (.ok, [0, 0, 0, 0, 0, 0, 0, 0, 0])⟩,
        ⟨shared, ask 0 .querySlot [0], some (.ok, [1, 0, 1, 1, 0, 100, 1, 0, 0])⟩,
        ⟨waiting, ask 1 .querySlot [1], some (.ok, [1, 0, 1, 1, 0, 100, 1, 1, 0])⟩,
        ⟨shared, ask 1 .querySlot [0], some (.denied, [])⟩,
        ⟨shared, ask 0 .profileRead [8], some (.badOperand, [1, 0])⟩,
        ⟨shared, ask 0 .profileRead [0], some (.ok, [0x7F, 32, 16, 3, 0x7F, 32, 16, 3, 0])⟩,
        ⟨shared, ask 0 .profileRead [7], some (.ok, [0x3F, 32, 16, 3, 0x3F, 32, 16, 3, 0])⟩,
        ⟨shared, ask 1 .profileRead [0], some (.denied, [])⟩,
        ⟨soon, ask 0 .queryLease [0, 1], some (.ok, [1, 1, 0, 0x10, 0, 0, 0, 6, 0, 0, 40, 0, 0, 0, 100])⟩,
        ⟨lapsed, ask 0 .queryLease [0, 1], some (.ok, [2, 1, 0, 0x10, 0, 0, 0, 6, 0, 0, 0, 0, 0, 0, 100])⟩,
        ⟨shared, ask 1 .queryResource [0, 0x10], some (.ok, [0, 1, 1, 1, 0, 0, 0, 0, 0, 6, 2, 0, 3, 0xE8])⟩,
        ⟨shared, ask 1 .queryResource [0, 0x11], some (.unknownResource, [])⟩] = true := by
  decide +kernel

/-! ## Leases -/

/-- Handles: of a record FREE, of another generation, of generation 0, and of another slot's record, for each request that reaches the handle. -/
theorem witness_handles :
    allAnswer
      [⟨shared, ask 0 .release [2, 1], some (.unknownLease, [])⟩,
        ⟨shared, ask 0 .release [0, 2], some (.unknownLease, [])⟩,
        ⟨shared, ask 0 .downgrade [0, 0], some (.unknownLease, [])⟩,
        ⟨shared, ask 1 .queryLease [0, 1], some (.notHolder, [])⟩,
        ⟨shared, ask 1 .renew [0, 1, 0x0F, 0xFF, 0xFF], some (.notHolder, [])⟩,
        ⟨shared, ask 0 .renew [0, 2, 0, 0, 0], some (.unknownLease, [])⟩,
        ⟨shared, ask 1 .upgrade [0, 1, 0, 0, 0], some (.notHolder, [])⟩,
        ⟨shared, ask 0 .upgrade [0xFE, 1, 0, 0, 0], some (.unknownLease, [])⟩] = true := by
  decide +kernel

/-- One row for each check of an ACQUIRE, in their order. -/
theorem witness_acquireRefused :
    allAnswer
      [⟨defined, ask 1 .acquire [0, 0x10, 0, 0, 0, 0, 0, 0, 0], some (.badOperand, [1, 2])⟩,
        ⟨defined, ask 1 .acquire [0, 0x10, 3, 0, 0, 0, 0, 0, 0], some (.badOperand, [1, 2])⟩,
        ⟨defined, ask 1 .acquire [0, 0x10, 1, 0x10, 0, 0, 0, 0, 0], some (.badOperand, [1, 3])⟩,
        ⟨defined, ask 1 .acquire [0, 0x10, 1, 0x0F, 0xFF, 0xFF, 0x10, 0, 0], some (.badOperand, [1, 6])⟩,
        ⟨defined, ask 1 .acquire [0, 0x11, 1, 0, 0, 0, 0x0F, 0xFF, 0xFF], some (.unknownResource, [])⟩,
        ⟨entry defined fun x => { x with state := .draining }, ask 1 .acquire [0, 0x10, 1, 0, 0, 0, 0], some (.retired, [])⟩,
        ⟨entry defined fun x => { x with admission := 0xFD }, ask 1 .acquire [0, 0x10, 1, 0, 0, 0, 0], some (.denied, [])⟩,
        ⟨without defined 1 .acquireX, ask 1 .acquire [0, 0x10, 2, 0, 0, 0, 0], some (.denied, [])⟩,
        ⟨without defined 1 .acquireS, ask 1 .acquire [0, 0x10, 1, 0, 0, 0, 0], some (.denied, [])⟩,
        ⟨entry defined fun x => { x with shareLimit := 0 }, ask 1 .acquire [0, 0x10, 1, 0, 0, 0, 0],
          some (.modeNotAllowed, [])⟩,
        ⟨shared, ask 0 .acquire [0, 0x10, 1, 0, 0, 0, 0], some (.alreadyHeld, [])⟩] = true := by
  decide +kernel

/-- One row for each check before parking, in their order. -/
theorem witness_parkingRefused :
    let f := ask 1 .acquire [0, 0x10, 2, 0, 0, 0, 50]
    allAnswer
      [⟨exclusive, ask 1 .acquire [0, 0x10, 2, 0, 0, 0, 0], some (.busy, [])⟩,
        ⟨entry exclusive fun x => { x with waitingAllowed := false }, f, some (.busy, [])⟩,
        ⟨without exclusive 1 .wait, f, some (.denied, [])⟩,
        ⟨waitsFull exclusive, f, some (.waitFull, [])⟩,
        ⟨profile exclusive 1 fun x => { x with waitQuota := 0 }, f, some (.quota, [])⟩,
        ⟨recordsFull exclusive, f, some (.tableFull, [])⟩,
        ⟨profile exclusive 1 fun x => { x with leaseQuota := 0 }, f, some (.quota, [])⟩] = true ∧
      ¬exclusive.len.catalog[(0 : ResIx)].freeFor .exclusive := by
  unfold Entry.freeFor
  decide +kernel

/-- An ACQUIRE granted at once: SHARED and EXCLUSIVE on a resource without holders, with the default term, with a term and above the cap; SHARED beside a SHARED holder, where the epoch stands though it is spent; and each refusal. -/
theorem witness_granted :
    let f := ask 1 .acquire [0, 0x10, 1, 0, 0, 0, 0]
    let spent (s : State) := entry s fun x => { x with epoch := 0xFFFFFFFF }
    allAnswer
      [⟨defined, f, some (.granted, [0, 1, 1, 0, 0, 0, 6, 0, 0, 100])⟩,
        ⟨defined, ask 1 .acquire [0, 0x10, 2, 0, 7, 0, 0], some (.granted, [0, 1, 2, 0, 0, 0, 6, 0, 0, 7])⟩,
        ⟨defined, ask 1 .acquire [0, 0x10, 2, 0x0F, 0xFF, 0xFF, 0, 0, 0],
          some (.granted, [0, 1, 2, 0, 0, 0, 6, 0, 3, 0xE8])⟩,
        ⟨shared, f, some (.granted, [2, 1, 1, 0, 0, 0, 6, 0, 0, 100])⟩,
        ⟨spent shared, f, some (.granted, [2, 1, 1, 0xFF, 0xFF, 0xFF, 0xFF, 0, 0, 100])⟩,
        ⟨spent defined, f, some (.epochSpent, [])⟩,
        ⟨recordsFull defined, f, some (.tableFull, [])⟩,
        ⟨profile defined 1 fun x => { x with leaseQuota := 0 }, f, some (.quota, [])⟩] = true ∧
      (shared.len.lookup 0x0010 = some 0 ∧ shared.len.mayAcquire 1 0 .shared ∧
        shared.len.catalog[(0 : ResIx)].freeFor .shared ∧ shared.len.lowestFreeLease 1) := by
  unfold Len.mayAcquire Entry.freeFor Len.lowestFreeLease
  decide +kernel

/-- An ACQUIRE that may wait, at the state and operands that the statement on parking asks for: with a limit, and without one. -/
theorem witness_parks :
    let f (a b c : Byte) := ask 1 .acquire [0, 0x10, 2, 0, 0, 0, a, b, c]
    (meets exclusive (f 0 0 50) = true ∧ exclusive.len.lookup 0x0010 = some 0 ∧ exclusive.len.mayAcquire 1 0 .exclusive ∧
        ¬exclusive.len.catalog[(0 : ResIx)].freeFor .exclusive ∧
        exclusive.len.catalog[(0 : ResIx)].waitingAllowed = true ∧
        exclusive.len.slots[(1 : SlotIx)].profile.holds .wait = true ∧ exclusive.len.lowestFreeWait 0 ∧
        exclusive.len.waitUse 1 < 16 ∧ exclusive.len.lowestFreeLease 1 ∧ exclusive.len.leaseUse 1 < 32) ∧
      (answer exclusive (f 0 0 50) = none ∧
        (take exclusive (f 0 0 50)).len.waits[(0 : WaitIx)] =
          some ⟨.acquire .exclusive 100 3, 1, 1, 7, 0, 1, 0, some 50⟩ ∧
        (take exclusive (f 0x0F 0xFF 0xFF)).len.waits[(0 : WaitIx)] =
          some ⟨.acquire .exclusive 100 3, 1, 1, 7, 0, 1, 0, none⟩) := by
  unfold Len.mayAcquire Entry.freeFor Len.lowestFreeWait Len.lowestFreeLease
  decide +kernel

/-- Releases: of a lease alone, of one that waits to be upgraded, of a draining resource's last lease, and of a lapsed and a revoked one. -/
theorem witness_release :
    let f := ask 0 .release [0, 1]
    let lapsed := did .leaseExpiry (expiring shared ⟨100, .lease 0 1⟩)
    let revoked := record shared fun l => { l with state := .revoked }
    allAnswer
      [⟨shared, f, some (.ok, [])⟩, ⟨upgrading, f, some (.ok, [])⟩, ⟨lapsed, f, some (.lapsed, [])⟩,
        ⟨revoked, f, some (.revoked, [])⟩] = true ∧
      (shared.len.resolve 0 1).toOption = some 0 ∧ upgrading.len.upgradeWaitOf 0 = some 0 ∧
      upgrading.len.catalog[(0 : ResIx)].queue = [0] ∧ shared.len.upgradeWaitOf 0 = none ∧
      (take (entry shared fun x => { x with state := .draining }) f).len.catalog[(0 : ResIx)] = Entry.vacant 6 := by
  decide +kernel

/-- Renewals: the first of the checks that fails, a term above the cap, the lease's own term, and the count at its bounds. -/
theorem witness_renew :
    let f (b c : Byte) := ask 0 .renew [0, 1, 0, b, c]
    let lapsed := did .leaseExpiry (expiring shared ⟨100, .lease 0 1⟩)
    let counted (n : Nat) := record shared fun l => { l with renewCount := n }
    let free (s : State) := entry s fun x => { x with renewLimit := 255 }
    allAnswer
      [⟨shared, ask 0 .renew [0, 1, 0x10, 0, 0], some (.badOperand, [1, 2])⟩, ⟨lapsed, f 0 0, some (.lapsed, [])⟩,
        ⟨record shared fun l => { l with state := .revoked }, f 0 0, some (.revoked, [])⟩,
        ⟨entry shared fun x => { x with state := .draining }, f 0 0, some (.retired, [])⟩,
        ⟨counted 3, f 0 0, some (.renewLimit, [])⟩, ⟨counted 2, f 0 0, some (.ok, [0, 0, 100])⟩,
        ⟨shared, f 0xFF 0xFF, some (.ok, [0, 3, 0xE8])⟩, ⟨free (counted 254), f 0 7, some (.ok, [0, 0, 7])⟩] = true ∧
      (take (free (counted 253)) (f 0 0)).len.leases[(0 : RecIx)].renewCount = 254 ∧
      (take (free (counted 254)) (f 0 0)).len.leases[(0 : RecIx)].renewCount = 254 := by
  decide +kernel

/-- Downgrades: the first of the checks that fails, and one that lets a SHARED wait in. -/
theorem witness_downgrade :
    let f := ask 0 .downgrade [0, 1]
    let behind := take exclusive (acquire 1 1 50)
    allAnswer
      [⟨did .leaseExpiry (expiring exclusive ⟨100, .lease 0 1⟩), f, some (.lapsed, [])⟩,
        ⟨record exclusive fun l => { l with state := .revoked }, f, some (.revoked, [])⟩,
        ⟨shared, f, some (.notExclusive, [])⟩,
        ⟨entry exclusive fun x => { x with shareLimit := 0 }, f, some (.modeNotAllowed, [])⟩,
        ⟨behind, f, some (.ok, [])⟩] = true ∧
      (take behind f).len.catalog[(0 : ResIx)].holderCount = 2 := by
  decide +kernel

/-- Upgrades: the first of the checks that fails, of a sole holder and among others, and one that parks. -/
theorem witness_upgrade :
    let f (limit : Byte) := ask 0 .upgrade [0, 1, 0, 0, limit]
    allAnswer
      [⟨shared, ask 0 .upgrade [0, 1, 0x10, 0, 0], some (.badOperand, [1, 2])⟩,
        ⟨without shared 0 .acquireX, f 0, some (.denied, [])⟩,
        ⟨did .leaseExpiry (expiring shared ⟨100, .lease 0 1⟩), f 0, some (.lapsed, [])⟩,
        ⟨record shared fun l => { l with state := .revoked }, f 0, some (.revoked, [])⟩,
        ⟨exclusive, f 0, some (.notShared, [])⟩,
        ⟨entry shared fun x => { x with state := .draining }, f 0, some (.retired, [])⟩,
        ⟨entry shared fun x => { x with epoch := 0xFFFFFFFF }, f 0, some (.epochSpent, [])⟩,
        ⟨shared, f 0, some (.granted, [0, 1, 2, 0, 0, 0, 7, 0, 0, 100])⟩,
        ⟨upgrading, ask 1 .upgrade [2, 1, 0, 0, 50], some (.upgradeConflict, [])⟩,
        ⟨sharedByTwo, f 0, some (.busy, [])⟩,
        ⟨entry sharedByTwo fun x => { x with waitingAllowed := false }, f 50, some (.busy, [])⟩,
        ⟨without sharedByTwo 0 .wait, f 50, some (.denied, [])⟩,
        ⟨waitsFull sharedByTwo, f 50, some (.waitFull, [])⟩,
        ⟨profile sharedByTwo 0 fun x => { x with waitQuota := 0 }, f 50, some (.quota, [])⟩,
        ⟨sharedByTwo, f 50, none⟩, ⟨sharedByTwo, ask 0 .upgrade [0, 1, 0x0F, 0xFF, 0xFF], none⟩] = true ∧
      sharedByTwo.len.lowestFreeWait 0 ∧ sharedByTwo.len.catalog[(0 : ResIx)].holderCount ≠ 1 := by
  unfold Len.lowestFreeWait
  decide +kernel

/-- Cancels: of a byte above the tags, of the tag of a wait, of a tag answered, of a tag never used and of the cancel's own tag. -/
theorem witness_cancel :
    let f (t : Byte) := ask 1 .cancel [t]
    allAnswer
      [⟨waiting, f 8, some (.badOperand, [3, 0])⟩, ⟨waiting, f 2, some (.ok, [])⟩, ⟨waiting, f 0, some (.tooLate, [])⟩,
        ⟨waiting, f 1, some (.notParked, [])⟩, ⟨waiting, f 7, some (.notParked, [])⟩] = true ∧
      waiting.len.waits[(0 : WaitIx)].map (fun x => (x.slot, x.session, x.tag)) = some (1, 1, 2) ∧
      (take waiting (f 2)).len.waits[(0 : WaitIx)] = none := by
  decide +kernel

/-- Breaks: each check in order, by handle and by name. -/
theorem witness_break :
    let f (options hi lo : Byte) := ask 1 .breakLease [options, hi, lo]
    let guarded := entry sharedByTwo fun x => { x with breakAllowed := false }
    allAnswer
      [⟨without sharedByTwo 1 .breakLease, f 2 0 0, some (.denied, [])⟩,
        ⟨sharedByTwo, f 2 0 1, some (.badOperand, [3, 0])⟩, ⟨sharedByTwo, f 0 0 2, some (.unknownLease, [])⟩,
        ⟨sharedByTwo, f 0 0 0, some (.unknownLease, [])⟩, ⟨guarded, f 0 0 1, some (.denied, [])⟩,
        ⟨sharedByTwo, f 0 0 1, some (.ok, [1])⟩, ⟨sharedByTwo, f 1 0 0x11, some (.unknownResource, [])⟩,
        ⟨guarded, f 1 0 0x10, some (.denied, [])⟩, ⟨sharedByTwo, f 1 0 0x10, some (.ok, [2])⟩] = true ∧
      sharedByTwo.len.lookup 0x0010 = some 0 := by
  decide +kernel

/-- A machine with `k` records of slot 0 marked REVOKED. -/
def marked (k : Nat) : State :=
  let mark (i : Fin 128) : Lease :=
    if i.val < k then { Lease.cleared 1 with state := .revoked, slot := 0, session := 1, changeMark := true }
    else Lease.cleared 1
  { attached with len := { attached.len with leases := Vector.ofFn mark } }

/-- Notices with no mark, with four and with five. -/
theorem witness_notices :
    allAnswer
      [⟨attached, ask 0 .notices [], some (.ok, [0])⟩,
        ⟨marked 4, ask 0 .notices [], some (.ok, [4, 0, 1, 3, 2, 1, 3, 4, 1, 3, 6, 1, 3])⟩,
        ⟨marked 5, ask 0 .notices [], some (.more, [4, 0, 1, 3, 2, 1, 3, 4, 1, 3, 6, 1, 3])⟩] = true := by
  decide +kernel

/-! ## The grant pass -/

/-- Heads that a pass grants, ends and leaves: an ACQUIRE that the holders do not admit, one that they do, one under a spent epoch, an UPGRADE beside another holder, of a sole holder, and under a spent epoch. -/
theorem witness_grantPass :
    let passes (s : State) : Bool := (s.expiryEvent.passStep 0).isSome
    let freed (s : State) := entry s fun x => { x with holderMode := .none, holderCount := 0 }
    let sole (s : State) := entry s fun x => { x with holderCount := 1 }
    let spent (s : State) := entry s fun x => { x with epoch := 0xFFFFFFFF }
    let ends (s : State) : Bool := decide ((s.expiryEvent.passStep 0).map (fun e => e.toRqu.length) = some 1)
    (waiting.len.catalog[(0 : ResIx)].queue = [0] ∧
        waiting.len.waits[(0 : WaitIx)].map (fun x => (x.kind, x.resource)) = some (.acquire .exclusive 100 3, 0) ∧
        passes waiting = false ∧ passes (freed waiting) = true ∧ ends (spent (freed waiting)) = true) ∧
      (upgrading.len.catalog[(0 : ResIx)].queue = [0] ∧
        upgrading.len.waits[(0 : WaitIx)].map (fun x => (x.kind, x.resource)) = some (.upgrade, 0) ∧
        passes upgrading = false ∧ passes (sole upgrading) = true ∧ ends (spent (sole upgrading)) = true) ∧
      passes shared = false := by
  decide +kernel

/-- The ends of a wait and of a lease: an ACQUIRE wait's record is RESERVED and of its resource, an UPGRADE wait's lease is HELD. -/
theorem witness_ends :
    waiting.len.waits[(0 : WaitIx)].map (fun x => (x.lease, x.resource)) = some (1, 0) ∧
      waiting.len.leases[(1 : RecIx)].state = .reserved ∧ waiting.len.leases[(1 : RecIx)].resource = 0 ∧
      upgrading.len.upgradeWaitOf 0 = some 0 ∧ shared.len.upgradeWaitOf 0 = none := by
  decide +kernel

/-! ## The catalog -/

/-- A name known, a name of no entry, and the two names that match none. -/
theorem witness_lookup :
    defined.len.lookup 0x0010 = some 0 ∧ defined.len.lookup 0x0011 = none ∧
      (entry defined fun x => { x with name := 0xFFFF }).len.lookup 0xFFFF = none ∧ defined.len.namesUnique := by
  unfold Len.namesUnique
  decide +kernel

/-- One scene in which the tables agree and names are unique. -/
theorem witness_current : waiting.len.tablesAgree ∧ waiting.len.namesUnique := by
  refine ⟨witness_tablesAgree.1.1, ?_⟩
  unfold Len.namesUnique
  decide +kernel

/-- The operands of a DEFINE of 0011h with one byte changed. -/
def defining (i : Nat) (b : Byte) : Frame :=
  ask 0 .define ([0x00, 0x11, 15, 0x0F, 0xFF, 0xFF, 0, 0, 1, 255, 3, 0xFF, 0xFF, 0xFF, 0xFF, 0xFE].set i b)

/-- Definitions: one row for each check, in order, at the bounds of the ranges. -/
theorem witness_define :
    let zero (f : Frame) : Frame := { f with operands := f.operands.set 1 0 }
    let cap (f : Frame) : Frame := { f with operands := (f.operands.set 3 0).set 4 0 }
    let full : State := { attached with len := { attached.len with catalog := Vector.replicate 64 { Entry.vacant 0 with state := .opened, name := 9 } } }
    allAnswer
      [⟨without attached 0 .catalog, defining 0 0, some (.denied, [])⟩,
        ⟨attached, zero (defining 0 0), some (.badOperand, [1, 0])⟩,
        ⟨attached, { defining 0 0xFF with operands := (defining 0 0xFF).operands.set 1 0xFF }, some (.badOperand, [1, 0])⟩,
        ⟨attached, defining 2 16, some (.badOperand, [1, 2])⟩, ⟨attached, defining 3 0x10, some (.badOperand, [1, 3])⟩,
        ⟨attached, cap (defining 5 0), some (.badOperand, [1, 3])⟩, ⟨attached, defining 8 0, some (.badOperand, [1, 6])⟩,
        ⟨attached, defining 6 0x10, some (.badOperand, [2, 6])⟩, ⟨attached, defining 10 4, some (.badOperand, [3, 10])⟩,
        ⟨attached, defining 15 0xFF, some (.badOperand, [1, 12])⟩, ⟨defined, defining 1 0x10, some (.nameTaken, [])⟩,
        ⟨full, defining 0 0, some (.catalogFull, [])⟩,
        ⟨attached, defining 0 0, some (.ok, [0, 0x11, 0xFF, 0xFF, 0xFF, 0xFE])⟩] = true ∧
      (take defined (defining 0 0)).len.catalog[(1 : ResIx)].shareLimit = 15 := by
  decide +kernel

/-- Retirements: each check, one that leaves the entry VACANT, one that leaves it DRAINING, one with force. -/
theorem witness_retire :
    let f (options : Byte) := ask 0 .retire [0, 0x10, options]
    allAnswer
      [⟨without defined 0 .catalog, f 2, some (.denied, [])⟩, ⟨defined, f 2, some (.badOperand, [3, 2])⟩,
        ⟨attached, f 0, some (.unknownResource, [])⟩, ⟨defined, f 0, some (.ok, [1, 0, 0])⟩,
        ⟨waiting, f 0, some (.ok, [2, 0, 1])⟩, ⟨waiting, f 1, some (.ok, [2, 1, 1])⟩] = true := by
  decide +kernel

/-! ## Epoch checks -/

/-- TOKEN_CHECK: without the right, of a mode that is none, of a name unknown, and of an epoch and mode current and not. -/
theorem witness_tokenCheck :
    let f (name epoch mode : Byte) := ask 1 .tokenCheck [0, name, 0, 0, 0, epoch, mode]
    allAnswer
      [⟨without exclusive 1 .check, f 0x10 6 2, some (.denied, [])⟩, ⟨exclusive, f 0x10 6 0, some (.badOperand, [1, 6])⟩,
        ⟨exclusive, f 0x10 6 3, some (.badOperand, [1, 6])⟩, ⟨exclusive, f 0x11 6 2, some (.unknownResource, [])⟩,
        ⟨exclusive, f 0x10 6 2, some (.current, [])⟩, ⟨exclusive, f 0x10 6 1, some (.stale, [])⟩,
        ⟨exclusive, f 0x10 5 2, some (.stale, [])⟩, ⟨defined, f 0x10 5 1, some (.stale, [])⟩] = true := by
  decide +kernel

/-- Check-only queries that LEN takes, and answers that TWP takes while the query is passed, waits or was dropped. -/
theorem witness_checkOnly :
    let q : Query := ⟨0x0010, 6, 0x02⟩
    let asked (mode : Byte) : State := { exclusive with paths := { Paths.empty with queries := [⟨0x0010, 6, mode⟩] } }
    let answered (h : Option Held) : State :=
      { exclusive with
        twp := { exclusive.twp with held := h, queryOut := true }
        paths := { Paths.empty with lenToTwp := [.answer .current] } }
    (exclusive.len.configOpen = none ∧
        (did .checkOnlyQuery (asked 2)).paths.lenToTwp = [.answer .current] ∧
        (did .checkOnlyQuery (asked 0)).paths.lenToTwp = [.answer .stale]) ∧
      ((did .checkOnlyAnswer (answered (some (.query q .passed)))).twp.held = some (.query q (.answered .current)) ∧
        (did .checkOnlyAnswer (answered (some (.query q .waiting)))).paths.queries = [q] ∧
        (did .checkOnlyAnswer (answered none)).twp.queryOut = false) := by
  decide +kernel

/-! ## Profiles, freezing, configuration -/

/-- PROFILE_SETs: one row for each of the eleven checks, in order, and one that passes. -/
theorem witness_profileSet :
    let f (target rights lease wait priority : Byte) := ask 0 .profileSet [target, rights, lease, wait, priority]
    let frozen : State := { waiting with len := { waiting.len with frozen := true } }
    allAnswer
      [⟨waiting, ask 1 .profileSet [8, 0x80, 33, 17, 4], some (.denied, [])⟩,
        ⟨frozen, f 8 0x80 33 17 4, some (.badOperand, [3, 1])⟩, ⟨frozen, f 8 0x7F 33 17 4, some (.profileRefused, [1, 0, 0])⟩,
        ⟨waiting, f 8 0x7F 33 17 4, some (.profileRefused, [5, 1, 8])⟩,
        ⟨waiting, f 7 0x40 33 17 4, some (.profileRefused, [2, 2, 6])⟩,
        ⟨waiting, f 0 0x3F 33 17 4, some (.profileRefused, [4, 2, 6])⟩,
        ⟨waiting, f 1 0x3F 33 17 4, some (.profileRefused, [2, 3, 32])⟩,
        ⟨waiting, f 1 0x3F 0 17 4, some (.profileRefused, [3, 3, 1])⟩,
        ⟨waiting, f 1 0x3F 32 17 4, some (.profileRefused, [2, 4, 16])⟩,
        ⟨waiting, f 1 0x3F 1 0 4, some (.profileRefused, [3, 4, 1])⟩,
        ⟨waiting, f 1 0x3F 32 16 4, some (.profileRefused, [2, 5, 3])⟩, ⟨waiting, f 1 0 1 1 3, some (.ok, [])⟩,
        ⟨waiting, f 0 0x40 1 0 0, some (.ok, [])⟩] = true := by
  decide +kernel

/-- PROFILE_RESTOREs and PROFILE_FREEZEs: without the right, frozen, of no slot, of one and of all; and a frozen machine at which a command runs. -/
theorem witness_restoreAndFreeze :
    let frozen := take attached (ask 0 .profileFreeze [])
    allAnswer
      [⟨attached, ask 1 .profileRestore [0], some (.denied, [])⟩, ⟨attached, ask 1 .profileFreeze [], some (.denied, [])⟩,
        ⟨frozen, ask 0 .profileRestore [0], some (.profileRefused, [1, 0, 0])⟩,
        ⟨frozen, ask 0 .profileFreeze [], some (.profileRefused, [1, 0, 0])⟩,
        ⟨attached, ask 0 .profileRestore [8], some (.profileRefused, [5, 1, 8])⟩,
        ⟨attached, ask 0 .profileRestore [7], some (.ok, [])⟩, ⟨attached, ask 0 .profileRestore [0xFF], some (.ok, [])⟩,
        ⟨attached, ask 0 .profileFreeze [], some (.ok, [])⟩] = true ∧
      frozen.len.frozen = true ∧ Instr.pinReset ≠ .powerOnReset ∧ (did .pinReset frozen).len.frozen = true := by
  decide +kernel

/-- CONFIGs: each check, one that opens, TWP's take of its enable, and the report that completes it. -/
theorem witness_config :
    let open1 := take attached (ask 0 .config [1])
    let sent : State := { open1 with paths := { Paths.empty with lenToTwp := [.enable true true] } }
    let told : State := { open1 with paths := { Paths.empty with reports := [true] } }
    allAnswer
      [⟨attached, ask 1 .config [2], some (.denied, [])⟩, ⟨attached, ask 0 .config [2], some (.badOperand, [3, 0])⟩,
        ⟨take attached (ask 0 .profileFreeze []), ask 0 .config [0], some (.profileRefused, [1, 0, 0])⟩,
        ⟨attached, ask 0 .config [1], none⟩] = true ∧
      (open1.len.configOpen = some ⟨0, 7⟩ ∧ open1.paths.lenToTwp = [.enable true true] ∧
        did .ping (offer open1 (ask 0 .ping [])) = offer open1 (ask 0 .ping [])) ∧
      ((did .checkOnlyEnableTake sent).twp.checkOnly = true ∧ (did .checkOnlyEnableTake sent).paths.reports = [true]) ∧
      ((did .configReport told).len.configOpen = none ∧
        (did .configReport told).paths.lenToRqu = [.completion 0 ⟨7, .config, .ok, []⟩]) ∧
      (did .configReport { attached with paths := { Paths.empty with reports := [false] } }).paths = Paths.empty := by
  decide +kernel

/-! ## Intake, completions, attention -/

/-- RQU's record of a slot whose session is 1 on TWP, with some completions and tags. -/
def viewing (view : SlotView) (cs : List Completion) (news : Bool := false) : State :=
  let x : RquSlot := { RquSlot.afterReset with view := view, completions := cs, news := news, attention := attentionLow view cs news }
  { State.reset with rqu := { Rqu.afterReset with slots := Rqu.afterReset.slots.set 0 x } }

/-- A completion of two payload bytes under tag 1. -/
def done : Completion := ⟨1, .ping, .ok, [0xAA, 0xBB]⟩

/-- The view of session 1 on TWP. -/
def live : SlotView := .active (some (1, .twp))

/-- A machine with one message on its way from a port to RQU. -/
def telling (s : State) (p : Port) (m : PortMsg) : State := (s.setToRqu p [m]).setFront p { (s.front p) with kind := some .request, bytes := [0x40] }

/-- A machine with one message on its way from LEN to RQU. -/
def told (s : State) (m : RquMsg) : State := { s with paths := { Paths.empty with lenToRqu := [m] } }

/-- Claims with 3 and with 4 frames in the queue, at each port. -/
theorem witness_claims :
    let queued (k : Nat) (p : Port) : State :=
      telling (State.reset.modRquPort p fun q => { q with queue := List.replicate k (ask 0 .ping []) }) p .claim
    ((did (.intakeClaim .twp) (queued 3 .twp)).rqu.twp.claim = true ∧ (did (.intakeClaim .twp) (queued 3 .twp)).twp.sdaAck = true) ∧
      ((did (.intakeClaim .twp) (queued 4 .twp)).twp.status.record = ⟨.intakeFull, 0x40, 0⟩ ∧
        (did (.intakeClaim .twp) (queued 4 .twp)).twp.front.state = .refusing) ∧
      (did (.intakeClaim .fwp) (queued 3 .fwp)).rqu.fwp.claim = true ∧
      (did (.intakeClaim .fwp) (queued 4 .fwp)).fwp.status.record = ⟨.intakeFull, 0x40, 0⟩ := by
  decide +kernel

/-- Arrivals: an ATTACH with a session and without, a session that is not RQU's, another port, a tag in use, and a frame that is taken. -/
theorem witness_arrivals :
    let s := viewing live []
    let busy : State := s.modRquSlot 0 fun x => { x with tags := x.tags.set 7 .done }
    let reason (s : State) (p : Port) (f : Frame) := ((did (.arrivalCheck p) (telling s p (.arrival f))).portStatus p).record.reason
    s.rqu.attentionDriven ∧
      reason s .twp ⟨0, 1, 7, .attach, [0, 0]⟩ = .staleSession ∧ reason s .twp ⟨0, 0, 7, .attach, [0, 0]⟩ = .none ∧
      reason s .twp ⟨0, 2, 7, .ping, []⟩ = .staleSession ∧ reason s .twp ⟨1, 1, 7, .ping, []⟩ = .staleSession ∧
      reason s .fwp (ask 0 .ping []) = .portMismatch ∧ reason busy .twp (ask 0 .ping []) = .tagBusy ∧
      reason s .twp (ask 0 .ping []) = .none ∧
      (did (.arrivalCheck .twp) (telling s .twp (.arrival (ask 0 .ping [])))).rqu.twp.queue = [ask 0 .ping []] := by
  unfold Rqu.attentionDriven
  decide +kernel

/-- Completions filed under each view, session notices, and news on and off. -/
theorem witness_rquFollowsLen :
    let slot (c : Instr) (s : State) (m : RquMsg) : RquSlot := (did c (told s m)).rqu.slots[(0 : SlotIx)]
    let off (s : State) := (slot .slotNewsOff s (.newsOff 0)).attention
    ((slot .completionFiled (viewing live []) (.completion 0 done)).attention = true ∧
        (slot .completionFiled (viewing .vacant []) (.completion 0 done)).attention = false ∧
        (slot .completionFiled (viewing live [done]) (.completion 0 done)).completions = [done, done]) ∧
      ((slot .sessionBegun (viewing .lost []) (.begun 0 2 .fwp)).view = .active (some (2, .fwp)) ∧
        (slot .sessionEnded (viewing live [done]) (.ended 0 .vacant)).view = .vacant ∧
        (slot .sessionEnded (viewing live [done]) (.ended 0 .lost)).attention = true ∧
        (slot .sessionEnded (viewing live [done]) (.ended 0 .active)).completions = [] ∧
        (slot .slotLost (viewing .vacant []) (.lost 0)).view = .lost) ∧
      (slot .slotNewsOn (viewing live []) (.newsOn 0)).attention = true ∧
      off (viewing .vacant [] true) = false ∧ off (viewing .lost [] true) = true ∧ off (viewing live [] true) = false ∧
      off (viewing live [done] true) = true := by
  decide +kernel

/-- Collects: of a list with a head, of an empty one, of another session; and their ends, read in full and cut short. -/
theorem witness_collect :
    let out (s : State) (session : Session) := (did (.collectSelect .twp) (telling s .twp (.select 0 session))).twp.front.outgoing
    let presented : State := (viewing live [done]).modRquPort .twp fun q => { q with mark := some 0 }
    let left (s : State) (full : Bool) := (did (.collectEnd .twp) (telling s .twp (.collectEnd full))).rqu.slots[(0 : SlotIx)].completions
    (out (viewing live [done]) 1 = withCheck [0x23, 0x00, 2, 0xAA, 0xBB] ∧ out (viewing live []) 1 = withCheck [0, 0x50, 0] ∧
        out (viewing live [done]) 2 = withCheck [0, 0x05, 0]) ∧
      left presented true = [] ∧ left presented false = [done] ∧ left (viewing live [done]) true = [done] := by
  decide +kernel

/-! ## The two-wire port -/

/-- A machine whose two-wire front end is receiving a frame of a kind. -/
def twp (k : Option FrameKind) (bytes : List Byte) (held : Option Held := none) : State :=
  { State.reset with
    twp :=
      { State.reset.twp with
        front := { Front.idle with state := .receiving, kind := k, bytes := bytes, check := frameCheck bytes }
        held := held } }

/-- A machine whose two-wire front end shifts out a presentation, some of it sent. -/
def twpOut (k : Presentation) (out : List Byte) (sent : Nat) : State :=
  { State.reset with
    twp := { State.reset.twp with front := { Front.idle with state := .presenting, presentation := k, outgoing := out, sent := sent } } }

/-- A port with a claim on its way acts on its next byte as it does once RQU has answered. -/
theorem witness_answersInHand :
    let s := telling (twp (some .request) [0x40]) .twp .claim
    s.inReset = false ∧ ¬s.settled .twp ∧ (s.after ((s.toRqu .twp).map (PortMsg.command .twp))).isSome = true ∧
      (did (.twpWriteByte 0) s).rqu.twp.claim = true ∧ (did (.twpWriteByte 0) s).twp.front.bytes = [0x40, 0] := by
  refine ⟨by decide +kernel, fun h => ?_, by decide +kernel, by decide +kernel, by decide +kernel⟩
  obtain ⟨full, hf⟩ := h .claim List.mem_cons_self
  cases hf

/-- Addresses: the primary one for each item held, the check-only one, and one that is neither; the path is settled. -/
theorem witness_addresses :
    let guarded (on : Bool) (h : Option Held) : State :=
      { State.reset with twp := { State.reset.twp with held := h, checkOnly := on } }
    let q : Query := ⟨0x0010, 6, 0x02⟩
    let shows (s : State) (b : Byte) := ((did (.twpAddress b) s).twp.front.presentation, (did (.twpAddress b) s).twp.front.outgoing)
    let acked (s : State) (b : Byte) := (did (.twpAddress b) s).twp.sdaAck
    State.reset.settled .twp ∧
      (did (.twpAddress 0xB0) State.reset).twp.front.state = .receiving ∧
      shows (guarded false (some (.collect 0 1))) 0xB1 = (.completion, []) ∧
      shows (guarded false (some .status)) 0xB1 = (.status, withCheck [0x14, 0, 0, 0]) ∧
      shows (guarded false none) 0xB1 = (.nothing, []) ∧
      (did (.twpAddress 0xB8) (guarded true none)).twp.front.kind = some .checkOnlyQuery ∧
      shows (guarded false (some (.query q (.answered .current)))) 0xB9 = (.answer, withCheck [0x01]) ∧
      shows (guarded true (some (.query q .passed))) 0xB9 = (.answer, [0xFF, 0x00]) ∧
      shows (guarded true none) 0xB9 = (.answer, withCheck [0x04]) ∧
      acked (guarded false none) 0xB8 = false ∧ acked (guarded false none) 0xB9 = false ∧
      acked (guarded true none) 0xB2 = false := by
  refine ⟨fun m hm => (by cases hm), ?_⟩
  decide +kernel

/-- A START in an open segment, and what reset leaves TWP to do. -/
theorem witness_repeatedStart :
    let s := twp (some .statusSelect) (withCheck [0xC0])
    let r := did .powerOnReset s
    (s.inReset = false ∧ s.settled .twp ∧ s.twp.front.state ≠ .idle ∧
        (did (.twpAddress 0xB1) s).twp.front.presentation = .status) ∧
      r.inReset = true ∧ (did (.twpAddress 0xB0) r).twp.sdaAck = false := by
  refine ⟨⟨by decide +kernel, fun m hm => (by cases hm), by decide +kernel, by decide +kernel⟩, ?_⟩
  decide +kernel

/-- Bytes of a write segment: each lead, the length byte at its bound and past it, a byte past the last, and one outside a segment. -/
theorem witness_twpBytes :
    let after (s : State) (b : Byte) := did (.twpWriteByte b) s
    let length := twp (some .request) [0x40, 0, 1, 0x03]
    (twp none []).settled .twp ∧
      (after (twp none []) 0x41).twp.status.record = ⟨.badLead, 0x41, 0⟩ ∧
      (after (twp none []) 0x00).twp.status.record = ⟨.badLead, 0, 0⟩ ∧ (after (twp none []) 0x78).paths.twpToRqu = [.claim] ∧
      (after (twp none []) 0x80).twp.front.kind = some .collectSelect ∧
      (after (twp none []) 0xC0).twp.front.kind = some .statusSelect ∧
      (after length 16).twp.sdaAck = true ∧ (after length 17).twp.status.record = ⟨.badLength, 0x40, 0x03⟩ ∧
      (after (twp (some .statusSelect) (withCheck [0xC0])) 0).twp.front.extra = true ∧
      (after (twp (some .checkOnlyQuery) []) 0x12).twp.front.bytes = [0x12] ∧ (after State.reset 0x40).twp.sdaAck = false := by
  refine ⟨fun m hm => (by cases hm), ?_⟩
  decide +kernel

/-- Ends of write segments: a request short, too long, of a wrong check byte, of no kind, and whole; the two selects; a query that fails, waits and passes; and a segment with no byte. -/
theorem witness_writeEnds :
    let ends (s : State) := did (.twpSegmentEnd .repeatedStart) s
    let reason (s : State) := (ends s).twp.status.record.reason
    let ping := withCheck [0x40, 0, 1, 0xE3, 0]
    let extra (s : State) : State := { s with twp := { s.twp with front := { s.twp.front with extra := true, state := .refusing } } }
    let query := withCheck [0, 0x10, 0, 0, 0, 6, 2]
    let out (s : State) : State := { s with twp := { s.twp with queryOut := true } }
    (twp (some .request) ping).settled .twp ∧
      reason (twp (some .request) (ping.take 5)) = .shortFrame ∧ reason (extra (twp (some .request) ping)) = .badLength ∧
      reason (twp (some .request) (ping.set 5 0)) = .checkFailed ∧
      reason (twp (some .request) (withCheck [0x40, 0, 1, 0xE0, 0])) = .badKind ∧
      (ends (twp (some .request) ping)).paths.twpToRqu = [.arrival (ask 0 .ping [])] ∧
      (ends (twp (some .collectSelect) (withCheck [0xB8, 1, 2]))).twp.held = some (.collect 7 0x0102) ∧
      (ends (twp (some .statusSelect) (withCheck [0xC0]))).twp.held = some .status ∧
      (did (.twpSegmentEnd .stop) (twp (some .statusSelect) (withCheck [0xC0]))).twp.held = none ∧
      (ends (twp (some .checkOnlyQuery) (query.set 7 0))).twp.held = some (.query ⟨0x0010, 6, 2⟩ (.answered .checkFailed)) ∧
      (ends (out (twp (some .checkOnlyQuery) query))).twp.held = some (.query ⟨0x0010, 6, 2⟩ .waiting) ∧
      (ends (twp (some .checkOnlyQuery) query)).paths.queries = [⟨0x0010, 6, 2⟩] ∧
      (ends (twp none [])).twp.front = Front.idle := by
  refine ⟨fun m hm => (by cases hm), ?_⟩
  decide +kernel

/-- Read segments: bytes within a presentation, past its end, after a not-acknowledge and outside one; ends of a collect and a status presentation, in full and cut short. -/
theorem witness_readSegments :
    let out (s : State) := (did (.byteClockedOut true) s).twp.sdaOut
    let nacked (s : State) : State := { s with twp := { s.twp with nacked := true } }
    let status := withCheck [0x14, 0, 0, 0]
    (twpOut .status status 0).settled .twp ∧
      out (twpOut .status status 0) = 0x14 ∧ out (twpOut .status status 5) = 0xFF ∧
      out (nacked (twpOut .status status 0)) = 0xFF ∧ out State.reset = 0xFF ∧
      (did (.twpSegmentEnd .stop) (twpOut .completion [1, 2] 2)).paths.twpToRqu = [.collectEnd true] ∧
      (did (.twpSegmentEnd .stop) (twpOut .completion [1, 2] 1)).paths.twpToRqu = [.collectEnd false] ∧
      (did (.twpSegmentEnd .stop) (twpOut .status status 5)).twp.status.resetIndication = false ∧
      (did (.twpSegmentEnd .stop) (twpOut .status status 4)).twp.status.resetIndication = true := by
  refine ⟨fun m hm => (by cases hm), ?_⟩
  decide +kernel

/-- A bus clear in a request, in a query and in a collect. -/
theorem witness_busClear :
    let record (s : State) := (did .busClear s).twp.status.record
    (twpOut .completion [1, 2] 1).settled .twp ∧ (twpOut .completion [1, 2] 1).inReset = false ∧
      record (twp (some .request) [0x48, 0, 1, 0x03]) = ⟨.busClear, 0x48, 0x03⟩ ∧
      record (twp (some .checkOnlyQuery) [0x12]) = ⟨.busClear, 0, 0⟩ ∧
      (did .busClear (twpOut .completion [1, 2] 1)).paths.twpToRqu = [.collectEnd false] := by
  refine ⟨fun m hm => (by cases hm), ?_⟩
  decide +kernel

/-! ## The four-wire port -/

/-- A machine in a transaction of the four-wire port, its front end in a state. -/
def fwp (state : FrontState) (k : Option FrameKind) (bytes : List Byte) : State :=
  { State.reset with
    fwp :=
      { State.reset.fwp with
        front := { Front.idle with state := state, kind := k, bytes := bytes, check := frameCheck bytes }
        ssnLow := true
        sdoDriven := true
        statusByte := 0x14 } }

/-- The same with a presentation, some of it sent. -/
def fwpOut (k : Presentation) (out : List Byte) (sent : Nat) : State :=
  let s := fwp .presenting none [0xC0]
  { s with fwp := { s.fwp with front := { s.fwp.front with presentation := k, outgoing := out, sent := sent } } }

/-- Falls of SSN outside reset and in it, and bytes clocked outside a transaction. -/
theorem witness_ssnFall :
    let r := did .powerOnReset State.reset
    State.reset.settled .fwp ∧ State.reset.fwp.ssnLow = false ∧ (did (.ssnFall false) State.reset).fwp.statusByte = 0x14 ∧
      (did (.ssnFall true) State.reset).fwp.readLate = true ∧ r.inReset = true ∧
      (did (.ssnFall false) r).fwp.ssnLow = true ∧ (did (.ssnFall false) r).fwp.sdoDriven = false ∧
      (did (.fwpByteReceived 0x40) State.reset).fwp = State.reset.fwp := by
  refine ⟨fun m hm => (by cases hm), ?_⟩
  decide +kernel

/-- Bytes of a transaction: each lead, the byte after FFh, a length at its bound and past it, a byte past the last, a select's last byte, bytes of a presentation, and bytes of a refused frame. -/
theorem witness_fwpBytes :
    let after (s : State) (b : Byte) := did (.fwpByteReceived b) s
    let length := fwp .receiving (some .request) [0x40, 0, 1, 0x03]
    let reason (s : State) (b : Byte) := (after s b).fwp.status.record.reason
    (fwp .receiving none []).settled .fwp ∧
      (after (fwp .receiving none []) 0xFF).fwp.sdoOut = 0x14 ∧ reason (fwp .receiving none []) 0xFF = .none ∧
      reason (fwp .receiving none []) 0x41 = .badLead ∧ (after (fwp .receiving none []) 0x40).paths.fwpToRqu = [.claim] ∧
      (after (fwp .receiving none []) 0xB8).fwp.front.kind = some .collectSelect ∧
      (after (fwp .receiving none []) 0xF8).fwp.front.kind = some .statusSelect ∧
      reason (fwp .receiving none [0xFF]) 0x40 = .badLead ∧
      reason length 16 = .none ∧ reason length 17 = .badLength ∧
      (after (fwp .receiving (some .request) (withCheck [0x40, 0, 1, 0x03, 0])) 0).fwp.front.extra = true ∧
      (after (fwp .receiving (some .collectSelect) [0x80, 0]) 1).fwp.front.bytes = [0x80, 0, 1] ∧
      reason (fwp .receiving (some .statusSelect) [0xC0]) (frameCheck [0xC0] + 1) = .checkFailed ∧
      (after (fwp .receiving (some .statusSelect) [0xC0]) (frameCheck [0xC0])).fwp.front.outgoing = withCheck [0x14, 0, 0, 0] ∧
      (after (fwp .receiving (some .collectSelect) [0x80, 0, 1]) (frameCheck [0x80, 0, 1])).paths.fwpToRqu = [.select 0 1] ∧
      (after (fwpOut .status [1, 2] 1) 0).fwp.sdoOut = 2 ∧ (after (fwpOut .status [1, 2] 2) 0).fwp.sdoOut = 0xFF ∧
      (after (fwp .refusing none [0x41]) 0).fwp.sdoOut = 0xFF := by
  refine ⟨fun m hm => (by cases hm), ?_⟩
  decide +kernel

/-- Rises of SSN: in reset, with no frame, on a select cut off, on a request short, too long, of a wrong check byte, of no kind and whole, and on presentations. -/
theorem witness_ssnRise :
    let reason (s : State) := (did .ssnRise s).fwp.status.record.reason
    let ping := withCheck [0x40, 0, 1, 0xE3, 0]
    let extra (s : State) : State := { s with fwp := { s.fwp with front := { s.fwp.front with extra := true } } }
    let request (bs : List Byte) := fwp .receiving (some .request) bs
    (request ping).settled .fwp ∧ (did .powerOnReset (request ping)).inReset = true ∧
      (did .ssnRise (did .powerOnReset (request ping))).fwp.ssnLow = false ∧
      reason (fwp .receiving none [0xFF]) = .none ∧ reason (fwp .receiving (some .collectSelect) [0x80, 0, 1]) = .shortFrame ∧
      reason (request (ping.take 5)) = .shortFrame ∧ reason (extra (request ping)) = .badLength ∧
      reason (request (ping.set 5 0)) = .checkFailed ∧ reason (request (withCheck [0x40, 0, 1, 0xE0, 0])) = .badKind ∧
      (did .ssnRise (request ping)).paths.fwpToRqu = [.arrival (ask 0 .ping [])] ∧
      (did .ssnRise (fwpOut .completion [1, 2] 2)).paths.fwpToRqu = [.collectEnd true] ∧
      (did .ssnRise (fwpOut .status [1, 2] 2)).fwp.status.resetIndication = false ∧
      (did .ssnRise (fwpOut .status [1, 2] 1)).fwp.status.resetIndication = true := by
  refine ⟨fun m hm => (by cases hm), ?_⟩
  decide +kernel

/-! ## Laws -/

/-- LEN's laws hold of the scene in which a slot holds a lease, and a command changes it. -/
theorem witness_lawsOfLen :
    (shared.len.lawful ∧ shared.len.newsMatchesMarks) ∧
      (take shared (ask 0 .release [0, 1])).len.leases[(0 : RecIx)] = Lease.cleared 2 := by
  refine ⟨⟨⟨⟨fun n => ⟨fun r => ?_, ?_⟩, ?_⟩, ?_, ?_, ?_, ?_⟩, ?_⟩, ?_⟩
  · revert n; cases r <;> decide +kernel
  · revert n; decide +kernel
  · decide +kernel
  · unfold Len.namesUnique; decide +kernel
  · unfold Len.generationsValid; decide +kernel
  · unfold Len.freeRecordsSessionless; decide +kernel
  · unfold Len.keepaliveMatchesState; decide +kernel
  · unfold Len.newsMatchesMarks; decide +kernel
  · decide +kernel

/-- The laws of RQU and the ports hold of the machine after reset with a START to come, which changes a front end. -/
theorem witness_lawsOfThePorts :
    let s : State := { State.reset with pending := [.twpAddress 0xB0] }
    (∃ t, step s = .next t ∧ t.twp.front.state = .receiving) ∧ (s.rqu.attentionDriven ∧ s.rqu.marksStand) ∧
      (∀ p, s.intakeKept p) ∧ s.framesKept :=
  ⟨⟨_, rfl, rfl⟩, Rqu.afterReset_lawful, (State.lawful_views _).2 (State.reset_views rfl (fun p => by cases p <;> rfl) rfl)⟩

end Sys2Proof.Tests
end

/-! SUPPORT. Power-on reset, block by block, and the queries PING, QUERY_SLOT, PROFILE_READ, QUERY_LEASE and QUERY_RESOURCE: how LEN's tables read after it and at the take of a frame. -/

namespace Sys2Proof.Machine

/-! ## LEN after power-on reset -/

theorem Len.afterPor_catalog (r : ResIx) : Len.afterPor.catalog[r] = Entry.vacant 0 :=
  Vector.getElem_replicate _

theorem Len.afterPor_leases (i : RecIx) : Len.afterPor.leases[i] = Lease.cleared 1 :=
  Vector.getElem_replicate _

theorem Len.afterPor_waits (w : WaitIx) : Len.afterPor.waits[w] = none :=
  Vector.getElem_replicate _

theorem Len.afterPor_slots (n : SlotIx) : Len.afterPor.slots[n] = Slot.afterPor n :=
  Vector.getElem_ofFn _

/-- A name is found nowhere in a catalog whose entries are all VACANT (R3). -/
theorem Len.lookup_none_of_vacant {len : Len} (h : ∀ r : ResIx, len.catalog[r].state = .vacant) (name : ResName) :
    len.lookup name = none := by
  unfold Len.lookup
  split
  · rfl
  · rw [find_finRange_none]
    intro r
    simp only [h r, ne_eq, not_true_eq_false, false_and, decide_false]

theorem Len.afterPor_lookup (name : ResName) : Len.afterPor.lookup name = none :=
  Len.lookup_none_of_vacant (fun r => by rw [Len.afterPor_catalog]; rfl) name

/-- Record 0 is the lowest FREE one wherever it is FREE (R22). -/
theorem Len.freeLease_zero {len : Len} (h : len.leases[(0 : RecIx)].state = .free) : len.freeLease? = some 0 :=
  (Len.freeLease_some len 0).2 ⟨h, fun j hj => absurd hj (Fin.not_lt_zero j)⟩

theorem Len.afterPor_freeLease : Len.afterPor.freeLease? = some 0 :=
  Len.freeLease_zero (by rw [Len.afterPor_leases]; rfl)

/-! ## RQU and the ports in reset -/

theorem Rqu.afterReset_port (p : Port) : Rqu.afterReset.port p = RquPort.afterReset := by
  cases p <;> rfl

theorem Rqu.afterReset_slots (n : SlotIx) : Rqu.afterReset.slots[n] = RquSlot.afterReset :=
  Vector.getElem_replicate _

theorem RquSlot.afterReset_tags (g : TagIx) : RquSlot.afterReset.tags[g] = .free :=
  Vector.getElem_replicate _

/-- What POWER_ON_RESET leaves. -/
def State.afterPor (s : State) : State :=
  { s with
    por := true
    len := Len.afterPor
    lck := { Lck.afterPor with tbsel := s.lck.tbsel }
    rqu := Rqu.afterReset
    twp := s.twp.inReset
    fwp := s.fwp.inReset
    paths := Paths.empty }

theorem exec_powerOnReset (s : State) : exec .powerOnReset s = .next s.afterPor := rfl

theorem State.afterPor_front (s : State) (p : Port) : s.afterPor.front p = Front.idle := by
  cases p <;> rfl

theorem State.afterPor_portStatus (s : State) (p : Port) : s.afterPor.portStatus p = PortStatus.inReset := by
  cases p <;> rfl

/-- RQU's record of each port: no frame queued, no claim, no mark (R137). -/
theorem State.afterPor_intake (s : State) (p : Port) :
    (s.afterPor.rqu.port p).queue = [] ∧ (s.afterPor.rqu.port p).claim = false ∧
      (s.afterPor.rqu.port p).freeCount = 4 ∧ (s.afterPor.rqu.port p).mark = none := by
  have h : s.afterPor.rqu.port p = RquPort.afterReset := Rqu.afterReset_port p
  rw [h]
  exact ⟨rfl, rfl, rfl, rfl⟩

/-- RQU's record of each slot: VACANT, its tags FREE, nothing to collect, its attention line released (R137). -/
theorem State.afterPor_rquSlot (s : State) (n : SlotIx) :
    s.afterPor.rqu.slots[n].view = .vacant ∧ (∀ g : TagIx, s.afterPor.rqu.slots[n].tags[g] = .free) ∧
      s.afterPor.rqu.slots[n].completions = [] ∧ s.afterPor.rqu.slots[n].news = false ∧
      s.afterPor.rqu.slots[n].attention = false := by
  have h : s.afterPor.rqu.slots[n] = RquSlot.afterReset := Rqu.afterReset_slots n
  rw [h]
  exact ⟨rfl, RquSlot.afterReset_tags, rfl, rfl, rfl⟩

/-- Each port is idle, with a clear refusal record and no indication (R156, R163). -/
theorem State.afterPor_ports (s : State) (p : Port) :
    s.afterPor.front p = Front.idle ∧ (s.afterPor.portStatus p).record = ⟨.none, 0x00, 0x00⟩ ∧
      (s.afterPor.portStatus p).refusalUnread = false ∧ (s.afterPor.portStatus p).resetIndication = false := by
  rw [State.afterPor_portStatus]
  exact ⟨s.afterPor_front p, rfl, rfl, rfl⟩

/-- Settles O3, block by block. -/
theorem powerOnResetClearsThePart : Obligations.PowerOnResetClearsThePart := by
  intro s
  refine ⟨s.afterPor, exec_powerOnReset s, Len.afterPor_catalog, Len.afterPor_lookup, Len.afterPor_leases,
    Len.afterPor_freeLease, Len.afterPor_waits, ?waitSerial, Len.afterPor_slots,
    ?por, ?configOpen, ?frozen, ?checkOnly, ?copy, ?lastPort, ?clock, ?deadlines, ?paths,
    s.afterPor_intake, s.afterPor_rquSlot, s.afterPor_ports, ?held, ?queryOut, ?sdo⟩
  all_goals rfl

/-! ## Reads at the take

The take of a frame changes the answer mark and the keepalive deadline of the asking slot, and no query answers either. -/

theorem State.lenAfterTake_mayRead (s : State) (p : Port) (f : Frame) (asking named : SlotIx) :
    (s.lenAfterTake p f).mayRead asking named = s.len.mayRead asking named := by
  unfold Len.mayRead
  rw [State.lenAfterTake_profile]

theorem Len.mayRead_iff (len : Len) (asking named : SlotIx) :
    len.mayRead asking named = true ↔ named = asking ∨ len.slots[asking].profile.holds .profile = true := by
  unfold Len.mayRead
  rw [Bool.or_eq_true, decide_eq_true_iff]

theorem slotOperand_eq_none {v : Nat} (h : 7 < v) : slotOperand v = none :=
  dif_neg (Nat.not_lt.2 h)

theorem slotOperand_val (n : SlotIx) : slotOperand n.val = some n := dif_pos n.isLt

/-- The take changes nothing that QUERY_SLOT reports. -/
theorem State.lenAfterTake_slotPayload (s : State) (p : Port) (f : Frame) (n : SlotIx) :
    (s.lenAfterTake p f).slotPayload n = s.len.slotPayload n := by
  unfold Len.slotPayload
  rw [State.lenAfterTake_slot, Len.leaseUse_congr (State.lenAfterTake_leases s p f),
    Len.waitUse_congr (State.lenAfterTake_waits s p f)]
  split <;> rfl

/-- The take changes nothing that PROFILE_READ reports. -/
theorem State.lenAfterTake_profilePayload (s : State) (p : Port) (f : Frame) (n : SlotIx) :
    (s.lenAfterTake p f).profilePayload n = s.len.profilePayload n := by
  unfold Len.profilePayload
  rw [State.lenAfterTake_profile]
  rfl

/-- The four bytes of a ceiling (section 6.1). -/
theorem profileBytes_ceiling (n : SlotIx) : profileBytes (ceiling n) = [if n = 0 then 0x7F else 0x3F, 32, 16, 3] := by
  unfold ceiling
  split <;> rfl

/-- The rights byte of a profile is its rights as a number. -/
theorem profileBytes_eq (x : Profile) :
    profileBytes x =
      [BitVec.ofNat 8 x.rights.toNat, BitVec.ofNat 8 x.leaseQuota, BitVec.ofNat 8 x.waitQuota, BitVec.ofNat 8 x.priority] := by
  unfold profileBytes
  rw [BitVec.ofNat_toNat]

/-- The PROFILE_READ payload, byte by byte (section 11.4). -/
theorem Len.profilePayload_eq (len : Len) (n : SlotIx) :
    len.profilePayload n =
      [BitVec.ofNat 8 len.slots[n].profile.rights.toNat, BitVec.ofNat 8 len.slots[n].profile.leaseQuota,
        BitVec.ofNat 8 len.slots[n].profile.waitQuota, BitVec.ofNat 8 len.slots[n].profile.priority,
        if n = 0 then 0x7F else 0x3F, 32, 16, 3,
        BitVec.ofNat 8 ((if len.frozen then 1 else 0) + (if len.checkOnly then 2 else 0))] := by
  unfold Len.profilePayload
  rw [profileBytes_ceiling, profileBytes_eq]
  rfl

/-- The ticks left to a deadline, 0 once the clock has reached it (R46). -/
theorem ticksLeft_eq (now deadline : Tick) :
    deadline.toNat - now.toNat = if now < deadline then (deadline - now).toNat else 0 := by
  split
  · next h => rw [BitVec.toNat_sub_of_le (BitVec.le_of_lt h)]
  · next h => exact Nat.sub_eq_zero_of_le (Nat.not_lt.1 h)

/-- The QUERY_LEASE payload with the ticks left read from the clock (R46, section 11.4). -/
theorem Len.leasePayload_eq (len : Len) (now : Tick) (i : RecIx) :
    len.leasePayload now i =
      [leaseStateCode len.leases[i].state, modeCode len.leases[i].mode] ++
        natToBytes len.catalog[len.leases[i].resource].name.toNat 2 ++ natToBytes len.leases[i].epoch.toNat 4 ++
        natToBytes
          (if len.leases[i].state = .held ∧ now < len.leases[i].deadline then (len.leases[i].deadline - now).toNat else 0)
          3 ++
        [BitVec.ofNat 8 len.leases[i].renewCount] ++ natToBytes len.leases[i].term 3 := by
  unfold Len.leasePayload
  simp only [ticksLeft_eq, ite_and]

/-! ## The queries -/

theorem exec_ping (s : State) : exec .ping s = .next (s.takeRequest .ping fun f e => e.ping f) := rfl

theorem exec_querySlot (s : State) : exec .querySlot s = .next (s.takeRequest .querySlot fun f e => e.querySlot f) := rfl

theorem exec_profileRead (s : State) : exec .profileRead s = .next (s.takeRequest .profileRead fun f e => e.profileRead f) := rfl

theorem exec_queryLease (s : State) : exec .queryLease s = .next (s.takeRequest .queryLease fun f e => e.queryLease f) := rfl

theorem exec_queryResource (s : State) :
    exec .queryResource s = .next (s.takeRequest .queryResource fun f e => e.queryResource f) := rfl

/-- What QUERY_SLOT and PROFILE_READ share: the slot the first operand byte names is answered with a payload, if the asking slot may read it (R101, R109). -/
def LenEvent.readSlot (e : LenEvent) (f : Frame) (payload : SlotIx → List Byte) : LenEvent :=
  match slotOperand (operandAt f.operands 0 1) with
  | none => e.badOperand f .range 0
  | some n => if e.len.mayRead f.slot n then e.replyWith f .ok (payload n) else e.reply f .denied

theorem LenEvent.querySlot_eq_readSlot (e : LenEvent) (f : Frame) : e.querySlot f = e.readSlot f e.len.slotPayload := rfl

theorem LenEvent.profileRead_eq_readSlot (e : LenEvent) (f : Frame) :
    e.profileRead f = e.readSlot f e.len.profilePayload := rfl

section ReadSlot

variable {e : LenEvent} {f : Frame} {payload : SlotIx → List Byte}

theorem LenEvent.readSlot_range (hv : 7 < operandAt f.operands 0 1) :
    e.readSlot f payload = e.replyWith f .badOperand [0x01, 0x00] := by
  unfold LenEvent.readSlot
  rw [slotOperand_eq_none hv]
  rfl

theorem LenEvent.readSlot_named {n : SlotIx} (hv : operandAt f.operands 0 1 = n.val) :
    e.readSlot f payload =
      if e.len.mayRead f.slot n then e.replyWith f .ok (payload n) else e.replyWith f .denied [] := by
  unfold LenEvent.readSlot
  rw [hv, slotOperand_val]
  rfl

end ReadSlot

/-- The three answers of a request that reads a slot: its operand names none, the asking slot may not read it, or the payload, which the take has not changed. -/
theorem exec_readSlot {s : State} {c : Instr} {k : ReqKind} {p : Port} {f : Frame} (h : s.offersWell k p f)
    {request : Frame → LenEvent → LenEvent} (hc : exec c s = .next (s.takeRequest k request))
    {payload : Len → SlotIx → List Byte} (hr : ∀ e, request f e = e.readSlot f (payload e.len))
    (hp : ∀ n, payload (s.lenAfterTake p f) n = payload s.len n) :
    (7 < operandAt f.operands 0 1 → exec c s = .next (s.afterReply p f .badOperand [0x01, 0x00])) ∧
    ∀ n : SlotIx, operandAt f.operands 0 1 = n.val →
      (¬(n = f.slot ∨ s.len.slots[f.slot].profile.holds .profile = true) →
        exec c s = .next (s.afterReply p f .denied [])) ∧
      (n = f.slot ∨ s.len.slots[f.slot].profile.holds .profile = true →
        exec c s = .next (s.afterReply p f .ok (payload s.len n))) := by
  have reply {st b} (ha : request f (s.takeEvent p f) = (s.takeEvent p f).replyWith f st b) :
      exec c s = .next (s.afterReply p f st b) := by
    rw [hc, State.takeRequest_reply h ha]
  refine ⟨fun hv => reply ((hr _).trans (LenEvent.readSlot_range hv)), fun n hv => ?_⟩
  have hn := (hr (s.takeEvent p f)).trans (LenEvent.readSlot_named hv)
  rw [State.takeEvent_len, State.lenAfterTake_mayRead, hp] at hn
  rw [← Len.mayRead_iff]
  exact ⟨fun hd => reply (hn.trans (if_neg hd)), fun ha => reply (hn.trans (if_pos ha))⟩

/-- PING (R95). -/
theorem exec_ping_offered {s : State} {p : Port} {f : Frame} (h : s.offersWell .ping p f) :
    exec .ping s = .next (s.afterReply p f .ok (natToBytes (s.lck.clock.toNat % 2 ^ 32) 4)) := by
  rw [exec_ping, natToBytes_mod, State.takeRequest_reply h]
  rfl

/-- QUERY_LEASE of a handle that resolves (R46). -/
theorem exec_queryLease_resolved {s : State} {p : Port} {f : Frame} {i : RecIx} (h : s.offersWell .queryLease p f)
    (hi : s.len.resolve f.slot (operandAt f.operands 0 2) = .ok i) :
    exec .queryLease s = .next (s.afterReply p f .ok (s.len.leasePayload s.lck.clock i)) := by
  have hr : (s.takeEvent p f).queryLease f = (s.takeEvent p f).replyWith f .ok (s.len.leasePayload s.lck.clock i) := by
    unfold LenEvent.queryLease
    rw [State.takeEvent_resolve hi]
    rfl
  rw [exec_queryLease, State.takeRequest_reply h hr]

/-- QUERY_RESOURCE answers as the lookup of its name does (R13). -/
theorem exec_queryResource_offered {s : State} {p : Port} {f : Frame} (h : s.offersWell .queryResource p f) :
    (s.len.lookup (nameAt f.operands 0) = none →
      exec .queryResource s = .next (s.afterReply p f .unknownResource [])) ∧
    ∀ r, s.len.lookup (nameAt f.operands 0) = some r →
      exec .queryResource s = .next (s.afterReply p f .ok (s.len.resourcePayload r)) := by
  have hl : (s.takeEvent p f).len.lookup (nameAt f.operands 0) = s.len.lookup (nameAt f.operands 0) :=
    Len.lookup_congr rfl _
  rw [exec_queryResource]
  constructor
  · intro hn
    have hr : (s.takeEvent p f).queryResource f = (s.takeEvent p f).replyWith f .unknownResource [] := by
      unfold LenEvent.queryResource
      rw [hl, hn]
      rfl
    rw [State.takeRequest_reply h hr]
  · intro r hn
    have hr : (s.takeEvent p f).queryResource f = (s.takeEvent p f).replyWith f .ok (s.len.resourcePayload r) := by
      unfold LenEvent.queryResource
      rw [hl, hn]
      rfl
    rw [State.takeRequest_reply h hr]

/-- Settles O20, query by query: each is an answer alone, and the take changes nothing that its payload reads. -/
theorem queriesAnswerTheStateAndChangeNothing : Obligations.QueriesAnswerTheStateAndChangeNothing := by
  refine ⟨fun s p f h => exec_ping_offered h, fun s p f h => ?querySlot, fun s p f h => ?profileRead,
    fun s p f i h hi => ?queryLease, fun s p f h => ?queryResource⟩
  case querySlot =>
    exact exec_readSlot h (exec_querySlot s) (payload := Len.slotPayload) (fun e => e.querySlot_eq_readSlot f)
      (s.lenAfterTake_slotPayload p f)
  case profileRead =>
    have answers := exec_readSlot h (exec_profileRead s) (payload := Len.profilePayload)
      (fun e => e.profileRead_eq_readSlot f) (s.lenAfterTake_profilePayload p f)
    simp only [Len.profilePayload_eq] at answers
    exact answers
  case queryLease =>
    rw [exec_queryLease_resolved h hi, Len.leasePayload_eq]
  case queryResource =>
    exact exec_queryResource_offered h

end Sys2Proof.Machine

/-! SUPPORT. PROFILE_SET: the first of its eleven checks that fails, check by check, and the profile of a target that passes them all. -/

namespace Sys2Proof.Machine

theorem exec_profileSet (s : State) :
    exec .profileSet s = .next (s.takeRequest .profileSet fun f e => e.profileSet f) := rfl

/-! ## Checks 5 to 11: the profile against the ceiling and the use of its slot -/

theorem profileOperands_holds_profile {ops : List Byte} (hz : (operandByte ops 1).toNat < 128) :
    (profileOperands ops).holds .profile = true ↔ 64 ≤ (operandByte ops 1).toNat :=
  rights_six hz

/-- The checks read the counts in use alone, and the take changes none. -/
theorem State.lenAfterTake_profileFault (s : State) (p : Port) (f : Frame) (n : SlotIx) (x : Profile) :
    (s.lenAfterTake p f).profileFault n x = s.len.profileFault n x := by
  unfold Len.profileFault
  rw [Len.leaseUse_congr (State.lenAfterTake_leases s p f), Len.waitUse_congr (State.lenAfterTake_waits s p f)]

section ProfileFault

variable {len : Len} {n : SlotIx} {ops : List Byte}

/-- Check 5: PROFILE is the one right of a rights byte that can be above a ceiling, and only slot 0's holds it. -/
theorem Len.profileFault_rightAboveCeiling (hz : (operandByte ops 1).toNat < 128)
    (hw : ¬(n = 0 ∨ (operandByte ops 1).toNat < 64)) :
    len.profileFault n (profileOperands ops) = some (.aboveCeiling, 2, 6) := by
  have hr : firstRightAbove (profileOperands ops).rights (ceiling n).rights = some 6 :=
    (firstRightAbove_ceiling hz n).trans (if_neg hw)
  unfold Len.profileFault
  simp only [hr]

/-- With its rights within the ceiling, a profile is held to checks 6 to 11. -/
theorem Len.profileFault_of_rightsWithin (hz : (operandByte ops 1).toNat < 128)
    (hw : n = 0 ∨ (operandByte ops 1).toNat < 64) :
    len.profileFault n (profileOperands ops) =
      if n = 0 ∧ (operandByte ops 1).toNat < 64 then some (.selfLockout, 2, 6)
      else if 32 < operandAt ops 2 1 then some (.aboveCeiling, 3, 32)
      else if operandAt ops 2 1 < len.leaseUse n then some (.belowUse, 3, len.leaseUse n)
      else if 16 < operandAt ops 3 1 then some (.aboveCeiling, 4, 16)
      else if operandAt ops 3 1 < len.waitUse n then some (.belowUse, 4, len.waitUse n)
      else if 3 < operandAt ops 4 1 then some (.aboveCeiling, 5, 3)
      else none := by
  have hr : firstRightAbove (profileOperands ops).rights (ceiling n).rights = none :=
    (firstRightAbove_ceiling hz n).trans (if_pos hw)
  have hp : (profileOperands ops).holds .profile = false ↔ (operandByte ops 1).toNat < 64 := by
    rw [← Bool.not_eq_true, profileOperands_holds_profile hz, Nat.not_le]
  unfold Len.profileFault
  simp only [hr, hp]
  rfl

end ProfileFault

/-! ## The request -/

/-- What a PROFILE_SET does once checks 1 to 3 have passed: checks 4 to 11, and the replacement (R110 to R112). -/
def LenEvent.replaceProfile (e : LenEvent) (f : Frame) : LenEvent :=
  match slotOperand (operandAt f.operands 0 1) with
  | none => e.profileRefused f .badSlot 1 (operandAt f.operands 0 1)
  | some n =>
    match e.len.profileFault n (profileOperands f.operands) with
    | some (reason, fieldId, detail) => e.profileRefused f reason fieldId detail
    | none => (e.modSlot n fun x => { x with profile := profileOperands f.operands }).reply f .ok

theorem LenEvent.profileSet_eq (e : LenEvent) (f : Frame) :
    e.profileSet f =
      if e.len.slots[f.slot].profile.holds .profile = false then e.reply f .denied
      else if (operandByte f.operands 1).msb then e.badOperand f .notZero 1
      else if e.len.frozen then e.profileRefused f .frozen 0 0
      else e.replaceProfile f := rfl

section ProfileSet

variable {e : LenEvent} {f : Frame}

/-- Check 1: the asking slot's right. -/
theorem LenEvent.profileSet_denied (hr : ¬e.len.slots[f.slot].profile.holds .profile = true) :
    e.profileSet f = e.replyWith f .denied [] := by
  rw [LenEvent.profileSet_eq, if_pos (Bool.eq_false_of_not_eq_true hr)]
  rfl

/-- Check 2: bit 7 of the rights byte is zero. -/
theorem LenEvent.profileSet_notZero (hr : e.len.slots[f.slot].profile.holds .profile = true)
    (hz : 128 ≤ (operandByte f.operands 1).toNat) :
    e.profileSet f = e.replyWith f .badOperand [0x03, 1] := by
  rw [LenEvent.profileSet_eq, if_neg (Bool.not_eq_false _ ▸ hr), if_pos ((byte_msb_iff _).2 hz)]
  rfl

/-- Check 3, and what is left to do once it passes. -/
theorem LenEvent.profileSet_unlessFrozen (hr : e.len.slots[f.slot].profile.holds .profile = true)
    (hz : (operandByte f.operands 1).toNat < 128) :
    e.profileSet f = if e.len.frozen then e.replyWith f .profileRefused [0x01, 0, 0] else e.replaceProfile f := by
  have hm : ¬(operandByte f.operands 1).msb = true := fun h => Nat.not_le.2 hz ((byte_msb_iff _).1 h)
  rw [LenEvent.profileSet_eq, if_neg (Bool.not_eq_false _ ▸ hr), if_neg hm]
  rfl

/-- Check 4: the target is a slot. -/
theorem LenEvent.replaceProfile_badSlot (hv : 7 < operandAt f.operands 0 1) :
    e.replaceProfile f = e.replyWith f .profileRefused [0x05, 1, BitVec.ofNat 8 (operandAt f.operands 0 1)] := by
  unfold LenEvent.replaceProfile
  rw [slotOperand_eq_none hv]
  rfl

theorem LenEvent.replaceProfile_fault {n : SlotIx} (hv : operandAt f.operands 0 1 = n.val) {reason : ProfileReason}
    {fieldId detail : Nat}
    (hp : e.len.profileFault n (profileOperands f.operands) = some (reason, fieldId, detail)) :
    e.replaceProfile f = e.profileRefused f reason fieldId detail := by
  unfold LenEvent.replaceProfile
  rw [hv, slotOperand_val]
  dsimp only
  rw [hp]

theorem LenEvent.replaceProfile_noFault {n : SlotIx} (hv : operandAt f.operands 0 1 = n.val)
    (hp : e.len.profileFault n (profileOperands f.operands) = none) :
    e.replaceProfile f = (e.modSlot n fun x => { x with profile := profileOperands f.operands }).reply f .ok := by
  unfold LenEvent.replaceProfile
  rw [hv, slotOperand_val]
  dsimp only
  rw [hp]

end ProfileSet

/-! ## The command -/

theorem State.takeEvent_holds (s : State) (p : Port) (f : Frame) (n : SlotIx) (r : Right) :
    (s.takeEvent p f).len.slots[n].profile.holds r = s.len.slots[n].profile.holds r := by
  rw [State.takeEvent_len, State.lenAfterTake_profile]

/-- A frame that passes checks 1 to 3 is performed from checks 4 to 11. -/
theorem State.takeEvent_profileSet {s : State} {p : Port} {f : Frame}
    (hmay : s.len.slots[f.slot].profile.holds .profile = true ∧ (operandByte f.operands 1).toNat < 128 ∧
      s.len.frozen = false) :
    (s.takeEvent p f).profileSet f = (s.takeEvent p f).replaceProfile f := by
  obtain ⟨hr, hz, hf⟩ := hmay
  rw [LenEvent.profileSet_unlessFrozen ((s.takeEvent_holds p f _ _).trans hr) hz, State.takeEvent_len,
    State.lenAfterTake_frozen, hf]
  rfl

section Offered

variable {s : State} {p : Port} {f : Frame} (h : s.offersWell .profileSet p f)

include h

theorem exec_profileSet_reply {st : Status} {b : List Byte}
    (ha : (s.takeEvent p f).profileSet f = (s.takeEvent p f).replyWith f st b) :
    exec .profileSet s = .next (s.afterReply p f st b) := by
  rw [exec_profileSet, State.takeRequest_reply h ha]

section Named

variable {n : SlotIx}
  (hmay : s.len.slots[f.slot].profile.holds .profile = true ∧ (operandByte f.operands 1).toNat < 128 ∧
    s.len.frozen = false)
  (hv : operandAt f.operands 0 1 = n.val)

include hmay hv

/-- A check that fails of 5 to 11 is the answer, as the tables read before the take (R111). -/
theorem exec_profileSet_fault {reason : ProfileReason} {fieldId detail : Nat}
    (hp : s.len.profileFault n (profileOperands f.operands) = some (reason, fieldId, detail)) :
    exec .profileSet s = .next (s.afterReply p f .profileRefused (profileRefusedPayload reason fieldId detail)) :=
  exec_profileSet_reply h <| (State.takeEvent_profileSet hmay).trans <|
    LenEvent.replaceProfile_fault hv ((s.lenAfterTake_profileFault p f n _).trans hp)

/-- A profile that passes every check replaces the target's (R112). -/
theorem exec_profileSet_noFault (hp : s.len.profileFault n (profileOperands f.operands) = none) :
    exec .profileSet s =
      .next (s.afterEvent p
        (((s.lenAfterTake p f).setSlot n
          { (s.lenAfterTake p f).slots[n] with profile := profileOperands f.operands }).answer f.slot f.tag)
        (s.takeRequests f) [.completion f.slot ⟨f.tag, .profileSet, .ok, []⟩]) := by
  have he : (s.takeEvent p f).profileSet f =
      ((s.takeEvent p f).modSlot n fun x => { x with profile := profileOperands f.operands }).reply f .ok :=
    (State.takeEvent_profileSet hmay).trans
      (LenEvent.replaceProfile_noFault hv ((s.lenAfterTake_profileFault p f n _).trans hp))
  have ⟨⟨hf, _⟩, _⟩ := h
  have hk : f.kind = .profileSet := State.frameOf_kind hf
  rw [exec_profileSet, State.takeRequest_event h (by rw [he]; rfl), he, ← hk]
  rfl

end Named

end Offered

/-- Settles O40, check by check in their order: the first that fails answers, and with none the target's profile is replaced. -/
theorem profileSetReplacesTheProfile : Obligations.ProfileSetReplacesTheProfile := by
  intro s p f h
  refine ⟨fun hr => ?denied, fun hr hz => ?notZero, fun hr hz hf => ?frozen, fun hmay hv => ?badSlot, fun n hmay hv => ?_⟩
  case denied => exact exec_profileSet_reply h (LenEvent.profileSet_denied (by rwa [State.takeEvent_holds]))
  case notZero => exact exec_profileSet_reply h (LenEvent.profileSet_notZero ((s.takeEvent_holds p f _ _).trans hr) hz)
  case frozen =>
    exact exec_profileSet_reply h
      ((LenEvent.profileSet_unlessFrozen ((s.takeEvent_holds p f _ _).trans hr) hz).trans (if_pos hf))
  case badSlot =>
    exact exec_profileSet_reply h ((State.takeEvent_profileSet hmay).trans (LenEvent.replaceProfile_badSlot hv))
  have ⟨_, hz, _⟩ := hmay
  refine ⟨fun hw => ?rightAboveCeiling, fun hw h0 hl => ?selfLockout, fun hk hl => ?leaseAboveCeiling,
    fun hk hl hu => ?leaseBelowUse, fun hk hl hu hw => ?waitAboveCeiling, fun hk hl hu hw hq => ?waitBelowUse,
    fun hk hl hu hw hq hp => ?priorityAboveCeiling, fun hk hl hu hw hq hp => ?passes⟩
  case rightAboveCeiling => exact exec_profileSet_fault h hmay hv (Len.profileFault_rightAboveCeiling hz hw)
  case selfLockout =>
    exact exec_profileSet_fault h hmay hv ((Len.profileFault_of_rightsWithin hz hw).trans (if_pos ⟨h0, hl⟩))
  -- Each check from here on fails only where the ones before it have passed.
  all_goals
    obtain ⟨hr, h0⟩ := hk
    have hquotas := (Len.profileFault_of_rightsWithin (len := s.len) hz hr).trans
      (if_neg fun ⟨hn, hlow⟩ => (h0 hn).not_gt hlow)
  case leaseAboveCeiling => exact exec_profileSet_fault h hmay hv (hquotas.trans (if_pos hl))
  all_goals replace hquotas := hquotas.trans (if_neg hl.not_gt)
  case leaseBelowUse => exact exec_profileSet_fault h hmay hv (hquotas.trans (if_pos hu))
  all_goals replace hquotas := hquotas.trans (if_neg hu.not_gt)
  case waitAboveCeiling => exact exec_profileSet_fault h hmay hv (hquotas.trans (if_pos hw))
  all_goals replace hquotas := hquotas.trans (if_neg hw.not_gt)
  case waitBelowUse => exact exec_profileSet_fault h hmay hv (hquotas.trans (if_pos hq))
  all_goals replace hquotas := hquotas.trans (if_neg hq.not_gt)
  case priorityAboveCeiling => exact exec_profileSet_fault h hmay hv (hquotas.trans (if_pos hp))
  case passes => exact exec_profileSet_noFault h hmay hv (hquotas.trans (if_neg hp.not_gt))

end Sys2Proof.Machine

/-! SUPPORT. Frames refused at the take, and the refusal that a port takes: each request but ATTACH is one take, which checks the session and then the operand length. -/

namespace Sys2Proof.Machine

/-! ## The take, kind by kind -/

/-- Every request but ATTACH is taken by the shared take (R127, R128). -/
theorem exec_commandOf {k : ReqKind} (hk : k ≠ .attach) :
    ∃ request, ∀ s, exec (commandOf k) s = .next (s.takeRequest k request) := by
  cases k
  case attach => exact absurd rfl hk
  all_goals exact ⟨_, fun _ => rfl⟩

/-- A refusal at the take adds one record to those on their way to its port, and to no other. -/
theorem State.refuseAtTake_eq (s : State) (p : Port) (reason : RefusalReason) (f : Frame) :
    s.refuseAtTake p reason f =
      { s with
        paths :=
          { s.paths with
            twpRefusals :=
              if p = .twp then s.paths.twpRefusals ++ [⟨reason, frameLead f, frameTagKind f⟩] else s.paths.twpRefusals
            fwpRefusals :=
              if p = .fwp then s.paths.fwpRefusals ++ [⟨reason, frameLead f, frameTagKind f⟩]
              else s.paths.fwpRefusals } } := by
  cases p <;> rfl

section Taken

variable {s : State} {k : ReqKind} {p : Port} {f : Frame}

/-- A frame whose session is not in force is refused and not performed (R127). -/
theorem State.takeRequest_stale (hf : s.frameOf k = some (p, f)) (hl : s.len.live f = false)
    (request : Frame → LenEvent → LenEvent) :
    s.takeRequest k request = (s.popFrame p).refuseAtTake p .staleSession f := by
  have hl' : (s.popFrame p).len.live f = false := hl
  unfold State.takeRequest
  rw [hf]
  simp only [hl', Bool.false_eq_true, if_false]

/-- Of a live frame of the wrong operand length only the take and the answer are performed, whatever its request (R164). -/
theorem State.takeRequest_badLength (h : s.offers k p f) (hlen : f.operands.length ∉ operandLengths k)
    (request : Frame → LenEvent → LenEvent) :
    s.takeRequest k request = s.afterReply p f .badOperand (badOperandPayload .length f.operands.length) := by
  obtain ⟨hf, hl⟩ := h
  have hl' : (s.popFrame p).len.live f = true := hl
  rw [← State.frameOf_kind hf] at hlen
  unfold State.takeRequest
  rw [hf]
  simp only [hl', if_true]
  rw [State.runLen_popFrame, State.performFrame_badLength s p f (request f) hlen]
  exact s.finishTake_reply p f _ _

/-- An ATTACH whose operand length is not 2 is refused, whatever the slot's state (R165). -/
theorem exec_attach_badLength (hf : s.frameOf .attach = some (p, f)) (hlen : f.operands.length ≠ 2) :
    exec .attach s = .next ((s.popFrame p).refuseAtTake p .badLength f) := by
  have hlen' : f.operands.length ∉ operandLengths .attach := fun h => hlen (List.mem_singleton.1 h)
  simp only [exec, execAttach, hf, hlen', if_false]

/-- The two refusals at the take, by kind (R127, R165). -/
theorem exec_commandOf_refused {reason : RefusalReason} (hf : s.frameOf k = some (p, f))
    (hr : k = .attach ∧ f.operands.length ≠ 2 ∧ reason = .badLength ∨
      k ≠ .attach ∧ s.len.live f = false ∧ reason = .staleSession) :
    exec (commandOf k) s = .next ((s.popFrame p).refuseAtTake p reason f) := by
  obtain ⟨rfl, hlen, rfl⟩ | ⟨hk, hl, rfl⟩ := hr
  · exact exec_attach_badLength hf hlen
  · obtain ⟨request, hc⟩ := exec_commandOf hk
    rw [hc, State.takeRequest_stale hf hl]

/-- R164 for every kind but ATTACH. -/
theorem exec_commandOf_badLength (hk : k ≠ .attach) (h : s.offers k p f)
    (hlen : f.operands.length ∉ operandLengths k) :
    exec (commandOf k) s =
      .next (s.afterReply p f .badOperand (badOperandPayload .length f.operands.length)) := by
  obtain ⟨request, hc⟩ := exec_commandOf hk
  rw [hc, State.takeRequest_badLength h hlen]

end Taken

/-! ## The port takes its refusal -/

section Refusal

variable {s : State} {r : RefusalRecord} {rest : List RefusalRecord}

/-- TWP writes the oldest refusal sent to it (R123). -/
theorem exec_takeTimeRefusal_twp (h : s.paths.twpRefusals = r :: rest) :
    exec (.takeTimeRefusal .twp) s =
      .next (({ s with paths := { s.paths with twpRefusals := rest } } : State).writeRefusal .twp r) := by
  simp only [exec, execTakeTimeRefusal, h]

/-- FWP writes the oldest refusal sent to it (R123). -/
theorem exec_takeTimeRefusal_fwp (h : s.paths.fwpRefusals = r :: rest) :
    exec (.takeTimeRefusal .fwp) s =
      .next (({ s with paths := { s.paths with fwpRefusals := rest } } : State).writeRefusal .fwp r) := by
  simp only [exec, execTakeTimeRefusal, h]

end Refusal

/-- Settles O19: the refusals at the take, the wrong length of a live frame, and the refusal each port takes. -/
theorem framesRefusedAtTheTake : Obligations.FramesRefusedAtTheTake := by
  refine ⟨fun s k p f reason hf hr => ?refused, fun s k p f hk h hlen => ?badLength,
    fun s r rest => ⟨fun h => ?twp, fun h => ?fwp⟩⟩
  case refused =>
    rw [exec_commandOf_refused hf hr, State.refuseAtTake_eq]
    rfl
  case badLength => exact exec_commandOf_badLength hk h hlen
  case twp => exact exec_takeTimeRefusal_twp h
  case fwp => exact exec_takeTimeRefusal_fwp h

end Sys2Proof.Machine

/-! SUPPORT. Runs and their laws: what one step does, the laws that every step keeps, and that they hold at reset. -/

namespace Sys2Proof.Machine

/-! ## One step -/

theorem step_cons {s : State} {c : Instr} {rest : List Instr} (h : s.pending = c :: rest) :
    step s = exec c { s with pending := rest } := by
  simp only [step, h]

theorem step_nil {s : State} (h : s.pending = []) : step s = .next s := by
  simp only [step, h]

/-- Settles O1: the two cases of the queue. -/
theorem stepPerformsTheCommandAtTheFront : Obligations.StepPerformsTheCommandAtTheFront :=
  fun _ => ⟨fun _ _ => step_cons, step_nil⟩

/-- Settles O2, with the support lemma on every command. -/
theorem everyCommandAnswersANextState : Obligations.EveryCommandAnswersANextState := exec_next

/-- A command answers one state. -/
theorem exec_unique {c : Instr} {s t : State} (h : exec c s = .next t) {P : State → Prop}
    (hc : ∃ u, exec c s = .next u ∧ P u) : P t := by
  obtain ⟨u, hu, hP⟩ := hc
  rw [hu] at h
  cases h
  exact hP

/-- A law that does not read the queue of commands, and that every command keeps, is one that every step keeps. -/
theorem step_keeps {P : State → Prop} (hq : ∀ s rest, P s → P { s with pending := rest })
    (hx : ∀ c s, P s → ∃ t, exec c s = .next t ∧ P t) {s t : State} (hs : P s) (h : step s = .next t) : P t := by
  cases hp : s.pending with
  | nil =>
    rw [step_nil hp] at h
    cases h
    exact hs
  | cons c rest =>
    rw [step_cons hp] at h
    exact exec_unique h (hx c _ (hq s rest hs))

/-! ## LCK -/

/-- Settles O9: no command disturbs the order of the deadline list. -/
theorem theDeadlineListStaysOrdered : Obligations.TheDeadlineListStaysOrdered := fun _ _ =>
  step_keeps (P := fun s => s.lck.ordered) (fun _ _ => id) fun c s hs =>
    let ⟨t, ht, ho, _⟩ := exec_lck c s
    ⟨t, ht, ho hs⟩

/-- Settles O10: the clock by what each command does to LCK, the epochs by what each does to the catalog. -/
theorem clockAndEpochsNeverGoBack : Obligations.ClockAndEpochsNeverGoBack := by
  intro c s t h hc
  constructor
  · have ⟨_, hk⟩ := exec_unique h (exec_lck c s)
    exact hk.resolve_left hc
  · exact exec_unique h (exec_ages c s hc)

/-! ## The agreement of the tables -/

/-- Settles O57: every command keeps the agreement. -/
theorem everyStepKeepsTheTablesInAgreement : Obligations.EveryStepKeepsTheTablesInAgreement := fun _ _ =>
  step_keeps (P := fun s => s.len.agrees) (fun _ _ => id) exec_agrees

/-! ## LEN after a pin reset, place by place -/

theorem Len.afterPinReset_catalog (len : Len) (r : ResIx) : len.afterPinReset.catalog[r] = len.catalog[r].afterPinReset :=
  Vector.getElem_map _ _

theorem Len.afterPinReset_leases (len : Len) (i : RecIx) : len.afterPinReset.leases[i] = len.leases[i].afterPinReset :=
  Vector.getElem_map _ _

theorem Len.afterPinReset_waits (len : Len) (w : WaitIx) : len.afterPinReset.waits[w] = none :=
  Vector.getElem_replicate _

theorem Len.afterPinReset_slots (len : Len) (n : SlotIx) : len.afterPinReset.slots[n] = len.slots[n].afterPinReset :=
  Vector.getElem_map _ _

theorem Lease.afterPinReset_free {l : Lease} (h : l.state = .free) : l.afterPinReset = { l with changeMark := false } := by
  simp only [Lease.afterPinReset, h]

theorem Lease.afterPinReset_used {l : Lease} (h : l.state ≠ .free) :
    l.afterPinReset = Lease.cleared (nextGeneration l.generation) := by
  unfold Lease.afterPinReset
  split
  · next h' => exact absurd h' h
  · rfl

@[simp] theorem Lease.afterPinReset_state (l : Lease) : l.afterPinReset.state = .free := by
  by_cases h : l.state = .free
  · rw [Lease.afterPinReset_free h]; exact h
  · rw [Lease.afterPinReset_used h]; rfl

@[simp] theorem Lease.afterPinReset_changeMark (l : Lease) : l.afterPinReset.changeMark = false := by
  by_cases h : l.state = .free
  · rw [Lease.afterPinReset_free h]
  · rw [Lease.afterPinReset_used h]; rfl

theorem Slot.afterPinReset_active {x : Slot} (h : x.state = .active) :
    x.afterPinReset =
      { x with
        state := .lost, endCause := .reset, keepaliveDeadline := none, answered := Vector.replicate 8 false,
        news := false } := by
  simp only [Slot.afterPinReset, h]

theorem Slot.afterPinReset_other {x : Slot} (h : x.state ≠ .active) :
    x.afterPinReset = { x with answered := Vector.replicate 8 false, news := false } := by
  unfold Slot.afterPinReset
  dsimp only
  split
  · next h' => exact absurd h' h
  · rfl

@[simp] theorem Slot.afterPinReset_profile (x : Slot) : x.afterPinReset.profile = x.profile := by
  by_cases h : x.state = .active
  · rw [Slot.afterPinReset_active h]
  · rw [Slot.afterPinReset_other h]

@[simp] theorem Slot.afterPinReset_news (x : Slot) : x.afterPinReset.news = false := by
  by_cases h : x.state = .active
  · rw [Slot.afterPinReset_active h]
  · rw [Slot.afterPinReset_other h]

/-- A slot is not ACTIVE after a pin reset, and has no keepalive deadline if it had one only while ACTIVE. -/
theorem Slot.afterPinReset_keepalive {x : Slot} (h : x.keepaliveDeadline.isSome = true ↔ x.state = .active) :
    x.afterPinReset.keepaliveDeadline.isSome = true ↔ x.afterPinReset.state = .active := by
  by_cases hx : x.state = .active
  · rw [Slot.afterPinReset_active hx]; simp
  · rw [Slot.afterPinReset_other hx]; exact h

theorem Entry.afterPinReset_opened {en : Entry} (h : en.state = .opened) :
    en.afterPinReset = { en with holderMode := .none, holderCount := 0, queue := [], upgradePending := false } := by
  simp only [Entry.afterPinReset, h]

theorem Entry.afterPinReset_closed {en : Entry} (h : en.state ≠ .opened) : en.afterPinReset = Entry.vacant en.epoch := by
  unfold Entry.afterPinReset
  split
  · next h' => exact absurd h' h
  · rfl
  · rfl

/-! ## The laws of LEN -/

/-- LEN's laws do not read the news. -/
theorem Len.lawful_withNews {a b : Len} (h : a.lawful) : (a.withNews b).lawful := by
  obtain ⟨⟨hp, h0⟩, hn, hg, hf, hk⟩ := h
  refine ⟨⟨fun n => ?_, ?_⟩, hn, hg, hf, fun n => ?_⟩
  · rw [Len.withNews_slot]; exact hp n
  · rw [Len.withNews_slot]; exact h0
  · rw [Len.withNews_slot]; exact hk n

/-- An event that keeps LEN's news, and brings it up to date at its end, leaves it as the marks say (R24). -/
theorem Len.newsMatchesMarks_withNews {a b : Len} (h : a.newsMatchesMarks)
    (hn : ∀ n : SlotIx, b.slots[n].news = a.slots[n].news) : (b.withNews a).newsMatchesMarks := by
  intro n
  rw [Len.withNews_slot, Len.marked_congr (Len.withNews_leases b a)]
  by_cases hm : a.marked n = b.marked n
  · rw [if_pos hm, hn n, h n, hm]
  · rw [if_neg hm]

/-- Without a change mark no slot has news. -/
theorem Len.marked_none {len : Len} (h : ∀ i : RecIx, len.leases[i].changeMark = false) (n : SlotIx) :
    len.marked n = false := by
  rw [← Bool.not_eq_true, Len.marked_iff]
  rintro ⟨i, hi, _⟩
  rw [h i] at hi
  cases hi

theorem Len.afterPinReset_lawful {len : Len} (h : len.lawful) : len.afterPinReset.lawful := by
  obtain ⟨⟨hp, h0⟩, hn, hg, hf, hk⟩ := h
  refine ⟨⟨fun n => ?_, ?_⟩, hn.of_kept fun r hr => ?_, fun i => ?_, fun i _ => ?_, fun n => ?_⟩
  · rw [Len.afterPinReset_slots, Slot.afterPinReset_profile]; exact hp n
  · rw [Len.afterPinReset_slots, Slot.afterPinReset_profile]; exact h0
  · rw [Len.afterPinReset_catalog] at hr ⊢
    by_cases ho : len.catalog[r].state = .opened
    · rw [Entry.afterPinReset_opened ho] at hr ⊢
      exact ⟨hr, rfl⟩
    · rw [Entry.afterPinReset_closed ho] at hr
      exact absurd rfl hr
  · rw [Len.afterPinReset_leases]
    by_cases hi : len.leases[i].state = .free
    · rw [Lease.afterPinReset_free hi]; exact hg i
    · rw [Lease.afterPinReset_used hi]; exact nextGeneration_ne_zero _
  · rw [Len.afterPinReset_leases]
    by_cases hi : len.leases[i].state = .free
    · rw [Lease.afterPinReset_free hi]; exact hf i hi
    · rw [Lease.afterPinReset_used hi]; rfl
  · rw [Len.afterPinReset_slots]; exact Slot.afterPinReset_keepalive (hk n)

theorem Len.afterPinReset_newsMatchesMarks (len : Len) : len.afterPinReset.newsMatchesMarks := by
  intro n
  rw [Len.afterPinReset_slots, Slot.afterPinReset_news, Len.marked_none]
  intro i
  rw [Len.afterPinReset_leases, Lease.afterPinReset_changeMark]

theorem Len.afterPor_lawful : Len.afterPor.lawful := by
  refine ⟨⟨fun n => ?_, ?_⟩, ⟨fun a _ ha => ?_, fun a ha => ?_⟩, fun i => ?_, fun i _ => ?_, fun n => ?_⟩
  · rw [Len.afterPor_slots]; exact ceiling_within n
  · rw [Len.afterPor_slots]; rfl
  · rw [Len.afterPor_catalog] at ha; exact absurd rfl ha
  · rw [Len.afterPor_catalog] at ha; exact absurd rfl ha
  · rw [Len.afterPor_leases]; decide
  · rw [Len.afterPor_leases]; rfl
  · rw [Len.afterPor_slots]; simp [Slot.afterPor]

theorem Len.afterPor_newsMatchesMarks : Len.afterPor.newsMatchesMarks := by
  intro n
  rw [Len.afterPor_slots, Len.marked_none]
  · rfl
  · intro i
    rw [Len.afterPor_leases]
    rfl

theorem exec_lawful (c : Instr) (s : State) (h : s.len.lawful) : ∃ t, exec c s = .next t ∧ t.len.lawful := by
  by_cases h1 : c = .powerOnReset
  · subst h1; exact ⟨_, rfl, Len.afterPor_lawful⟩
  by_cases h2 : c = .pinReset
  · subst h2; exact ⟨_, rfl, Len.afterPinReset_lawful h⟩
  obtain ⟨t, ht, m, hm, htm⟩ := exec_lenKeeps c s h1 h2
  exact ⟨t, ht, htm ▸ Len.lawful_withNews (hm.lawful h)⟩

theorem exec_newsMatchesMarks (c : Instr) (s : State) (h : s.len.newsMatchesMarks) :
    ∃ t, exec c s = .next t ∧ t.len.newsMatchesMarks := by
  by_cases h1 : c = .powerOnReset
  · subst h1; exact ⟨_, rfl, Len.afterPor_newsMatchesMarks⟩
  by_cases h2 : c = .pinReset
  · subst h2; exact ⟨_, rfl, s.len.afterPinReset_newsMatchesMarks⟩
  obtain ⟨t, ht, m, hm, htm⟩ := exec_lenKeeps c s h1 h2
  exact ⟨t, ht, htm ▸ Len.newsMatchesMarks_withNews h hm.news⟩

/-- Settles O58: the two laws, each kept by every command. -/
theorem everyStepKeepsTheLawsOfLen : Obligations.EveryStepKeepsTheLawsOfLen := fun _ _ h =>
  ⟨fun hs => step_keeps (P := fun s => s.len.lawful) (fun _ _ => id) exec_lawful hs h,
    fun hs => step_keeps (P := fun s => s.len.newsMatchesMarks) (fun _ _ => id) exec_newsMatchesMarks hs h⟩

/-- Settles O42: no event of LEN undoes a freeze, and a pin reset keeps it. -/
theorem aFreezeStandsUntilPowerOnReset : Obligations.AFreezeStandsUntilPowerOnReset := by
  intro c s t hs hc h
  by_cases hp : c = .pinReset
  · subst hp
    cases h
    exact ⟨hs, rfl, fun n => by rw [Len.afterPinReset_slots, Slot.afterPinReset_profile]⟩
  · obtain ⟨m, hm, htm⟩ := exec_unique h (exec_lenKeeps c s hc hp)
    obtain ⟨hf, ho, hpr⟩ := hm.frozen hs
    rw [htm]
    exact ⟨hf, ho, fun n => by rw [Len.withNews_slot]; exact hpr n⟩

/-! ## The laws of RQU and the ports -/

theorem exec_portsLawful (c : Instr) (s : State) (h : (∀ p, s.intakeKept p) ∧ s.framesKept) :
    ∃ t, exec c s = .next t ∧ (∀ p, t.intakeKept p) ∧ t.framesKept :=
  let ⟨t, ht, hv⟩ := exec_views c s ((State.lawful_views s).1 h)
  ⟨t, ht, (State.lawful_views t).2 hv⟩

/-- Settles O59: the laws of RQU and those of the ports, each kept by every command. -/
theorem everyStepKeepsTheLawsOfRquAndThePorts : Obligations.EveryStepKeepsTheLawsOfRquAndThePorts := fun _ _ h =>
  ⟨fun hs => step_keeps (P := fun s => s.rqu.lawful) (fun _ _ => id) exec_rquLawful hs h,
    fun hs => step_keeps (P := fun s => (∀ p, s.intakeKept p) ∧ s.framesKept) (fun _ _ => id) exec_portsLawful hs h⟩

/-- Settles O60, law by law. -/
theorem theLawsHoldAtReset : Obligations.TheLawsHoldAtReset := by
  have hviews : ∀ p, (State.reset.view p).Lawful p := State.reset_views rfl (fun p => by cases p <;> rfl) rfl
  obtain ⟨hdriven, hmarks⟩ := Rqu.afterReset_lawful
  obtain ⟨hintake, hframes⟩ := (State.lawful_views State.reset).2 hviews
  exact ⟨Len.afterPor_agrees, Len.afterPor_lawful, Len.afterPor_newsMatchesMarks, List.Pairwise.nil, hdriven, hmarks,
    hintake, hframes⟩

end Sys2Proof.Machine

/-! SUPPORT. Pin reset and the releases of both resets, place by place. -/

namespace Sys2Proof.Machine

/-- What PIN_RESET leaves. -/
def State.afterPinReset (s : State) : State :=
  { s with
    rstnLow := true
    len := s.len.afterPinReset
    lck := { s.lck with deadlines := [], tickOpen := false }
    rqu := Rqu.afterReset
    twp := s.twp.inReset
    fwp := s.fwp.inReset
    paths := Paths.empty }

theorem exec_pinReset (s : State) : exec .pinReset s = .next s.afterPinReset := rfl

/-- With every record FREE no handle resolves (R20). -/
theorem Len.resolve_of_free {len : Len} (h : ∀ i : RecIx, len.leases[i].state = .free) (n : SlotIx) (handle : Nat) :
    len.resolve n handle = .error .unknownLease := by
  unfold Len.resolve
  simp only [h, reduceCtorEq, or_self, false_and, if_false]

theorem State.afterPinReset_port (s : State) (p : Port) : s.afterPinReset.rqu.port p = RquPort.afterReset :=
  Rqu.afterReset_port p

/-- RQU's record of each slot after a pin reset is the one after power-on reset (R138). -/
theorem State.afterPinReset_rquSlot (s : State) (n : SlotIx) :
    s.afterPinReset.rqu.slots[n].view = .vacant ∧ (∀ g : TagIx, s.afterPinReset.rqu.slots[n].tags[g] = .free) ∧
      s.afterPinReset.rqu.slots[n].completions = [] ∧ s.afterPinReset.rqu.slots[n].news = false ∧
      s.afterPinReset.rqu.slots[n].attention = false :=
  s.afterPor_rquSlot n

/-- The front ends and status items after a pin reset are those after power-on reset (R156, R163). -/
theorem State.afterPinReset_ports (s : State) (p : Port) :
    s.afterPinReset.front p = Front.idle ∧ (s.afterPinReset.portStatus p).record = ⟨.none, 0x00, 0x00⟩ ∧
      (s.afterPinReset.portStatus p).refusalUnread = false ∧
      (s.afterPinReset.portStatus p).resetIndication = false := by
  have hf : s.afterPinReset.front p = s.afterPor.front p := by cases p <;> rfl
  have hs : s.afterPinReset.portStatus p = s.afterPor.portStatus p := by cases p <;> rfl
  rw [hf, hs]
  exact s.afterPor_ports p

/-- Settles O4, block by block. -/
theorem pinResetKeepsTheCatalogAndFreesTheRest : Obligations.PinResetKeepsTheCatalogAndFreesTheRest := by
  intro s
  have hfree : ∀ i : RecIx, s.afterPinReset.len.leases[i].state = .free := fun i =>
    (congrArg Lease.state (s.len.afterPinReset_leases i)).trans (Lease.afterPinReset_state _)
  refine ⟨s.afterPinReset, exec_pinReset s,
    fun r hr => (s.len.afterPinReset_catalog r).trans (Entry.afterPinReset_opened hr),
    fun r hr => (s.len.afterPinReset_catalog r).trans (Entry.afterPinReset_closed hr),
    fun i hi => (s.len.afterPinReset_leases i).trans (Lease.afterPinReset_free hi),
    fun i hi => (s.len.afterPinReset_leases i).trans (Lease.afterPinReset_used hi),
    Len.resolve_of_free hfree, s.len.afterPinReset_waits, ?waitSerial,
    fun n hn => (s.len.afterPinReset_slots n).trans (Slot.afterPinReset_active hn),
    fun n hn => (s.len.afterPinReset_slots n).trans (Slot.afterPinReset_other hn),
    ?rstn, ?configOpen, ?frozen, ?checkOnly, ?copy, ?lastPort, ?clock, ?deadlines, ?paths,
    fun p => ?intake, s.afterPinReset_rquSlot, s.afterPinReset_ports, ?held, ?queryOut, ?sdo⟩
  case intake =>
    rw [s.afterPinReset_port p]
    exact ⟨rfl, rfl, rfl⟩
  all_goals rfl

theorem exec_porRelease (s : State) (tbsel : Bool) (adr : Fin 4) :
    exec (.porRelease tbsel adr) s = .next (if s.por then { s.releaseReset tbsel adr with por := false } else s) := rfl

theorem exec_pinResetRelease (s : State) (tbsel : Bool) (adr : Fin 4) :
    exec (.pinResetRelease tbsel adr) s =
      .next
        (if s.rstnLow then
          if s.por then { s with rstnLow := false }
          else { (s.releaseReset tbsel adr).sendReleaseReports with rstnLow := false }
        else s) := rfl

/-- Settles O5: each release acts on the level it ends. -/
theorem resetsAreReleased : Obligations.ResetsAreReleased := by
  refine ⟨fun s tbsel adr hp => ?por, fun s tbsel adr hr => ⟨fun hp => ?pin, fun hp => ?both⟩⟩
  case por =>
    rw [exec_porRelease, if_pos hp]
    rfl
  case pin =>
    rw [exec_pinResetRelease, if_pos hr, if_neg (Bool.not_eq_true _ ▸ hp)]
    rfl
  case both => rw [exec_pinResetRelease, if_pos hr, if_pos hp]

end Sys2Proof.Machine

/-! SUPPORT. The lease clock: deadlines and their bound, ticks with the expiries they send, and the inserts and removals of the deadline list. -/

namespace Sys2Proof.Machine

/-! ## Deadlines -/

theorem deadlineAfter_toNat (now : Tick) (ticks : Nat) :
    (deadlineAfter now ticks).toNat = min (now.toNat + ticks) 0xFFFFFFFFFFFF := by
  unfold deadlineAfter
  rw [BitVec.toNat_ofNat]
  exact Nat.mod_eq_of_lt (by omega)

/-- Settles O7, from the deadline as a number. -/
theorem aDeadlineIsTheClockPlusTheTicksOrTheLastValue :
    Obligations.ADeadlineIsTheClockPlusTheTicksOrTheLastValue := by
  intro now ticks
  have hd := deadlineAfter_toNat now ticks
  refine ⟨fun h => ?within, fun h => ?above, fun h1 h2 => ?later, fun h => ?last⟩
  case within => omega
  case above => exact BitVec.eq_of_toNat_eq (hd.trans (by rw [Nat.min_eq_right h.le]; rfl))
  case later =>
    rw [BitVec.lt_def] at h2 ⊢
    have : (0xFFFFFFFFFFFF : Tick).toNat = 0xFFFFFFFFFFFF := rfl
    omega
  case last =>
    subst h
    exact BitVec.eq_of_toNat_eq (hd.trans (Nat.min_eq_right (Nat.le_add_right _ _)))

/-! ## Ticks -/

theorem Lck.selects_iff (k : Lck) (source : TickSource) : k.selects source = true ↔ (source = .tbi ↔ k.tbsel = true) := by
  cases source <;> simp [Lck.selects]

theorem Lck.headDue_iff (k : Lck) (ds : List Deadline) :
    k.headDue ds = true ↔ ∃ d rest, ds = d :: rest ∧ d.deadline ≤ k.clock := by
  cases ds <;> simp [Lck.headDue, Lck.due]

/-- The end of the tick in progress, with or without one. -/
theorem State.finishTick_eq (s : State) :
    s.finishTick =
      { s with
        lck :=
          { s.lck with
            deadlines := if s.lck.tickOpen then s.lck.deadlines.dropWhile s.lck.due else s.lck.deadlines
            tickOpen := false }
        paths :=
          { s.paths with
            lckToLen := s.paths.lckToLen ++ if s.lck.tickOpen then s.lck.deadlines.takeWhile s.lck.due else [] } } := by
  unfold State.finishTick
  split
  · rfl
  · next h =>
    rw [List.append_nil, ← Bool.eq_false_of_not_eq_true h]

/-- TICK of the selected source, outside reset (R74, R75). -/
theorem exec_tick_counted {s : State} {source : TickSource} (hr : s.inReset = false) (hs : s.lck.selects source = true) :
    exec (.tick source) s = .next { s.finishTick with lck := s.finishTick.lck.count } := by
  simp only [exec, execTick, hr, hs, Bool.not_true, Bool.or_self, Bool.false_eq_true, if_false]

/-- A tick in reset, or of the source not selected, changes nothing (R74). -/
theorem exec_tick_ignored {s : State} {source : TickSource} (h : s.inReset = true ∨ ¬s.lck.selects source = true) :
    exec (.tick source) s = .next s := by
  have hc : (s.inReset || !s.lck.selects source) = true := by simpa using h
  simp only [exec, execTick, hc, if_true]

/-- The head of the list, if it is due in an open tick, leaves it and its expiry is sent (R81). -/
theorem exec_deadlineExpiry_due {s : State} {d : Deadline} {ds : List Deadline} (ho : s.lck.tickOpen = true)
    (hd : s.lck.deadlines = d :: ds) (hdue : s.lck.due d = true) :
    exec .deadlineExpiry s =
      .next
        { s with
          lck := { s.lck with deadlines := ds, tickOpen := s.lck.headDue ds }
          paths := { s.paths with lckToLen := s.paths.lckToLen ++ [d] } } := by
  simp only [exec, execDeadlineExpiry, ho, hd, hdue, if_true]

/-- Without a due head the tick ends (R81). -/
theorem exec_deadlineExpiry_ends {s : State} (ho : s.lck.tickOpen = true) (hd : s.lck.headDue s.lck.deadlines = false) :
    exec .deadlineExpiry s = .next { s with lck := { s.lck with tickOpen := false } } := by
  unfold Lck.headDue at hd
  simp only [exec, execDeadlineExpiry, ho, if_true]
  split at hd
  · next h => simp only [h]
  · next d ds h => simp only [h, hd, Bool.false_eq_true, if_false]

/-- One DEADLINE_EXPIRY for each due entry sends them all, in list order, and ends the tick (R81). -/
theorem State.after_expiries {due : Deadline → Bool} (ds : List Deadline) (s : State) (hdue : s.lck.due = due)
    (hd : s.lck.deadlines = ds) (ho : s.lck.tickOpen = s.lck.headDue ds) :
    s.after (List.replicate (ds.takeWhile due).length .deadlineExpiry) =
      some
        { s with
          lck := { s.lck with deadlines := ds.dropWhile due, tickOpen := false }
          paths := { s.paths with lckToLen := s.paths.lckToLen ++ ds.takeWhile due } } := by
  induction ds generalizing s with
  | nil =>
    change s.lck.tickOpen = false at ho
    simp only [List.takeWhile_nil, List.dropWhile_nil, List.length_nil, List.replicate_zero, List.append_nil]
    rw [← hd, ← ho]
    rfl
  | cons d ds ih =>
    cases hdd : due d
    case true =>
      have hhead : s.lck.due d = true := (congrFun hdue d).trans hdd
      rw [List.takeWhile_cons_of_pos hdd, List.dropWhile_cons_of_pos hdd, List.length_cons, List.replicate_succ]
      unfold State.after
      rw [exec_deadlineExpiry_due (ho.trans hhead) hd hhead]
      refine (ih _ ?_ ?_ ?_).trans ?_
      · exact hdue
      · rfl
      · rfl
      · simp only [List.append_assoc, List.singleton_append]
    case false =>
      have hclosed : s.lck.tickOpen = false := ho.trans ((congrFun hdue d).trans hdd)
      rw [List.takeWhile_cons_of_neg (Bool.not_eq_true _ ▸ hdd), List.dropWhile_cons_of_neg (Bool.not_eq_true _ ▸ hdd),
        List.length_nil, List.replicate_zero, List.append_nil, ← hd, ← hclosed]
      rfl

/-- Settles O6: the tick, the expiry of a due head, and the whole tick by induction on the list. -/
theorem aTickRaisesTheClockAndSendsWhatIsDue : Obligations.ATickRaisesTheClockAndSendsWhatIsDue := by
  refine ⟨fun s source => ⟨fun hr hs => ?counted, fun h => ?ignored⟩,
    fun s ho => ⟨fun d ds hd hdue => ?due, fun hd => ?ends⟩, fun s source hr hs ho => ?whole⟩
  case counted =>
    rw [exec_tick_counted hr ((Lck.selects_iff _ _).2 hs), State.finishTick_eq]
    rfl
  case ignored =>
    rw [← Lck.selects_iff] at h
    exact exec_tick_ignored h
  case due =>
    refine ⟨_, exec_deadlineExpiry_due ho hd (decide_eq_true hdue), rfl, rfl, rfl, ?_, rfl, rfl, rfl, rfl, rfl⟩
    exact Lck.headDue_iff _ _
  case ends =>
    refine exec_deadlineExpiry_ends ho ?_
    rw [← Bool.not_eq_true, Lck.headDue_iff]
    rintro ⟨d, ds, he, hle⟩
    exact (BitVec.not_le.2 (hd d ds he)) hle
  case whole =>
    intro clock due
    have htick := exec_tick_counted hr ((Lck.selects_iff s.lck source).2 hs)
    rw [State.finishTick_eq] at htick
    simp only [ho, Bool.false_eq_true, if_false, List.append_nil] at htick
    have hrest := State.after_expiries s.lck.deadlines { s with lck := ({ s.lck with tickOpen := false } : Lck).count }
      rfl rfl rfl
    refine ⟨_, by simp only [State.after, htick]; exact hrest, rfl, rfl, rfl, rfl, fun d ds hd => ?_⟩
    have hnot : ¬decide (d.deadline ≤ clock) = true := by
      have := List.head?_dropWhile_not (fun d : Deadline => decide (d.deadline ≤ clock)) s.lck.deadlines
      rw [show s.lck.deadlines.dropWhile (fun d => decide (d.deadline ≤ clock)) = d :: ds from hd] at this
      simpa using this
    exact BitVec.not_le.1 (mt decide_eq_true hnot)

/-! ## Inserts and removals -/

/-- Where an insert is placed in an ordered list: after what is due no later, before what is due later (R78). -/
theorem insertDeadlineSorted_split (d : Deadline) {l : List Deadline} (h : l.Pairwise fun a b => a.deadline ≤ b.deadline) :
    ∃ before behind, l = before ++ behind ∧ insertDeadlineSorted d l = before ++ d :: behind ∧
      (∀ x ∈ before, x.deadline ≤ d.deadline) ∧ ∀ x ∈ behind, d.deadline < x.deadline := by
  induction l with
  | nil => exact ⟨[], [], rfl, rfl, by simp, by simp⟩
  | cons y ys ih =>
    obtain ⟨hy, hys⟩ := List.pairwise_cons.1 h
    by_cases hd : d.deadline < y.deadline
    · refine ⟨[], y :: ys, rfl, if_pos hd, by simp, fun x hx => ?_⟩
      obtain rfl | hx := List.mem_cons.1 hx
      · exact hd
      · exact Nat.lt_of_lt_of_le hd (hy x hx)
    · obtain ⟨before, behind, hl, hi, hb, ha⟩ := ih hys
      refine ⟨y :: before, behind, by rw [hl, List.cons_append], ?_, fun x hx => ?_, ha⟩
      · rw [insertDeadlineSorted, if_neg hd, hi, List.cons_append]
      · obtain rfl | hx := List.mem_cons.1 hx
        · exact BitVec.not_lt.1 hd
        · exact hb x hx

/-- The end of a tick reaches LCK and its path to LEN alone. -/
theorem State.finishTick_frame (s : State) :
    s.finishTick.len = s.len ∧ s.finishTick.rqu = s.rqu ∧ s.finishTick.twp = s.twp ∧ s.finishTick.fwp = s.fwp := by
  rw [State.finishTick_eq]
  exact ⟨rfl, rfl, rfl, rfl⟩

theorem exec_deadlineInsert {s : State} {d : Deadline} {rest : List LckReq} (h : s.paths.lenToLck = .insert d :: rest) :
    exec .deadlineInsert s =
      .next
        { s.finishTick with
          lck := { s.finishTick.lck with deadlines := insertDeadlineSorted d s.finishTick.lck.deadlines }
          paths := { s.finishTick.paths with lenToLck := rest } } := by
  simp only [exec, execDeadlineInsert, h]

theorem exec_deadlineRemove {s : State} {d : Deadline} {rest : List LckReq} (h : s.paths.lenToLck = .remove d :: rest) :
    exec .deadlineRemove s =
      .next
        { s.finishTick with
          lck := { s.finishTick.lck with deadlines := s.finishTick.lck.deadlines.erase d }
          paths := { s.finishTick.paths with lenToLck := rest } } := by
  simp only [exec, execDeadlineRemove, h]

/-- Settles O8: an insert by the place it is given, a removal by the first entry that equals it. -/
theorem insertsAndRemovalsKeepTheDeadlineOrder : Obligations.InsertsAndRemovalsKeepTheDeadlineOrder := by
  refine ⟨fun s d rest ho h => ?insert, fun s d rest h => ?remove⟩
  case insert =>
    obtain ⟨before, behind, hl, hi, hb, ha⟩ := insertDeadlineSorted_split d (State.finishTick_ordered ho)
    exact ⟨_, before, behind, exec_deadlineInsert h, hl, hi, hb, ha, s.finishTick_clock, rfl, s.finishTick_frame⟩
  case remove =>
    refine ⟨_, exec_deadlineRemove h, List.erase_of_not_mem, fun before behind hl hn => ?_, s.finishTick_clock, rfl,
      s.finishTick_frame⟩
    change s.finishTick.lck.deadlines.erase d = _
    rw [hl, List.erase_append_right _ hn, List.erase_cons_head]

end Sys2Proof.Machine

/-! SUPPORT. What the end of a wait, a revocation and a lapse do, each as one equation. -/

namespace Sys2Proof.Machine

/-! ## Completions -/

theorem LenEvent.complete_eq (e : LenEvent) (n : SlotIx) (c : Completion) :
    e.complete n c = { e with len := e.len.answer n c.tag, toRqu := e.toRqu ++ [.completion n c] } := rfl

theorem LenEvent.replyWith_eq (e : LenEvent) (f : Frame) (st : Status) (b : List Byte) :
    e.replyWith f st b =
      { e with len := e.len.answer f.slot f.tag, toRqu := e.toRqu ++ [.completion f.slot ⟨f.tag, f.kind, st, b⟩] } := rfl

/-! ## The end of a wait that completes -/

theorem LenEvent.finishWait_eq {e : LenEvent} {w : WaitIx} {x : Wait} (hw : e.len.waits[w] = some x) (timedOut : Bool)
    (st : Status) :
    e.finishWait w timedOut st = (e.dropWait w timedOut).complete x.slot ⟨x.tag, x.kind.reqKind, st, []⟩ := by
  unfold LenEvent.finishWait
  rw [hw]

/-- An UPGRADE wait that ends leaves its lease (R58). -/
theorem LenEvent.finishWait_upgrade {e : LenEvent} {w : WaitIx} {x : Wait} (hw : e.len.waits[w] = some x)
    (hk : x.kind = .upgrade) (timedOut : Bool) (st : Status) :
    e.finishWait w timedOut st =
      { e with
        len := ((e.len.setWait w none).setEntry x.resource (e.len.catalog[x.resource].without w .upgrade)).answer
          x.slot x.tag
        toLck := e.toLck ++ if timedOut then [] else x.removal w
        toRqu := e.toRqu ++ [.completion x.slot ⟨x.tag, .upgrade, st, []⟩] } := by
  rw [LenEvent.finishWait_eq hw, LenEvent.dropWait_upgrade e w x timedOut hw hk, LenEvent.endWait_eq e w x timedOut hw, hk]
  rfl

/-- An ACQUIRE wait that ends frees its reserved record, of the resource it waited for (R58). -/
theorem LenEvent.finishWait_acquire {e : LenEvent} {w : WaitIx} {x : Wait} (hw : e.len.waits[w] = some x)
    (hk : x.kind ≠ .upgrade) (hs : e.len.leases[x.lease].state = .reserved)
    (hr : e.len.leases[x.lease].resource = x.resource) (timedOut : Bool) (st : Status) :
    e.finishWait w timedOut st =
      { e with
        len := (((e.len.setWait w none).setLease x.lease e.len.leases[x.lease].freed).setEntry x.resource
          (e.len.entryAfterFreeing x.resource (e.len.catalog[x.resource].without w x.kind))).answer x.slot x.tag
        toLck := e.toLck ++ if timedOut then [] else x.removal w
        toRqu := e.toRqu ++ [.completion x.slot ⟨x.tag, x.kind.reqKind, st, []⟩] } := by
  rw [LenEvent.finishWait_eq hw, LenEvent.dropWait_acquire e w x timedOut hw hk, LenEvent.endWait_eq e w x timedOut hw,
    LenEvent.freeRecord_ended]
  · simp only [Len.setEntry_leases, Len.setWait_leases, hr, Len.setEntry_get, if_true]
    rw [Len.entryAfterFreeing_congr (b := e.len) rfl, LenEvent.complete_eq]
    simp only [Len.setEntry, Len.setLease, Len.setWait, Vector.set_set]
    rfl
  · exact fun h => absurd (hs.symm.trans h) (by decide)
  · exact fun h => absurd (hs.symm.trans h) (by decide)

/-! ## The ends of a HELD lease -/

/-- The UPGRADE wait of a record is found by its queue and the pool alone. -/
theorem Len.upgradeWaitOf_congr {a b : Len} {i : RecIx}
    (hq : b.catalog[b.leases[i].resource].queue = a.catalog[a.leases[i].resource].queue) (hw : b.waits = a.waits) :
    b.upgradeWaitOf i = a.upgradeWaitOf i := by
  unfold Len.upgradeWaitOf
  rw [hq, hw]

/-- The UPGRADE wait of a record, where one stands in the queue, completes with the status its lease ends with. -/
theorem LenEvent.endUpgradeOf_some {e : LenEvent} {i : RecIx} {w : WaitIx} {x : Wait} (hu : e.len.upgradeWaitOf i = some w)
    (hw : e.len.waits[w] = some x) (st : Status) :
    e.endUpgradeOf i st =
      { e with
        len := ((e.len.setWait w none).setEntry x.resource (e.len.catalog[x.resource].without w .upgrade)).answer
          x.slot x.tag
        toLck := e.toLck ++ x.removal w
        toRqu := e.toRqu ++ [.completion x.slot ⟨x.tag, .upgrade, st, []⟩] } := by
  obtain ⟨y, hy, hk, _, _⟩ := Len.upgradeWaitOf_some hu
  cases hw.symm.trans hy
  unfold LenEvent.endUpgradeOf
  rw [hu]
  exact LenEvent.finishWait_upgrade hw hk false st

/-- A HELD record ends: its state and mark are written, and its entry's holders lowered. What a revocation and a lapse share (R40, R43). -/
def LenEvent.endHeld (e : LenEvent) (i : RecIx) (st : LeaseState) : LenEvent :=
  { e with
    len := (e.len.setLease i { e.len.leases[i] with state := st, changeMark := true }).setEntry
      e.len.leases[i].resource e.len.catalog[e.len.leases[i].resource].lowered }

theorem LenEvent.revokeRecord_eq (e : LenEvent) (i : RecIx) :
    e.revokeRecord i = ((e.endHeld i .revoked).removeDeadline (e.len.leaseDeadline i)).endUpgradeOf i .revoked := rfl

theorem LenEvent.lapseRecord_eq (e : LenEvent) (i : RecIx) :
    e.lapseRecord i = (e.endHeld i .lapsed).endUpgradeOf i .lapsed := rfl

/-- The end of a HELD record leaves its queue, and so the UPGRADE wait in it, as it was. -/
theorem LenEvent.endHeld_upgradeWaitOf (e : LenEvent) (i : RecIx) (st : LeaseState) :
    (e.endHeld i st).len.upgradeWaitOf i = e.len.upgradeWaitOf i := by
  refine Len.upgradeWaitOf_congr ?_ rfl
  simp only [LenEvent.endHeld, Len.setEntry_leases, Len.setLease_get, Len.setEntry_get, if_true]
  rfl

/-- The end of a HELD record whose UPGRADE wait stands in the queue of its resource: the lease and then the wait end. -/
theorem LenEvent.endHeld_entry {e : LenEvent} {i : RecIx} {st : LeaseState} {w : WaitIx} {x : Wait}
    (hr : x.resource = e.len.leases[i].resource) :
    ((e.endHeld i st).len.setWait w none).setEntry x.resource ((e.endHeld i st).len.catalog[x.resource].without w .upgrade) =
      ((e.len.setLease i { e.len.leases[i] with state := st, changeMark := true }).setEntry e.len.leases[i].resource
        (e.len.catalog[e.len.leases[i].resource].lowered.without w .upgrade)).setWait w none := by
  simp only [hr, LenEvent.endHeld, Len.setEntry_get, if_true]
  simp only [Len.setEntry, Len.setLease, Len.setWait, Vector.set_set]

/-- Settles O29: the two kinds of wait, and a revocation with and without an UPGRADE wait. -/
theorem aFinishedWaitAndARevokedLeaseEndWhole : Obligations.AFinishedWaitAndARevokedLeaseEndWhole := by
  refine ⟨fun e w x timedOut st hw => ⟨fun hk => ?upgrade, fun hk hs hr => ?acquire⟩,
    fun e i => ⟨fun hu => ?alone, fun w x hu hw hr => ?waited⟩⟩
  case upgrade => rw [LenEvent.finishWait_upgrade hw hk, hk]; rfl
  case acquire => exact LenEvent.finishWait_acquire hw hk hs hr timedOut st
  case alone =>
    exact LenEvent.endUpgradeOf_none (e := (e.endHeld i .revoked).removeDeadline (e.len.leaseDeadline i))
      ((e.endHeld_upgradeWaitOf i .revoked).trans hu)
  case waited =>
    rw [LenEvent.revokeRecord_eq,
      LenEvent.endUpgradeOf_some (e := (e.endHeld i .revoked).removeDeadline (e.len.leaseDeadline i))
        ((e.endHeld_upgradeWaitOf i .revoked).trans hu) hw,
      LenEvent.removeDeadline_len, LenEvent.endHeld_entry hr, LenEvent.removeDeadline_toLck, List.append_assoc]
    rfl

end Sys2Proof.Machine

/-! SUPPORT. The grant pass: its step on each kind of head as an equation, that it shortens the queue or stops, and what it leaves. -/

namespace Sys2Proof.Machine

/-! ## Grants as equations -/

theorem needsAdvance_iff (m holder : Mode) : needsAdvance m holder = true ↔ m = .exclusive ∨ holder = .none :=
  decide_eq_true_iff

theorem Entry.grantEpoch_eq (en : Entry) (m : Mode) :
    en.grantEpoch m = if m = .exclusive ∨ en.holderMode = .none then en.epoch + 1 else en.epoch := by
  unfold Entry.grantEpoch
  simp only [needsAdvance_iff]

/-- The entry after a grant in a mode (R14, R15). -/
def Entry.granted (en : Entry) (m : Mode) : Entry :=
  { en with
    epoch := en.grantEpoch m
    holderCount := en.holderCount + 1
    holderMode := if en.holderMode = .none then m else en.holderMode }

/-- The record after a grant from its entry, at a clock value (R31, R57). -/
def Lease.granted (l : Lease) (now : Tick) (en : Entry) (m : Mode) (term : Nat) : Lease :=
  { l with state := .held, mode := m, epoch := en.grantEpoch m, term := term, deadline := deadlineAfter now term }

theorem LenEvent.grantRecord_eq (e : LenEvent) (i : RecIx) (r : ResIx) (m : Mode) (term : Nat) :
    e.grantRecord i r m term =
      { e with
        len := (e.len.setLease i (e.len.leases[i].granted e.now e.len.catalog[r] m term)).setEntry r
          (e.len.catalog[r].granted m) } := rfl

theorem LenEvent.makeExclusive_eq (e : LenEvent) (i : RecIx) (r : ResIx) :
    e.makeExclusive i r =
      { e with
        len := (e.len.setLease i { e.len.leases[i] with mode := .exclusive, epoch := e.len.catalog[r].epoch + 1 }).setEntry r
          { e.len.catalog[r] with epoch := e.len.catalog[r].epoch + 1, holderMode := .exclusive } } := rfl

theorem LenEvent.completeGrant_eq (e : LenEvent) (i : RecIx) (n : SlotIx) (t : TagIx) (k : ReqKind) {l : Lease}
    (hl : e.len.leases[i] = l) :
    e.completeGrant i n t k =
      { e with
        len := e.len.answer n t
        toRqu := e.toRqu ++
          [.completion n
            ⟨t, k, .granted,
              natToBytes (i.val * 512 + l.generation.toNat) 2 ++ [modeCode l.mode] ++ natToBytes l.epoch.toNat 4 ++
                natToBytes l.term 3⟩] } := by
  subst hl
  rfl

/-- The grant of an ACQUIRE wait at the head of the queue of its resource (R57). -/
theorem LenEvent.grantAcquireWait_eq {e : LenEvent} {r : ResIx} {w : WaitIx} {x : Wait} {rest : List WaitIx}
    (hq : e.len.catalog[r].queue = w :: rest) (hw : e.len.waits[w] = some x) (hr : x.resource = r)
    (hk : x.kind ≠ .upgrade) (m : Mode) (term : Nat) :
    e.grantAcquireWait r w x m term =
      { e with
        len := (((e.len.setWait w none).setLease x.lease
            (e.len.leases[x.lease].granted e.now e.len.catalog[r] m term)).setEntry r
          { e.len.catalog[r].granted m with queue := rest }).answer x.slot x.tag
        toLck := e.toLck ++ x.removal w ++
          [.insert ⟨deadlineAfter e.now term, .lease x.lease e.len.leases[x.lease].generation⟩]
        toRqu := e.toRqu ++
          [.completion x.slot
            ⟨x.tag, .acquire, .granted,
              natToBytes (x.lease.val * 512 + e.len.leases[x.lease].generation.toNat) 2 ++ [modeCode m] ++
                natToBytes (e.len.catalog[r].grantEpoch m).toNat 4 ++ natToBytes term 3⟩] } := by
  subst hr
  have hen : (e.len.catalog[x.resource].granted m).without w x.kind =
      { e.len.catalog[x.resource].granted m with queue := rest } := by
    simp only [Entry.without, Entry.granted, hq, List.erase_cons_head, hk, if_false]
  unfold LenEvent.grantAcquireWait
  dsimp only
  rw [LenEvent.grantRecord_eq, LenEvent.endWait_eq (w := w) (x := x) (timedOut := false) (h := by exact hw)]
  simp only [Len.setEntry_get, if_true, hen, Bool.false_eq_true, if_false]
  rw [LenEvent.completeGrant_eq (l := e.len.leases[x.lease].granted e.now e.len.catalog[x.resource] m term)]
  · simp only [LenEvent.insertDeadline, Len.leaseDeadline, Len.setEntry_leases, Len.setWait_leases, Len.setLease_get, if_true]
    simp only [Len.setEntry, Len.setLease, Len.setWait, Vector.set_set]
    rfl
  · exact (Len.setLease_get _ _ _ _).trans (if_pos rfl)

/-- The grant of an UPGRADE wait at the head of the queue of its resource (R57). -/
theorem LenEvent.grantUpgradeWait_eq {e : LenEvent} {r : ResIx} {w : WaitIx} {x : Wait} {rest : List WaitIx}
    (hq : e.len.catalog[r].queue = w :: rest) (hw : e.len.waits[w] = some x) (hr : x.resource = r)
    (hk : x.kind = .upgrade) :
    e.grantUpgradeWait r w x =
      { e with
        len := (((e.len.setWait w none).setLease x.lease
            { e.len.leases[x.lease] with mode := .exclusive, epoch := e.len.catalog[r].epoch + 1 }).setEntry r
          { e.len.catalog[r] with
            epoch := e.len.catalog[r].epoch + 1, holderMode := .exclusive, queue := rest,
            upgradePending := false }).answer x.slot x.tag
        toLck := e.toLck ++ x.removal w
        toRqu := e.toRqu ++
          [.completion x.slot
            ⟨x.tag, .upgrade, .granted,
              natToBytes (x.lease.val * 512 + e.len.leases[x.lease].generation.toNat) 2 ++ [modeCode .exclusive] ++
                natToBytes (e.len.catalog[r].epoch + 1).toNat 4 ++ natToBytes e.len.leases[x.lease].term 3⟩] } := by
  subst hr
  unfold LenEvent.grantUpgradeWait
  rw [LenEvent.makeExclusive_eq, LenEvent.endWait_eq (w := w) (x := x) (timedOut := false) (h := by exact hw)]
  simp only [Len.setEntry_get, if_true, Entry.without, hq, List.erase_cons_head, hk, Bool.false_eq_true, if_false]
  rw [LenEvent.completeGrant_eq
    (l := { e.len.leases[x.lease] with mode := .exclusive, epoch := e.len.catalog[x.resource].epoch + 1 })]
  · simp only [Len.setEntry, Len.setLease, Len.setWait, Vector.set_set]
  · exact (Len.setLease_get _ _ _ _).trans (if_pos rfl)

/-! ## The step on each kind of head -/

theorem Entry.admits_iff (en : Entry) (m : Mode) :
    en.admits m = true ↔ en.holderMode = .none ∨
      (m = .shared ∧ en.holderMode = .shared ∧ en.holderCount < en.shareLimit ∧ en.upgradePending = false) :=
  decide_eq_true_iff

theorem LenEvent.passStep_empty {e : LenEvent} {r : ResIx} (h : e.len.catalog[r].queue = []) : e.passStep r = none := by
  unfold LenEvent.passStep
  dsimp only
  rw [h]

theorem LenEvent.passStep_noWait {e : LenEvent} {r : ResIx} {w : WaitIx} {rest : List WaitIx}
    (hq : e.len.catalog[r].queue = w :: rest) (hw : e.len.waits[w] = none) : e.passStep r = none := by
  unfold LenEvent.passStep
  dsimp only
  rw [hq]
  dsimp only
  rw [hw]

theorem LenEvent.passStep_acquire {e : LenEvent} {r : ResIx} {w : WaitIx} {rest : List WaitIx} {x : Wait} {m : Mode}
    {term priority : Nat} (hq : e.len.catalog[r].queue = w :: rest) (hw : e.len.waits[w] = some x)
    (hk : x.kind = .acquire m term priority) :
    e.passStep r =
      if e.len.catalog[r].admits m then
        some (if e.len.catalog[r].spentFor m then e.finishWait w false .epochSpent else e.grantAcquireWait r w x m term)
      else none := by
  unfold LenEvent.passStep
  dsimp only
  rw [hq]
  dsimp only
  rw [hw]
  dsimp only
  rw [hk]

theorem LenEvent.passStep_upgrade {e : LenEvent} {r : ResIx} {w : WaitIx} {rest : List WaitIx} {x : Wait}
    (hq : e.len.catalog[r].queue = w :: rest) (hw : e.len.waits[w] = some x) (hk : x.kind = .upgrade) :
    e.passStep r =
      if e.len.catalog[r].holderCount = 1 then
        some
          (if e.len.catalog[r].epoch = epochSpent then e.finishWait w false .epochSpent else e.grantUpgradeWait r w x)
      else none := by
  unfold LenEvent.passStep
  dsimp only
  rw [hq]
  dsimp only
  rw [hw]
  dsimp only
  rw [hk]

/-! ## The pass as its step, repeated -/

/-- A change of the tables that empties a queue or leaves it. -/
def Len.KeepsQueues (a b : Len) : Prop := ∀ r : ResIx, b.catalog[r].queue = a.catalog[r].queue ∨ b.catalog[r].queue = []

theorem Len.KeepsQueues.refl (a : Len) : a.KeepsQueues a := fun _ => .inl rfl

theorem Len.KeepsQueues.trans {a b c : Len} (h : a.KeepsQueues b) (k : b.KeepsQueues c) : a.KeepsQueues c := by
  intro r
  obtain h' | h' := h r
  · rw [← h']; exact k r
  · obtain k' | k' := k r
    · exact .inr (k'.trans h')
    · exact .inr k'

theorem LenEvent.modEntry_keepsQueues (e : LenEvent) (r : ResIx) (f : Entry → Entry)
    (h : (f e.len.catalog[r]).queue = e.len.catalog[r].queue) : e.len.KeepsQueues (e.modEntry r f).len := by
  intro q
  rw [LenEvent.modEntry_len, Len.setEntry_get]
  by_cases hq : q = r
  · subst hq; rw [if_pos rfl]; exact .inl h
  · rw [if_neg hq]; exact .inl rfl

theorem LenEvent.clearRecord_keepsQueues (e : LenEvent) (i : RecIx) : e.len.KeepsQueues (e.clearRecord i).len := by
  intro q
  obtain h | ⟨_, h, _⟩ := LenEvent.vacateIfDrained_entry
    (e.modLease i fun l => Lease.cleared (nextGeneration l.generation)) e.len.leases[i].resource q
  · exact .inl (congrArg Entry.queue h)
  · exact .inr (congrArg Entry.queue h)

theorem LenEvent.freeRecord_keepsQueues (e : LenEvent) (i : RecIx) : e.len.KeepsQueues (e.freeRecord i).len := by
  unfold LenEvent.freeRecord
  split
  · exact ((e.removeDeadline (e.len.leaseDeadline i)).modEntry_keepsQueues _ _ rfl).trans
      (LenEvent.clearRecord_keepsQueues _ i)
  · exact e.clearRecord_keepsQueues i

/-- The end of a wait takes it from a queue, and no other wait from any. -/
theorem LenEvent.endWait_queue (e : LenEvent) (w : WaitIx) (timedOut : Bool) (r : ResIx) :
    (e.endWait w timedOut).len.catalog[r].queue = e.len.catalog[r].queue ∨
      (e.endWait w timedOut).len.catalog[r].queue = e.len.catalog[r].queue.erase w := by
  cases hw : e.len.waits[w] with
  | none => unfold LenEvent.endWait; rw [hw]; exact .inl rfl
  | some x =>
    rw [LenEvent.endWait_entry e w x timedOut hw]
    by_cases hr : r = x.resource
    · subst hr; rw [if_pos rfl]; exact .inr rfl
    · rw [if_neg hr]; exact .inl rfl

/-- What becomes of the queue of a grant pass's head: it stands though its wait is gone, or has lost the head, or is empty. -/
theorem LenEvent.finishWait_queue (e : LenEvent) (w : WaitIx) (timedOut : Bool) (st : Status) (r : ResIx) :
    (e.finishWait w timedOut st).len.catalog[r].queue = e.len.catalog[r].queue ∨
      (e.finishWait w timedOut st).len.catalog[r].queue = e.len.catalog[r].queue.erase w ∨
      (e.finishWait w timedOut st).len.catalog[r].queue = [] := by
  cases hw : e.len.waits[w] with
  | none => unfold LenEvent.finishWait; rw [hw]; exact .inl rfl
  | some x =>
    rw [LenEvent.finishWait_eq hw]
    change (e.dropWait w timedOut).len.catalog[r].queue = _ ∨ (e.dropWait w timedOut).len.catalog[r].queue = _ ∨
      (e.dropWait w timedOut).len.catalog[r].queue = _
    have hend := e.endWait_queue w timedOut r
    by_cases hk : x.kind = .upgrade
    · rw [LenEvent.dropWait_upgrade e w x timedOut hw hk]
      exact hend.imp_right .inl
    · rw [LenEvent.dropWait_acquire e w x timedOut hw hk]
      obtain h | h := (e.endWait w timedOut).freeRecord_keepsQueues x.lease r
      · rw [h]; exact hend.imp_right .inl
      · exact .inr (.inr h)

theorem LenEvent.finishWait_wait {e : LenEvent} {w : WaitIx} {x : Wait} (hw : e.len.waits[w] = some x) (timedOut : Bool)
    (st : Status) : (e.finishWait w timedOut st).len.waits[w] = none := by
  rw [LenEvent.finishWait_eq hw]
  exact (e.dropWait_wait w w timedOut).trans (if_pos rfl)

/-- One step of a grant pass leaves a shorter queue, or a head with no wait, at which the pass stops. -/
theorem LenEvent.passStep_shortens {e b : LenEvent} {r : ResIx} (h : e.passStep r = some b) :
    b.len.catalog[r].queue.length < e.len.catalog[r].queue.length ∨ b.passStep r = none := by
  cases hq : e.len.catalog[r].queue with
  | nil => rw [LenEvent.passStep_empty hq] at h; cases h
  | cons w rest =>
    cases hw : e.len.waits[w] with
    | none => rw [LenEvent.passStep_noWait hq hw] at h; cases h
    | some x =>
      have shortens {c : LenEvent} (hc : c.len.waits[w] = none)
          (hcq : c.len.catalog[r].queue = w :: rest ∨ c.len.catalog[r].queue = (w :: rest).erase w ∨
            c.len.catalog[r].queue = []) :
          c.len.catalog[r].queue.length < (w :: rest).length ∨ c.passStep r = none := by
        obtain hcq | hcq | hcq := hcq
        · exact .inr (LenEvent.passStep_noWait hcq hc)
        · rw [hcq, List.erase_cons_head]; exact .inl (Nat.lt_succ_self _)
        · rw [hcq]; exact .inl (Nat.zero_lt_succ _)
      have finished := shortens (LenEvent.finishWait_wait hw false .epochSpent)
        (hq ▸ e.finishWait_queue w false .epochSpent r)
      have granted {c d : LenEvent} (hd : d.len.catalog = (c.endWait w false).len.catalog)
          (hdw : d.len.waits = (c.endWait w false).len.waits)
          (hc : c.len.catalog[r].queue = e.len.catalog[r].queue) :
          d.len.catalog[r].queue.length < (w :: rest).length ∨ d.passStep r = none := by
        refine shortens ?_ ?_
        · rw [hdw]; exact (c.endWait_wait w w false).trans (if_pos rfl)
        · rw [hd, ← hq, ← hc]; exact (c.endWait_queue w false r).imp_right .inl
      cases hk : x.kind with
      | acquire m term priority =>
        rw [LenEvent.passStep_acquire hq hw hk] at h
        split at h
        · cases h
          split
          · exact finished
          · exact granted (c := e.grantRecord x.lease r m term) rfl rfl
              (by rw [LenEvent.grantRecord_entry, if_pos rfl])
        · cases h
      | upgrade =>
        rw [LenEvent.passStep_upgrade hq hw hk] at h
        split at h
        · cases h
          split
          · exact finished
          · exact granted (c := e.makeExclusive x.lease r) rfl rfl
              (by rw [LenEvent.makeExclusive_entry, if_pos rfl])
        · cases h

theorem LenEvent.passSteps_stopped {e : LenEvent} {r : ResIx} (h : e.passStep r = none) (fuel : Nat) :
    e.passSteps r fuel = e := by
  cases fuel with
  | zero => rfl
  | succ n => unfold LenEvent.passSteps; rw [h]

theorem LenEvent.passSteps_step {e b : LenEvent} {r : ResIx} (h : e.passStep r = some b) (fuel : Nat) :
    e.passSteps r (fuel + 1) = b.passSteps r fuel := by
  rw [LenEvent.passSteps, h]

/-- A pass that takes a step has a wait at the head of the queue. -/
theorem LenEvent.passStep_queue {e b : LenEvent} {r : ResIx} (h : e.passStep r = some b) :
    ∃ n, e.len.catalog[r].queue.length = n + 1 := by
  cases hq : e.len.catalog[r].queue with
  | nil => rw [LenEvent.passStep_empty hq] at h; cases h
  | cons w rest => exact ⟨rest.length, rfl⟩

/-- As many steps as the queue has waits are all that a pass can take. -/
theorem LenEvent.passSteps_eq_grantPass (r : ResIx) (fuel : Nat) (e : LenEvent)
    (hf : e.len.catalog[r].queue.length ≤ fuel) : e.passSteps r fuel = e.grantPass r := by
  induction fuel using Nat.strong_induction_on generalizing e with
  | _ fuel ih =>
    unfold LenEvent.grantPass
    cases h : e.passStep r with
    | none => rw [LenEvent.passSteps_stopped h, LenEvent.passSteps_stopped h]
    | some b =>
      obtain ⟨n, hn⟩ := LenEvent.passStep_queue h
      obtain ⟨k, rfl⟩ : ∃ k, fuel = k + 1 := ⟨fuel - 1, by omega⟩
      rw [hn, LenEvent.passSteps_step h, LenEvent.passSteps_step h]
      obtain hlt | hs := LenEvent.passStep_shortens h
      · rw [ih k (by omega) b (by omega), ih n (by omega) b (by omega)]
      · rw [LenEvent.passSteps_stopped hs, LenEvent.passSteps_stopped hs]

theorem LenEvent.grantPass_stopped {e : LenEvent} {r : ResIx} (h : e.passStep r = none) : e.grantPass r = e :=
  LenEvent.passSteps_stopped h _

theorem LenEvent.grantPass_step {e b : LenEvent} {r : ResIx} (h : e.passStep r = some b) :
    e.grantPass r = b.grantPass r := by
  obtain ⟨n, hn⟩ := LenEvent.passStep_queue h
  unfold LenEvent.grantPass
  rw [hn, LenEvent.passSteps_step h]
  obtain hlt | hs := LenEvent.passStep_shortens h
  · exact LenEvent.passSteps_eq_grantPass r n b (by omega)
  · rw [LenEvent.passSteps_stopped hs, LenEvent.passSteps_stopped hs]

/-- Settles O33: the step by the kind of the head, and the pass by its step. -/
theorem aGrantPassServesTheHead : Obligations.AGrantPassServesTheHead := by
  intro e r
  refine ⟨LenEvent.passStep_empty, LenEvent.grantPass_stopped, fun w rest x hq hw hr =>
    ⟨fun b => LenEvent.grantPass_step, fun m term priority hk => ?acquire, fun hk => ?upgrade⟩⟩
  case acquire =>
    have hstep := LenEvent.passStep_acquire hq hw hk
    refine ⟨fun ha => ?_, fun ha hn hs => ?_, fun ha hs => ?_⟩
    · rw [hstep, if_neg (mt (Entry.admits_iff _ _).1 ha)]
    · rw [hstep, if_pos ((Entry.admits_iff _ _).2 ha), if_pos ((Entry.spentFor_iff _ _).2 ⟨hn, hs⟩)]
    · rw [hstep, if_pos ((Entry.admits_iff _ _).2 ha), if_neg (mt (Entry.spentFor_iff _ _).1 hs),
        LenEvent.grantAcquireWait_eq hq hw hr (by rw [hk]; exact WaitKind.noConfusion)]
      simp only [Entry.granted, Lease.granted, Entry.grantEpoch_eq]
  case upgrade =>
    have hstep := LenEvent.passStep_upgrade hq hw hk
    refine ⟨fun hc => ?_, fun hc hs => ?_, fun hc hs => ?_⟩
    · rw [hstep, if_neg hc]
    · rw [hstep, if_pos hc, if_pos (show _ = epochSpent from hs)]
    · rw [hstep, if_pos hc, if_neg (show ¬_ = epochSpent from hs), LenEvent.grantUpgradeWait_eq hq hw hr hk]

/-- Settles O34: where the pass stops, its step had nothing to grant. -/
theorem aGrantPassLeavesNothingToGrant : Obligations.AGrantPassLeavesNothingToGrant := by
  intro e r he b en
  have hok : b.Ok := (LenEvent.Ok.grantPass ((Len.tablesAgree_iff _).1 he) r).1
  have hstop : b.passStep r = none := (LenEvent.Ok.grantPass_rises ((Len.tablesAgree_iff _).1 he) r).2
  have hagree : b.len.tablesAgree := (Len.tablesAgree_iff _).2 hok
  obtain ⟨_, _, ⟨hqueues, _⟩, _, hpending, _⟩ := id hagree
  refine ⟨hagree, fun w rest hq => ?_⟩
  obtain ⟨x, hw, hr⟩ := (hqueues r).2 w (by rw [show b.len.catalog[r].queue = w :: rest from hq]; exact List.mem_cons_self)
  refine ⟨x, hw, hr, fun hk => ?upgrade, fun m term priority hk => ?acquire⟩
  case upgrade => exact hok.stopped hstop ((hpending r).2 ⟨w, x, hw, hr, hk⟩)
  case acquire =>
    have ha : ¬en.admits m = true := fun ha => by
      rw [LenEvent.passStep_acquire hq hw hk, if_pos ha] at hstop
      cases hstop
    rw [Entry.admits_iff] at ha
    exact not_or.1 ha

end Sys2Proof.Machine

/-! SUPPORT. The name lookup and the currency test, from the agreement of the tables. -/

namespace Sys2Proof.Machine

theorem Len.lookup_reserved (len : Len) {name : ResName} (h : name = 0x0000 ∨ name = 0xFFFF) : len.lookup name = none :=
  if_pos h

/-- Where names are unique, a non-VACANT entry is the one its name finds (R3). -/
theorem Len.lookup_of_unique {len : Len} (hu : len.namesUnique) {r : ResIx} (hs : len.catalog[r].state ≠ .vacant) :
    len.lookup len.catalog[r].name = some r := by
  obtain ⟨hunique, hreserved⟩ := hu
  obtain ⟨h0, hF⟩ := hreserved r hs
  unfold Len.lookup
  rw [if_neg (not_or.2 ⟨h0, hF⟩), find_finRange_some]
  refine ⟨decide_eq_true ⟨hs, rfl⟩, fun q hq => decide_eq_false fun ⟨hqs, hqn⟩ => ?_⟩
  exact absurd (hunique q r hqs hs hqn) (ne_of_lt hq)

/-- Settles O35: the search of the catalog, and that unique names leave it one answer. -/
theorem lookupFindsTheEntryOfTheName : Obligations.LookupFindsTheEntryOfTheName := by
  refine fun len name => ⟨⟨len.lookup_reserved (.inl rfl), len.lookup_reserved (.inr rfl)⟩, fun r => Len.lookup_stands,
    fun hu r hs hn => ?_⟩
  rw [← hn]
  exact Len.lookup_of_unique hu hs

/-- The test answers CURRENT exactly where the entry of the name is held in the mode, with the epoch (R139). -/
theorem Len.currency_current_iff (len : Len) (q : Query) :
    len.currency q = .current ↔
      ∃ r m, len.lookup q.name = some r ∧ modeOfCode q.mode = some m ∧ len.catalog[r].holderMode = m ∧
        len.catalog[r].epoch = q.epoch := by
  unfold Len.currency
  cases hl : len.lookup q.name with
  | none => simp
  | some r =>
    cases hm : modeOfCode q.mode with
    | none => simp
    | some m => simp [eq_comm]

theorem modeOfCode_iff (c : Byte) (m : Mode) : modeOfCode c = some m ↔ modeCode m = c ∧ m ≠ .none := by
  unfold modeOfCode
  constructor
  · intro h
    split at h
    · next hc => cases h; exact ⟨hc.symm, by decide⟩
    · split at h
      · next hc => cases h; exact ⟨hc.symm, by decide⟩
      · cases h
  · rintro ⟨rfl, hm⟩
    cases m with
    | none => exact absurd rfl hm
    | shared => rfl
    | exclusive => rfl

/-- An entry with a holder has a HELD record of its mode and epoch (R14, R15). -/
theorem Len.holdersAgree.record {len : Len} (h : len.holdersAgree) {r : ResIx} (hm : len.catalog[r].holderMode ≠ .none) :
    ∃ i : RecIx, len.leases[i].state = .held ∧ len.leases[i].resource = r ∧
      len.leases[i].mode = len.catalog[r].holderMode ∧ len.leases[i].epoch = len.catalog[r].epoch := by
  obtain ⟨hcount, hnone, _, _, hrecords⟩ := h r
  by_contra hn
  refine hm (hnone.2 (hcount.trans (len.heldCount_zero r fun i hi hr => hn ⟨i, hi, hr, hrecords i hi hr⟩)))

/-- The entry of a HELD record has a holder. -/
theorem Len.holdersAgree.held {len : Len} (h : len.holdersAgree) {i : RecIx} (hi : len.leases[i].state = .held) :
    len.catalog[len.leases[i].resource].holderMode ≠ .none := by
  obtain ⟨hcount, hnone, _⟩ := h len.leases[i].resource
  have := len.heldCount_pos i hi
  intro hm
  have := hnone.1 hm
  omega

/-- Settles O39: the entry of the name and its HELD record say the same. -/
theorem currentMeansHeldInThatModeAndEpoch : Obligations.CurrentMeansHeldInThatModeAndEpoch := by
  intro len ht hu
  obtain ⟨hholders, hstand, _⟩ := ht
  refine ⟨fun q => (len.currency_current_iff q).trans ⟨?found, ?held⟩, fun i j hi hj hr hm => ?alone⟩
  case found =>
    rintro ⟨r, m, hl, hq, hm, he⟩
    obtain ⟨hcode, hne⟩ := (modeOfCode_iff _ _).1 hq
    obtain ⟨i, hi, hir, him, hie⟩ := hholders.record (r := r) (hm ▸ hne)
    refine ⟨i, hi, ?_, ?_, hie.trans he⟩
    · simp only [hir]
      exact (Len.lookup_stands hl).2
    · rw [him, hm, hcode]
  case held =>
    rintro ⟨i, hi, hn, hm, he⟩
    have hne := hholders.held hi
    obtain ⟨_, _, _, _, hrecords⟩ := hholders len.leases[i].resource
    obtain ⟨hmode, hepoch⟩ := hrecords i hi rfl
    refine ⟨len.leases[i].resource, len.leases[i].mode, ?_, (modeOfCode_iff _ _).2 ⟨hm, hmode ▸ hne⟩, hmode.symm,
      hepoch.symm.trans he⟩
    rw [← hn]
    exact Len.lookup_of_unique hu (hstand i (by rw [hi]; decide))
  case alone =>
    obtain ⟨hcount, _, hexcl, _, hrecords⟩ := hholders len.leases[i].resource
    obtain ⟨hmode, _⟩ := hrecords i hi rfl
    have hone := hcount.symm.trans (hexcl (hmode.symm.trans hm))
    by_contra hij
    have htwo : 2 ≤ len.heldCount len.leases[i].resource := len.tab_counts.two i j hij hi hj hr
    omega

end Sys2Proof.Machine

/-! SUPPORT. The takes of expiry messages, each as one equation: discarded, or performed on the event it starts. -/

namespace Sys2Proof.Machine

section Expiries

variable {s : State} {d : Tick} {rest : List Deadline} (hc : s.len.configOpen = none)

include hc

theorem State.nextExpiry_head {m : Deadline} (hp : s.paths.lckToLen = m :: rest) : s.nextExpiry = some m := by
  unfold State.nextExpiry
  rw [hc, hp]
  rfl

omit hc in
theorem State.popExpiry_eq {m : Deadline} (hp : s.paths.lckToLen = m :: rest) :
    s.popExpiry = { s with paths := { s.paths with lckToLen := rest } } := by
  unfold State.popExpiry
  rw [hp]
  rfl

omit hc in
/-- The event of an expiry message that is genuine, once the message has left its path. -/
theorem State.runLen_popExpiry {m : Deadline} (hp : s.paths.lckToLen = m :: rest) (event : LenEvent → LenEvent) :
    s.popExpiry.runLen event = s.finishExpiry rest (event s.expiryEvent) := by
  rw [State.popExpiry_eq hp]
  rfl

theorem exec_leaseExpiry {i : RecIx} {g : Generation} (hp : s.paths.lckToLen = ⟨d, .lease i g⟩ :: rest) :
    exec .leaseExpiry s =
      .next
        (if s.len.leases[i].state = .held ∧ s.len.leases[i].generation = g ∧ s.len.leases[i].deadline = d then
          s.finishExpiry rest (s.expiryEvent.lapse i)
        else { s with paths := { s.paths with lckToLen := rest } }) := by
  change execLeaseExpiry s = _
  unfold execLeaseExpiry
  rw [State.nextExpiry_head hc hp]
  dsimp only
  rw [State.runLen_popExpiry hp, State.popExpiry_eq hp]
  unfold Len.leaseExpiryGenuine
  simp only [decide_eq_true_eq]

theorem exec_waitExpiry {w : WaitIx} {serial : Serial} (hp : s.paths.lckToLen = ⟨d, .wait w serial⟩ :: rest) :
    exec .waitExpiry s =
      .next
        (if s.len.waitExpiryGenuine d w serial then s.finishExpiry rest (s.expiryEvent.timeOut w)
        else { s with paths := { s.paths with lckToLen := rest } }) := by
  change execWaitExpiry s = _
  unfold execWaitExpiry
  rw [State.nextExpiry_head hc hp]
  dsimp only
  rw [State.runLen_popExpiry hp, State.popExpiry_eq hp]

theorem exec_keepaliveExpiry {n : SlotIx} {session : Session}
    (hp : s.paths.lckToLen = ⟨d, .keepalive n session⟩ :: rest) :
    exec .keepaliveExpiry s =
      .next
        (if s.len.slots[n].state = .active ∧ s.len.slots[n].session = session ∧
            s.len.slots[n].keepaliveDeadline = some d then
          s.finishExpiry rest (s.expiryEvent.loseSession n)
        else { s with paths := { s.paths with lckToLen := rest } }) := by
  change execKeepaliveExpiry s = _
  unfold execKeepaliveExpiry
  rw [State.nextExpiry_head hc hp]
  dsimp only
  rw [State.runLen_popExpiry hp, State.popExpiry_eq hp]
  unfold Len.keepaliveExpiryGenuine
  simp only [decide_eq_true_eq]

end Expiries

theorem Len.waitExpiryGenuine_iff (len : Len) (d : Tick) (w : WaitIx) (serial : Serial) :
    len.waitExpiryGenuine d w serial = true ↔ ∃ x, len.waits[w] = some x ∧ x.serial = serial ∧ x.deadline = some d := by
  unfold Len.waitExpiryGenuine
  cases h : len.waits[w] with
  | none => simp
  | some x => simp

/-- The lapse of a record with no UPGRADE wait (R43). -/
theorem LenEvent.lapse_alone {e : LenEvent} {i : RecIx} (hu : e.len.upgradeWaitOf i = none) :
    e.lapse i = (e.endHeld i .lapsed).grantPass e.len.leases[i].resource := by
  unfold LenEvent.lapse
  rw [LenEvent.lapseRecord_eq, LenEvent.endUpgradeOf_none ((e.endHeld_upgradeWaitOf i .lapsed).trans hu)]

/-- The lapse of a record whose UPGRADE wait stands in the queue of its resource (R43). -/
theorem LenEvent.lapse_waited {e : LenEvent} {i : RecIx} {w : WaitIx} {x : Wait} (hu : e.len.upgradeWaitOf i = some w)
    (hw : e.len.waits[w] = some x) (hr : x.resource = e.len.leases[i].resource) :
    e.lapse i =
      ({ e with
        len := (((e.len.setLease i { e.len.leases[i] with state := .lapsed, changeMark := true }).setEntry
          e.len.leases[i].resource (e.len.catalog[e.len.leases[i].resource].lowered.without w .upgrade)).setWait w
            none).answer x.slot x.tag
        toLck := e.toLck ++ x.removal w
        toRqu := e.toRqu ++ [.completion x.slot ⟨x.tag, .upgrade, .lapsed, []⟩] } : LenEvent).grantPass
        e.len.leases[i].resource := by
  unfold LenEvent.lapse
  rw [LenEvent.lapseRecord_eq, LenEvent.endUpgradeOf_some ((e.endHeld_upgradeWaitOf i .lapsed).trans hu) hw,
    LenEvent.endHeld_entry hr]
  rfl

theorem LenEvent.timeOut_eq {e : LenEvent} {w : WaitIx} {x : Wait} (hw : e.len.waits[w] = some x) :
    e.timeOut w = (e.finishWait w true .timedOut).grantPass x.resource := by
  unfold LenEvent.timeOut
  rw [hw]

/-- Settles O11: the test of each kind of message, and what a genuine one performs. -/
theorem expiriesAreDiscardedOrEndTheirLeaseOrWait : Obligations.ExpiriesAreDiscardedOrEndTheirLeaseOrWait := by
  refine ⟨fun s d rest hc => ⟨fun i g hp hn => ?lease, fun w serial hp hn => ?wait, fun n session hp hn => ?keepalive⟩,
    fun s d rest hc => ⟨fun i g hp hs hg hd => ?lapse, fun w serial x hp hw hs hd => ?timeOut⟩⟩
  case lease => rw [exec_leaseExpiry hc hp, if_neg hn]
  case wait =>
    rw [exec_waitExpiry hc hp, if_neg]
    rw [Len.waitExpiryGenuine_iff]
    exact fun ⟨x, hw, hx⟩ => hn x hw hx
  case keepalive => rw [exec_keepaliveExpiry hc hp, if_neg hn]
  case lapse =>
    have hrun := exec_leaseExpiry hc hp
    rw [if_pos ⟨hs, hg, hd⟩] at hrun
    refine ⟨fun hu => ?_, fun w x hu hw hr => ?_⟩
    · rw [hrun, LenEvent.lapse_alone hu]
      rfl
    · rw [hrun, LenEvent.lapse_waited hu hw hr]
      rfl
  case timeOut =>
    rw [exec_waitExpiry hc hp, if_pos ((Len.waitExpiryGenuine_iff _ _ _ _).2 ⟨x, hw, hs, hd⟩), LenEvent.timeOut_eq hw]

end Sys2Proof.Machine

/-! SUPPORT. The ends and the beginnings of sessions: keepalive loss, ATTACH and DETACH, each as one equation over the purge it makes. -/

namespace Sys2Proof.Machine

theorem LenEvent.purge_slots (e : LenEvent) (n : SlotIx) (session : Session) :
    (e.purge n session).len.slots = e.len.slots := (e.purge_quiet n session).slots

theorem LenEvent.purge_slot (e : LenEvent) (n : SlotIx) (session : Session) (m : SlotIx) :
    (e.purge n session).len.slots[m] = e.len.slots[m] := by
  simp only [e.purge_slots n session]

theorem Len.keepaliveRemoval_congr {a b : Len} {n : SlotIx}
    (hd : b.slots[n].keepaliveDeadline = a.slots[n].keepaliveDeadline) (hs : b.slots[n].session = a.slots[n].session) :
    b.keepaliveRemoval n = a.keepaliveRemoval n := by
  unfold Len.keepaliveRemoval
  rw [hd, hs]

theorem Len.touchedBy_congr {a b : Len} (hw : b.waits = a.waits) (hl : b.leases = a.leases) (n : SlotIx)
    (session : Session) : b.touchedBy n session = a.touchedBy n session := by
  unfold Len.touchedBy
  rw [hw, hl]

/-- The loss of a session, from its purge (R96). -/
theorem LenEvent.loseSession_eq (e : LenEvent) (n : SlotIx) :
    e.loseSession n =
      ({ e.purge n e.len.slots[n].session with
        len := (e.purge n e.len.slots[n].session).len.setSlot n
          { e.len.slots[n] with
            state := .lost, endCause := .keepalive, keepaliveDeadline := none, answered := Vector.replicate 8 false }
        toRqu := (e.purge n e.len.slots[n].session).toRqu ++ [.ended n .lost] } : LenEvent).purgePasses
        (e.len.touchedBy n e.len.slots[n].session) := by
  unfold LenEvent.loseSession
  dsimp only
  congr 1
  unfold LenEvent.clearAnswered LenEvent.modSlot LenEvent.notify
  simp only [Len.setSlot_self, Len.setSlot_setSlot, LenEvent.purge_slot]

/-- Settles O12. -/
theorem aGenuineKeepaliveExpiryLosesTheSession : Obligations.AGenuineKeepaliveExpiryLosesTheSession := by
  intro s d n rest hc session hp hs hd
  rw [exec_keepaliveExpiry hc hp, if_pos ⟨hs, rfl, hd⟩, LenEvent.loseSession_eq]
  rfl

/-! ## ATTACH -/

/-- LEN's event at the start of an ATTACH: the frame has been taken (R126). -/
def State.attachEvent (s : State) (p : Port) : LenEvent := { s.expiryEvent with len := { s.len with lastPort := p } }

theorem exec_attach {s : State} {p : Port} {f : Frame} (hf : s.frameOf .attach = some (p, f))
    (hlen : f.operands.length = 2) :
    exec .attach s =
      .next (s.finishTake p
        (if s.len.slots[f.slot].state = .active then
          (s.attachEvent p).attachReplacing p f (operandAt f.operands 0 2)
        else (s.attachEvent p).attachFresh p f (operandAt f.operands 0 2))) := by
  change execAttach s = _
  unfold execAttach
  rw [hf]
  dsimp only
  rw [if_pos (by rw [hlen]; exact List.mem_singleton.2 rfl), State.runLen_popFrame]
  rfl

/-- The end of an event that sends nothing to TWP. -/
theorem State.finishTake_eq_afterEvent (s : State) (p : Port) {e : LenEvent} (ht : e.toTwp = []) :
    s.finishTake p e = s.afterEvent p e.len e.toLck e.toRqu := by
  unfold State.finishTake State.afterEvent
  rw [ht, List.append_nil]

/-- Settles O13, from the equation of a fresh ATTACH. -/
theorem attachBeginsASession : Obligations.AttachBeginsASession := by
  intro s p f hf hlen hs
  rw [exec_attach hf hlen, if_neg hs, LenEvent.attachFresh_eq, State.finishTake_eq_afterEvent _ _ rfl,
    State.frameOf_kind hf]
  rfl

/-- A new session in the place of an old one, once that is purged (R92). -/
theorem LenEvent.replaceSession_eq {a : LenEvent} {f : Frame} {x : Slot} {now : Tick} (hx : a.len.slots[f.slot] = x)
    (hnow : a.now = now) (p : Port) (ticks : Nat) :
    a.replaceSession p f ticks (nextSession x.session) =
      { a with
        len := a.len.setSlot f.slot
          { x with
            state := .active, session := nextSession x.session, port := some p,
            keepaliveTerm := resolveKeepalive ticks,
            keepaliveDeadline := some (deadlineAfter now (resolveKeepalive ticks)),
            endCause := .replaced, answered := (Vector.replicate 8 false).set f.tag true }
        toLck := a.toLck ++ a.len.keepaliveRemoval f.slot ++
          [.insert ⟨deadlineAfter now (resolveKeepalive ticks), .keepalive f.slot (nextSession x.session)⟩]
        toRqu := a.toRqu ++
          [.ended f.slot .active, .begun f.slot (nextSession x.session) p,
            .completion f.slot
              ⟨f.tag, f.kind, .replaced,
                attachPayload (nextSession x.session) .replaced (resolveKeepalive ticks)⟩] } := by
  subst hx hnow
  unfold LenEvent.replaceSession LenEvent.removeKeepalive LenEvent.beginSession LenEvent.clearAnswered LenEvent.modSlot
    LenEvent.notify LenEvent.insertDeadline
  rw [LenEvent.replyWith_eq]
  unfold Len.answer
  simp only [Len.setSlot_self, Len.setSlot_setSlot, List.append_assoc]
  rfl

/-- Settles O14: the purge leaves the slot, on which the new session is then set up. -/
theorem attachToAnActiveSlotReplacesItsSession : Obligations.AttachToAnActiveSlotReplacesItsSession := by
  intro s p f hf hlen n x hx ticks term session d a b
  have hslot : a.len.slots[n] = x := (s.attachEvent p).purge_slot n x.session n
  have hnow : a.now = s.lck.clock := ((s.attachEvent p).purge_quiet n x.session).now
  have hremoval : a.len.keepaliveRemoval n = s.len.keepaliveRemoval n :=
    Len.keepaliveRemoval_congr (by rw [hslot]) (by rw [hslot])
  have replaced : a.replaceSession p f ticks session = b := by
    refine (LenEvent.replaceSession_eq hslot hnow p ticks).trans ?_
    rw [hremoval, State.frameOf_kind hf]
    rfl
  rw [exec_attach hf hlen, if_pos hx, LenEvent.attachReplacing_eq]
  exact congrArg (fun b : LenEvent => Host.Outcome.next (s.finishTake p (b.purgePasses (s.len.touchedBy n x.session))))
    replaced

/-! ## DETACH -/

theorem exec_detach (s : State) : exec .detach s = .next (s.takeRequest .detach fun f e => e.detach f) := rfl

/-- A DETACH, from the purge of the session (R93). -/
theorem LenEvent.detach_eq (e : LenEvent) (f : Frame) :
    e.detach f =
      ({ e.purge f.slot e.len.slots[f.slot].session with
        len := (e.purge f.slot e.len.slots[f.slot].session).len.setSlot f.slot
          { e.len.slots[f.slot] with
            state := .vacant, endCause := .detached, keepaliveDeadline := none, answered := Vector.replicate 8 false }
        toLck := (e.purge f.slot e.len.slots[f.slot].session).toLck ++ e.len.keepaliveRemoval f.slot
        toRqu := (e.purge f.slot e.len.slots[f.slot].session).toRqu ++ [.ended f.slot .vacant] } :
        LenEvent).purgePasses (e.len.touchedBy f.slot e.len.slots[f.slot].session) := by
  unfold LenEvent.detach
  dsimp only
  congr 1
  unfold LenEvent.removeKeepalive LenEvent.clearAnswered LenEvent.modSlot LenEvent.notify
  simp only [Len.setSlot_self, Len.setSlot_setSlot, LenEvent.purge_slot]
  rw [Len.keepaliveRemoval_congr (a := e.len) (by rw [LenEvent.purge_slot]) (by rw [LenEvent.purge_slot])]

/-- The take of a DETACH leaves its slot but for the answer mark (R94). -/
theorem State.takeEvent_slot_detach (s : State) (p : Port) {f : Frame} (hk : f.kind = .detach) :
    (s.takeEvent p f).len.slots[f.slot] =
      { s.len.slots[f.slot] with answered := s.len.slots[f.slot].answered.set f.tag false } := by
  refine (Len.setSlot_self _ _ _).trans ?_
  unfold Slot.afterTake
  rw [if_pos hk]

/-- Settles O15, from the equation of a DETACH. -/
theorem detachEndsTheSession : Obligations.DetachEndsTheSession := by
  intro s p f h n session a b
  have hslot := s.takeEvent_slot_detach p (State.frameOf_kind h.1.1)
  have detached := (s.takeEvent p f).detach_eq f
  rw [Len.touchedBy_congr (a := s.len) (b := (s.takeEvent p f).len) rfl rfl,
    Len.keepaliveRemoval_congr (a := s.len) (by rw [hslot]) (by rw [hslot]), hslot] at detached
  rw [exec_detach, State.takeRequest_offered h, detached]

/-! ## What an ended session leaves -/

theorem State.finishExpiry_len (s : State) (rest : List Deadline) (e : LenEvent) :
    (s.finishExpiry rest e).len = e.len.withNews s.len := rfl

theorem State.finishTake_len (s : State) (p : Port) (e : LenEvent) : (s.finishTake p e).len = e.len.withNews s.len := rfl

/-- Grant passes give nothing to a session that has nothing left (R97, R98). -/
theorem Len.clearOf.afterPasses {a b : LenEvent} {n : SlotIx} {session : Session} (h : a.len.clearOf n session)
    (hs : session ≠ 0) (hw : b.len.waits = a.len.waits) (hl : b.len.leases = a.len.leases) (touched : List ResIx)
    (before : Len) : ((b.purgePasses touched).len.withNews before).ownsNothing n session :=
  ((h.sheds hs (.of_eq hw hl)).sheds hs (b.purgePasses_sheds touched)).owns

/-- Settles O17: each of the three ends is a purge, then passes that give nothing to the session. -/
theorem anEndedSessionOwnsNothing : Obligations.AnEndedSessionOwnsNothing := by
  intro s n hf hs
  refine ⟨fun d rest hc hp ha hd => ⟨_, aGenuineKeepaliveExpiryLosesTheSession s d n rest hc hp ha hd, ?keepalive⟩,
    fun p f h hn => ⟨_, detachEndsTheSession s p f h, ?detach⟩,
    fun p f h hlen hn ha => ⟨_, attachToAnActiveSlotReplacesItsSession s p f h hlen (hn ▸ ha), ?attach⟩⟩
  case keepalive =>
    rw [State.finishExpiry_len]
    refine (s.expiryEvent.purge_clearOf n _ hs hf).afterPasses hs ?_ ?_ _ _
    all_goals rfl
  case detach =>
    subst hn
    rw [State.finishTake_len]
    refine ((s.takeEvent p f).purge_clearOf f.slot _ hs hf).afterPasses hs ?_ ?_ _ _
    all_goals rfl
  case attach =>
    subst hn
    rw [State.finishTake_len]
    refine ((s.attachEvent p).purge_clearOf f.slot _ hs hf).afterPasses hs ?_ ?_ _ _
    all_goals rfl

end Sys2Proof.Machine

/-! SUPPORT. Turns: which frame comes next, and that its take is the take of that frame alone. -/

namespace Sys2Proof.Machine

theorem State.nextFrame_none {s : State} {p other : Port} (hne : other ≠ p)
    (h : s.len.configOpen ≠ none ∨ (s.rqu.port p).queue = [] ∧ (s.rqu.port other).queue = []) : s.nextFrame = none := by
  unfold State.nextFrame
  obtain hc | ⟨hp, ho⟩ := h
  · rw [if_pos (Option.isSome_iff_ne_none.2 hc)]
  · have ha : s.arbiter = none := by
      unfold State.arbiter
      cases p <;> cases other
      case twp.fwp => rw [show s.rqu.twp.queue = [] from hp, show s.rqu.fwp.queue = [] from ho]
      case fwp.twp => rw [show s.rqu.twp.queue = [] from ho, show s.rqu.fwp.queue = [] from hp]
      all_goals exact absurd rfl hne
    rw [ha, ite_self]

/-- The port whose turn it is, and that has frames (R126). -/
theorem State.arbiter_eq {s : State} {p other : Port} {f : Frame} {rest : List Frame} (hne : other ≠ p)
    (hp : (s.rqu.port p).queue = f :: rest) (ho : (s.rqu.port other).queue = [] ∨ s.len.lastPort = other) :
    s.arbiter = some p := by
  unfold State.arbiter
  cases p <;> cases other
  case twp.fwp =>
    rw [show s.rqu.twp.queue = f :: rest from hp]
    cases hq : s.rqu.fwp.queue with
    | nil => rfl
    | cons g gs => rw [ho.resolve_left fun h => List.cons_ne_nil g gs (hq.symm.trans h)]
  case fwp.twp =>
    rw [show s.rqu.fwp.queue = f :: rest from hp]
    cases hq : s.rqu.twp.queue with
    | nil => rfl
    | cons g gs => rw [ho.resolve_left fun h => List.cons_ne_nil g gs (hq.symm.trans h)]
  all_goals exact absurd rfl hne

theorem State.nextFrame_some {s : State} {p other : Port} {f : Frame} {rest : List Frame} (hne : other ≠ p)
    (hc : s.len.configOpen = none) (hp : (s.rqu.port p).queue = f :: rest)
    (ho : (s.rqu.port other).queue = [] ∨ s.len.lastPort = other) : s.nextFrame = some (p, f) := by
  unfold State.nextFrame
  rw [if_neg (by rw [hc]; decide), State.arbiter_eq hne hp ho]
  dsimp only
  rw [hp]
  rfl

theorem State.frameOf_none {s : State} (h : s.nextFrame = none) (k : ReqKind) : s.frameOf k = none := by
  unfold State.frameOf
  rw [h]

theorem State.frameOf_next {s : State} {p : Port} {f : Frame} (h : s.nextFrame = some (p, f)) (k : ReqKind) :
    s.frameOf k = if f.kind = k then some (p, f) else none := by
  unfold State.frameOf
  rw [h]

/-- A command for a kind that is not the next frame's changes nothing (log 1). -/
theorem exec_commandOf_none {s : State} {k : ReqKind} (h : s.frameOf k = none) : exec (commandOf k) s = .next s := by
  by_cases hk : k = .attach
  · subst hk
    change execAttach s = _
    unfold execAttach
    rw [h]
  · obtain ⟨request, hr⟩ := exec_commandOf hk
    rw [hr]
    unfold State.takeRequest
    rw [h]

/-- Every request but ATTACH is taken by the shared take, and leaves the port taken from last as it is. -/
theorem exec_commandOf_keepsTurn {k : ReqKind} (hk : k ≠ .attach) :
    ∃ request : Frame → LenEvent → LenEvent, (∀ s, exec (commandOf k) s = .next (s.takeRequest k request)) ∧
      ∀ f e, LenEvent.KeepsTurn e (request f e) := by
  cases k
  case attach => exact absurd rfl hk
  case detach => exact ⟨_, fun _ => rfl, fun f e => e.detach_turn f⟩
  case ping => exact ⟨_, fun _ => rfl, fun _ _ => rfl⟩
  case querySlot => exact ⟨_, fun _ => rfl, fun f e => (e.querySlot_grows f).turn⟩
  case acquire => exact ⟨_, fun _ => rfl, fun f e => (e.acquire_grows f).turn⟩
  case release => exact ⟨_, fun _ => rfl, fun f e => (e.release_grows f).turn⟩
  case renew => exact ⟨_, fun _ => rfl, fun f e => (e.renew_grows f).turn⟩
  case downgrade => exact ⟨_, fun _ => rfl, fun f e => (e.downgrade_grows f).turn⟩
  case upgrade => exact ⟨_, fun _ => rfl, fun f e => (e.upgrade_grows f).turn⟩
  case cancel => exact ⟨_, fun _ => rfl, fun f e => (e.cancel_grows f).turn⟩
  case breakLease => exact ⟨_, fun _ => rfl, fun f e => (e.breakLease_grows f).turn⟩
  case notices => exact ⟨_, fun _ => rfl, fun f e => (e.notices_grows f).turn⟩
  case queryLease => exact ⟨_, fun _ => rfl, fun f e => (e.queryLease_grows f).turn⟩
  case queryResource => exact ⟨_, fun _ => rfl, fun f e => (e.queryResource_grows f).turn⟩
  case define => exact ⟨_, fun _ => rfl, fun f e => e.define_turn f⟩
  case retire => exact ⟨_, fun _ => rfl, fun f e => e.retire_turn f⟩
  case tokenCheck => exact ⟨_, fun _ => rfl, fun f e => (e.tokenCheck_grows f).turn⟩
  case profileRead => exact ⟨_, fun _ => rfl, fun f e => (e.profileRead_grows f).turn⟩
  case profileSet => exact ⟨_, fun _ => rfl, fun f e => e.profileSet_turn f⟩
  case profileRestore => exact ⟨_, fun _ => rfl, fun f e => e.profileRestore_turn f⟩
  case profileFreeze => exact ⟨_, fun _ => rfl, fun f e => e.profileFreeze_turn f⟩
  case config => exact ⟨_, fun _ => rfl, fun f e => e.config_turn f⟩

theorem State.finishTake_turn {s : State} {p : Port} {e : LenEvent} (h : (s.attachEvent p).KeepsTurn e) :
    (s.finishTake p e).rqu = (s.popFrame p).rqu ∧ (s.finishTake p e).len.lastPort = p := ⟨rfl, h⟩

/-- The take of a frame, whatever it performs, leaves RQU as the removal of the frame alone does (R126). -/
theorem exec_commandOf_turn {s : State} {k : ReqKind} {p : Port} {f : Frame} (hf : s.frameOf k = some (p, f)) :
    ∃ t, exec (commandOf k) s = .next t ∧ t.rqu = (s.popFrame p).rqu ∧ t.len.lastPort = p := by
  by_cases hk : k = .attach
  · subst hk
    by_cases hlen : f.operands.length = 2
    · refine ⟨_, exec_attach hf hlen, State.finishTake_turn ?_⟩
      split
      · exact LenEvent.attachReplacing_turn (s.attachEvent p) p f _
      · exact LenEvent.attachFresh_turn (s.attachEvent p) p f _
    · exact ⟨_, exec_attach_badLength hf hlen, s.refuseAtTake_turn p _ f⟩
  · obtain ⟨request, hr, ht⟩ := exec_commandOf_keepsTurn hk
    exact ⟨_, hr s, State.takeRequest_turn hf ht⟩

/-- Settles O18: no frame, a frame of another kind, and the take of a frame of the kind. -/
theorem framesAreTakenFromThePortsInTurn : Obligations.FramesAreTakenFromThePortsInTurn := by
  intro s k p other f rest hne queue comesNext
  refine ⟨fun h => ?none, fun ⟨hc, hp, ho⟩ hk => ?other, fun ⟨hc, hp, ho⟩ hk => ?taken⟩
  case none =>
    have hf := State.frameOf_none (State.nextFrame_none hne h) k
    exact ⟨hf, exec_commandOf_none hf⟩
  case other =>
    have hf := (State.frameOf_next (State.nextFrame_some hne hc hp ho) k).trans (if_neg hk)
    exact ⟨hf, exec_commandOf_none hf⟩
  case taken =>
    have hf := (State.frameOf_next (State.nextFrame_some hne hc hp ho) k).trans (if_pos hk)
    obtain ⟨t, ht, hrqu, hlast⟩ := exec_commandOf_turn hf
    have hp' : (s.rqu.port p).queue = f :: rest := hp
    have hpop : s.popFrame p =
        { s with
          rqu := s.rqu.setPort p { s.rqu.port p with queue := rest }
          len := { s.len with lastPort := p } } := by
      unfold State.popFrame
      rw [hp']
      rfl
    refine ⟨hf, hpop, t, ht, ?_, ?_, hlast⟩
    · rw [hrqu, hpop]
      cases p <;> rfl
    · rw [hrqu, hpop]
      cases p <;> cases other
      case twp.fwp => rfl
      case fwp.twp => rfl
      all_goals exact absurd rfl hne

end Sys2Proof.Machine

/-! SUPPORT. The purge of a session: what its wait drops and its frees do to the waits, the records and the entries, one by one, and what they send to LCK. -/

namespace Sys2Proof.Machine

/-! ## What part of a purge does -/

/-- An entry that has lost holders or waits, and nothing else. -/
def Entry.Loses (a b : Entry) : Prop :=
  b = { a with
    holderMode := b.holderMode, holderCount := b.holderCount, queue := b.queue, upgradePending := b.upgradePending } ∧
  b.queue.Sublist a.queue

theorem Entry.Loses.refl (a : Entry) : a.Loses a := ⟨rfl, List.Sublist.refl _⟩

theorem Entry.Loses.trans {a b c : Entry} (h : a.Loses b) (k : b.Loses c) : a.Loses c := by
  obtain ⟨hb, hq⟩ := h
  obtain ⟨hc, kq⟩ := k
  refine ⟨?_, kq.trans hq⟩
  rw [hb] at hc
  exact hc

theorem Entry.Loses.state {a b : Entry} (h : a.Loses b) : b.state = a.state := by rw [h.1]

theorem Entry.Loses.epoch {a b : Entry} (h : a.Loses b) : b.epoch = a.epoch := by rw [h.1]

theorem Entry.loses_lowered (en : Entry) : en.Loses en.lowered := ⟨rfl, List.Sublist.refl _⟩

theorem Entry.loses_without (en : Entry) (w : WaitIx) (k : WaitKind) : en.Loses (en.without w k) :=
  ⟨rfl, List.erase_sublist⟩

/-- No record in use refers to the entry. -/
def Len.unused (len : Len) (r : ResIx) : Prop :=
  ∀ i : RecIx, len.leases[i].state ≠ .free → len.leases[i].resource ≠ r

/-- Part of the purge of a session: records and waits of the session end, entries lose holders and waits, and a DRAINING entry becomes VACANT with the last record in use on it, and only then (R12, R97). -/
structure Len.Purges (n : SlotIx) (session : Session) (a b : Len) : Prop where
  lease : ∀ i : RecIx, b.leases[i] = a.leases[i] ∨
    a.leases[i].ofSession n session = true ∧ b.leases[i] = a.leases[i].freed
  wait : ∀ w : WaitIx, b.waits[w] = a.waits[w] ∨
    b.waits[w] = none ∧ ∃ x, a.waits[w] = some x ∧ x.ofSession n session = true
  entry : ∀ r : ResIx, a.catalog[r].Loses b.catalog[r] ∨
    a.catalog[r].state = .draining ∧ (∃ i : RecIx, a.leases[i].ofSession n session = true ∧ a.leases[i].resource = r) ∧
      (Entry.vacant a.catalog[r].epoch).Loses b.catalog[r] ∧ b.unused r
  drained : ∀ r : ResIx, b.catalog[r].state = .draining → b.unused r → a.unused r

theorem Lease.ofSession_iff (l : Lease) (n : SlotIx) (session : Session) :
    l.ofSession n session = true ↔ l.state ≠ .free ∧ l.slot = n ∧ l.session = session := decide_eq_true_iff

theorem Wait.ofSession_iff (x : Wait) (n : SlotIx) (session : Session) :
    x.ofSession n session = true ↔ x.slot = n ∧ x.session = session := decide_eq_true_iff

theorem Lease.freed_not_ofSession (l : Lease) (n : SlotIx) (session : Session) : ¬l.freed.ofSession n session = true :=
  fun h => ((Lease.ofSession_iff _ _ _).1 h).1 rfl

section Purges

variable {n : SlotIx} {session : Session}

theorem Len.Purges.refl (a : Len) : Len.Purges n session a a :=
  ⟨fun _ => .inl rfl, fun _ => .inl rfl, fun _ => .inl (.refl _), fun _ _ => id⟩

/-- A record of the session that is left was there before. -/
theorem Len.Purges.owned {a b : Len} (h : Len.Purges n session a b) {i : RecIx}
    (hi : b.leases[i].ofSession n session = true) : b.leases[i] = a.leases[i] := by
  obtain hl | ⟨_, hl⟩ := h.lease i
  · exact hl
  · rw [hl] at hi
    exact absurd hi (Lease.freed_not_ofSession _ _ _)

/-- A record in use that is left was there before. -/
theorem Len.Purges.used {a b : Len} (h : Len.Purges n session a b) {i : RecIx} (hi : b.leases[i].state ≠ .free) :
    b.leases[i] = a.leases[i] := by
  obtain hl | ⟨_, hl⟩ := h.lease i
  · exact hl
  · rw [hl] at hi
    exact absurd rfl hi

theorem Len.Purges.unused {a b : Len} (h : Len.Purges n session a b) {r : ResIx} (hr : a.unused r) : b.unused r := by
  intro i hi
  have hl := h.used hi
  rw [hl] at hi ⊢
  exact hr i hi

/-- An entry that is DRAINING was DRAINING before. -/
theorem Len.Purges.draining {a b : Len} (h : Len.Purges n session a b) {r : ResIx}
    (hr : b.catalog[r].state = .draining) : a.catalog[r].state = .draining := by
  obtain hk | ⟨hd, _⟩ := h.entry r
  · exact hk.state.symm.trans hr
  · exact hd

theorem Len.Purges.trans {a b c : Len} (h : Len.Purges n session a b) (k : Len.Purges n session b c) :
    Len.Purges n session a c := by
  refine ⟨fun i => ?lease, fun w => ?wait, fun r => ?entry, fun r hr hu => h.drained r (k.draining hr) (k.drained r hr hu)⟩
  case lease =>
    obtain kl | ⟨ko, kl⟩ := k.lease i
    · rw [kl]
      exact h.lease i
    · have hl := h.owned ko
      rw [hl] at ko kl
      exact .inr ⟨ko, kl⟩
  case wait =>
    obtain kw | ⟨kw, x, hx, ko⟩ := k.wait w
    · rw [kw]
      exact h.wait w
    · obtain hw | ⟨hw, _⟩ := h.wait w
      · exact .inr ⟨kw, x, hw.symm.trans hx, ko⟩
      · cases hw.symm.trans hx
  case entry =>
    obtain hk | ⟨hd, ho, hv, hu⟩ := h.entry r
    · obtain kk | ⟨kd, ⟨i, ko, kr⟩, kv, ku⟩ := k.entry r
      · exact .inl (hk.trans kk)
      · have hl := h.owned ko
        rw [hl] at ko kr
        rw [hk.epoch] at kv
        exact .inr ⟨hk.state.symm.trans kd, ⟨i, ko, kr⟩, kv, ku⟩
    · obtain kk | ⟨kd, _⟩ := k.entry r
      · exact .inr ⟨hd, ho, hv.trans kk, k.unused hu⟩
      · cases hv.state.symm.trans kd

/-! ## One record, one wait -/

/-- The entry of a record that is freed: with the last record in use on it, a DRAINING one becomes VACANT. -/
theorem Len.entryAfterFreeing_cases (len : Len) (r : ResIx) (en : Entry) :
    en.state = .draining ∧ len.recordsOn r = 1 ∧ len.entryAfterFreeing r en = Entry.vacant en.epoch ∨
      (en.state = .draining → len.recordsOn r ≠ 1) ∧ len.entryAfterFreeing r en = en := by
  unfold Len.entryAfterFreeing
  by_cases h : en.state = .draining ∧ len.recordsOn r = 1
  · exact .inl ⟨h.1, h.2, if_pos h⟩
  · exact .inr ⟨fun hd hr => h ⟨hd, hr⟩, if_neg h⟩

/-- The freeing of a record in use lowers the entry's holders, or leaves them, before the entry may become VACANT. -/
theorem LenEvent.freeRecord_entry (e : LenEvent) (i : RecIx) (h : e.len.leases[i].state ≠ .free) (r : ResIx) :
    ∃ en, e.len.catalog[r].Loses en ∧
      (e.freeRecord i).len.catalog[r] =
        if r = e.len.leases[i].resource then e.len.entryAfterFreeing r en else e.len.catalog[r] := by
  by_cases hh : e.len.leases[i].state = .held
  · exact ⟨_, Entry.loses_lowered _, e.freeRecord_entry_held i hh r⟩
  · exact ⟨_, .refl _, e.freeRecord_entry_ended i h hh r⟩

theorem LenEvent.freeRecord_freed (e : LenEvent) (i j : RecIx) :
    (e.freeRecord i).len.leases[j] = if j = i then e.len.leases[i].freed else e.len.leases[j] :=
  e.freeRecord_lease i j

/-- With the freeing of a record in use its entry has one record fewer. -/
theorem LenEvent.freeRecord_recordsOn (e : LenEvent) (i : RecIx) (h : e.len.leases[i].state ≠ .free) :
    (e.freeRecord i).len.recordsOn e.len.leases[i].resource + 1 = e.len.recordsOn e.len.leases[i].resource := by
  rw [Len.recordsOn_congr (e.freeRecord_leases i)]
  exact Len.recordsOn_free rfl h

theorem Len.recordsOn_eq_zero (len : Len) (r : ResIx) : len.recordsOn r = 0 ↔ len.unused r := len.recordsOn_zero r

/-- The freeing of a record of the session is part of its purge. -/
theorem LenEvent.freeRecord_purges (e : LenEvent) {i : RecIx} (hi : e.len.leases[i].ofSession n session = true) :
    Len.Purges n session e.len (e.freeRecord i).len := by
  obtain ⟨hs, _⟩ := (Lease.ofSession_iff _ _ _).1 hi
  have hcount := e.freeRecord_recordsOn i hs
  refine ⟨fun j => ?lease, fun w => .inl (by rw [e.freeRecord_waits i]), fun r => ?entry, fun r hr hu => ?drained⟩
  case lease =>
    rw [e.freeRecord_freed]
    split
    · next hj =>
      subst hj
      exact .inr ⟨hi, rfl⟩
    · exact .inl rfl
  case entry =>
    obtain ⟨en, hen, hr⟩ := e.freeRecord_entry i hs r
    rw [hr]
    split
    · next hri =>
      subst hri
      obtain ⟨hd, hone, hv⟩ | ⟨_, hk⟩ := e.len.entryAfterFreeing_cases e.len.leases[i].resource en
      · refine .inr ⟨hen.state.symm.trans hd, ⟨i, hi, rfl⟩, ?_, (Len.recordsOn_eq_zero _ _).1 (by omega)⟩
        rw [hv, hen.epoch]
        exact .refl _
      · rw [hk]
        exact .inl hen
    · exact .inl (.refl _)
  case drained =>
    obtain ⟨en, hen, her⟩ := e.freeRecord_entry i hs r
    rw [her] at hr
    split at hr
    · next hri =>
      subst hri
      obtain ⟨_, _, hv⟩ | ⟨hne, hk⟩ := e.len.entryAfterFreeing_cases e.len.leases[i].resource en
      · rw [hv] at hr
        cases hr
      · rw [hk] at hr
        have := hne hr
        have := (Len.recordsOn_eq_zero _ _).2 hu
        omega
    · next hri =>
      intro j hj
      by_cases hji : j = i
      · subst hji
        exact fun h => hri h.symm
      · have hl := e.freeRecord_freed i j
        rw [if_neg hji] at hl
        rw [← hl] at hj ⊢
        exact hu j hj

/-- The end of a wait of the session is part of its purge. -/
theorem LenEvent.endWait_purges (e : LenEvent) {w : WaitIx} {x : Wait} (hw : e.len.waits[w] = some x)
    (hx : x.ofSession n session = true) (timedOut : Bool) :
    Len.Purges n session e.len (e.endWait w timedOut).len := by
  have hl := e.endWait_leases w timedOut
  have hentry (r : ResIx) : e.len.catalog[r].Loses (e.endWait w timedOut).len.catalog[r] := by
    rw [e.endWait_entry w x timedOut hw]
    split
    · next hr =>
      subst hr
      exact Entry.loses_without _ _ _
    · exact .refl _
  refine ⟨fun i => .inl (by rw [hl]), fun v => ?wait, fun r => .inl (hentry r), fun r _ hu i hi => ?drained⟩
  case wait =>
    rw [e.endWait_wait]
    split
    · next hv =>
      subst hv
      exact .inr ⟨rfl, x, hw, hx⟩
    · exact .inl rfl
  case drained =>
    have := hu i
    rw [hl] at this
    exact this hi

/-- The drop of a wait of the session is part of its purge: an ACQUIRE wait's record is the session's too. -/
theorem LenEvent.Ok.dropWait_purges {e : LenEvent} (h : e.Ok) {w : WaitIx} {x : Wait} (hw : e.len.waits[w] = some x)
    (hx : x.ofSession n session = true) (timedOut : Bool) :
    Len.Purges n session e.len (e.dropWait w timedOut).len := by
  by_cases hk : x.kind = .upgrade
  · rw [LenEvent.dropWait_upgrade e w x timedOut hw hk]
    exact e.endWait_purges hw hx timedOut
  · rw [LenEvent.dropWait_acquire e w x timedOut hw hk]
    refine (e.endWait_purges hw hx timedOut).trans (LenEvent.freeRecord_purges _ ?_)
    obtain ⟨hs, _⟩ := h.acquireWait hw hk
    obtain ⟨hslot, hsession⟩ := h.slot w x hw
    rw [Wait.ofSession_iff] at hx
    simp only [e.endWait_leases w timedOut, Lease.ofSession_iff]
    exact ⟨by rw [hs]; decide, hslot.trans hx.1, hsession.trans hx.2⟩

theorem LenEvent.dropWait_free {e : LenEvent} {w : WaitIx} (hw : e.len.waits[w] = none) (timedOut : Bool) :
    e.dropWait w timedOut = e := by
  unfold LenEvent.dropWait
  rw [hw]

/-! ## All of them -/

theorem LenEvent.Ok.dropWaits_purges {e : LenEvent} (h : e.Ok) (ws : List WaitIx)
    (hws : ∀ w ∈ ws, ∀ x, e.len.waits[w] = some x → x.ofSession n session = true) :
    Len.Purges n session e.len (ws.foldl (fun e w => e.dropWait w false) e).len := by
  induction ws generalizing e with
  | nil => exact .refl _
  | cons w ws ih =>
    have hrest : ∀ v ∈ ws, ∀ x, (e.dropWait w false).len.waits[v] = some x → x.ofSession n session = true := by
      intro v hv x hx
      rw [e.dropWait_wait] at hx
      split at hx
      · cases hx
      · exact hws v (List.mem_cons_of_mem _ hv) x hx
    have hfirst : Len.Purges n session e.len (e.dropWait w false).len := by
      cases hw : e.len.waits[w] with
      | none => rw [LenEvent.dropWait_free hw]; exact .refl _
      | some x => exact h.dropWait_purges hw (hws w List.mem_cons_self x hw) false
    exact hfirst.trans (ih (h.dropWait w false) hrest)

theorem LenEvent.freeRecords_purges (is : List RecIx) (hn : is.Nodup) (e : LenEvent)
    (his : ∀ i ∈ is, e.len.leases[i].ofSession n session = true) :
    Len.Purges n session e.len (is.foldl LenEvent.freeRecord e).len := by
  induction is generalizing e with
  | nil => exact .refl _
  | cons i is ih =>
    rw [List.nodup_cons] at hn
    refine (e.freeRecord_purges (his i List.mem_cons_self)).trans (ih hn.2 _ fun j hj => ?_)
    rw [e.freeRecord_freed, if_neg fun h : j = i => hn.1 (h ▸ hj)]
    exact his j (List.mem_cons_of_mem _ hj)

end Purges

/-- A chain of frees leaves its records FREE. -/
theorem LenEvent.foldl_freeRecord_state (is : List RecIx) (e : LenEvent) (i : RecIx) (h : i ∈ is) :
    (is.foldl LenEvent.freeRecord e).len.leases[i].state = .free := by
  induction is generalizing e with
  | nil => cases h
  | cons j is ih =>
    obtain rfl | h := List.mem_cons.1 h
    · by_contra hn
      have hs := Len.Stays.foldl LenEvent.freeRecord_stays is (e.freeRecord i)
      obtain ⟨hne, _⟩ := hs i hn
      rw [e.freeRecord_freed, if_pos rfl] at hne
      exact hne rfl
    · exact ih _ h

/-! ## What a purge sends -/

/-- The removal LEN sends for a wait that ends, if it has a deadline. -/
def Len.waitRemoval (len : Len) (w : WaitIx) : List LckReq :=
  match len.waits[w] with
  | none => []
  | some x => x.removal w

/-- The removal LEN sends for a record that is freed, if it is HELD. -/
def Len.leaseRemoval (len : Len) (i : RecIx) : List LckReq :=
  if len.leases[i].state = .held then [.remove (len.leaseDeadline i)] else []

theorem LenEvent.clearRecord_toLck (e : LenEvent) (i : RecIx) : (e.clearRecord i).toLck = e.toLck := by
  unfold LenEvent.clearRecord LenEvent.vacateIfDrained
  split <;> rfl

theorem LenEvent.freeRecord_toLck (e : LenEvent) (i : RecIx) :
    (e.freeRecord i).toLck = e.toLck ++ e.len.leaseRemoval i := by
  unfold LenEvent.freeRecord Len.leaseRemoval
  split
  · exact LenEvent.clearRecord_toLck _ i
  · rw [LenEvent.clearRecord_toLck, List.append_nil]

/-- The drop of a wait sends the removal of its WAIT entry alone: the record of an ACQUIRE wait is not HELD. -/
theorem LenEvent.Ok.dropWait_toLck {e : LenEvent} (h : e.Ok) (w : WaitIx) :
    (e.dropWait w false).toLck = e.toLck ++ e.len.waitRemoval w := by
  unfold Len.waitRemoval
  cases hw : e.len.waits[w] with
  | none => rw [LenEvent.dropWait_free hw]; exact (List.append_nil _).symm
  | some x =>
    have hend : (e.endWait w false).toLck = e.toLck ++ x.removal w := by
      rw [LenEvent.endWait_eq e w x false hw]
      rfl
    by_cases hk : x.kind = .upgrade
    · rw [LenEvent.dropWait_upgrade e w x false hw hk, hend]
    · obtain ⟨hs, _⟩ := h.acquireWait hw hk
      rw [LenEvent.dropWait_acquire e w x false hw hk, LenEvent.freeRecord_toLck, hend]
      unfold Len.leaseRemoval
      rw [if_neg, List.append_nil]
      simp only [e.endWait_leases w false, hs]
      decide

theorem LenEvent.Ok.dropWaits_toLck {e : LenEvent} (h : e.Ok) (ws : List WaitIx) (hn : ws.Nodup) :
    (ws.foldl (fun e w => e.dropWait w false) e).toLck = e.toLck ++ ws.flatMap e.len.waitRemoval := by
  induction ws generalizing e with
  | nil => exact (List.append_nil _).symm
  | cons w ws ih =>
    rw [List.nodup_cons] at hn
    have hsame : ws.flatMap (e.dropWait w false).len.waitRemoval = ws.flatMap e.len.waitRemoval := by
      refine List.flatMap_congr fun v hv => ?_
      unfold Len.waitRemoval
      rw [e.dropWait_wait, if_neg fun c : v = w => hn.1 (c ▸ hv)]
    rw [List.foldl_cons, ih (h.dropWait w false) hn.2, h.dropWait_toLck, hsame, List.append_assoc, List.flatMap_cons]

theorem LenEvent.freeRecords_toLck (is : List RecIx) (hn : is.Nodup) (e : LenEvent) :
    (is.foldl LenEvent.freeRecord e).toLck = e.toLck ++ is.flatMap e.len.leaseRemoval := by
  induction is generalizing e with
  | nil => exact (List.append_nil _).symm
  | cons i is ih =>
    rw [List.nodup_cons] at hn
    have hsame : is.flatMap (e.freeRecord i).len.leaseRemoval = is.flatMap e.len.leaseRemoval := by
      refine List.flatMap_congr fun j hj => ?_
      unfold Len.leaseRemoval Len.leaseDeadline
      rw [e.freeRecord_freed, if_neg fun c : j = i => hn.1 (c ▸ hj)]
    rw [List.foldl_cons, ih hn.2, e.freeRecord_toLck, hsame, List.append_assoc, List.flatMap_cons]

/-- The drops of waits leave every HELD record: an ACQUIRE wait's is RESERVED. -/
theorem LenEvent.Ok.dropWaits_held {e : LenEvent} (h : e.Ok) (ws : List WaitIx) (i : RecIx)
    (hi : e.len.leases[i].state = .held) :
    (ws.foldl (fun e w => e.dropWait w false) e).len.leases[i] = e.len.leases[i] := by
  induction ws generalizing e with
  | nil => rfl
  | cons w ws ih =>
    have hkeep : (e.dropWait w false).len.leases[i] = e.len.leases[i] := by
      cases hw : e.len.waits[w] with
      | none => rw [LenEvent.dropWait_free hw]
      | some x =>
        by_cases hk : x.kind = .upgrade
        · rw [LenEvent.dropWait_upgrade e w x false hw hk]
          simp only [e.endWait_leases w false]
        · obtain ⟨hs, _⟩ := h.acquireWait hw hk
          rw [LenEvent.dropWait_acquire e w x false hw hk, LenEvent.freeRecord_freed, if_neg]
          · simp only [e.endWait_leases w false]
          · rintro rfl
            rw [hs] at hi
            cases hi
    rw [List.foldl_cons, ih (h.dropWait w false) (by rw [hkeep]; exact hi), hkeep]

theorem flatMap_filter {α β : Type} (p : α → Bool) (f : α → List β) (l : List α) :
    (l.filter p).flatMap f = l.flatMap fun x => if p x then f x else [] := by
  induction l with
  | nil => rfl
  | cons x l ih =>
    rw [List.filter_cons, List.flatMap_cons, ← ih]
    split
    · exact List.flatMap_cons
    · rfl

/-! ## The purge -/

/-- A purge once its waits have ended (R97 step 1). -/
def LenEvent.dropWaitsOf (e : LenEvent) (n : SlotIx) (session : Session) : LenEvent :=
  (e.len.waitsOf n session).foldl (fun e w => e.dropWait w false) e

theorem LenEvent.purge_eq (e : LenEvent) (n : SlotIx) (session : Session) :
    e.purge n session =
      ((e.dropWaitsOf n session).len.recordsOf n session).foldl LenEvent.freeRecord (e.dropWaitsOf n session) := rfl

theorem Len.waitsOf_nodup (len : Len) (n : SlotIx) (session : Session) : (len.waitsOf n session).Nodup :=
  (List.nodup_finRange 96).filter _

theorem Len.recordsOf_nodup (len : Len) (n : SlotIx) (session : Session) : (len.recordsOf n session).Nodup :=
  (List.nodup_finRange 128).filter _

theorem Len.mem_recordsOf_iff (len : Len) (n : SlotIx) (session : Session) (i : RecIx) :
    i ∈ len.recordsOf n session ↔ len.leases[i].ofSession n session = true :=
  (len.mem_recordsOf n session i).trans (Lease.ofSession_iff _ _ _).symm

section Purge

variable {e : LenEvent} (h : e.Ok) (n : SlotIx) (session : Session)

include h

theorem LenEvent.Ok.dropWaitsOf_purges : Len.Purges n session e.len (e.dropWaitsOf n session).len := by
  refine h.dropWaits_purges _ fun w hw x hx => ?_
  obtain ⟨y, hy, ho⟩ := (Len.mem_waitsOf _ _ _ _).1 hw
  cases hx.symm.trans hy
  exact (Wait.ofSession_iff _ _ _).2 ho

omit h in
theorem LenEvent.freesOf_purges : Len.Purges n session (e.dropWaitsOf n session).len (e.purge n session).len :=
  LenEvent.freeRecords_purges _ (Len.recordsOf_nodup _ _ _) _ fun i hi => (Len.mem_recordsOf_iff _ _ _ i).1 hi

theorem LenEvent.Ok.purge_purges : Len.Purges n session e.len (e.purge n session).len :=
  (h.dropWaitsOf_purges n session).trans (LenEvent.freesOf_purges n session)

/-- The waits after a purge: those of the session are gone. -/
theorem LenEvent.Ok.purge_wait {w : WaitIx} {x : Wait} (hw : e.len.waits[w] = some x) :
    (e.purge n session).len.waits[w] = if x.slot = n ∧ x.session = session then none else some x := by
  obtain hb | ⟨hb, y, hy, ho⟩ := (h.purge_purges n session).wait w
  · rw [if_neg, hb, hw]
    intro ho
    have hdropped : (e.dropWaitsOf n session).len.waits[w] = none :=
      LenEvent.foldl_dropWait _ e w ((Len.mem_waitsOf _ _ _ _).2 ⟨x, hw, ho⟩)
    have hwaits : (e.purge n session).len.waits[w] = none := by
      obtain hk | hk := (Len.Sheds.foldl LenEvent.freeRecord_sheds _ _).wait w
      · exact hk.trans hdropped
      · exact hk
    cases (hb.trans hw).symm.trans hwaits
  · cases hw.symm.trans hy
    rw [hb, if_pos ((Wait.ofSession_iff _ _ _).1 ho)]

theorem LenEvent.Ok.purge_noWait {w : WaitIx} (hw : e.len.waits[w] = none) :
    (e.purge n session).len.waits[w] = none := by
  obtain hb | ⟨hb, _⟩ := (h.purge_purges n session).wait w
  · exact hb.trans hw
  · exact hb

/-- A record in use of the session is FREE after its purge. -/
theorem LenEvent.Ok.purge_frees {i : RecIx} (hi : e.len.leases[i].ofSession n session = true) :
    (e.purge n session).len.leases[i].state = .free := by
  by_contra hn
  have hb := (LenEvent.freesOf_purges n session).used hn
  have hm := (h.dropWaitsOf_purges n session).used (by rwa [← hb])
  have ho : (e.dropWaitsOf n session).len.leases[i].ofSession n session = true := by rw [hm]; exact hi
  exact hn (LenEvent.foldl_freeRecord_state _ _ i ((Len.mem_recordsOf_iff _ _ _ i).2 ho))

/-- The records after a purge: those in use of the session are freed, once. -/
theorem LenEvent.Ok.purge_lease (i : RecIx) :
    (e.purge n session).len.leases[i] =
      if e.len.leases[i].ofSession n session = true then e.len.leases[i].freed else e.len.leases[i] := by
  obtain hb | ⟨ho, hb⟩ := (h.purge_purges n session).lease i
  · rw [if_neg, hb]
    intro ho
    have hfree := h.purge_frees n session ho
    rw [hb] at hfree
    exact ((Lease.ofSession_iff _ _ _).1 ho).1 hfree
  · rw [hb, if_pos ho]

/-- A VACANT entry without its fields cleared would have a holder or a wait, and agreement gives it neither. -/
theorem LenEvent.Ok.vacant_eq {r : ResIx} {epoch : Epoch} (hv : (Entry.vacant epoch).Loses e.len.catalog[r]) :
    e.len.catalog[r] = Entry.vacant epoch := by
  have hstate : e.len.catalog[r].state = .vacant := hv.state
  have hqueue : e.len.catalog[r].queue = [] := List.sublist_nil.1 hv.2
  have hheld : e.len.heldCount r = 0 := by
    refine e.len.heldCount_zero r fun i hi hr => h.stand i ?_ ?_
    · rw [show e.len.tab.l i = e.len.leases[i] from rfl, hi]
      decide
    · rw [show e.len.tab.l i = e.len.leases[i] from rfl, hr]
      exact hstate
  have hcount : e.len.catalog[r].holderCount = 0 := (h.count r).trans hheld
  have hmode : e.len.catalog[r].holderMode = .none := (h.empty r).2 hheld
  have hpending : e.len.catalog[r].upgradePending = false :=
    h.closed_pending (r := r) (by rw [show e.len.tab.en r = e.len.catalog[r] from rfl, hstate]; decide)
  rw [hv.1, hmode, hcount, hqueue, hpending]
  rfl

/-- A DRAINING entry becomes VACANT exactly with the last record in use on it (R12). -/
theorem LenEvent.Ok.purge_vacates {r : ResIx} (hd : e.len.catalog[r].state = .draining)
    (ho : ∃ i : RecIx, e.len.leases[i].ofSession n session = true ∧ e.len.leases[i].resource = r)
    (hall : ∀ i : RecIx, e.len.leases[i].state ≠ .free → e.len.leases[i].resource = r →
      e.len.leases[i].ofSession n session = true) :
    (e.purge n session).len.catalog[r] = Entry.vacant e.len.catalog[r].epoch := by
  obtain hk | ⟨_, _, hv, _⟩ := (h.purge_purges n session).entry r
  · have hunused : (e.purge n session).len.unused r := by
      intro i hi hir
      have hl := (h.purge_purges n session).used hi
      rw [hl] at hi hir
      have hfree := h.purge_frees n session (hall i hi hir)
      rw [hl] at hfree
      exact hi hfree
    obtain ⟨i, hi, hir⟩ := ho
    exact absurd hir ((h.purge_purges n session).drained r (hk.state.trans hd) hunused i
      ((Lease.ofSession_iff _ _ _).1 hi).1)
  · exact (h.purge n session).vacant_eq hv

/-- Every other entry loses holders and waits alone. -/
theorem LenEvent.Ok.purge_loses {r : ResIx}
    (hn : ¬(e.len.catalog[r].state = .draining ∧
      (∃ i : RecIx, e.len.leases[i].ofSession n session = true ∧ e.len.leases[i].resource = r) ∧
      ∀ i : RecIx, e.len.leases[i].state ≠ .free → e.len.leases[i].resource = r →
        e.len.leases[i].ofSession n session = true)) :
    e.len.catalog[r].Loses (e.purge n session).len.catalog[r] := by
  obtain hk | ⟨hd, ho, _, hu⟩ := (h.purge_purges n session).entry r
  · exact hk
  · refine absurd ⟨hd, ho, fun i hi hir => ?_⟩ hn
    obtain hl | ⟨hs, _⟩ := (h.purge_purges n session).lease i
    · rw [← hl] at hi hir
      exact absurd hir (hu i hi)
    · exact hs

/-- What a purge sends to LCK: the removals of its waits, then those of its HELD records, which the drops of its waits leave (R80, R97). -/
theorem LenEvent.Ok.purge_toLck :
    (e.purge n session).toLck =
      e.toLck ++ (e.len.waitsOf n session).flatMap e.len.waitRemoval ++
        (e.len.recordsOf n session).flatMap e.len.leaseRemoval := by
  have hwaits : (e.dropWaitsOf n session).toLck = e.toLck ++ (e.len.waitsOf n session).flatMap e.len.waitRemoval :=
    h.dropWaits_toLck _ (Len.waitsOf_nodup _ _ _)
  rw [LenEvent.purge_eq, LenEvent.freeRecords_toLck _ (Len.recordsOf_nodup _ _ _), hwaits]
  unfold Len.recordsOf
  rw [flatMap_filter, flatMap_filter]
  refine congrArg _ (List.flatMap_congr fun i _ => ?_)
  by_cases hi : e.len.leases[i].state = .held
  · have hm : (e.dropWaitsOf n session).len.leases[i] = e.len.leases[i] := h.dropWaits_held _ i hi
    unfold Len.leaseRemoval Len.leaseDeadline
    rw [hm]
  · have hm : (e.dropWaitsOf n session).len.leases[i].state ≠ .held := by
      obtain hm | ⟨_, hm⟩ := (h.dropWaitsOf_purges n session).lease i
      · rwa [hm]
      · rw [hm]
        exact LeaseState.noConfusion
    unfold Len.leaseRemoval
    rw [if_neg hi, if_neg hm, ite_self, ite_self]

end Purge

theorem any_toList_iff {α : Type} {n : Nat} (v : Vector α n) (p : α → Bool) :
    v.toList.any p = true ↔ ∃ i : Fin n, p v[i] = true := by
  rw [List.any_eq_true]
  constructor
  · rintro ⟨x, hx, hp⟩
    rw [Vector.mem_toList_iff, Vector.mem_iff_getElem] at hx
    obtain ⟨i, hi, rfl⟩ := hx
    exact ⟨⟨i, hi⟩, hp⟩
  · rintro ⟨i, hp⟩
    exact ⟨v[i], by simp, hp⟩

theorem Len.mem_touchedBy (len : Len) (n : SlotIx) (session : Session) (r : ResIx) :
    r ∈ len.touchedBy n session ↔
      (∃ (w : WaitIx) (x : Wait), len.waits[w] = some x ∧ x.slot = n ∧ x.session = session ∧ x.resource = r) ∨
        ∃ i : RecIx, len.leases[i].state = .held ∧ len.leases[i].slot = n ∧ len.leases[i].session = session ∧
          len.leases[i].resource = r := by
  unfold Len.touchedBy
  rw [List.mem_filter, Bool.or_eq_true, any_toList_iff, any_toList_iff]
  simp only [List.mem_finRange, true_and]
  refine or_congr (exists_congr fun w => ?_) (exists_congr fun i => ?_)
  · cases len.waits[w] with
    | none => simp
    | some x => simp [Wait.ofSession, and_assoc]
  · simp only [Lease.ofSession, Bool.and_eq_true, decide_eq_true_eq]
    constructor
    · rintro ⟨⟨_, hslot, hsession⟩, hstate, hr⟩
      exact ⟨hstate, hslot, hsession, hr⟩
    · rintro ⟨hstate, hslot, hsession, hr⟩
      exact ⟨⟨by rw [hstate]; decide, hslot, hsession⟩, hstate, hr⟩

theorem LenEvent.purgePasses_cons (e : LenEvent) (r : ResIx) (rs : List ResIx) :
    e.purgePasses (r :: rs) = (if e.len.catalog[r].state = .vacant then e else e.grantPass r).purgePasses rs := rfl

/-- Settles O16: what a purge leaves of each table, what it sends, and the entries on which its passes run. -/
theorem aPurgeFreesWhatTheSessionOwns : Obligations.APurgeFreesWhatTheSessionOwns := by
  intro e n session ht
  have h : e.Ok := (Len.tablesAgree_iff _).1 ht
  have hquiet := e.purge_quiet n session
  have howned (i : RecIx) := Lease.ofSession_iff e.len.leases[i] n session
  refine ⟨(Len.tablesAgree_iff _).2 (h.purge n session), fun w x hw => h.purge_wait n session hw,
    fun w hw => h.purge_noWait n session hw, fun i => ?lease, fun r => ⟨fun ⟨hd, ho, hall⟩ => ?vacates, fun hn => ?loses⟩,
    hquiet.slots, hquiet.now, hquiet.sameRqu, hquiet.toTwp, ?toLck,
    (List.pairwise_lt_finRange 64).filter _, e.len.mem_touchedBy n session, fun _ => rfl, LenEvent.purgePasses_cons⟩
  case lease =>
    rw [h.purge_lease n session i]
    simp only [howned]
  case vacates =>
    simp only [← howned] at ho hall
    exact h.purge_vacates n session hd ho hall
  case loses =>
    simp only [← howned] at hn
    exact h.purge_loses n session hn
  case toLck =>
    rw [h.purge_toLck]
    unfold Len.waitsOf Len.recordsOf
    rw [flatMap_filter, flatMap_filter]
    congr 2
    · refine List.flatMap_congr fun w _ => ?_
      unfold Len.waitRemoval
      cases e.len.waits[w] with
      | none => rfl
      | some x =>
        obtain ⟨_, _, _, _, _, _, _, deadline⟩ := x
        cases deadline with
        | none => exact ite_self _
        | some d => simp only [Wait.ofSession_iff]; rfl
    · funext i
      unfold Len.leaseRemoval
      simp only [howned]
      by_cases hi : e.len.leases[i].state = .held
      · simp only [hi, ne_eq, reduceCtorEq, not_false_eq_true, true_and, if_true]
        rfl
      · simp only [hi, false_and, if_false, ite_self]

end Sys2Proof.Machine

/-! SUPPORT. Handles: how one resolves, and the answer to a request whose handle does not. -/

namespace Sys2Proof.Machine

/-- A record that a handle can name: it is HELD, LAPSED or REVOKED, and of the handle's generation (R20). -/
def Lease.named (l : Lease) (handle : Nat) : Prop :=
  (l.state = .held ∨ l.state = .lapsed ∨ l.state = .revoked) ∧ l.generation.toNat = handle % 512 ∧ handle % 512 ≠ 0

section Resolve

variable {len : Len} {n : SlotIx} {handle : Nat} {i : RecIx} (hi : handleRecord handle = i)

include hi

theorem Len.resolve_unnamed (h : ¬len.leases[i].named handle) : len.resolve n handle = .error .unknownLease := by
  subst hi
  exact if_neg fun ⟨hs, hg⟩ => h ⟨hs, (handleGeneration_iff _ _).1 hg⟩

theorem Len.resolve_named (h : len.leases[i].named handle) :
    len.resolve n handle = if len.leases[i].slot = n then .ok i else .error .notHolder := by
  subst hi
  exact if_pos ⟨h.1, (handleGeneration_iff _ _).2 h.2⟩

end Resolve

/-- A request that does nothing but answer, taken by its command. -/
theorem exec_reply {s : State} {c : Instr} {k : ReqKind} {p : Port} {f : Frame} (h : s.offersWell k p f)
    {request : Frame → LenEvent → LenEvent} (hc : exec c s = .next (s.takeRequest k request)) {st : Status}
    {b : List Byte} (hr : request f (s.takeEvent p f) = (s.takeEvent p f).replyWith f st b) :
    exec c s = .next (s.afterReply p f st b) := by
  rw [hc, State.takeRequest_reply h hr]

/-- The requests that come to their handle: RENEW and UPGRADE have checks before it (R36, R66). -/
def State.reachesHandle (s : State) (k : ReqKind) (f : Frame) : Prop :=
  k = .release ∨ k = .downgrade ∨ k = .queryLease ∨ (k = .renew ∧ operandAt f.operands 2 3 ≤ termMax) ∨
    (k = .upgrade ∧ operandAt f.operands 2 3 ≤ termMax ∧ s.len.slots[f.slot].profile.holds .acquireX = true)

theorem exec_unresolved {s : State} {k : ReqKind} {p : Port} {f : Frame} (h : s.offersWell k p f)
    (hk : s.reachesHandle k f) {st : Status}
    (hr : s.len.resolve f.slot (operandAt f.operands 0 2) = .error st) :
    exec (commandOf k) s = .next (s.afterReply p f st []) := by
  have hr' := State.takeEvent_resolve (p := p) hr
  obtain rfl | rfl | rfl | ⟨rfl, ht⟩ | ⟨rfl, ht, hx⟩ := hk
  · refine exec_reply h rfl (request := fun f e => e.release f) ?_
    unfold LenEvent.release
    rw [hr']
    rfl
  · refine exec_reply h rfl (request := fun f e => e.downgrade f) ?_
    unfold LenEvent.downgrade
    rw [hr']
    rfl
  · refine exec_reply h rfl (request := fun f e => e.queryLease f) ?_
    unfold LenEvent.queryLease
    rw [hr']
    rfl
  · refine exec_reply h rfl (request := fun f e => e.renew f) ?_
    unfold LenEvent.renew
    dsimp only
    rw [if_neg ht.not_gt, hr']
    rfl
  · refine exec_reply h rfl (request := fun f e => e.upgrade f) ?_
    unfold LenEvent.upgrade
    dsimp only
    rw [if_neg ht.not_gt, State.takeEvent_holds, hx, if_neg Bool.noConfusion, hr']
    rfl

/-- Settles O21: what a handle resolves to, and the answer where it does not. -/
theorem handlesResolveInOrder : Obligations.HandlesResolveInOrder := by
  intro s k p f h handle i l live reaches
  have hi : handleRecord handle = i := handleRecord_eq handle
  refine ⟨⟨fun hr => ?ok, fun ⟨hl, hs⟩ => (Len.resolve_named hi hl).trans (if_pos hs)⟩,
    fun hk hl => exec_unresolved h hk (Len.resolve_unnamed hi hl),
    fun hk hl hs => exec_unresolved h hk ((Len.resolve_named hi hl).trans (if_neg hs))⟩
  case ok =>
    by_cases hl : live
    · refine ⟨hl, ?_⟩
      by_contra hs
      cases hr.symm.trans ((Len.resolve_named hi hl).trans (if_neg hs))
    · cases hr.symm.trans (Len.resolve_unnamed hi hl)

end Sys2Proof.Machine

/-! SUPPORT. ACQUIRE: its checks in their order, what it grants and how it parks. -/

namespace Sys2Proof.Machine

/-! ## The checks before grantability -/

section Acquire

variable {e : LenEvent} {f : Frame}

theorem LenEvent.acquire_badMode (hm : modeOfCode (acquireOperands f.operands).mode = none) :
    e.acquire f = e.badOperand f .range 2 := by
  unfold LenEvent.acquire
  dsimp only
  rw [hm]

variable {m : Mode} (hm : modeOfCode (acquireOperands f.operands).mode = some m)

include hm

theorem LenEvent.acquire_badTerm (ht : termMax < (acquireOperands f.operands).term) :
    e.acquire f = e.badOperand f .range 3 := by
  unfold LenEvent.acquire
  dsimp only
  rw [hm]
  dsimp only
  rw [if_pos ht]

variable (ht : (acquireOperands f.operands).term ≤ termMax)

include ht

theorem LenEvent.acquire_badLimit (hl : termMax < (acquireOperands f.operands).waitLimit) :
    e.acquire f = e.badOperand f .range 6 := by
  unfold LenEvent.acquire
  dsimp only
  rw [hm]
  dsimp only
  rw [if_neg ht.not_gt, if_pos hl]

variable (hl : (acquireOperands f.operands).waitLimit ≤ termMax)

include hl

theorem LenEvent.acquire_unknown (hn : e.len.lookup (acquireOperands f.operands).name = none) :
    e.acquire f = e.reply f .unknownResource := by
  unfold LenEvent.acquire
  dsimp only
  rw [hm]
  dsimp only
  rw [if_neg ht.not_gt, if_neg hl.not_gt, hn]

variable {r : ResIx} (hn : e.len.lookup (acquireOperands f.operands).name = some r)

include hn

theorem LenEvent.acquire_refused {st : Status} (hr : e.len.acquireRefusal f.slot r m = some st) :
    e.acquire f = e.reply f st := by
  unfold LenEvent.acquire
  dsimp only
  rw [hm]
  dsimp only
  rw [if_neg ht.not_gt, if_neg hl.not_gt, hn]
  dsimp only
  rw [hr]

theorem LenEvent.acquire_on (hr : e.len.acquireRefusal f.slot r m = none) :
    e.acquire f = e.acquireOn f r m (acquireOperands f.operands) := by
  unfold LenEvent.acquire
  dsimp only
  rw [hm]
  dsimp only
  rw [if_neg ht.not_gt, if_neg hl.not_gt, hn]
  dsimp only
  rw [hr]

end Acquire

/-! ## Checks 2 to 6 on the entry and the slot -/

section AcquireRefusal

variable {len : Len} {n : SlotIx} {r : ResIx} {m : Mode}

theorem Len.acquireRefusal_retired (hd : len.catalog[r].state = .draining) :
    len.acquireRefusal n r m = some .retired := if_pos hd

theorem Len.acquireRefusal_denied (hd : len.catalog[r].state ≠ .draining)
    (ha : ¬(len.catalog[r].admission.getLsbD n.val = true ∧ len.slots[n].profile.holds (acquireRight m) = true)) :
    len.acquireRefusal n r m = some .denied := by
  unfold Len.acquireRefusal
  dsimp only
  rw [if_neg hd]
  by_cases h : len.catalog[r].admission.getLsbD n.val = false
  · rw [if_pos h]
  · rw [if_neg h, if_pos]
    exact Bool.eq_false_iff.2 fun hx => ha ⟨Bool.of_not_eq_false h, hx⟩

variable (hd : len.catalog[r].state ≠ .draining)
  (ha : len.catalog[r].admission.getLsbD n.val = true ∧ len.slots[n].profile.holds (acquireRight m) = true)

include hd ha

theorem Len.acquireRefusal_admitted :
    len.acquireRefusal n r m =
      if m ≠ .exclusive ∧ len.catalog[r].shareLimit = 0 then some .modeNotAllowed
      else if len.hasRecordOn n r then some .alreadyHeld
      else none := by
  unfold Len.acquireRefusal
  dsimp only
  rw [if_neg hd, ha.1, ha.2, if_neg Bool.noConfusion, if_neg Bool.noConfusion]

end AcquireRefusal

/-! ## Grants and parking on the entry found -/

section AcquireOn

variable {e : LenEvent} {f : Frame} {r : ResIx} {m : Mode} {a : AcquireOperands}

theorem LenEvent.acquireOn_grantRefused (hg : e.len.catalog[r].freeFor m) {st : Status}
    (hr : e.len.grantRefusal f.slot r m = some st) : e.acquireOn f r m a = e.reply f st := by
  unfold LenEvent.acquireOn
  dsimp only
  rw [if_pos ((Entry.grantable_iff _ _).2 hg), hr]

theorem LenEvent.acquireOn_granted (hg : e.len.catalog[r].freeFor m) (hr : e.len.grantRefusal f.slot r m = none)
    {i : RecIx} (hi : e.len.freeLease? = some i) :
    e.acquireOn f r m a = e.grantNow f i r m (resolveTerm e.len.catalog[r] a.term) := by
  unfold LenEvent.acquireOn
  dsimp only
  rw [if_pos ((Entry.grantable_iff _ _).2 hg), hr, hi]

theorem LenEvent.acquireOn_parkRefused (hg : ¬e.len.catalog[r].freeFor m) {st : Status}
    (hr : e.len.parkRefusal f.slot r a.waitLimit = some st) : e.acquireOn f r m a = e.reply f st := by
  unfold LenEvent.acquireOn
  dsimp only
  rw [if_neg (mt (Entry.grantable_iff _ _).1 hg), hr]

theorem LenEvent.acquireOn_parked (hg : ¬e.len.catalog[r].freeFor m)
    (hr : e.len.parkRefusal f.slot r a.waitLimit = none) {w : WaitIx} (hw : e.len.freeWait? = some w) {i : RecIx}
    (hi : e.len.freeLease? = some i) :
    e.acquireOn f r m a = e.parkAcquire f w i r m (resolveTerm e.len.catalog[r] a.term) a.waitLimit := by
  unfold LenEvent.acquireOn
  dsimp only
  rw [if_neg (mt (Entry.grantable_iff _ _).1 hg), hr, hw, hi]

end AcquireOn

/-! ## The command -/

theorem exec_acquire (s : State) : exec .acquire s = .next (s.takeRequest .acquire fun f e => e.acquire f) := rfl

theorem State.takeEvent_lookup (s : State) (p : Port) (f : Frame) (name : ResName) :
    (s.takeEvent p f).len.lookup name = s.len.lookup name := Len.lookup_congr rfl _

theorem Len.not_freeLease {len : Len} (h : ¬∃ i : RecIx, len.leases[i].state = .free) : len.freeLease? = none :=
  (Len.freeLease_none _).2 (not_exists.1 h)

theorem Len.not_freeWait {len : Len} (h : ¬∃ w : WaitIx, len.waits[w] = none) : len.freeWait? = none :=
  (Len.freeWait_none _).2 (not_exists.1 h)

theorem Len.freeLease_isNone (len : Len) : len.freeLease?.isNone = true ↔ ¬∃ i : RecIx, len.leases[i].state = .free := by
  rw [Option.isNone_iff_eq_none, Len.freeLease_none, not_exists]

theorem Len.freeWait_isNone (len : Len) : len.freeWait?.isNone = true ↔ ¬∃ w : WaitIx, len.waits[w] = none := by
  rw [Option.isNone_iff_eq_none, Len.freeWait_none, not_exists]

section Offered

variable {s : State} {p : Port} {f : Frame} (h : s.offersWell .acquire p f)

include h

theorem exec_acquire_reply {st : Status} {b : List Byte}
    (ha : (s.takeEvent p f).acquire f = (s.takeEvent p f).replyWith f st b) :
    exec .acquire s = .next (s.afterReply p f st b) := exec_reply h (exec_acquire s) ha

variable {m : Mode} {r : ResIx} (hm : modeOfCode (acquireOperands f.operands).mode = some m)
  (ht : (acquireOperands f.operands).term ≤ termMax) (hl : (acquireOperands f.operands).waitLimit ≤ termMax)
  (hn : s.len.lookup (acquireOperands f.operands).name = some r)

include hm ht hl hn

/-- The first of checks 2 to 6 that fails, as the tables read before the take. -/
theorem exec_acquire_refused {st : Status} (hr : s.len.acquireRefusal f.slot r m = some st) :
    exec .acquire s = .next (s.afterReply p f st []) :=
  exec_acquire_reply h
    (LenEvent.acquire_refused hm ht hl ((s.takeEvent_lookup p f _).trans hn) ((s.takeEvent_acquireRefusal p f r m).trans hr))

variable (hmay : s.len.mayAcquire f.slot r m)

include hmay

omit h in
theorem State.takeEvent_acquire :
    (s.takeEvent p f).acquire f = (s.takeEvent p f).acquireOn f r m (acquireOperands f.operands) :=
  LenEvent.acquire_on hm ht hl ((s.takeEvent_lookup p f _).trans hn)
    ((s.takeEvent_acquireRefusal p f r m).trans (Len.mayAcquire_refusal hmay))

theorem exec_acquire_grantRefused (hg : s.len.catalog[r].freeFor m) {st : Status}
    (hr : s.len.grantRefusal f.slot r m = some st) : exec .acquire s = .next (s.afterReply p f st []) :=
  exec_acquire_reply h ((State.takeEvent_acquire hm ht hl hn hmay).trans
    (LenEvent.acquireOn_grantRefused hg ((s.takeEvent_grantRefusal p f _ r m).trans hr)))

theorem exec_acquire_parkRefused (hg : ¬s.len.catalog[r].freeFor m) {st : Status}
    (hr : s.len.parkRefusal f.slot r (acquireOperands f.operands).waitLimit = some st) :
    exec .acquire s = .next (s.afterReply p f st []) :=
  exec_acquire_reply h ((State.takeEvent_acquire hm ht hl hn hmay).trans
    (LenEvent.acquireOn_parkRefused hg ((s.takeEvent_parkRefusal p f _ r _).trans hr)))

end Offered

/-! ## The checks before parking -/

section ParkRefusal

variable {len : Len} {n : SlotIx} {r : ResIx} {limit : Nat}

theorem Len.parkRefusal_busy (hb : limit = 0 ∨ len.catalog[r].waitingAllowed = false) :
    len.parkRefusal n r limit = some .busy := by
  unfold Len.parkRefusal
  by_cases hl : limit = 0
  · rw [if_pos hl]
  · rw [if_neg hl, if_pos (hb.resolve_left hl)]

theorem Len.parkRefusal_of_may (hb : limit ≠ 0 ∧ len.catalog[r].waitingAllowed = true) :
    len.parkRefusal n r limit =
      if len.slots[n].profile.holds .wait = false then some .denied
      else if ¬∃ w : WaitIx, len.waits[w] = none then some .waitFull
      else if len.slots[n].profile.waitQuota ≤ len.waitUse n then some .quota
      else if ¬∃ i : RecIx, len.leases[i].state = .free then some .tableFull
      else if len.slots[n].profile.leaseQuota ≤ len.leaseUse n then some .quota
      else none := by
  unfold Len.parkRefusal
  rw [if_neg hb.1, hb.2, if_neg Bool.noConfusion]
  simp only [Len.freeWait_isNone, Len.freeLease_isNone]

end ParkRefusal

/-- Settles O22: the checks in their order, each failing where those before it have passed. -/
theorem acquireIsRefusedByTheFirstCheckThatFails : Obligations.AcquireIsRefusedByTheFirstCheckThatFails := by
  refine ⟨fun s p f h => ⟨fun h1 h2 => ?mode, fun m hm => ⟨fun ht => ?term, fun ht hl => ?limit,
    fun ht hl => ⟨fun hn => ?name, fun r hn => ⟨fun hd => ?retired, fun hd ha => ?denied, fun hd ha hs h0 => ?shared,
      fun hd ha hs hi => ?held⟩⟩⟩⟩,
    fun s p f m r h hm ht hl hn hmay hg => ⟨fun hb => ?busy, fun hb hw => ?right, fun hb hw hf => ?waits,
      fun hb hw hf hq => ?waitQuota, fun hb hw hf hq hi => ?records, fun hb hw hf hq hi hu => ?leaseQuota⟩⟩
  case mode => exact exec_acquire_reply h (LenEvent.acquire_badMode ((modeOfCode_none _).2 ⟨h1, h2⟩))
  case term => exact exec_acquire_reply h (LenEvent.acquire_badTerm hm ht)
  case limit => exact exec_acquire_reply h (LenEvent.acquire_badLimit hm ht hl)
  case name => exact exec_acquire_reply h (LenEvent.acquire_unknown hm ht hl ((s.takeEvent_lookup p f _).trans hn))
  case retired => exact exec_acquire_refused h hm ht hl hn (Len.acquireRefusal_retired hd)
  case denied => exact exec_acquire_refused h hm ht hl hn (Len.acquireRefusal_denied hd ha)
  case shared =>
    exact exec_acquire_refused h hm ht hl hn
      ((Len.acquireRefusal_admitted hd ha).trans (if_pos ⟨by rw [hs]; decide, h0⟩))
  case held =>
    have hmode : ¬(m ≠ .exclusive ∧ s.len.catalog[r].shareLimit = 0) := fun ⟨hx, h0⟩ =>
      hs ((modeOfCode_cases hm).resolve_right hx) h0
    exact exec_acquire_refused h hm ht hl hn ((Len.acquireRefusal_admitted hd ha).trans
      ((if_neg hmode).trans (if_pos ((Len.hasRecordOn_iff _ _ _).2 hi))))
  case busy => exact exec_acquire_parkRefused h hm ht hl hn hmay hg (Len.parkRefusal_busy hb)
  all_goals
    refine exec_acquire_parkRefused h hm ht hl hn hmay hg ((Len.parkRefusal_of_may hb).trans ?_)
  case right => exact if_pos hw
  all_goals rw [if_neg (by rw [hw]; exact Bool.noConfusion)]
  case waits => exact if_pos hf
  all_goals rw [if_neg (not_not.2 hf)]
  case waitQuota => exact if_pos hq
  all_goals rw [if_neg hq.not_ge]
  case records => exact if_pos hi
  case leaseQuota => rw [if_neg (not_not.2 hi), if_pos hu]

end Sys2Proof.Machine

/-! SUPPORT. ACQUIRE on an entry that is free for it, and on one that is not: the grant and the parking, each as one equation. -/

namespace Sys2Proof.Machine

/-- Everything an immediate grant does (R31). -/
theorem LenEvent.grantNow_eq (e : LenEvent) (f : Frame) (i : RecIx) (r : ResIx) (m : Mode) (term : Nat) :
    e.grantNow f i r m term =
      { e with
        len := ((e.len.setLease i
          { generation := e.len.leases[i].generation, state := .held, resource := r, slot := f.slot,
            session := e.len.slots[f.slot].session, mode := m, epoch := e.len.catalog[r].grantEpoch m, term := term,
            deadline := deadlineAfter e.now term, renewCount := 0, changeMark := false }).setEntry r
          (e.len.catalog[r].granted m)).answer f.slot f.tag
        toLck := e.toLck ++ [.insert ⟨deadlineAfter e.now term, .lease i e.len.leases[i].generation⟩]
        toRqu := e.toRqu ++
          [.completion f.slot
            ⟨f.tag, f.kind, .granted,
              natToBytes (i.val * 512 + e.len.leases[i].generation.toNat) 2 ++ [modeCode m] ++
                natToBytes (e.len.catalog[r].grantEpoch m).toNat 4 ++ natToBytes term 3⟩] } := by
  unfold LenEvent.grantNow LenEvent.takeRecord
  dsimp only
  rw [LenEvent.grantRecord_eq, LenEvent.completeGrant_eq
    (l := ({ Lease.cleared e.len.leases[i].generation with
      state := .reserved, resource := r, slot := f.slot, session := e.len.slots[f.slot].session, mode := m,
      term := term } : Lease).granted e.now e.len.catalog[r] m term)]
  · simp only [LenEvent.modLease, LenEvent.insertDeadline, Len.leaseDeadline, Len.setEntry_leases, Len.setLease_get, if_true]
    simp only [Len.setEntry, Len.setLease, Vector.set_set]
    rfl
  · simp only [LenEvent.modLease, LenEvent.insertDeadline, Len.setEntry_leases, Len.setLease_get, if_true]
    rfl

/-- Everything the parking of an ACQUIRE does (R53). -/
theorem LenEvent.parkAcquire_eq (e : LenEvent) (f : Frame) (w : WaitIx) (i : RecIx) (r : ResIx) (m : Mode)
    (term limit : Nat) :
    e.parkAcquire f w i r m term limit =
      { e with
        len := { (((e.len.setWait w
          (some
            { kind := .acquire m term e.len.slots[f.slot].profile.priority, slot := f.slot,
              session := e.len.slots[f.slot].session, tag := f.tag, resource := r, lease := i,
              serial := e.len.freshSerial e.len.waitSerial 96, deadline := waitDeadline e.now limit })).setLease i
          { Lease.cleared e.len.leases[i].generation with
            state := .reserved, resource := r, slot := f.slot, session := e.len.slots[f.slot].session, mode := m,
            term := term }).setEntry r
          { e.len.catalog[r] with
            queue := insertBehind (e.len.standsAhead e.len.slots[f.slot].profile.priority) w e.len.catalog[r].queue }) with
          waitSerial := e.len.freshSerial e.len.waitSerial 96 + 1 }
        toLck := e.toLck ++
          match waitDeadline e.now limit with
          | none => []
          | some d => [.insert ⟨d, .wait w (e.len.freshSerial e.len.waitSerial 96)⟩] } := rfl

section GrantRefusal

variable {len : Len} {n : SlotIx} {r : ResIx} {m : Mode}

theorem Len.grantRefusal_spent_of (h : (m = .exclusive ∨ len.catalog[r].holderMode = .none) ∧
    len.catalog[r].epoch = 0xFFFFFFFF) : len.grantRefusal n r m = some .epochSpent := by
  unfold Len.grantRefusal
  rw [if_pos ((Entry.spentFor_iff _ _).2 h)]

theorem Len.grantRefusal_unspent (h : ¬((m = .exclusive ∨ len.catalog[r].holderMode = .none) ∧
    len.catalog[r].epoch = 0xFFFFFFFF)) :
    len.grantRefusal n r m =
      if ¬∃ i : RecIx, len.leases[i].state = .free then some .tableFull
      else if len.slots[n].profile.leaseQuota ≤ len.leaseUse n then some .quota
      else none := by
  unfold Len.grantRefusal
  rw [if_neg (mt (Entry.spentFor_iff _ _).1 h)]
  simp only [Len.freeLease_isNone]

end GrantRefusal

theorem resolveTerm_eq (en : Entry) (term : Nat) :
    resolveTerm en term = if term = 0 then en.defaultTerm else min term en.termCap := rfl

/-- Settles O23: the checks of a grant, and the grant of the lowest FREE record. -/
theorem anOpenResourceIsGrantedAtOnce : Obligations.AnOpenResourceIsGrantedAtOnce := by
  intro s p f m r h a en hm ht hl hn hmay hg advances epoch term d quota
  refine ⟨fun hadv hs => ?spent, fun hu hi => ?full, fun i hu hi => ⟨fun hq => ?quota, fun hq => ?granted⟩⟩
  case spent => exact exec_acquire_grantRefused h hm ht hl hn hmay hg (Len.grantRefusal_spent_of ⟨hadv, hs⟩)
  case full =>
    exact exec_acquire_grantRefused h hm ht hl hn hmay hg
      ((Len.grantRefusal_unspent hu).trans (if_pos (not_exists.2 hi)))
  all_goals
    have hchecks : s.len.grantRefusal f.slot r m = if quota ≤ s.len.leaseUse f.slot then some .quota else none :=
      (Len.grantRefusal_unspent hu).trans (if_neg (not_not.2 ⟨i, hi.1⟩))
  case quota => exact exec_acquire_grantRefused h hm ht hl hn hmay hg (hchecks.trans (if_pos hq))
  case granted =>
    have hgrant : (s.takeEvent p f).acquire f = (s.takeEvent p f).grantNow f i r m term :=
      (State.takeEvent_acquire hm ht hl hn hmay).trans (LenEvent.acquireOn_granted hg
        ((s.takeEvent_grantRefusal p f _ r m).trans (hchecks.trans (if_neg hq.not_ge)))
        ((s.takeEvent_freeLease p f).trans ((Len.freeLease_some _ _).2 hi)))
    have hepoch : (s.takeEvent p f).len.catalog[r].grantEpoch m = epoch := Entry.grantEpoch_eq en m
    rw [exec_acquire, State.takeRequest_offered h, hgrant, LenEvent.grantNow_eq, Entry.granted, hepoch,
      State.frameOf_kind h.1.1, State.takeEvent_len, State.lenAfterTake_session, State.finishTake_eq_afterEvent _ _ rfl]
    rfl

/-- Settles O24: the seven checks pass, and the wait is placed in the queue by its class. -/
theorem anAcquireThatMayWaitParks : Obligations.AnAcquireThatMayWaitParks := by
  intro s p f m r w i h a en profile hm ht hl hn hmay hg hlimit hallowed hright hw hwaits hi hleases term d
  obtain ⟨ahead, behind, hqueue, hplaced, hbehind, hahead⟩ := insertBehind_split (s.len.standsAhead profile.priority) w en.queue
  have hchecks : s.len.parkRefusal f.slot r a.waitLimit = none := by
    rw [Len.parkRefusal_of_may ⟨hlimit, hallowed⟩, if_neg (by rw [show _ = true from hright]; exact Bool.noConfusion),
      if_neg (not_not.2 ⟨w, hw.1⟩), if_neg hwaits.not_ge, if_neg (not_not.2 ⟨i, hi.1⟩), if_neg hleases.not_ge]
  have hpark : (s.takeEvent p f).acquire f = (s.takeEvent p f).parkAcquire f w i r m term a.waitLimit :=
    (State.takeEvent_acquire hm ht hl hn hmay).trans (LenEvent.acquireOn_parked hg
      ((s.takeEvent_parkRefusal p f _ r _).trans hchecks) ((s.takeEvent_freeWait p f).trans ((Len.freeWait_some _ _).2 hw))
      ((s.takeEvent_freeLease p f).trans ((Len.freeLease_some _ _).2 hi)))
  refine ⟨s.len.freshSerial s.len.waitSerial 96, ahead, behind, s.len.freshSerial_next w hw.1, hqueue, hbehind, hahead, ?_⟩
  rw [exec_acquire, State.takeRequest_offered h, hpark, LenEvent.parkAcquire_eq, State.takeEvent_len,
    State.lenAfterTake_waitSerial, State.lenAfterTake_freshSerial, State.lenAfterTake_session, State.lenAfterTake_profile,
    State.finishTake_eq_afterEvent _ _ rfl, ← hplaced]
  rfl

end Sys2Proof.Machine

/-! SUPPORT. RELEASE, RENEW, DOWNGRADE and UPGRADE of a handle that resolves: the checks in their order, and what each does once they pass. -/

namespace Sys2Proof.Machine

theorem State.takeEvent_upgradeWaitOf (s : State) (p : Port) (f : Frame) (i : RecIx) :
    (s.takeEvent p f).len.upgradeWaitOf i = s.len.upgradeWaitOf i := Len.upgradeWaitOf_congr rfl rfl

theorem endedStatus_ended {l : Lease} (h : l.state = .lapsed ∨ l.state = .revoked) :
    endedStatus l = some (if l.state = .lapsed then .lapsed else .revoked) := by
  obtain h | h := h
  · rw [endedStatus_lapsed h, if_pos h]
  · rw [endedStatus_revoked h, if_neg (by rw [h]; decide)]

/-! ## RELEASE -/

section Release

variable {e : LenEvent} {f : Frame} {i : RecIx} (hr : e.len.resolve f.slot (operandAt f.operands 0 2) = .ok i)

include hr

theorem LenEvent.release_ended {st : Status} (hs : endedStatus e.len.leases[i] = some st) :
    e.release f = (e.freeRecord i).reply f st := by
  unfold LenEvent.release
  rw [hr]
  dsimp only
  rw [hs]

theorem LenEvent.release_held (hs : e.len.leases[i].state = .held) :
    e.release f =
      (((e.endUpgradeOf i .cancelled).freeRecord i).reply f .ok).grantPass e.len.leases[i].resource := by
  unfold LenEvent.release
  rw [hr]
  dsimp only
  rw [endedStatus_held hs]

end Release

/-- An UPGRADE wait at the head of a queue is the one its record has (R52). -/
theorem Len.upgradeWaitOf_head {len : Len} {i : RecIx} {w : WaitIx} {x : Wait} {rest : List WaitIx}
    (hq : len.catalog[len.leases[i].resource].queue = w :: rest) (hw : len.waits[w] = some x) (hk : x.kind = .upgrade)
    (hl : x.lease = i) : len.upgradeWaitOf i = some w := by
  unfold Len.upgradeWaitOf
  rw [hq, List.find?_cons_of_pos]
  rw [hw]
  exact decide_eq_true ⟨hk, hl⟩

/-- The end of the UPGRADE wait of a HELD record, and then of the record (R34). -/
theorem LenEvent.freeRecord_endUpgradeOf {e : LenEvent} {i : RecIx} {w : WaitIx} {x : Wait} {rest : List WaitIx}
    (hq : e.len.catalog[e.len.leases[i].resource].queue = w :: rest) (hw : e.len.waits[w] = some x)
    (hk : x.kind = .upgrade) (hl : x.lease = i) (hr : x.resource = e.len.leases[i].resource)
    (hs : e.len.leases[i].state = .held) (st : Status) :
    (e.endUpgradeOf i st).freeRecord i =
      { e with
        len := (((e.len.setLease i e.len.leases[i].freed).setWait w none).setEntry e.len.leases[i].resource
          (e.len.entryAfterFreeing e.len.leases[i].resource
            { e.len.catalog[e.len.leases[i].resource].lowered with queue := rest, upgradePending := false })).answer
              x.slot x.tag
        toLck := e.toLck ++ x.removal w ++ [.remove ⟨e.len.leases[i].deadline, .lease i e.len.leases[i].generation⟩]
        toRqu := e.toRqu ++ [.completion x.slot ⟨x.tag, .upgrade, st, []⟩] } := by
  have hwithout : (e.len.catalog[e.len.leases[i].resource].without w .upgrade).lowered =
      { e.len.catalog[e.len.leases[i].resource].lowered with queue := rest, upgradePending := false } := by
    simp only [Entry.without, Entry.lowered, hq, List.erase_cons_head, if_true]
  rw [LenEvent.endUpgradeOf_some (Len.upgradeWaitOf_head hq hw hk hl) hw, LenEvent.freeRecord_held _ i (by exact hs)]
  simp only [Len.answer, Len.setSlot_leases, Len.setEntry_leases, Len.setWait_leases, Len.setSlot_catalog,
    Len.setEntry_get, hr, if_true]
  simp only [Len.setEntry, Len.setLease, Len.setWait, Len.setSlot, Vector.set_set, hwithout]
  rfl

theorem exec_release (s : State) : exec .release s = .next (s.takeRequest .release fun f e => e.release f) := rfl

/-- Settles O25: a HELD lease, without and with an UPGRADE wait, and one that has ended. -/
theorem releaseEndsOrGivesBackALease : Obligations.ReleaseEndsOrGivesBackALease := by
  refine ⟨fun s p f i h hr hs => ?held, fun s p f i h hr hs => ?ended⟩
  all_goals
    have hr' := State.takeEvent_resolve (p := p) hr
    rw [exec_release, State.takeRequest_offered h]
  case held =>
    rw [LenEvent.release_held hr' hs, LenEvent.reply, LenEvent.replyWith_eq, State.frameOf_kind h.1.1]
    refine ⟨fun hu => ?alone, fun w x rest hq hw hk hl hx => ?waited⟩
    case alone =>
      rw [LenEvent.endUpgradeOf_none ((s.takeEvent_upgradeWaitOf p f i).trans hu), LenEvent.freeRecord_held _ i hs]
      rfl
    case waited =>
      rw [LenEvent.freeRecord_endUpgradeOf (e := s.takeEvent p f) hq hw hk hl hx hs]
      rfl
  case ended =>
    have hstate := (Len.resolved_state hr).resolve_left hs
    have hfree : s.len.leases[i].state ≠ .free := by
      obtain hl | hl := hstate
      all_goals
        rw [hl]
        decide
    refine ⟨hstate, ?_⟩
    rw [LenEvent.release_ended hr' (endedStatus_ended hstate), LenEvent.freeRecord_ended _ i hfree hs, LenEvent.reply,
      LenEvent.replyWith_eq, State.frameOf_kind h.1.1, State.finishTake_eq_afterEvent _ _ rfl]
    rfl

/-! ## RENEW -/

section Renew

variable {e : LenEvent} {f : Frame}

theorem LenEvent.renew_badTerm (ht : termMax < operandAt f.operands 2 3) : e.renew f = e.badOperand f .range 2 := by
  unfold LenEvent.renew
  dsimp only
  rw [if_pos ht]

variable {i : RecIx} (ht : operandAt f.operands 2 3 ≤ termMax)
  (hr : e.len.resolve f.slot (operandAt f.operands 0 2) = .ok i)

include ht hr

theorem LenEvent.renew_refused {st : Status} (hc : e.len.renewRefusal i = some st) : e.renew f = e.reply f st := by
  unfold LenEvent.renew
  dsimp only
  rw [if_neg ht.not_gt, hr]
  dsimp only
  rw [hc]

theorem LenEvent.renew_renewed (hc : e.len.renewRefusal i = none) :
    e.renew f =
      (e.renewRecord i (e.len.renewTerm i (operandAt f.operands 2 3))).replyWith f .ok
        (natToBytes (e.len.renewTerm i (operandAt f.operands 2 3)) 3) := by
  unfold LenEvent.renew
  dsimp only
  rw [if_neg ht.not_gt, hr]
  dsimp only
  rw [hc]

end Renew

theorem Len.renewRefusal_ended {len : Len} {i : RecIx} {st : Status} (hs : endedStatus len.leases[i] = some st) :
    len.renewRefusal i = some st := by
  unfold Len.renewRefusal
  dsimp only
  rw [hs]

theorem Len.renewRefusal_held {len : Len} {i : RecIx} (hs : len.leases[i].state = .held) :
    len.renewRefusal i =
      if len.catalog[len.leases[i].resource].state ≠ .opened then some .retired
      else if ¬(len.catalog[len.leases[i].resource].renewLimit = 255 ∨
        len.leases[i].renewCount < len.catalog[len.leases[i].resource].renewLimit) then some .renewLimit
      else none := by
  unfold Len.renewRefusal
  dsimp only
  rw [endedStatus_held hs]
  simp only [not_or, not_lt, ne_eq]

/-- Everything the renewal of a lease does (R37). -/
theorem LenEvent.renewRecord_eq (e : LenEvent) (i : RecIx) (term : Nat) :
    e.renewRecord i term =
      { e with
        len := e.len.setLease i
          { e.len.leases[i] with
            term := term, deadline := deadlineAfter e.now term,
            renewCount := if 254 ≤ e.len.leases[i].renewCount then 254 else e.len.leases[i].renewCount + 1 }
        toLck := e.toLck ++
          [.remove ⟨e.len.leases[i].deadline, .lease i e.len.leases[i].generation⟩,
            .insert ⟨deadlineAfter e.now term, .lease i e.len.leases[i].generation⟩] } := by
  have hcount : min (e.len.leases[i].renewCount + 1) 254 =
      if 254 ≤ e.len.leases[i].renewCount then 254 else e.len.leases[i].renewCount + 1 := by split <;> omega
  unfold LenEvent.renewRecord
  simp only [LenEvent.modLease, LenEvent.insertDeadline, LenEvent.removeDeadline, Len.leaseDeadline, Len.setLease_get,
    if_true, List.append_assoc, hcount]
  rfl

theorem exec_renew (s : State) : exec .renew s = .next (s.takeRequest .renew fun f e => e.renew f) := rfl

/-- Settles O26: the checks in their order, and the renewal. -/
theorem renewMovesTheDeadline : Obligations.RenewMovesTheDeadline := by
  intro s p f h
  refine ⟨fun ht => exec_reply h (exec_renew s) (LenEvent.renew_badTerm ht), fun i ht hr => ?_⟩
  have hr' := State.takeEvent_resolve (p := p) hr
  have refused {st : Status} (hc : s.len.renewRefusal i = some st) :
      exec .renew s = .next (s.afterReply p f st []) :=
    exec_reply h (exec_renew s) (LenEvent.renew_refused ht hr' hc)
  refine ⟨fun hs => ?lapsed, fun hs => ?revoked, fun hs ho => ?retired, fun hs ho hl => ?limit, fun hs ho hl => ?renewed⟩
  case lapsed => exact refused (Len.renewRefusal_ended (endedStatus_lapsed hs))
  case revoked => exact refused (Len.renewRefusal_ended (endedStatus_revoked hs))
  case retired => exact refused ((Len.renewRefusal_held hs).trans (if_pos ho))
  case limit => exact refused ((Len.renewRefusal_held hs).trans ((if_neg (not_not.2 ho)).trans (if_pos hl)))
  case renewed =>
    have hc : s.len.renewRefusal i = none :=
      (Len.renewRefusal_held hs).trans ((if_neg (not_not.2 ho)).trans (if_neg (not_not.2 hl)))
    rw [exec_renew, State.takeRequest_offered h, LenEvent.renew_renewed ht hr' hc, LenEvent.replyWith_eq,
      LenEvent.renewRecord_eq, State.frameOf_kind h.1.1, State.finishTake_eq_afterEvent _ _ rfl]
    rfl

/-! ## DOWNGRADE -/

section Downgrade

variable {e : LenEvent} {f : Frame} {i : RecIx} (hr : e.len.resolve f.slot (operandAt f.operands 0 2) = .ok i)

include hr

theorem LenEvent.downgrade_refused {st : Status} (hc : e.len.downgradeRefusal i = some st) :
    e.downgrade f = e.reply f st := by
  unfold LenEvent.downgrade
  rw [hr]
  dsimp only
  rw [hc]

theorem LenEvent.downgrade_shared (hc : e.len.downgradeRefusal i = none) :
    e.downgrade f =
      ({ e with
        len := ((e.len.setLease i { e.len.leases[i] with mode := .shared }).setEntry e.len.leases[i].resource
          { e.len.catalog[e.len.leases[i].resource] with holderMode := .shared }).answer f.slot f.tag
        toRqu := e.toRqu ++ [.completion f.slot ⟨f.tag, f.kind, .ok, []⟩] } : LenEvent).grantPass
        e.len.leases[i].resource := by
  unfold LenEvent.downgrade
  rw [hr]
  dsimp only
  rw [hc]
  rfl

end Downgrade

theorem Len.downgradeRefusal_ended {len : Len} {i : RecIx} {st : Status} (hs : endedStatus len.leases[i] = some st) :
    len.downgradeRefusal i = some st := by
  unfold Len.downgradeRefusal
  dsimp only
  rw [hs]

theorem Len.downgradeRefusal_held {len : Len} {i : RecIx} (hs : len.leases[i].state = .held) :
    len.downgradeRefusal i =
      if len.leases[i].mode ≠ .exclusive then some .notExclusive
      else if len.catalog[len.leases[i].resource].shareLimit = 0 then some .modeNotAllowed
      else none := by
  unfold Len.downgradeRefusal
  dsimp only
  rw [endedStatus_held hs]

theorem exec_downgrade (s : State) : exec .downgrade s = .next (s.takeRequest .downgrade fun f e => e.downgrade f) := rfl

/-- Settles O27: the checks in their order, and the change of mode. -/
theorem downgradeSharesAnExclusiveLease : Obligations.DowngradeSharesAnExclusiveLease := by
  intro s p f i h hr
  have hr' := State.takeEvent_resolve (p := p) hr
  have refused {st : Status} (hc : s.len.downgradeRefusal i = some st) :
      exec .downgrade s = .next (s.afterReply p f st []) :=
    exec_reply h (exec_downgrade s) (LenEvent.downgrade_refused hr' hc)
  refine ⟨fun hs => ?lapsed, fun hs => ?revoked, fun hs hm => ?mode, fun hs hm h0 => ?limit, fun hs hm h1 => ?shared⟩
  case lapsed => exact refused (Len.downgradeRefusal_ended (endedStatus_lapsed hs))
  case revoked => exact refused (Len.downgradeRefusal_ended (endedStatus_revoked hs))
  case mode => exact refused ((Len.downgradeRefusal_held hs).trans (if_pos hm))
  case limit => exact refused ((Len.downgradeRefusal_held hs).trans ((if_neg (not_not.2 hm)).trans (if_pos h0)))
  case shared =>
    have hc : s.len.downgradeRefusal i = none :=
      (Len.downgradeRefusal_held hs).trans ((if_neg (not_not.2 hm)).trans (if_neg (Nat.one_le_iff_ne_zero.1 h1)))
    rw [exec_downgrade, State.takeRequest_offered h, LenEvent.downgrade_shared hr' hc, State.frameOf_kind h.1.1]
    rfl

/-! ## UPGRADE -/

section Upgrade

variable {e : LenEvent} {f : Frame}

theorem LenEvent.upgrade_badLimit (ht : termMax < operandAt f.operands 2 3) : e.upgrade f = e.badOperand f .range 2 := by
  unfold LenEvent.upgrade
  dsimp only
  rw [if_pos ht]

variable (ht : operandAt f.operands 2 3 ≤ termMax)

include ht

theorem LenEvent.upgrade_denied (hx : ¬e.len.slots[f.slot].profile.holds .acquireX = true) :
    e.upgrade f = e.reply f .denied := by
  unfold LenEvent.upgrade
  dsimp only
  rw [if_neg ht.not_gt, if_pos (Bool.eq_false_iff.2 hx)]

variable (hx : e.len.slots[f.slot].profile.holds .acquireX = true) {i : RecIx}
  (hr : e.len.resolve f.slot (operandAt f.operands 0 2) = .ok i)

include hx hr

theorem LenEvent.upgrade_refused {st : Status} (hc : e.len.upgradeRefusal i = some st) :
    e.upgrade f = e.reply f st := by
  unfold LenEvent.upgrade
  dsimp only
  rw [if_neg ht.not_gt, hx, if_neg Bool.noConfusion, hr]
  dsimp only
  rw [hc]

theorem LenEvent.upgrade_lease (hc : e.len.upgradeRefusal i = none) :
    e.upgrade f = e.upgradeLease f i (operandAt f.operands 2 3) := by
  unfold LenEvent.upgrade
  dsimp only
  rw [if_neg ht.not_gt, hx, if_neg Bool.noConfusion, hr]
  dsimp only
  rw [hc]

end Upgrade

theorem Len.upgradeRefusal_ended {len : Len} {i : RecIx} {st : Status} (hs : endedStatus len.leases[i] = some st) :
    len.upgradeRefusal i = some st := by
  unfold Len.upgradeRefusal
  dsimp only
  rw [hs]

theorem Len.upgradeRefusal_held {len : Len} {i : RecIx} (hs : len.leases[i].state = .held) :
    len.upgradeRefusal i =
      if len.leases[i].mode ≠ .shared then some .notShared
      else if len.catalog[len.leases[i].resource].state ≠ .opened then some .retired
      else none := by
  unfold Len.upgradeRefusal
  dsimp only
  rw [endedStatus_held hs]

section UpgradeLease

variable {e : LenEvent} {f : Frame} {i : RecIx} {limit : Nat}

theorem LenEvent.upgradeLease_spent (hc : e.len.catalog[e.len.leases[i].resource].holderCount = 1)
    (hs : e.len.catalog[e.len.leases[i].resource].epoch = epochSpent) : e.upgradeLease f i limit = e.reply f .epochSpent := by
  unfold LenEvent.upgradeLease
  dsimp only
  rw [if_pos hc, if_pos hs]

/-- Everything the UPGRADE of a sole holder does (R67). -/
theorem LenEvent.upgradeLease_granted (hc : e.len.catalog[e.len.leases[i].resource].holderCount = 1)
    (hs : e.len.catalog[e.len.leases[i].resource].epoch ≠ epochSpent) :
    e.upgradeLease f i limit =
      { e with
        len := ((e.len.setLease i
          { e.len.leases[i] with mode := .exclusive, epoch := e.len.catalog[e.len.leases[i].resource].epoch + 1 }).setEntry
            e.len.leases[i].resource
          { e.len.catalog[e.len.leases[i].resource] with
            epoch := e.len.catalog[e.len.leases[i].resource].epoch + 1, holderMode := .exclusive }).answer f.slot f.tag
        toRqu := e.toRqu ++
          [.completion f.slot
            ⟨f.tag, f.kind, .granted,
              natToBytes (i.val * 512 + e.len.leases[i].generation.toNat) 2 ++ [modeCode .exclusive] ++
                natToBytes (e.len.catalog[e.len.leases[i].resource].epoch + 1).toNat 4 ++
                natToBytes e.len.leases[i].term 3⟩] } := by
  unfold LenEvent.upgradeLease
  dsimp only
  rw [if_pos hc, if_neg hs, LenEvent.makeExclusive_eq, LenEvent.completeGrant_eq
    (l := { e.len.leases[i] with mode := .exclusive, epoch := e.len.catalog[e.len.leases[i].resource].epoch + 1 })]
  exact (Len.setLease_get _ _ _ _).trans (if_pos rfl)

variable (hc : e.len.catalog[e.len.leases[i].resource].holderCount ≠ 1)

include hc

theorem LenEvent.upgradeLease_refused {st : Status}
    (hp : e.len.upgradeParkRefusal f.slot e.len.leases[i].resource limit = some st) :
    e.upgradeLease f i limit = e.reply f st := by
  unfold LenEvent.upgradeLease
  dsimp only
  rw [if_neg hc, hp]

theorem LenEvent.upgradeLease_parked (hp : e.len.upgradeParkRefusal f.slot e.len.leases[i].resource limit = none)
    {w : WaitIx} (hw : e.len.freeWait? = some w) : e.upgradeLease f i limit = e.parkUpgrade f w i limit := by
  unfold LenEvent.upgradeLease
  dsimp only
  rw [if_neg hc, hp, hw]

end UpgradeLease

/-- Everything the parking of an UPGRADE does (R69). -/
theorem LenEvent.parkUpgrade_eq {e : LenEvent} {f : Frame} {serial : Serial} {session : Session}
    (hserial : e.len.freshSerial e.len.waitSerial 96 = serial) (hsession : e.len.slots[f.slot].session = session)
    (w : WaitIx) (i : RecIx) (limit : Nat) :
    e.parkUpgrade f w i limit =
      { e with
        len := { ((e.len.setWait w
          (some
            { kind := .upgrade, slot := f.slot, session := session, tag := f.tag, resource := e.len.leases[i].resource,
              lease := i, serial := serial, deadline := waitDeadline e.now limit })).setEntry e.len.leases[i].resource
          { e.len.catalog[e.len.leases[i].resource] with
            queue := w :: e.len.catalog[e.len.leases[i].resource].queue, upgradePending := true }) with
          waitSerial := serial + 1 }
        toLck := e.toLck ++
          match waitDeadline e.now limit with
          | none => []
          | some d => [.insert ⟨d, .wait w serial⟩] } := by
  subst hserial hsession
  rfl

section UpgradeParkRefusal

variable {len : Len} {n : SlotIx} {r : ResIx} {limit : Nat}

theorem Len.upgradeParkRefusal_conflict (hp : len.catalog[r].upgradePending = true) :
    len.upgradeParkRefusal n r limit = some .upgradeConflict := if_pos hp

theorem Len.upgradeParkRefusal_busy (hp : len.catalog[r].upgradePending = false)
    (hb : limit = 0 ∨ len.catalog[r].waitingAllowed = false) : len.upgradeParkRefusal n r limit = some .busy := by
  unfold Len.upgradeParkRefusal
  rw [hp, if_neg Bool.noConfusion]
  by_cases hl : limit = 0
  · rw [if_pos hl]
  · rw [if_neg hl, if_pos (hb.resolve_left hl)]

theorem Len.upgradeParkRefusal_of_may
    (hb : len.catalog[r].upgradePending = false ∧ limit ≠ 0 ∧ len.catalog[r].waitingAllowed = true) :
    len.upgradeParkRefusal n r limit =
      if len.slots[n].profile.holds .wait = false then some .denied
      else if ¬∃ w : WaitIx, len.waits[w] = none then some .waitFull
      else if len.slots[n].profile.waitQuota ≤ len.waitUse n then some .quota
      else none := by
  obtain ⟨hp, hl, ha⟩ := hb
  unfold Len.upgradeParkRefusal
  rw [hp, ha, if_neg Bool.noConfusion, if_neg hl, if_neg Bool.noConfusion]
  simp only [Len.freeWait_isNone]

end UpgradeParkRefusal

theorem State.takeEvent_upgradeParkRefusal (s : State) (p : Port) (f : Frame) (n : SlotIx) (r : ResIx) (limit : Nat) :
    (s.takeEvent p f).len.upgradeParkRefusal n r limit = s.len.upgradeParkRefusal n r limit := by
  unfold Len.upgradeParkRefusal
  rw [s.takeEvent_holds p f n, s.takeEvent_freeWait p f, State.takeEvent_len, State.lenAfterTake_profile,
    Len.waitUse_congr (a := s.lenAfterTake p f) (b := s.len) rfl]
  rfl

theorem exec_upgrade (s : State) : exec .upgrade s = .next (s.takeRequest .upgrade fun f e => e.upgrade f) := rfl

/-- Settles O28: the checks of the lease, the sole holder, and the checks before parking, each in their order. -/
theorem upgradeIsGrantedToASoleHolderAndWaitsAmongOthers :
    Obligations.UpgradeIsGrantedToASoleHolderAndWaitsAmongOthers := by
  refine ⟨fun s p f h => ⟨fun ht => ?limit, fun ht hx => ?right, fun i ht hx hr => ?lease⟩,
    fun s p f i h ht hx hr hs hm ho hc => ?others⟩
  case limit => exact exec_reply h (exec_upgrade s) (LenEvent.upgrade_badLimit ht)
  case right =>
    exact exec_reply h (exec_upgrade s) (LenEvent.upgrade_denied ht (by rw [State.takeEvent_holds]; exact hx))
  all_goals
    have hr' := State.takeEvent_resolve (p := p) hr
    have hx' := (s.takeEvent_holds p f f.slot .acquireX).trans hx
  case lease =>
    have refused {st : Status} (hc : s.len.upgradeRefusal i = some st) :
        exec .upgrade s = .next (s.afterReply p f st []) :=
      exec_reply h (exec_upgrade s) (LenEvent.upgrade_refused ht hx' hr' hc)
    refine ⟨fun hs => ?lapsed, fun hs => ?revoked, fun hs hm => ?mode, fun hs hm ho => ?retired,
      fun hs hm ho hc he => ?spent, fun hs hm ho hc he => ?granted⟩
    case lapsed => exact refused (Len.upgradeRefusal_ended (endedStatus_lapsed hs))
    case revoked => exact refused (Len.upgradeRefusal_ended (endedStatus_revoked hs))
    case mode => exact refused ((Len.upgradeRefusal_held hs).trans (if_pos hm))
    case retired => exact refused ((Len.upgradeRefusal_held hs).trans ((if_neg (not_not.2 hm)).trans (if_pos ho)))
    all_goals
      have hlease := LenEvent.upgrade_lease ht hx' hr'
        ((Len.upgradeRefusal_held hs).trans ((if_neg (not_not.2 hm)).trans (if_neg (not_not.2 ho))))
    case spent => exact exec_reply h (exec_upgrade s) (hlease.trans (LenEvent.upgradeLease_spent hc he))
    case granted =>
      rw [exec_upgrade, State.takeRequest_offered h, hlease, LenEvent.upgradeLease_granted hc he, State.frameOf_kind h.1.1,
        State.finishTake_eq_afterEvent _ _ rfl]
      rfl
  case others =>
    have hlease := LenEvent.upgrade_lease ht hx' hr'
      ((Len.upgradeRefusal_held hs).trans ((if_neg (not_not.2 hm)).trans (if_neg (not_not.2 ho))))
    have refused {st : Status}
        (hp : s.len.upgradeParkRefusal f.slot s.len.leases[i].resource (operandAt f.operands 2 3) = some st) :
        exec .upgrade s = .next (s.afterReply p f st []) :=
      exec_reply h (exec_upgrade s)
        (hlease.trans (LenEvent.upgradeLease_refused hc ((s.takeEvent_upgradeParkRefusal p f _ _ _).trans hp)))
    refine ⟨fun hp => ?conflict, fun hp hb => ?busy, fun hb hw => ?wait, fun hb hw hf => ?full,
      fun w hb hw hf => ⟨fun hq => ?quota, fun hq => ?parks⟩⟩
    case conflict => exact refused (Len.upgradeParkRefusal_conflict hp)
    case busy => exact refused (Len.upgradeParkRefusal_busy hp hb)
    case wait => exact refused ((Len.upgradeParkRefusal_of_may hb).trans (if_pos hw))
    all_goals
      have hchecks := (Len.upgradeParkRefusal_of_may (len := s.len) (n := f.slot) hb).trans
        (if_neg (by rw [show _ = true from hw]; exact Bool.noConfusion))
    case full => exact refused (hchecks.trans (if_pos (not_exists.2 hf)))
    all_goals replace hchecks := hchecks.trans (if_neg (not_not.2 ⟨w, hf.1⟩))
    case quota => exact refused (hchecks.trans (if_pos hq))
    case parks =>
      have hpark := LenEvent.upgradeLease_parked (e := s.takeEvent p f) (f := f) hc
        ((s.takeEvent_upgradeParkRefusal p f _ _ _).trans (hchecks.trans (if_neg hq.not_ge)))
        ((s.takeEvent_freeWait p f).trans ((Len.freeWait_some _ _).2 hf))
      refine ⟨s.len.freshSerial s.len.waitSerial 96, s.len.freshSerial_next w hf.1, ?_⟩
      rw [exec_upgrade, State.takeRequest_offered h, hlease, hpark,
        LenEvent.parkUpgrade_eq (s.lenAfterTake_freshSerial p f _ 96) (s.lenAfterTake_session p f f.slot),
        State.finishTake_eq_afterEvent _ _ rfl]
      rfl

end Sys2Proof.Machine

/-! SUPPORT. CANCEL, BREAK and NOTICES: the targets they find, and what they do to them. -/

namespace Sys2Proof.Machine

/-! ## CANCEL -/

theorem State.takeEvent_waitUnder (s : State) (p : Port) (f : Frame) (n : SlotIx) (t : TagIx) :
    (s.takeEvent p f).len.waitUnder n t = s.len.waitUnder n t := by
  have h : (s.takeEvent p f).len.standsUnder n t = s.len.standsUnder n t := by
    funext w
    unfold Len.standsUnder
    rw [State.takeEvent_len, State.lenAfterTake_session]
    rfl
  unfold Len.waitUnder
  rw [h]

section Cancel

variable {e : LenEvent} {f : Frame}

theorem LenEvent.cancel_badTag (hb : 7 < (operandByte f.operands 0).toNat) : e.cancel f = e.badOperand f .notZero 0 := by
  unfold LenEvent.cancel
  dsimp only
  rw [if_pos ((byte_and_F8 _).2 hb)]

theorem LenEvent.cancel_tag {t : TagIx} (hb : (operandByte f.operands 0).toNat = t.val) :
    e.cancel f = e.cancelTag f t := by
  unfold LenEvent.cancel
  dsimp only
  rw [if_neg (mt (byte_and_F8 _).1 (by omega)), hb]
  exact congrArg (e.cancelTag f) (Fin.ext (Nat.mod_eq_of_lt t.isLt))

theorem LenEvent.cancelTag_found {t : TagIx} {w : WaitIx} {x : Wait} (hu : e.len.waitUnder f.slot t = some w)
    (hw : e.len.waits[w] = some x) :
    e.cancelTag f t = ((e.finishWait w false .cancelled).reply f .ok).grantPass x.resource := by
  unfold LenEvent.cancelTag Len.waitResource
  rw [hu]
  dsimp only
  rw [hw]

theorem LenEvent.cancelTag_none {t : TagIx} (hu : e.len.waitUnder f.slot t = none) :
    e.cancelTag f t = e.reply f (if e.len.slots[f.slot].answered[t] then .tooLate else .notParked) := by
  unfold LenEvent.cancelTag
  rw [hu]

end Cancel

/-- The take clears the answer mark of the request's own tag, and no other (R61). -/
theorem State.takeEvent_answered (s : State) (p : Port) (f : Frame) (t : TagIx) :
    (s.takeEvent p f).len.slots[f.slot].answered[t] = true ↔ t ≠ f.tag ∧ s.len.slots[f.slot].answered[t] = true := by
  rw [State.takeEvent_len, State.lenAfterTake_slot, if_pos rfl]
  unfold Slot.afterTake
  rw [getElem_set_fin]
  by_cases h : t = f.tag
  · simp [h]
  · simp [h]

theorem exec_cancel (s : State) : exec .cancel s = .next (s.takeRequest .cancel fun f e => e.cancel f) := rfl

/-- Settles O30: the check of the target, the wait found, and none found. -/
theorem cancelEndsTheWaitUnderATag : Obligations.CancelEndsTheWaitUnderATag := by
  intro s p f h
  refine ⟨fun hb => exec_reply h (exec_cancel s) (LenEvent.cancel_badTag hb), fun t hb =>
    ⟨fun w x hw hu hfirst => ?found, fun hnone => ?none⟩⟩
  case found =>
    have hunder := (s.takeEvent_waitUnder p f f.slot t).trans ((Len.waitUnder_some _ _ _ _).2 ⟨hu, hfirst⟩)
    rw [exec_cancel, State.takeRequest_offered h, LenEvent.cancel_tag hb, LenEvent.cancelTag_found hunder hw]
  case none =>
    have hunder := (s.takeEvent_waitUnder p f f.slot t).trans ((Len.waitUnder_none _ _ _).2 hnone)
    refine exec_reply h (exec_cancel s) ((LenEvent.cancel_tag hb).trans ((LenEvent.cancelTag_none hunder).trans ?_))
    simp only [State.takeEvent_answered]
    rfl

/-! ## BREAK -/

section Break

variable {len : Len} {handle : Nat} {i : RecIx} (hi : handleRecord handle = i)

include hi

theorem Len.resolveHeld_some (h : len.leases[i].state = .held ∧ len.leases[i].generation.toNat = handle % 512 ∧
    handle % 512 ≠ 0) : len.resolveHeld handle = some i := by
  subst hi
  exact if_pos ⟨h.1, (handleGeneration_iff _ _).2 h.2⟩

theorem Len.resolveHeld_none (h : ¬(len.leases[i].state = .held ∧ len.leases[i].generation.toNat = handle % 512 ∧
    handle % 512 ≠ 0)) : len.resolveHeld handle = none := by
  subst hi
  exact if_neg fun ⟨hs, hg⟩ => h ⟨hs, (handleGeneration_iff _ _).1 hg⟩

end Break

section BreakLease

variable {e : LenEvent} {f : Frame}

theorem LenEvent.breakLease_denied (hx : ¬e.len.slots[f.slot].profile.holds .breakLease = true) :
    e.breakLease f = e.reply f .denied := by
  unfold LenEvent.breakLease
  dsimp only
  rw [if_pos (Bool.eq_false_iff.2 hx)]

variable (hx : e.len.slots[f.slot].profile.holds .breakLease = true)

include hx

theorem LenEvent.breakLease_badOptions (h0 : operandByte f.operands 0 ≠ 0) (h1 : operandByte f.operands 0 ≠ 1) :
    e.breakLease f = e.badOperand f .notZero 0 := by
  unfold LenEvent.breakLease
  dsimp only
  rw [hx, if_neg Bool.noConfusion, if_pos ((byte_and_FE _).2 ⟨h0, h1⟩)]

section Handle

variable (h0 : operandByte f.operands 0 = 0)

include h0

theorem LenEvent.breakLease_unknownLease (hi : e.len.resolveHeld (operandAt f.operands 1 2) = none) :
    e.breakLease f = e.reply f .unknownLease := by
  unfold LenEvent.breakLease
  dsimp only
  rw [hx, if_neg Bool.noConfusion, if_neg (mt (byte_and_FE _).1 fun ⟨hn, _⟩ => hn h0), if_pos h0, hi]

theorem LenEvent.breakLease_handle {i : RecIx} (hi : e.len.resolveHeld (operandAt f.operands 1 2) = some i) :
    e.breakLease f =
      if e.len.catalog[e.len.leases[i].resource].breakAllowed then
        ((e.revokeRecord i).replyWith f .ok [1]).grantPass e.len.leases[i].resource
      else e.reply f .denied := by
  unfold LenEvent.breakLease
  dsimp only
  rw [hx, if_neg Bool.noConfusion, if_neg (mt (byte_and_FE _).1 fun ⟨hn, _⟩ => hn h0), if_pos h0, hi]

end Handle

section Name

variable (h1 : operandByte f.operands 0 = 1)

include h1

theorem LenEvent.breakLease_unknownResource (hn : e.len.lookup (nameAt f.operands 1) = none) :
    e.breakLease f = e.reply f .unknownResource := by
  unfold LenEvent.breakLease
  dsimp only
  rw [hx, if_neg Bool.noConfusion, if_neg (mt (byte_and_FE _).1 fun ⟨_, hn⟩ => hn h1),
    if_neg (by rw [h1]; decide), hn]

theorem LenEvent.breakLease_name {r : ResIx} (hn : e.len.lookup (nameAt f.operands 1) = some r) :
    e.breakLease f =
      if e.len.catalog[r].breakAllowed then
        ((e.revokeAll r).replyWith f .ok [BitVec.ofNat 8 (e.len.heldOn r).length]).grantPass r
      else e.reply f .denied := by
  unfold LenEvent.breakLease
  dsimp only
  rw [hx, if_neg Bool.noConfusion, if_neg (mt (byte_and_FE _).1 fun ⟨_, hn⟩ => hn h1),
    if_neg (by rw [h1]; decide), hn]

end Name

end BreakLease

theorem exec_breakLease (s : State) : exec .breakLease s = .next (s.takeRequest .breakLease fun f e => e.breakLease f) :=
  rfl

/-- Settles O31: the right, the options, and the target by handle and by name. -/
theorem breakRevokesItsTargets : Obligations.BreakRevokesItsTargets := by
  intro s p f h options handle i l named right refused
  have hi : handleRecord handle = i := handleRecord_eq handle
  have answer {st : Status} {b : List Byte} (hb : (s.takeEvent p f).breakLease f = (s.takeEvent p f).replyWith f st b) :
      refused st b := exec_reply h (exec_breakLease s) hb
  have event {b : LenEvent} (hb : (s.takeEvent p f).breakLease f = b) : exec .breakLease s = .next (s.finishTake p b) := by
    rw [exec_breakLease, State.takeRequest_offered h, hb]
  have hright := s.takeEvent_holds p f f.slot .breakLease
  refine ⟨fun hx => ?denied, fun hx h0 h1 => ?options, fun hx h0 hl => ?unknownLease, fun hx h0 hl ha => ?forbidden,
    fun hx h0 hl ha => ?handle, fun hx h1 hn => ?unknownResource,
    fun r hx h1 hn => ⟨fun ha => ?forbiddenName, fun ha => ⟨s.len.heldOn r, (s.len.heldOn_spec r).1, (s.len.heldOn_spec r).2, ?name⟩⟩⟩
  case denied => exact answer (LenEvent.breakLease_denied (by rw [hright]; exact hx))
  all_goals have hx' := hright.trans hx
  case options => exact answer (LenEvent.breakLease_badOptions hx' h0 h1)
  case unknownLease => exact answer (LenEvent.breakLease_unknownLease hx' h0 (Len.resolveHeld_none hi hl))
  case forbidden =>
    exact answer ((LenEvent.breakLease_handle hx' h0 (Len.resolveHeld_some hi hl)).trans
      (if_neg (by rw [Bool.not_eq_true]; exact ha)))
  case handle => exact event ((LenEvent.breakLease_handle hx' h0 (Len.resolveHeld_some hi hl)).trans (if_pos ha))
  case unknownResource =>
    exact answer (LenEvent.breakLease_unknownResource hx' h1 ((s.takeEvent_lookup p f _).trans hn))
  case forbiddenName =>
    exact answer ((LenEvent.breakLease_name hx' h1 ((s.takeEvent_lookup p f _).trans hn)).trans
      (if_neg (by rw [Bool.not_eq_true]; exact ha)))
  case name => exact event ((LenEvent.breakLease_name hx' h1 ((s.takeEvent_lookup p f _).trans hn)).trans (if_pos ha))

/-! ## NOTICES -/

theorem Len.mem_markedRecords (len : Len) (n : SlotIx) (i : RecIx) :
    i ∈ len.markedRecords n ↔ len.leases[i].changeMark = true ∧ len.leases[i].slot = n := by
  unfold Len.markedRecords
  rw [List.mem_filter]
  simp only [List.mem_finRange, true_and, decide_eq_true_eq]

theorem Len.markedRecords_pairwise (len : Len) (n : SlotIx) : (len.markedRecords n).Pairwise (· < ·) :=
  (List.pairwise_lt_finRange 128).filter _

theorem Len.markedRecords_nodup (len : Len) (n : SlotIx) : (len.markedRecords n).Nodup :=
  (List.nodup_finRange 128).filter _

theorem Len.marked_iff_markedRecords (len : Len) (n : SlotIx) : len.marked n = true ↔ 0 < (len.markedRecords n).length := by
  rw [Len.marked_iff, List.length_pos_iff_exists_mem]
  simp only [Len.mem_markedRecords]

/-- The news of the slots after the marks of some records have been cleared. -/
theorem Len.marked_unmarked {a b : Len} {taken : List RecIx}
    (hb : ∀ i : RecIx, b.leases[i] = if i ∈ taken then { a.leases[i] with changeMark := false } else a.leases[i])
    (m : SlotIx) :
    b.marked m = true ↔ ∃ i : RecIx, a.leases[i].changeMark = true ∧ a.leases[i].slot = m ∧ i ∉ taken := by
  rw [Len.marked_iff]
  refine exists_congr fun i => ?_
  rw [hb i]
  split
  · next hi => simp [hi]
  · next hi => simp [hi]

/-- The fifth element of a list is not among its first four. -/
theorem exists_not_mem_take {α : Type} {l : List α} (hn : l.Nodup) (k : Nat) :
    (∃ x ∈ l, x ∉ l.take k) ↔ k < l.length := by
  constructor
  · rintro ⟨x, hx, hk⟩
    by_contra hle
    rw [List.take_of_length_le (not_lt.1 hle)] at hk
    exact hk hx
  · intro hk
    obtain ⟨x, hx⟩ := List.exists_mem_of_ne_nil (l.drop k) (by rw [ne_eq, List.drop_eq_nil_iff]; omega)
    exact ⟨x, List.mem_of_mem_drop hx, fun ht => List.disjoint_take_drop hn le_rfl ht hx⟩

/-- What a NOTICES says of the news of its slot: off, where it clears the last mark (R24, R45). -/
theorem newsNotices_unmarked {a b : Len} {n : SlotIx}
    (hb : ∀ i : RecIx, b.leases[i] =
      if i ∈ (a.markedRecords n).take 4 then { a.leases[i] with changeMark := false } else a.leases[i]) :
    newsNotices a b =
      if 0 < (a.markedRecords n).length ∧ (a.markedRecords n).length ≤ 4 then [.newsOff n] else [] := by
  have hothers (m : SlotIx) (hm : m ≠ n) : a.marked m = b.marked m := by
    rw [Bool.eq_iff_iff, Len.marked_unmarked hb, Len.marked_iff]
    refine exists_congr fun i => and_congr_right fun _ => ⟨fun hs => ⟨hs, fun hi => hm ?_⟩, And.left⟩
    rw [← hs, ((a.mem_markedRecords n i).1 (List.mem_of_mem_take hi)).2]
  have hmarks : b.marked n = true ↔ 4 < (a.markedRecords n).length := by
    rw [Len.marked_unmarked hb, ← exists_not_mem_take (a.markedRecords_nodup n)]
    simp only [Len.mem_markedRecords, and_assoc]
  have hsame : a.marked n = b.marked n ↔ (0 < (a.markedRecords n).length ↔ 4 < (a.markedRecords n).length) := by
    rw [Bool.eq_iff_iff, hmarks, Len.marked_iff_markedRecords]
  rw [newsNotices_one hothers]
  simp only [hsame, hmarks]
  by_cases h : 0 < (a.markedRecords n).length ∧ (a.markedRecords n).length ≤ 4
  · rw [if_pos h, if_neg (by omega), if_neg (by omega)]
  · rw [if_neg h, if_pos (by omega)]

/-- Everything a NOTICES does (R45). -/
theorem LenEvent.notices_eq {e : LenEvent} {f : Frame} {leases : Vector Lease 128}
    (hl : ((e.len.markedRecords f.slot).take 4).foldl (fun e i => e.modLease i fun l => { l with changeMark := false }) e =
      { e with len := { e.len with leases := leases } }) :
    e.notices f =
      { e with
        len := ({ e.len with leases := leases } : Len).answer f.slot f.tag
        toRqu := e.toRqu ++
          [.completion f.slot
            ⟨f.tag, f.kind, if (e.len.markedRecords f.slot).length ≤ 4 then .ok else .more,
              BitVec.ofNat 8 ((e.len.markedRecords f.slot).take 4).length ::
                ((e.len.markedRecords f.slot).take 4).flatMap e.len.noticeEntry⟩] } := by
  unfold LenEvent.notices
  dsimp only
  rw [hl, LenEvent.replyWith_eq]
  rfl

theorem exec_notices (s : State) : exec .notices s = .next (s.takeRequest .notices fun f e => e.notices f) := rfl

/-- Settles O32: the marks taken, the news that goes with the last, and the report. -/
theorem noticesReportUpToFourMarks : Obligations.NoticesReportUpToFourMarks := by
  intro s p f h
  obtain ⟨leases, hfold, hleases⟩ := LenEvent.unmark_fold ((s.len.markedRecords f.slot).take 4) (s.takeEvent p f)
    ((s.len.markedRecords_nodup f.slot).sublist (List.take_sublist 4 _))
  refine ⟨s.len.markedRecords f.slot, leases, s.len.markedRecords_pairwise f.slot, s.len.mem_markedRecords f.slot, hleases,
    newsNotices_unmarked hleases, ?_⟩
  rw [exec_notices, State.takeRequest_offered h, LenEvent.notices_eq hfold, State.frameOf_kind h.1.1,
    State.finishTake_eq_afterEvent _ _ rfl]
  rfl

end Sys2Proof.Machine

/-! SUPPORT. DEFINE and RETIRE: their checks in order, the entry that a DEFINE enters and what a RETIRE ends. -/

namespace Sys2Proof.Machine

/-! ## DEFINE -/

section Define

variable {e : LenEvent} {f : Frame}

theorem LenEvent.define_denied (hx : ¬e.len.slots[f.slot].profile.holds .catalog = true) :
    e.define f = e.reply f .denied := by
  unfold LenEvent.define
  dsimp only
  rw [if_pos (Bool.eq_false_iff.2 hx)]

variable (hx : e.len.slots[f.slot].profile.holds .catalog = true)

include hx

theorem LenEvent.define_badOperand {reason : OperandReason} {location : Nat}
    (hf : defineFault (defineOperands f.operands) = some (reason, location)) :
    e.define f = e.badOperand f reason location := by
  unfold LenEvent.define
  dsimp only
  rw [hx, if_neg Bool.noConfusion, hf]

variable (hf : defineFault (defineOperands f.operands) = none)

include hf

theorem LenEvent.define_nameTaken (hn : e.len.lookup (nameAt f.operands 0) ≠ none) :
    e.define f = e.reply f .nameTaken := by
  unfold LenEvent.define
  dsimp only
  rw [hx, if_neg Bool.noConfusion, hf]
  exact if_pos (Option.isSome_iff_ne_none.2 hn)

variable (hn : e.len.lookup (nameAt f.operands 0) = none)

include hn

theorem LenEvent.define_full (hv : e.len.vacantEntry? = none) : e.define f = e.reply f .catalogFull := by
  unfold LenEvent.define
  dsimp only
  rw [hx, if_neg Bool.noConfusion, hf]
  dsimp only
  rw [show e.len.lookup (defineOperands f.operands).name = none from hn, if_neg Bool.noConfusion, hv]

theorem LenEvent.define_entered {r : ResIx} (hv : e.len.vacantEntry? = some r) :
    e.define f =
      { e with
        len := (e.len.setEntry r (defineOperands f.operands).entry).answer f.slot f.tag
        toRqu := e.toRqu ++ [.completion f.slot ⟨f.tag, f.kind, .ok, (defineOperands f.operands).payload⟩] } := by
  unfold LenEvent.define
  dsimp only
  rw [hx, if_neg Bool.noConfusion, hf]
  dsimp only
  rw [show e.len.lookup (defineOperands f.operands).name = none from hn, if_neg Bool.noConfusion, hv]
  rfl

end Define

theorem exec_define (s : State) : exec .define s = .next (s.takeRequest .define fun f e => e.define f) := rfl

theorem State.takeEvent_vacantEntry (s : State) (p : Port) (f : Frame) :
    (s.takeEvent p f).len.vacantEntry? = s.len.vacantEntry? := rfl

/-- The checks of the operands, one after the other (R5). -/
theorem defineFault_eq (ops : List Byte) :
    defineFault (defineOperands ops) =
      if nameAt ops 0 = 0x0000 ∨ nameAt ops 0 = 0xFFFF then some (.range, 0)
      else if 15 < operandAt ops 2 1 then some (.range, 2)
      else if operandAt ops 3 3 = 0 ∨ 1048575 < operandAt ops 3 3 then some (.range, 3)
      else if operandAt ops 6 3 = 0 then some (.range, 6)
      else if operandAt ops 3 3 < operandAt ops 6 3 then some (.relation, 6)
      else if 4 ≤ (operandByte ops 10).toNat then some (.notZero, 10)
      else if (BitVec.ofNat 32 (operandAt ops 12 4) : Epoch) = 0xFFFFFFFF then some (.range, 12)
      else none := by
  unfold defineFault defineOperands
  simp only [byte_and_FC, not_lt, termMax_eq]
  rfl

/-- Settles O36: the checks in their order, each failing where those before it have passed, and the entry. -/
theorem defineEntersTheResource : Obligations.DefineEntersTheResource := by
  intro s p f h o name share cap term flags floor refused right c1 c2 c3 c4 c5 c6 c7
  have answer {st : Status} {b : List Byte} (hb : (s.takeEvent p f).define f = (s.takeEvent p f).replyWith f st b) :
      refused st b := exec_reply h (exec_define s) hb
  have hright := s.takeEvent_holds p f f.slot .catalog
  have fault (hx : right) (reason : OperandReason) (location : Nat)
      (hd : defineFault (defineOperands o) = some (reason, location)) :
      refused .badOperand (badOperandPayload reason location) :=
    answer (LenEvent.define_badOperand (hright.trans hx) hd)
  have hlookup := s.takeEvent_lookup p f name
  -- Past each check the operands come to the next.
  have d1 (c : c1) := (defineFault_eq o).trans (if_neg (not_or.2 c.2))
  have d2 (c : c2) := (d1 c.1).trans (if_neg c.2.not_gt)
  have d3 (c : c3) := (d2 c.1).trans (if_neg (not_or.2 ⟨Nat.one_le_iff_ne_zero.1 c.2.1, c.2.2.not_gt⟩))
  have d4 (c : c4) := (d3 c.1).trans (if_neg (Nat.one_le_iff_ne_zero.1 c.2))
  have d5 (c : c5) := (d4 c.1).trans (if_neg c.2.not_gt)
  have d6 (c : c6) := (d5 c.1).trans (if_neg c.2.not_ge)
  have d7 (c : c7) := (d6 c.1).trans (if_neg c.2)
  have x1 (c : c1) : right := c.1
  have x2 (c : c2) : right := x1 c.1
  have x3 (c : c3) : right := x2 c.1
  have x4 (c : c4) : right := x3 c.1
  have x5 (c : c5) : right := x4 c.1
  have x6 (c : c6) : right := x5 c.1
  have x7 (c : c7) := hright.trans (x6 c.1)
  refine ⟨fun hx => ?right, fun hx hn => ?name, fun c hs => ?share, fun c hc => ?cap, fun c ht => ?term,
    fun c hr => ?relation, fun c hf => ?flags, fun c hl => ?floor, fun c hn => ?taken, fun c hn hv => ?full,
    fun r c hn hv hfirst => ?entered⟩
  case right => exact answer (LenEvent.define_denied (by rw [hright]; exact hx))
  case name => exact fault hx .range 0 ((defineFault_eq o).trans (if_pos hn))
  case share => exact fault (x1 c) .range 2 ((d1 c).trans (if_pos hs))
  case cap => exact fault (x2 c) .range 3 ((d2 c).trans (if_pos hc))
  case term => exact fault (x3 c) .range 6 ((d3 c).trans (if_pos ht))
  case relation => exact fault (x4 c) .relation 6 ((d4 c).trans (if_pos hr))
  case flags => exact fault (x5 c) .notZero 10 ((d5 c).trans (if_pos hf))
  case floor => exact fault (x6 c) .range 12 ((d6 c).trans (if_pos hl))
  case taken => exact answer (LenEvent.define_nameTaken (x7 c) (d7 c) (by rw [hlookup]; exact hn))
  case full =>
    exact answer (LenEvent.define_full (x7 c) (d7 c) (hlookup.trans hn)
      ((s.takeEvent_vacantEntry p f).trans ((Len.vacantEntry_none _).2 hv)))
  case entered =>
    have hentry := (s.takeEvent_vacantEntry p f).trans ((Len.vacantEntry_some _ _).2 ⟨hv, hfirst⟩)
    rw [exec_define, State.takeRequest_offered h,
      LenEvent.define_entered (x7 c) (d7 c) (hlookup.trans hn) hentry, State.frameOf_kind h.1.1,
      State.finishTake_eq_afterEvent _ _ rfl]
    rfl

/-! ## RETIRE -/

section Retire

variable {e : LenEvent} {f : Frame}

theorem LenEvent.retire_denied (hx : ¬e.len.slots[f.slot].profile.holds .catalog = true) :
    e.retire f = e.reply f .denied := by
  unfold LenEvent.retire
  dsimp only
  rw [if_pos (Bool.eq_false_iff.2 hx)]

variable (hx : e.len.slots[f.slot].profile.holds .catalog = true)

include hx

theorem LenEvent.retire_badOptions (h0 : operandByte f.operands 2 ≠ 0) (h1 : operandByte f.operands 2 ≠ 1) :
    e.retire f = e.badOperand f .notZero 2 := by
  unfold LenEvent.retire
  dsimp only
  rw [hx, if_neg Bool.noConfusion, if_pos ((byte_and_FE _).2 ⟨h0, h1⟩)]

variable (ho : operandByte f.operands 2 = 0 ∨ operandByte f.operands 2 = 1)

include ho

theorem LenEvent.retire_unknown (hn : e.len.lookup (nameAt f.operands 0) = none) :
    e.retire f = e.reply f .unknownResource := by
  unfold LenEvent.retire
  dsimp only
  rw [hx, if_neg Bool.noConfusion, if_neg (mt (byte_and_FE _).1 fun ⟨h0, h1⟩ => ho.elim h0 h1), hn]

theorem LenEvent.retire_entry {r : ResIx} (hn : e.len.lookup (nameAt f.operands 0) = some r) :
    e.retire f = e.retireEntry f r ((operandByte f.operands 2).getLsbD 0) := by
  unfold LenEvent.retire
  dsimp only
  rw [hx, if_neg Bool.noConfusion, if_neg (mt (byte_and_FE _).1 fun ⟨h0, h1⟩ => ho.elim h0 h1), hn]

end Retire

/-- The entry that a RETIRE takes out of use (R8). -/
theorem LenEvent.leaveOpen_eq (e : LenEvent) (r : ResIx) :
    e.leaveOpen r =
      { e with
        len := e.len.setEntry r
          (if e.len.recordsOn r = 0 then Entry.vacant e.len.catalog[r].epoch
          else { e.len.catalog[r] with state := .draining }) } := by
  unfold LenEvent.leaveOpen
  split <;> rfl

theorem retirePayload_eq (vacant : Prop) [Decidable vacant] (revoked waits : Nat) :
    retirePayload (decide vacant) revoked waits =
      [if vacant then 0x01 else 0x02, BitVec.ofNat 8 revoked, BitVec.ofNat 8 waits] := by
  unfold retirePayload
  simp only [decide_eq_true_eq]

/-- Everything a RETIRE of an entry does, once it is known which leases it revokes (R7 to R10). -/
theorem LenEvent.retireEntry_eq {e : LenEvent} {r : ResIx} {force : Bool} {targets : List RecIx}
    (ht : targets = if force then e.len.heldOn r else []) (f : Frame) :
    e.retireEntry f r force =
      (({ (targets.foldl LenEvent.revokeRecord e).retireWaits r with
          len := ((targets.foldl LenEvent.revokeRecord e).retireWaits r).len.setEntry r
            (if ((targets.foldl LenEvent.revokeRecord e).retireWaits r).len.recordsOn r = 0 then
              Entry.vacant ((targets.foldl LenEvent.revokeRecord e).retireWaits r).len.catalog[r].epoch
            else { ((targets.foldl LenEvent.revokeRecord e).retireWaits r).len.catalog[r] with state := .draining }) } :
          LenEvent).replyWith f .ok
        [if ((targets.foldl LenEvent.revokeRecord e).retireWaits r).len.recordsOn r = 0 then 0x01 else 0x02,
          BitVec.ofNat 8 targets.length,
          BitVec.ofNat 8 (targets.foldl LenEvent.revokeRecord e).len.catalog[r].queue.length]) := by
  subst ht
  unfold LenEvent.retireEntry
  cases force
  · simp only [Bool.false_eq_true, if_false, List.foldl_nil, List.length_nil, LenEvent.leaveOpen_eq, retirePayload_eq]
  · simp only [if_true, LenEvent.leaveOpen_eq, retirePayload_eq]
    rfl

theorem exec_retire (s : State) : exec .retire s = .next (s.takeRequest .retire fun f e => e.retire f) := rfl

/-- Settles O37: the checks in their order, and the RETIRE of the entry with and without force. -/
theorem retireTakesTheResourceOutOfUse : Obligations.RetireTakesTheResourceOutOfUse := by
  intro s p f h options right refused
  have answer {st : Status} {b : List Byte} (hb : (s.takeEvent p f).retire f = (s.takeEvent p f).replyWith f st b) :
      refused st b := exec_reply h (exec_retire s) hb
  have hright := s.takeEvent_holds p f f.slot .catalog
  refine ⟨fun hx => ?denied, fun hx h0 h1 => ?options, fun hx ho hn => ?unknown, fun r hx ho hn => ?entry⟩
  case denied => exact answer (LenEvent.retire_denied (by rw [hright]; exact hx))
  case options => exact answer (LenEvent.retire_badOptions (hright.trans hx) h0 h1)
  case unknown => exact answer (LenEvent.retire_unknown (hright.trans hx) ho ((s.takeEvent_lookup p f _).trans hn))
  case entry =>
    obtain ⟨hsorted, hmem⟩ := s.len.heldOn_spec r
    have hforce : options.getLsbD 0 = true ↔ options = 1 := by
      obtain ho | ho := ho
      all_goals
        rw [ho]
        decide
    refine ⟨if options.getLsbD 0 then s.len.heldOn r else [], ?sorted, fun j => ?mem, ?run⟩
    case sorted =>
      split
      · exact hsorted
      · exact List.Pairwise.nil
    case mem =>
      split
      · next hf => rw [hmem, and_iff_right (hforce.1 hf)]
      · next hf => exact ⟨fun hj => absurd hj List.not_mem_nil, fun ⟨h1, _⟩ => absurd (hforce.2 h1) hf⟩
    case run =>
      rw [exec_retire, State.takeRequest_offered h,
        LenEvent.retire_entry (hright.trans hx) ho ((s.takeEvent_lookup p f _).trans hn), LenEvent.retireEntry_eq rfl]
      rfl

end Sys2Proof.Machine

/-! SUPPORT. The currency test as TOKEN_CHECK and the check-only query ask it, and what TWP does with an answer. -/

namespace Sys2Proof.Machine

theorem modeCode_eq_iff {c : Byte} {m : Mode} (hc : modeOfCode c = some m) (holder : Mode) :
    holder = m ↔ modeCode holder = c := by
  obtain ⟨hm, hne⟩ := (modeOfCode_iff _ _).1 hc
  constructor
  · rintro rfl
    exact hm
  · intro hh
    have hcode := (modeOfCode_iff c holder).2 ⟨hh, ?_⟩
    · exact Option.some.inj (hcode.symm.trans hc)
    · rintro rfl
      rw [← hh] at hc
      cases hc

/-- The currency test, on the byte of the mode (R139, R142). -/
theorem Len.currency_eq (len : Len) (q : Query) :
    len.currency q =
      match len.lookup q.name with
      | none => .unknownResource
      | some r =>
        if (q.mode = 0x01 ∨ q.mode = 0x02) ∧ modeCode len.catalog[r].holderMode = q.mode ∧
            len.catalog[r].epoch = q.epoch then .current
        else .stale := by
  unfold Len.currency
  cases len.lookup q.name with
  | none => rfl
  | some r =>
    dsimp only
    cases hm : modeOfCode q.mode with
    | none =>
      obtain ⟨h1, h2⟩ := (modeOfCode_none _).1 hm
      exact (if_neg fun ⟨hk, _⟩ => hk.elim h1 h2).symm
    | some m =>
      have hk : q.mode = 0x01 ∨ q.mode = 0x02 := by
        by_contra hn
        cases hm.symm.trans ((modeOfCode_none _).2 (not_or.1 hn))
      simp only [modeCode_eq_iff hm, hk, true_and]

section TokenCheck

variable {e : LenEvent} {f : Frame}

theorem LenEvent.tokenCheck_denied (hx : ¬e.len.slots[f.slot].profile.holds .check = true) :
    e.tokenCheck f = e.reply f .denied := by
  unfold LenEvent.tokenCheck
  dsimp only
  rw [if_pos (Bool.eq_false_iff.2 hx)]

variable (hx : e.len.slots[f.slot].profile.holds .check = true)

include hx

theorem LenEvent.tokenCheck_badMode (hm : ¬(operandByte f.operands 6 = 0x01 ∨ operandByte f.operands 6 = 0x02)) :
    e.tokenCheck f = e.badOperand f .range 6 := by
  unfold LenEvent.tokenCheck
  dsimp only
  rw [hx, if_neg Bool.noConfusion, if_pos]
  rw [show modeOfCode (tokenOperands f.operands).mode = none from (modeOfCode_none _).2 (not_or.1 hm)]
  rfl

theorem LenEvent.tokenCheck_answered (hm : operandByte f.operands 6 = 0x01 ∨ operandByte f.operands 6 = 0x02) :
    e.tokenCheck f = e.reply f (answerStatus (e.len.currency (tokenOperands f.operands))) := by
  unfold LenEvent.tokenCheck
  dsimp only
  rw [hx, if_neg Bool.noConfusion, if_neg]
  rw [Option.isNone_iff_eq_none]
  exact fun hn => hm.elim ((modeOfCode_none _).1 hn).1 ((modeOfCode_none _).1 hn).2

end TokenCheck

theorem exec_tokenCheck (s : State) : exec .tokenCheck s = .next (s.takeRequest .tokenCheck fun f e => e.tokenCheck f) :=
  rfl

theorem State.takeEvent_currency (s : State) (p : Port) (f : Frame) (q : Query) :
    (s.takeEvent p f).len.currency q = s.len.currency q := by
  unfold Len.currency
  rw [s.takeEvent_lookup p f]
  rfl

/-- TOKEN_CHECK of a slot with the right and of a mode code answers as the test does (R140). -/
theorem exec_tokenCheck_answered {s : State} {p : Port} {f : Frame} (h : s.offersWell .tokenCheck p f)
    (hx : s.len.slots[f.slot].profile.holds .check = true)
    (hm : operandByte f.operands 6 = 0x01 ∨ operandByte f.operands 6 = 0x02) {a : CheckAnswer}
    (ha : s.len.currency (tokenOperands f.operands) = a) :
    exec .tokenCheck s = .next (s.afterReply p f (answerStatus a) []) := by
  refine exec_reply h (exec_tokenCheck s) ?_
  rw [LenEvent.tokenCheck_answered ((s.takeEvent_holds p f _ _).trans hx) hm, s.takeEvent_currency, ha]
  rfl

theorem exec_checkOnlyQuery {s : State} {q : Query} {rest : List Query} (hc : s.len.configOpen = none)
    (hq : s.paths.queries = q :: rest) :
    exec .checkOnlyQuery s =
      .next
        { s with
          paths := { s.paths with
            queries := rest, lenToTwp := s.paths.lenToTwp ++ [.answer (s.len.currency q)] } } := by
  simp only [exec, execCheckOnlyQuery, hc, hq, Option.isSome_none, Bool.false_eq_true, if_false]

theorem exec_checkOnlyAnswer {s : State} {a : CheckAnswer} {rest : List TwpMsg} (h : s.paths.lenToTwp = .answer a :: rest) :
    exec .checkOnlyAnswer s = .next (({ s with paths := { s.paths with lenToTwp := rest } } : State).takeAnswer a) := by
  simp only [exec, execCheckOnlyAnswer, h]

/-- An answer with no query that waits for it is discarded (R154). -/
theorem State.takeAnswer_discarded {s : State} (a : CheckAnswer)
    (h : ∀ q, s.twp.held ≠ some (.query q .passed) ∧ s.twp.held ≠ some (.query q .waiting)) :
    s.takeAnswer a = { s with twp := { s.twp with queryOut := false } } := by
  unfold State.takeAnswer
  dsimp only
  split
  · next q hq => exact absurd hq (h q).1
  · next q hq => exact absurd hq (h q).2
  · rfl

/-- Settles O38: the test in both of its requests, and the three things TWP may do with an answer. -/
theorem epochsAreCheckedByOneTest : Obligations.EpochsAreCheckedByOneTest := by
  refine ⟨fun s => ?tests, fun s a rest h => ⟨fun q hq => ?passed, fun q hq => ?waiting, fun hn => ?discarded⟩⟩
  case tests =>
    intro answer
    have hanswer (q : Query) : s.len.currency q = answer q := (s.len.currency_eq q).trans rfl
    refine ⟨fun q rest hc hq => (hanswer q) ▸ exec_checkOnlyQuery hc hq, fun p f h => ⟨fun hx => ?denied,
      fun hx hm => ?mode, fun hx hm ha => ?unknown, fun hx hm ha => ?current, fun hx hm ha => ?stale⟩⟩
    case denied =>
      exact exec_reply h (exec_tokenCheck s) (LenEvent.tokenCheck_denied (by rw [State.takeEvent_holds]; exact hx))
    case mode =>
      exact exec_reply h (exec_tokenCheck s) (LenEvent.tokenCheck_badMode ((s.takeEvent_holds p f _ _).trans hx) hm)
    case unknown => exact exec_tokenCheck_answered h hx hm ((hanswer _).trans ha)
    case current => exact exec_tokenCheck_answered h hx hm ((hanswer _).trans ha)
    case stale => exact exec_tokenCheck_answered h hx hm ((hanswer _).trans ha)
  case passed =>
    rw [exec_checkOnlyAnswer h]
    unfold State.takeAnswer
    dsimp only
    rw [hq]
  case waiting =>
    rw [exec_checkOnlyAnswer h]
    unfold State.takeAnswer
    dsimp only
    rw [hq]
    rfl
  case discarded => rw [exec_checkOnlyAnswer h, State.takeAnswer_discarded a (by exact hn)]

end Sys2Proof.Machine

/-! SUPPORT. PROFILE_RESTORE, PROFILE_FREEZE and CONFIG: the right and the freeze, and what each sets. -/

namespace Sys2Proof.Machine

/-! ## PROFILE_RESTORE and PROFILE_FREEZE -/

section Restore

variable {e : LenEvent} {f : Frame}

theorem LenEvent.profileRestore_denied (hx : ¬e.len.slots[f.slot].profile.holds .profile = true) :
    e.profileRestore f = e.reply f .denied := by
  unfold LenEvent.profileRestore
  dsimp only
  rw [if_pos (Bool.eq_false_iff.2 hx)]

theorem LenEvent.profileFreeze_denied (hx : ¬e.len.slots[f.slot].profile.holds .profile = true) :
    e.profileFreeze f = e.reply f .denied := if_pos (Bool.eq_false_iff.2 hx)

variable (hx : e.len.slots[f.slot].profile.holds .profile = true)

include hx

theorem LenEvent.profileRestore_frozen (hf : e.len.frozen = true) :
    e.profileRestore f = e.profileRefused f .frozen 0 0 := by
  unfold LenEvent.profileRestore
  dsimp only
  rw [hx, if_neg Bool.noConfusion, if_pos hf]

theorem LenEvent.profileFreeze_frozen (hf : e.len.frozen = true) :
    e.profileFreeze f = e.profileRefused f .frozen 0 0 := by
  unfold LenEvent.profileFreeze
  rw [hx, if_neg Bool.noConfusion, if_pos hf]

variable (hf : e.len.frozen = false)

include hf

theorem LenEvent.profileFreeze_freezes :
    e.profileFreeze f = ({ e with len := { e.len with frozen := true } } : LenEvent).reply f .ok := by
  unfold LenEvent.profileFreeze
  rw [hx, if_neg Bool.noConfusion, hf, if_neg Bool.noConfusion]

theorem LenEvent.profileRestore_badSlot (h7 : 7 < operandAt f.operands 0 1) (hFF : operandAt f.operands 0 1 ≠ 0xFF) :
    e.profileRestore f = e.profileRefused f .badSlot 1 (operandAt f.operands 0 1) := by
  unfold LenEvent.profileRestore
  dsimp only
  rw [hx, if_neg Bool.noConfusion, hf, if_neg Bool.noConfusion, if_neg hFF, slotOperand_eq_none h7]

theorem LenEvent.profileRestore_one {n : SlotIx} (hn : operandAt f.operands 0 1 = n.val) :
    e.profileRestore f = (e.restoreProfile n).reply f .ok := by
  unfold LenEvent.profileRestore
  dsimp only
  rw [hx, if_neg Bool.noConfusion, hf, if_neg Bool.noConfusion, hn, if_neg (by omega), slotOperand_val]

theorem LenEvent.profileRestore_all (hFF : operandAt f.operands 0 1 = 0xFF) :
    e.profileRestore f = ((List.finRange 8).foldl LenEvent.restoreProfile e).reply f .ok := by
  unfold LenEvent.profileRestore
  dsimp only
  rw [hx, if_neg Bool.noConfusion, hf, if_neg Bool.noConfusion, if_pos hFF]

end Restore

/-- LEN with the profiles of some slots at their ceilings (R114). -/
def Len.restored (len : Len) (named : SlotIx → Prop) [DecidablePred named] : Len :=
  { len with
    slots := Vector.ofFn fun n : SlotIx =>
      if named n then { len.slots[n] with profile := ceiling n } else len.slots[n] }

theorem vector_ext_fin {α : Type} {n : Nat} {v w : Vector α n} (h : ∀ i : Fin n, v[i] = w[i]) : v = w :=
  Vector.ext fun i hi => h ⟨i, hi⟩

theorem ofFn_getElem_fin {α : Type} {n : Nat} (g : Fin n → α) (i : Fin n) : (Vector.ofFn g)[i] = g i := by
  exact Vector.getElem_ofFn i.isLt

theorem Len.restored_slot (len : Len) (named : SlotIx → Prop) [DecidablePred named] (n : SlotIx) :
    (len.restored named).slots[n] =
      if named n then { len.slots[n] with profile := ceiling n } else len.slots[n] := ofFn_getElem_fin _ n

/-- LEN is restored where its slots are, one by one. -/
theorem Len.restored_of_slots {len : Len} {named : SlotIx → Prop} [DecidablePred named] {slots : Vector Slot 8}
    (h : ∀ n : SlotIx, slots[n] = if named n then { len.slots[n] with profile := ceiling n } else len.slots[n]) :
    ({ len with slots := slots } : Len) = len.restored named :=
  congrArg (fun v => ({ len with slots := v } : Len))
    (vector_ext_fin fun n => (h n).trans (len.restored_slot named n).symm)

theorem LenEvent.restoreProfile_eq (e : LenEvent) (n : SlotIx) :
    e.restoreProfile n = { e with len := e.len.restored (· = n) } := by
  refine congrArg (fun l => ({ e with len := l } : LenEvent)) (Len.restored_of_slots fun m => ?_)
  refine (Len.setSlot_get _ _ _ _).trans ?_
  split
  · next hm =>
    subst hm
    rfl
  · rfl

theorem LenEvent.restoreProfiles_eq (ns : List SlotIx) (e : LenEvent) :
    ns.foldl LenEvent.restoreProfile e = { e with len := e.len.restored (· ∈ ns) } := by
  induction ns generalizing e with
  | nil =>
    exact congrArg (fun l => ({ e with len := l } : LenEvent))
      (Len.restored_of_slots (len := e.len) fun m => (if_neg List.not_mem_nil).symm)
  | cons n ns ih =>
    rw [List.foldl_cons, ih, LenEvent.restoreProfile_eq]
    refine congrArg (fun l => ({ e with len := l } : LenEvent)) (Len.restored_of_slots (len := e.len) fun m => ?_)
    rw [show (Vector.ofFn _)[m] = _ from ofFn_getElem_fin _ m, Len.restored_slot]
    simp only [List.mem_cons]
    by_cases hm : m = n
    · simp only [hm, if_true, true_or, ite_self]
    · simp only [hm, if_false, false_or]

/-- PROFILE_RESTORE with a target it can name (R114). -/
theorem LenEvent.profileRestore_restores {e : LenEvent} {f : Frame}
    (hx : e.len.slots[f.slot].profile.holds .profile = true) (hf : e.len.frozen = false)
    (ht : operandAt f.operands 0 1 ≤ 7 ∨ operandAt f.operands 0 1 = 0xFF) :
    e.profileRestore f =
      ({ e with
        len := e.len.restored fun n => operandAt f.operands 0 1 = n.val ∨ operandAt f.operands 0 1 = 0xFF } :
          LenEvent).reply f .ok := by
  by_cases hFF : operandAt f.operands 0 1 = 0xFF
  · rw [LenEvent.profileRestore_all hx hf hFF, LenEvent.restoreProfiles_eq]
    simp only [List.mem_finRange, hFF, or_true]
  · have hlt : operandAt f.operands 0 1 < 8 := by omega
    rw [LenEvent.profileRestore_one hx hf (n := ⟨_, hlt⟩) rfl, LenEvent.restoreProfile_eq]
    simp only [hFF, or_false, Fin.ext_iff, eq_comm]

theorem exec_profileRestore (s : State) :
    exec .profileRestore s = .next (s.takeRequest .profileRestore fun f e => e.profileRestore f) := rfl

theorem exec_profileFreeze (s : State) :
    exec .profileFreeze s = .next (s.takeRequest .profileFreeze fun f e => e.profileFreeze f) := rfl

/-- Settles O41: the checks that both have, the target of a restore, and what each sets. -/
theorem restoreAndFreezeNeedTheRight : Obligations.RestoreAndFreezeNeedTheRight := by
  intro s p f right target
  have hright := s.takeEvent_holds p f f.slot .profile
  refine ⟨fun k hk h => ⟨fun hx => ?denied, fun hx hf => ?frozen⟩, fun h hx hf h7 hFF => ?badSlot,
    fun h hx hf ht => ?restored, fun h hx hf => ?freezes⟩
  case denied =>
    have hx' : ¬(s.takeEvent p f).len.slots[f.slot].profile.holds .profile = true := by rw [hright]; exact hx
    obtain rfl | rfl := hk
    · exact exec_reply h (exec_profileRestore s) (LenEvent.profileRestore_denied hx')
    · exact exec_reply h (exec_profileFreeze s) (LenEvent.profileFreeze_denied hx')
  case frozen =>
    obtain rfl | rfl := hk
    · exact exec_reply h (exec_profileRestore s) (LenEvent.profileRestore_frozen (hright.trans hx) hf)
    · exact exec_reply h (exec_profileFreeze s) (LenEvent.profileFreeze_frozen (hright.trans hx) hf)
  case badSlot =>
    exact exec_reply h (exec_profileRestore s) (LenEvent.profileRestore_badSlot (hright.trans hx) hf h7 hFF)
  case restored =>
    rw [exec_profileRestore, State.takeRequest_offered h, LenEvent.profileRestore_restores (hright.trans hx) hf ht,
      LenEvent.reply, LenEvent.replyWith_eq, State.frameOf_kind h.1.1, State.finishTake_eq_afterEvent _ _ rfl]
    rfl
  case freezes =>
    rw [exec_profileFreeze, State.takeRequest_offered h, LenEvent.profileFreeze_freezes (hright.trans hx) hf,
      LenEvent.reply, LenEvent.replyWith_eq, State.frameOf_kind h.1.1, State.finishTake_eq_afterEvent _ _ rfl]
    rfl

/-! ## CONFIG -/

section Config

variable {e : LenEvent} {f : Frame}

theorem LenEvent.config_denied (hx : ¬e.len.slots[f.slot].profile.holds .profile = true) :
    e.config f = e.reply f .denied := by
  unfold LenEvent.config
  dsimp only
  rw [if_pos (Bool.eq_false_iff.2 hx)]

variable (hx : e.len.slots[f.slot].profile.holds .profile = true)

include hx

theorem LenEvent.config_badOptions (ho : ¬(operandByte f.operands 0 = 0 ∨ operandByte f.operands 0 = 1)) :
    e.config f = e.badOperand f .notZero 0 := by
  unfold LenEvent.config
  dsimp only
  rw [hx, if_neg Bool.noConfusion, if_pos ((byte_and_FE _).2 (not_or.1 ho))]

variable (ho : operandByte f.operands 0 = 0 ∨ operandByte f.operands 0 = 1)

include ho

theorem LenEvent.config_frozen (hf : e.len.frozen = true) : e.config f = e.profileRefused f .frozen 0 0 := by
  unfold LenEvent.config
  dsimp only
  rw [hx, if_neg Bool.noConfusion, if_neg (mt (byte_and_FE _).1 fun ⟨h0, h1⟩ => ho.elim h0 h1), if_pos hf]

theorem LenEvent.config_opens (hf : e.len.frozen = false) :
    e.config f =
      { e with
        len := { e.len with
          checkOnly := decide (operandByte f.operands 0 = 1), configOpen := some ⟨f.slot, f.tag⟩ }
        toTwp := e.toTwp ++ [.enable (decide (operandByte f.operands 0 = 1)) true] } := by
  have hon : (operandByte f.operands 0).getLsbD 0 = decide (operandByte f.operands 0 = 1) := by
    obtain ho | ho := ho
    all_goals
      rw [ho]
      rfl
  unfold LenEvent.config
  dsimp only
  rw [hx, if_neg Bool.noConfusion, if_neg (mt (byte_and_FE _).1 fun ⟨h0, h1⟩ => ho.elim h0 h1), hf,
    if_neg Bool.noConfusion, hon]

end Config

theorem exec_config (s : State) : exec .config s = .next (s.takeRequest .config fun f e => e.config f) := rfl

theorem exec_checkOnlyEnableTake {s : State} {on waiting : Bool} {rest : List TwpMsg}
    (h : s.paths.lenToTwp = .enable on waiting :: rest) :
    exec .checkOnlyEnableTake s =
      .next
        { s with
          twp := { s.twp with checkOnly := on }
          paths := { s.paths with lenToTwp := rest, reports := s.paths.reports ++ [waiting] } } := by
  simp only [exec, execCheckOnlyEnableTake, h]

/-- An event that leaves every record sends no news notice and leaves the news flags (R24). -/
theorem State.runLen_of_leases {s : State} {event : LenEvent → LenEvent} {e : LenEvent} (he : event s.expiryEvent = e)
    (hl : s.len.leases = e.len.leases) :
    s.runLen event =
      { s with
        len := e.len
        paths :=
          { s.paths with
            lenToLck := s.paths.lenToLck ++ e.toLck
            lenToRqu := s.paths.lenToRqu ++ e.toRqu
            lenToTwp := s.paths.lenToTwp ++ e.toTwp } } := by
  have hm : ∀ n, s.len.marked n = e.len.marked n := Len.marked_congr hl
  rw [State.runLen_eq he, Len.withNews_of_marked hm, newsNotices_of_marked hm, List.nil_append]

theorem exec_configReport_open {s : State} {rest : List Bool} {c : OpenConfig} (hr : s.paths.reports = true :: rest)
    (hc : s.len.configOpen = some c) :
    exec .configReport s =
      .next (({ s with paths := { s.paths with reports := rest } } : State).runLen fun e => e.closeConfig c) := by
  simp only [exec, execConfigReport, hr, hc]

theorem exec_configReport_other {s : State} {waiting : Bool} {rest : List Bool} (hr : s.paths.reports = waiting :: rest)
    (h : waiting = false ∨ s.len.configOpen = none) :
    exec .configReport s = .next { s with paths := { s.paths with reports := rest } } := by
  obtain rfl | hc := h
  · simp only [exec, execConfigReport, hr]
  · cases waiting <;> simp only [exec, execConfigReport, hr, hc]

/-- Settles O43: the checks of CONFIG, the two takes that close it, and what LEN takes while it is open. -/
theorem configCompletesWhenTwpHasTheEnable : Obligations.ConfigCompletesWhenTwpHasTheEnable := by
  refine ⟨fun s => ⟨fun p f h => ?config, fun on waiting rest h => exec_checkOnlyEnableTake h, fun rest c hr hc => ?report,
    fun waiting rest hr h => exec_configReport_other hr h⟩, fun s hc => ?taken⟩
  case config =>
    have hright := s.takeEvent_holds p f f.slot .profile
    refine ⟨fun hx => ?denied, fun hx ho => ?options, fun hx ho hf => ?frozen, fun hx ho hf => ?opens⟩
    case denied => exact exec_reply h (exec_config s) (LenEvent.config_denied (by rw [hright]; exact hx))
    case options => exact exec_reply h (exec_config s) (LenEvent.config_badOptions (hright.trans hx) ho)
    case frozen => exact exec_reply h (exec_config s) (LenEvent.config_frozen (hright.trans hx) ho hf)
    case opens =>
      rw [exec_config, State.takeRequest_offered h, LenEvent.config_opens (hright.trans hx) ho hf]
      rfl
  case report =>
    rw [exec_configReport_open hr hc, State.runLen_of_leases rfl rfl]
    simp only [State.expiryEvent, LenEvent.closeConfig, LenEvent.complete_eq, List.append_nil, List.nil_append]
  case taken =>
    have hframe := State.nextFrame_none (p := .twp) (other := .fwp) (by decide) (.inl hc)
    have hexpiry : s.nextExpiry = none := if_pos (Option.isSome_iff_ne_none.2 hc)
    refine ⟨fun k => exec_commandOf_none (State.frameOf_none hframe k), ?lease, ?wait, ?keepalive, ?query⟩
    case lease => simp only [exec, execLeaseExpiry, hexpiry]
    case wait => simp only [exec, execWaitExpiry, hexpiry]
    case keepalive => simp only [exec, execKeepaliveExpiry, hexpiry]
    case query => simp only [exec, execCheckOnlyQuery, Option.isSome_iff_ne_none.2 hc, if_true]

end Sys2Proof.Machine

/-! SUPPORT. What RQU does with each message of a port and of LEN: its answers to claims, arrivals and selects, the ends of collects, and the slots' views. -/

namespace Sys2Proof.Machine

/-! ## A port's message at the head of its path -/

section PortMessages

variable {s : State} {p : Port} {rest : List PortMsg}

theorem exec_intakeClaim (h : s.toRqu p = .claim :: rest) :
    exec (.intakeClaim p) s = .next ((s.setToRqu p rest).answerClaim p) :=
  exec_command p .claim s rest h

theorem exec_arrivalCheck {f : Frame} (h : s.toRqu p = .arrival f :: rest) :
    exec (.arrivalCheck p) s = .next ((s.setToRqu p rest).answerArrival p f) :=
  exec_command p (.arrival f) s rest h

theorem exec_collectSelect {n : SlotIx} {session : Session} (h : s.toRqu p = .select n session :: rest) :
    exec (.collectSelect p) s = .next ((s.setToRqu p rest).answerSelect p n session) :=
  exec_command p (.select n session) s rest h

theorem exec_collectEnd {full : Bool} (h : s.toRqu p = .collectEnd full :: rest) :
    exec (.collectEnd p) s = .next ((s.setToRqu p rest).answerCollectEnd p full) :=
  exec_command p (.collectEnd full) s rest h

end PortMessages

theorem State.setToRqu_front (s : State) (p : Port) (l : List PortMsg) : (s.setToRqu p l).front p = s.front p := by
  cases p <;> rfl

/-! ## Intake -/

theorem State.answerClaim_reserved {s : State} {p : Port} (h : (s.rqu.port p).queue.length < 4) :
    s.answerClaim p = (s.modRquPort p fun q => { q with claim := true }).setAck p true := by
  unfold State.answerClaim
  rw [if_pos h]

theorem State.answerClaim_full {s : State} {p : Port} (h : 4 ≤ (s.rqu.port p).queue.length) :
    s.answerClaim p =
      ((s.writeRefusal p ((s.front p).refusal .intakeFull)).enterRefusing p).setAck p false := by
  unfold State.answerClaim
  rw [if_neg (Nat.not_lt.2 h)]

/-- The record of a REQUEST refused at its lead byte (R123). -/
theorem Front.refusal_of_lead {x : Front} {b : Byte} (hk : x.kind = some .request) (hb : x.bytes = [b])
    (reason : RefusalReason) : x.refusal reason = ⟨reason, b, 0x00⟩ := by
  unfold Front.refusal Front.lead Front.tagKind
  rw [hk, hb]
  rfl

theorem Rqu.arrivalRefusal_attach (q : Rqu) (p : Port) {f : Frame} (hk : f.kind = .attach) :
    q.arrivalRefusal p f = if f.session = 0 then none else some .staleSession := by
  unfold Rqu.arrivalRefusal
  rw [if_pos hk]

section ArrivalChecks

variable {q : Rqu} {p : Port} {f : Frame} (hk : f.kind ≠ .attach)

include hk

theorem Rqu.arrivalRefusal_active {session : Session} {bound : Port}
    (hv : q.slots[f.slot].view = .active (some (session, bound))) :
    q.arrivalRefusal p f =
      if session ≠ f.session then some .staleSession
      else if bound ≠ p then some .portMismatch
      else if q.slots[f.slot].tags[f.tag] ≠ .free then some .tagBusy
      else none := by
  unfold Rqu.arrivalRefusal
  rw [if_neg hk, hv]

theorem Rqu.arrivalRefusal_stale (hv : ∀ bound, q.slots[f.slot].view ≠ .active (some (f.session, bound))) :
    q.arrivalRefusal p f = some .staleSession := by
  rcases hview : q.slots[f.slot].view with _ | (_ | ⟨session, bound⟩) | _
  case active.some =>
    rw [Rqu.arrivalRefusal_active hk hview, if_pos]
    rintro rfl
    exact hv bound hview
  all_goals
    unfold Rqu.arrivalRefusal
    rw [if_neg hk, hview]

end ArrivalChecks

section Arrivals

variable {s : State} {p : Port} {f : Frame} {rest : List PortMsg} (h : s.toRqu p = .arrival f :: rest)

include h

theorem exec_arrivalCheck_refused {reason : RefusalReason} (hr : s.rqu.arrivalRefusal p f = some reason) :
    exec (.arrivalCheck p) s =
      .next (({ s.setToRqu p rest with rqu := s.rqu.setPort p { s.rqu.port p with claim := false } } : State).setPortStatus p
        ((s.portStatus p).refused reason (BitVec.ofNat 8 (0x40 + f.slot.val * 8))
          (BitVec.ofNat 8 (f.tag.val * 32 + kindCode f.kind)))) := by
  rw [exec_arrivalCheck h]
  unfold State.answerArrival
  rw [State.setToRqu_rqu, hr]
  cases p <;> rfl

theorem exec_arrivalCheck_accepted (hr : s.rqu.arrivalRefusal p f = none) :
    exec (.arrivalCheck p) s = .next ((s.setToRqu p rest).acceptFrame p f) := by
  rw [exec_arrivalCheck h]
  unfold State.answerArrival
  rw [State.setToRqu_rqu, hr]

end Arrivals

/-- What an attention line is driven by (R135), where the line stands as driven. -/
theorem State.modRquSlot_eq {s : State} {n : SlotIx} {f : RquSlot → RquSlot} {low : Bool}
    (h : attentionLow (f s.rqu.slots[n]).view (f s.rqu.slots[n]).completions (f s.rqu.slots[n]).news = low) :
    s.modRquSlot n f =
      { s with rqu := { s.rqu with slots := s.rqu.slots.set n { f s.rqu.slots[n] with attention := low } } } := by
  subst h
  rfl

theorem State.acceptFrame_attach (s : State) (p : Port) {f : Frame} (hk : f.kind = .attach) :
    s.acceptFrame p f = s.modRquPort p fun q => { q with queue := q.queue ++ [f], claim := false } := by
  unfold State.acceptFrame
  exact if_pos hk

theorem State.acceptFrame_request (s : State) (p : Port) {f : Frame} (hk : f.kind ≠ .attach) :
    s.acceptFrame p f =
      (s.modRquPort p fun q => { q with queue := q.queue ++ [f], claim := false }).modRquSlot f.slot
        fun x => { x with tags := x.tags.set f.tag .opened } := by
  unfold State.acceptFrame
  exact if_neg hk

/-- Settles O44: RQU's answers to a claim and to an arrival. -/
theorem framesAreTakenIntoTheIntakeQueueOrRefused : Obligations.FramesAreTakenIntoTheIntakeQueueOrRefused := by
  refine ⟨fun s p rest b h hk hb => ⟨fun hq => ?reserved, fun hq => ?full⟩,
    fun s p f rest h hdriven => ⟨fun hk hs => ?attachStale, fun hk hs => ?attach, fun hk =>
      ⟨fun hv => ?stale, fun bound hv => ⟨fun hp => ?mismatch, fun hp ht => ?busy, fun hp ht => ?accepted⟩⟩⟩⟩
  case reserved =>
    rw [exec_intakeClaim h, State.answerClaim_reserved (by rw [State.setToRqu_rqu]; exact hq)]
    cases p <;> rfl
  case full =>
    rw [exec_intakeClaim h, State.answerClaim_full (by rw [State.setToRqu_rqu]; exact hq), State.setToRqu_front,
      Front.refusal_of_lead hk hb]
    cases p <;> rfl
  case attachStale => exact exec_arrivalCheck_refused h ((Rqu.arrivalRefusal_attach _ _ hk).trans (if_neg hs))
  case attach =>
    rw [exec_arrivalCheck_accepted h ((Rqu.arrivalRefusal_attach _ _ hk).trans (if_pos hs)),
      State.acceptFrame_attach _ _ hk]
    cases p <;> rfl
  case stale => exact exec_arrivalCheck_refused h (Rqu.arrivalRefusal_stale hk hv)
  case mismatch =>
    refine exec_arrivalCheck_refused h ?_
    rw [Rqu.arrivalRefusal_active hk hv, if_neg (not_not.2 rfl), if_pos hp]
  case busy =>
    refine exec_arrivalCheck_refused h ?_
    rw [Rqu.arrivalRefusal_active hk hv, if_neg (not_not.2 rfl), if_neg (not_not.2 hp), if_pos ht]
  case accepted =>
    rw [exec_arrivalCheck_accepted h, State.acceptFrame_request _ _ hk,
      State.modRquSlot_eq (low := s.rqu.slots[f.slot].attention)]
    · cases p <;> rfl
    · have hd := hdriven f.slot
      cases p <;> exact hd.symm
    · rw [Rqu.arrivalRefusal_active hk hv, if_neg (not_not.2 rfl), if_neg (not_not.2 hp), if_neg (not_not.2 ht)]

/-! ## What RQU follows of LEN -/

theorem attentionLow_filed (v : SlotView) (l : List Completion) (c : Completion) (news : Bool) :
    attentionLow v (l ++ [c]) news = decide (v ≠ .vacant) := by
  cases v with
  | vacant => rfl
  | lost => rfl
  | active b => cases l <;> rfl

theorem attentionLow_news (v : SlotView) (l : List Completion) : attentionLow v l true = decide (v ≠ .vacant) := by
  cases v with
  | vacant => rfl
  | lost => rfl
  | active b => exact Bool.or_true _

theorem attentionLow_listed (b : Option (Session × Port)) (l : List Completion) :
    attentionLow (.active b) l false = decide (l ≠ []) := by
  cases l <;> rfl

section Notices

variable {s : State} {rest : List RquMsg}

theorem exec_completionFiled {n : SlotIx} {c : Completion} (h : s.paths.lenToRqu = .completion n c :: rest) :
    exec .completionFiled s = .next (s.popRquMsg.fileCompletion n c) := by
  simp only [exec, execCompletionFiled, h]

theorem exec_sessionBegun {n : SlotIx} {session : Session} {p : Port} (h : s.paths.lenToRqu = .begun n session p :: rest) :
    exec .sessionBegun s = .next (s.popRquMsg.changeView n (.active (some (session, p)))) := by
  simp only [exec, execSessionBegun, h]

theorem exec_sessionEnded {n : SlotIx} {v : SlotState} (h : s.paths.lenToRqu = .ended n v :: rest) :
    exec .sessionEnded s = .next (s.popRquMsg.changeView n (endedView v)) := by
  simp only [exec, execSessionEnded, h]

theorem exec_slotLost {n : SlotIx} (h : s.paths.lenToRqu = .lost n :: rest) :
    exec .slotLost s = .next (s.popRquMsg.changeView n .lost) := by
  simp only [exec, execSlotLost, h]

theorem exec_slotNewsOn {n : SlotIx} (h : s.paths.lenToRqu = .newsOn n :: rest) :
    exec .slotNewsOn s = .next (s.popRquMsg.modRquSlot n fun x => { x with news := true }) := by
  simp only [exec, execSlotNewsOn, h]

theorem exec_slotNewsOff {n : SlotIx} (h : s.paths.lenToRqu = .newsOff n :: rest) :
    exec .slotNewsOff s = .next (s.popRquMsg.modRquSlot n fun x => { x with news := false }) := by
  simp only [exec, execSlotNewsOff, h]

theorem State.popRquMsg_eq {m : RquMsg} (h : s.paths.lenToRqu = m :: rest) :
    s.popRquMsg = { s with paths := { s.paths with lenToRqu := rest } } := by
  unfold State.popRquMsg
  rw [h]
  rfl

end Notices

/-- Settles O45: a completion, each session notice, and each news notice. -/
theorem rquFollowsLen : Obligations.RquFollowsLen := by
  refine ⟨fun s n c rest h => ?filed, fun s n rest => ⟨fun session p h => ?begun, fun h => ?vacant, fun h => ?slotLost,
    fun h => ?active, fun h => ?lost⟩, fun s n rest => ⟨fun h => ?newsOn, fun h => ⟨fun hv => ?offVacant,
      fun hv => ?offLost, fun v hv => ?offActive⟩⟩⟩
  case filed =>
    rw [exec_completionFiled h, State.popRquMsg_eq h]
    exact congrArg _ (State.modRquSlot_eq (attentionLow_filed _ _ _ _))
  case begun => rw [exec_sessionBegun h, State.popRquMsg_eq h]; rfl
  case vacant => rw [exec_sessionEnded h, State.popRquMsg_eq h]; rfl
  case slotLost => rw [exec_sessionEnded h, State.popRquMsg_eq h]; rfl
  case active => rw [exec_sessionEnded h, State.popRquMsg_eq h]; rfl
  case lost => rw [exec_slotLost h, State.popRquMsg_eq h]; rfl
  case newsOn =>
    rw [exec_slotNewsOn h, State.popRquMsg_eq h]
    exact congrArg _ (State.modRquSlot_eq (attentionLow_news _ _))
  case offVacant =>
    rw [exec_slotNewsOff h, State.popRquMsg_eq h]
    exact congrArg _ (State.modRquSlot_eq (congrArg (attentionLow · _ _) hv))
  case offLost =>
    rw [exec_slotNewsOff h, State.popRquMsg_eq h]
    exact congrArg _ (State.modRquSlot_eq (congrArg (attentionLow · _ _) hv))
  case offActive =>
    rw [exec_slotNewsOff h, State.popRquMsg_eq h]
    exact congrArg _ (State.modRquSlot_eq ((congrArg (attentionLow · _ _) hv).trans (attentionLow_listed _ _)))

/-! ## Collects -/

section Presents

variable {x : RquSlot} {session : Session}

theorem RquSlot.presents_current {bound : Port} (hv : x.view = .active (some (session, bound))) :
    x.presents session = (.empty, x.completions.head?) := by
  unfold RquSlot.presents
  rw [hv]
  exact if_pos rfl

theorem RquSlot.presents_stale (hv : ∀ bound, x.view ≠ .active (some (session, bound))) :
    x.presents session = (.stale, none) := by
  unfold RquSlot.presents
  rcases hview : x.view with _ | (_ | ⟨current, bound⟩) | _
  case active.some =>
    refine if_neg ?_
    rintro rfl
    exact hv bound hview
  all_goals rfl

end Presents

/-- What a select fixes, by what its slot presents (R132). -/
theorem exec_collectSelect_presents {s : State} {p : Port} {n : SlotIx} {session : Session} {rest : List PortMsg}
    (h : s.toRqu p = .select n session :: rest) {status : Status} {shown : Option Completion}
    (hx : s.rqu.slots[n].presents session = (status, shown)) :
    exec (.collectSelect p) s =
      .next
        (({ s.setToRqu p rest with
            rqu := s.rqu.setPort p { s.rqu.port p with mark := if shown.isSome then some n else none } } : State).setFront p
          { s.front p with
            state := .presenting, presentation := .completion, sent := 0
            outgoing := match shown with
              | some c => completionFrame c
              | none => emptyFrame status }) := by
  rw [exec_collectSelect h]
  unfold State.answerSelect
  simp only [State.setToRqu_rqu, hx]
  cases p <;> cases shown <;> rfl

theorem State.removeHead_cons {s : State} {n : SlotIx} {c : Completion} {cs : List Completion}
    (h : s.rqu.slots[n].completions = c :: cs) :
    s.removeHead n =
      (s.modRquSlot n fun x => { x with completions := cs, tags := x.tags.set c.tag .free }).dropMarks n := by
  unfold State.removeHead
  rw [h]

theorem State.answerCollectEnd_removes {s : State} {p : Port} {n : SlotIx} (hm : (s.rqu.port p).mark = some n) :
    s.answerCollectEnd p true = (s.removeHead n).modRquPort p fun q => { q with mark := none } := by
  unfold State.answerCollectEnd
  rw [hm]

theorem State.answerCollectEnd_keeps {s : State} {p : Port} {full : Bool} (h : full = false ∨ (s.rqu.port p).mark = none) :
    s.answerCollectEnd p full = s.modRquPort p fun q => { q with mark := none } := by
  unfold State.answerCollectEnd
  rcases h with rfl | hm
  · rfl
  · rw [hm]
    cases full <;> rfl

/-- Once the marks of a slot are dropped, a port that held one of them has none left to drop. -/
theorem State.dropMarks_dropped {s : State} {p : Port} {n : SlotIx} (hm : (s.rqu.port p).mark = some n) :
    ((s.dropMarks n).modRquPort p fun q => { q with mark := none }) = s.dropMarks n := by
  cases p
  case twp =>
    have hm : s.rqu.twp.mark = some n := hm
    unfold State.dropMarks
    simp only [hm, if_true]
    rfl
  case fwp =>
    have hm : s.rqu.fwp.mark = some n := hm
    unfold State.dropMarks
    simp only [hm, if_true]
    rfl

theorem attentionLow_eq_match (v : SlotView) (l : List Completion) (news : Bool) :
    attentionLow v l news =
      match v with
      | .vacant => false
      | .active _ => decide (l ≠ []) || news
      | .lost => true := by
  cases v with
  | vacant => rfl
  | lost => rfl
  | active b => cases l <;> rfl

/-- Settles O46: what a select presents, and what the end of a collect removes. -/
theorem aCollectPresentsAndRemovesTheHead : Obligations.ACollectPresentsAndRemovesTheHead := by
  refine ⟨fun s p n session rest h => ⟨fun bound c cs hv hc => ?head, fun bound hv hc => ?empty, fun hv => ?stale⟩,
    fun s p full rest h => ⟨fun n c cs hf hm hc => ?removed, fun hn => ?kept⟩⟩
  case head =>
    exact exec_collectSelect_presents h ((RquSlot.presents_current hv).trans (by rw [hc]))
  case empty =>
    exact exec_collectSelect_presents h ((RquSlot.presents_current hv).trans (by rw [hc]))
  case stale => exact exec_collectSelect_presents h (RquSlot.presents_stale hv)
  case removed =>
    subst hf
    rw [exec_collectEnd h, State.answerCollectEnd_removes (n := n) (by rw [State.setToRqu_rqu]; exact hm),
      State.removeHead_cons (c := c) (cs := cs) (by cases p <;> exact hc), State.modRquSlot_eq (attentionLow_eq_match _ _ _),
      State.dropMarks_dropped (by cases p <;> exact hm)]
    cases p <;> rfl
  case kept =>
    rw [exec_collectEnd h, State.answerCollectEnd_keeps (by rw [State.setToRqu_rqu]; exact hn)]
    cases p <;> rfl

/-! ## The frame check -/

theorem checkShift_eq (c : Byte) : checkShift c = if c.toNat < 128 then c <<< 1 else (c <<< 1) ^^^ 0x9B := by
  unfold checkShift
  rw [BitVec.msb_eq_decide]
  by_cases h : c.toNat < 128
  · rw [if_pos h, if_neg (by simpa using h)]
  · rw [if_neg h, if_pos (by simpa using h)]

theorem checkShift_eq_zero (c : Byte) : checkShift c = 0 ↔ c = 0 := by
  revert c
  decide +kernel

theorem frameCheck_append (bytes : List Byte) (b : Byte) : frameCheck (bytes ++ [b]) = checkStep (frameCheck bytes) b := by
  unfold frameCheck
  rw [List.foldl_append]
  rfl

/-- A byte brings the check to 0 exactly where it is the check so far: each shift sends 0, and 0 alone, to 0. -/
theorem checkStep_eq_zero (c b : Byte) : checkStep c b = 0 ↔ b = c := by
  unfold checkStep
  simp only [checkShift_eq_zero]
  exact BitVec.xor_eq_zero_iff.trans eq_comm

/-- Settles O47. -/
theorem theFrameCheckIsTheCrcOfTheBytes : Obligations.TheFrameCheckIsTheCrcOfTheBytes := by
  refine ⟨fun bytes b => ⟨rfl, ?step, ?zero⟩, by decide +kernel, by decide +kernel, by decide +kernel⟩
  case step =>
    rw [frameCheck_append]
    unfold checkStep
    simp only [checkShift_eq]
  case zero =>
    rw [frameCheck_append]
    exact checkStep_eq_zero _ _

/-! ## A port acts with its answers in hand -/

theorem State.settled_of_empty {s : State} {p : Port} (h : s.toRqu p = []) : s.settled p := by
  intro m hm
  rw [h] at hm
  cases hm

/-- The state that a port acts in, as the commands that take its path reach it. -/
theorem State.after_settle {s t : State} {p : Port} (hn : ¬s.settled p)
    (h : s.after ((s.toRqu p).map (PortMsg.command p)) = some t) : t = s.settle p := by
  rw [State.after_map p _ s rfl] at h
  rw [State.settle_not hn]
  exact (Option.some.inj h).symm

theorem State.settle_settle {s : State} {p : Port} (hn : ¬s.settled p) : (s.settle p).settle p = s.settle p := by
  refine State.settle_of (State.settled_of_empty ?_)
  rw [State.settle_not hn, State.foldPortMsgs_toRqu, State.setToRqu_path]

theorem State.settle_keeps (s : State) (p : Port) :
    (s.settle p).inReset = s.inReset ∧ (s.settle p).fwp.ssnLow = s.fwp.ssnLow ∧
      ((s.front .fwp).state ≠ .idle → ((s.settle p).front .fwp).state ≠ .idle) := by
  by_cases h : s.settled p
  · rw [State.settle_of h]
    exact ⟨rfl, rfl, id⟩
  · rw [State.settle_not h]
    obtain ⟨hr, hs, hf⟩ := State.foldPortMsgs_keeps p (s.toRqu p) (s.setToRqu p [])
    refine ⟨hr.trans (State.setToRqu_inReset s p []), hs.trans ?_, fun hi => hf ?_⟩
    · cases p <;> rfl
    · cases p <;> exact hi

/-! ### What each event does outside reset -/

section Events

variable {s : State}

theorem exec_twpAddress (hr : s.inReset = false) (b : Byte) :
    exec (.twpAddress b) s =
      .next ((if (s.settle .twp).twp.front.state = .idle then s.settle .twp
        else ((s.settle .twp).endSegment .repeatedStart).settle .twp).addressTwp b) := by
  simp only [exec, execTwpAddress, hr]
  rfl

theorem exec_twpWriteByte (hr : s.inReset = false) (b : Byte) :
    exec (.twpWriteByte b) s =
      .next (if (s.settle .twp).twp.front.state = .receiving then (s.settle .twp).receiveTwp b
        else (s.settle .twp).setAck .twp false) := by
  simp only [exec, execTwpWriteByte, hr]
  rfl

theorem exec_twpSegmentEnd (hr : s.inReset = false) (e : SegmentEnd) :
    exec (.twpSegmentEnd e) s = .next ((s.settle .twp).endSegment e) := by
  simp only [exec, execTwpSegmentEnd, hr]
  rfl

/-- What a bus clear does to a settled port (R155). -/
def State.clearBus (s : State) : State :=
  ((((if s.twp.front.presentation = .completion then s.sendToRqu .twp (.collectEnd false) else s).refuseFrame .twp
    (s.twp.front.refusal .busClear)).idleTwp).dropHeld).setAck .twp false

theorem exec_busClear (hr : s.inReset = false) : exec .busClear s = .next (s.settle .twp).clearBus := by
  simp only [exec, execBusClear, hr]
  rfl

theorem exec_byteClockedOut (hr : s.inReset = false) (ack : Bool) :
    exec (.byteClockedOut ack) s =
      .next (if (s.settle .twp).twp.front.state = .presenting then (s.settle .twp).clockOut ack
        else { s.settle .twp with twp := { (s.settle .twp).twp with sdaOut := 0xFF } }) := by
  simp only [exec, execByteClockedOut, hr]
  rfl

/-- What a falling edge of SSN does to a settled port (R157, R158). -/
def State.beginTransaction (s : State) (high : Bool) : State :=
  { s with
    fwp :=
      { s.fwp with
        front := { Front.idle with state := .receiving }
        ssnLow := true
        sdoDriven := true
        statusByte := portStatusByte (s.rqu.port .fwp).freeCount s.fwp.status false
        readLate := high } }

theorem exec_ssnFall (hr : s.inReset = false) (hlow : s.fwp.ssnLow = false) (high : Bool) :
    exec (.ssnFall high) s = .next ((s.settle .fwp).beginTransaction high) := by
  simp only [exec, execSsnFall, hr, hlow]
  rfl

theorem exec_ssnRise (hr : s.inReset = false) (hlow : s.fwp.ssnLow = true) :
    exec .ssnRise s =
      .next { (s.settle .fwp).endTransaction with fwp := { (s.settle .fwp).endTransaction.fwp with ssnLow := false } } := by
  simp only [exec, execSsnRise, hr, hlow]
  rfl

theorem exec_fwpByteReceived (hr : s.inReset = false) (hlow : s.fwp.ssnLow = true) (hi : s.fwp.front.state ≠ .idle)
    (b : Byte) : exec (.fwpByteReceived b) s = .next ((s.settle .fwp).clockFwp b) := by
  simp only [exec, execFwpByteReceived, hr, hlow, hi]
  rfl

end Events

/-- Settles O48: each event of a port begins by what `settle` does, and in a settled state `settle` does nothing. -/
theorem portsActWithTheirAnswersInHand : Obligations.PortsActWithTheirAnswersInHand := by
  intro s t p c hr hn hafter hc
  obtain rfl := State.after_settle hn hafter
  obtain ⟨hkr, hks, hkf⟩ := s.settle_keeps p
  rw [hr] at hkr
  have hss := State.settle_settle hn
  rcases hc with ⟨rfl, hc⟩ | ⟨rfl, ⟨hlow, high, rfl⟩ | ⟨hlow, rfl | ⟨hi, b, rfl⟩⟩⟩
  case inl =>
    rcases hc with ⟨b, rfl⟩ | ⟨b, rfl⟩ | ⟨e, rfl⟩ | rfl | ⟨ack, rfl⟩
    · rw [exec_twpAddress hr, exec_twpAddress hkr, hss]
    · rw [exec_twpWriteByte hr, exec_twpWriteByte hkr, hss]
    · rw [exec_twpSegmentEnd hr, exec_twpSegmentEnd hkr, hss]
    · rw [exec_busClear hr, exec_busClear hkr, hss]
    · rw [exec_byteClockedOut hr, exec_byteClockedOut hkr, hss]
  case inr.inl => rw [exec_ssnFall hr hlow, exec_ssnFall hkr (hks.trans hlow), hss]
  case inr.inr.inl => rw [exec_ssnRise hr hlow, exec_ssnRise hkr (hks.trans hlow), hss]
  case inr.inr.inr =>
    rw [exec_fwpByteReceived hr hlow hi, exec_fwpByteReceived hkr (hks.trans hlow) (hkf hi), hss]

end Sys2Proof.Machine

/-! SUPPORT. The two-wire port's addresses, and the bytes of its write segments. -/

namespace Sys2Proof.Machine

/-! ## Addresses -/

theorem Twp.primaryAddress_toNat (t : Twp) : t.primaryAddress.toNat = 0x58 + t.adr.val := by
  have := t.adr.isLt
  change (0x58 + t.adr.val % 256) % 256 = _
  omega

theorem Twp.checkAddress_toNat (t : Twp) : t.checkAddress.toNat = 0x5C + t.adr.val := by
  have := t.adr.isLt
  change (0x5C + t.adr.val % 256) % 256 = _
  omega

/-- The address byte by its number: what it addresses in its seven high bits, the direction in its lowest (R145). -/
theorem State.addressTwp_eq (s : State) (b : Byte) :
    s.addressTwp b =
      if b.toNat / 2 = 0x58 + s.twp.adr.val then (if b.toNat % 2 = 0 then s.beginWrite none else s.readPrimary)
      else if b.toNat / 2 = 0x5C + s.twp.adr.val then
        if b.toNat % 2 = 0 then (if s.twp.checkOnly then s.beginWrite (some .checkOnlyQuery) else s.ignoreSegment)
        else (if s.twp.checkOnly || s.twp.holdsQuery then s.readCheckOnly else s.ignoreSegment)
      else s.ignoreSegment := by
  unfold State.addressTwp
  simp only [byte_shift_iff, byte_bit0, Twp.primaryAddress_toNat, Twp.checkAddress_toNat, decide_eq_true_eq]
  rcases Nat.mod_two_eq_zero_or_one b.toNat with h | h <;> simp only [h, Nat.zero_ne_one, Nat.one_ne_zero, if_true, if_false]

section AddressCases

variable {s : State} {b : Byte}

theorem State.addressTwp_primary (h : b.toNat / 2 = 0x58 + s.twp.adr.val) :
    s.addressTwp b = if b.toNat % 2 = 0 then s.beginWrite none else s.readPrimary :=
  s.addressTwp_eq b |>.trans (if_pos h)

theorem State.addressTwp_check (h : b.toNat / 2 = 0x5C + s.twp.adr.val) :
    s.addressTwp b =
      if b.toNat % 2 = 0 then (if s.twp.checkOnly then s.beginWrite (some .checkOnlyQuery) else s.ignoreSegment)
      else (if s.twp.checkOnly || s.twp.holdsQuery then s.readCheckOnly else s.ignoreSegment) := by
  rw [State.addressTwp_eq, if_neg (by omega), if_pos h]

theorem State.addressTwp_checkRead (h : b.toNat / 2 = 0x5C + s.twp.adr.val) (hr : ¬b.toNat % 2 = 0)
    (ha : s.twp.checkOnly = true ∨ s.twp.holdsQuery = true) : s.addressTwp b = s.readCheckOnly := by
  rw [State.addressTwp_check h, if_neg hr, if_pos (Bool.or_eq_true_iff.2 ha)]

theorem Twp.holdsQuery_iff (t : Twp) : t.holdsQuery = true ↔ ∃ q stage, t.held = some (.query q stage) := by
  unfold Twp.holdsQuery
  rcases t.held with _ | (_ | _ | ⟨q, stage⟩)
  case some.query => exact ⟨fun _ => ⟨q, stage, rfl⟩, fun _ => rfl⟩
  all_goals exact ⟨Bool.noConfusion, nofun⟩

/-- An address that TWP leaves unacknowledged (R145). -/
theorem State.addressTwp_ignored (hp : ¬b.toNat / 2 = 0x58 + s.twp.adr.val)
    (hg : ¬(b.toNat / 2 = 0x5C + s.twp.adr.val ∧
      (s.twp.checkOnly = true ∨ ¬b.toNat % 2 = 0 ∧ ∃ q stage, s.twp.held = some (.query q stage)))) :
    s.addressTwp b = s.ignoreSegment := by
  rw [State.addressTwp_eq, if_neg hp]
  by_cases h : b.toNat / 2 = 0x5C + s.twp.adr.val
  · obtain ⟨hco, hask⟩ := not_or.1 (not_and.1 hg h)
    rw [if_pos h]
    by_cases hw : b.toNat % 2 = 0
    · rw [if_pos hw, if_neg hco]
    · rw [if_neg hw, if_neg]
      rw [Bool.or_eq_true_iff, Twp.holdsQuery_iff]
      exact not_or.2 ⟨hco, not_and.1 hask hw⟩
  · rw [if_neg h]

end AddressCases

section ReadCheckOnly

variable {s : State}

theorem State.readCheckOnly_answered {q : Query} {a : CheckAnswer} (h : s.twp.held = some (.query q (.answered a))) :
    s.readCheckOnly = s.beginRead .answer (answerFrame a) := by
  unfold State.readCheckOnly
  rw [h]

theorem State.readCheckOnly_waiting {q : Query} (h : s.twp.held = some (.query q .passed) ∨ s.twp.held = some (.query q .waiting)) :
    s.readCheckOnly = s.beginRead .answer noAnswerFrame := by
  unfold State.readCheckOnly
  rcases h with h | h <;> rw [h]

theorem State.readCheckOnly_unasked (h : ¬∃ q stage, s.twp.held = some (.query q stage)) :
    s.readCheckOnly = s.dropHeld.beginRead .answer (answerFrame .checkFailed) := by
  unfold State.readCheckOnly
  rcases hh : s.twp.held with _ | (_ | _ | ⟨q, stage⟩)
  case some.query => exact absurd ⟨q, stage, hh⟩ h
  all_goals rfl

end ReadCheckOnly

theorem State.readPrimary_collect {s : State} {n : SlotIx} {session : Session}
    (h : s.twp.held = some (.collect n session)) :
    s.readPrimary = (s.dropHeld.beginRead .completion []).sendToRqu .twp (.select n session) := by
  unfold State.readPrimary
  rw [h]

theorem State.readPrimary_status {s : State} (h : s.twp.held = some .status) :
    s.readPrimary = (s.dropHeld.beginRead .status []).fixStatus .twp := by
  unfold State.readPrimary
  rw [h]

/-! ## A START in a segment that was not ended -/

theorem State.judgeRequest_inReset (s : State) (p : Port) : (s.judgeRequest p).inReset = s.inReset := by
  unfold State.judgeRequest State.inReset
  dsimp only
  split
  · simp
  · split <;> simp

theorem State.judgeQuery_inReset (s : State) : s.judgeQuery.inReset = s.inReset := by
  unfold State.judgeQuery
  dsimp only
  split
  · split <;> rfl
  · rfl

theorem State.judgeSelect_inReset (s : State) (item : Held) : (s.judgeSelect item).inReset = s.inReset := by
  unfold State.judgeSelect
  split <;> rfl

theorem State.judgeTwp_inReset (s : State) : s.judgeTwp.inReset = s.inReset := by
  unfold State.judgeTwp
  dsimp only
  split
  · rfl
  · exact s.judgeQuery_inReset
  · split
    · rfl
    · split
      · exact s.judgeRequest_inReset .twp
      · exact s.judgeSelect_inReset _
      · exact s.judgeSelect_inReset _

theorem State.endPresentation_inReset (s : State) (p : Port) : (s.endPresentation p).inReset = s.inReset := by
  unfold State.endPresentation State.endStatus State.inReset
  split
  · simp
  · split <;> simp
  · rfl
  · rfl

theorem State.endSegment_inReset (s : State) (e : SegmentEnd) : (s.endSegment e).inReset = s.inReset := by
  unfold State.endSegment
  dsimp only
  cases e <;> cases s.twp.front.state
  case stop.receiving | repeatedStart.receiving | stop.refusing | repeatedStart.refusing => exact s.judgeTwp_inReset
  case stop.presenting | repeatedStart.presenting => exact s.endPresentation_inReset .twp
  case stop.idle | repeatedStart.idle => rfl

theorem State.endSegment_front (s : State) (e : SegmentEnd) : (s.endSegment e).twp.front = Front.idle := by
  unfold State.endSegment
  cases e <;> rfl

/-- After a segment of a settled port has ended, the answers that then come leave its front end IDLE. -/
theorem State.settle_endSegment_idle {s : State} (h : s.settled .twp) (e : SegmentEnd) :
    ((s.endSegment e).settle .twp).twp.front.state = .idle := by
  have hidle : (s.endSegment e).twp.front.state = .idle := congrArg Front.state (s.endSegment_front e)
  by_cases hn : (s.endSegment e).settled .twp
  · rw [State.settle_of hn]
    exact hidle
  · rw [State.settle_not hn]
    refine State.foldPortMsgs_idle _ _ (fun m hm => ?_) hidle
    have hold (m : PortMsg) (hm : m ∈ s.paths.twpToRqu) : m.awaited = false := by
      obtain ⟨full, rfl⟩ := h m hm
      rfl
    have hm : m ∈ (s.endSegment e).paths.twpToRqu := hm
    rcases s.endSegment_path e with heq | ⟨f, heq⟩ | ⟨full, heq⟩
    · exact .inl (hold m (heq ▸ hm))
    · rw [heq, List.mem_append, List.mem_singleton] at hm
      exact hm.imp (hold m) fun hf => ⟨f, hf⟩
    · rw [heq, List.mem_append, List.mem_singleton] at hm
      exact .inl (hm.elim (hold m) fun hf => hf ▸ rfl)

theorem exec_twpAddress_idle {s : State} (hr : s.inReset = false) (hs : s.settled .twp) (hi : s.twp.front.state = .idle)
    (b : Byte) : exec (.twpAddress b) s = .next (s.addressTwp b) := by
  rw [exec_twpAddress hr, State.settle_of hs, if_pos hi]

/-- A START in a segment that was not ended acts as one after a repeated start (log 14). -/
theorem exec_twpAddress_restart {s t : State} (hr : s.inReset = false) (hs : s.settled .twp)
    (hi : s.twp.front.state ≠ .idle) (h : exec (.twpSegmentEnd .repeatedStart) s = .next t) (b : Byte) :
    exec (.twpAddress b) s = exec (.twpAddress b) t := by
  rw [exec_twpSegmentEnd hr, State.settle_of hs, Host.Outcome.next.injEq] at h
  subst h
  rw [exec_twpAddress hr, exec_twpAddress ((s.endSegment_inReset _).trans hr), State.settle_of hs, if_neg hi,
    if_pos (State.settle_endSegment_idle hs .repeatedStart)]

/-- Settles O49: each address and direction, a START in a segment, and what reset leaves of the port. -/
theorem twpAnswersItsAddressesOutsideReset : Obligations.TwpAnswersItsAddressesOutsideReset := by
  refine ⟨fun s b hr hs hi => ?addresses, fun s t b => ⟨fun hr hs hi h => exec_twpAddress_restart hr hs hi h b,
    fun hr => ⟨?_, fun e => ?segmentEnd, ?busClear, fun ack => ?clocked⟩⟩⟩
  case addresses =>
    have hexec := exec_twpAddress_idle hr hs hi b
    intro t address write primary guarded asked begins shows status
    refine ⟨fun hp hw => ?write, fun hp hw => ⟨fun n session hh => ?collect, fun hh => ?status, fun hc hh => ?nothing⟩,
      fun hg hw hco => ?query, fun hg hw => ⟨fun q a hh => ?answered, fun q hh => ?unanswered, fun hco ha => ?unasked⟩,
      fun hp hg => ?ignored⟩
    case write => rw [hexec, State.addressTwp_primary hp, if_pos hw]; rfl
    case collect =>
      rw [hexec, State.addressTwp_primary hp, if_neg hw, State.readPrimary_collect hh]
      rfl
    case status =>
      rw [hexec, State.addressTwp_primary hp, if_neg hw, State.readPrimary_status hh]
      exact congrArg _ (State.fixStatus_twp _ _ (State.statusPresentation_twp _))
    case nothing =>
      rw [hexec, State.addressTwp_primary hp, if_neg hw, State.readPrimary_nothing s hc hh]
      rfl
    case query =>
      rw [hexec, State.addressTwp_check hg, if_pos hw, if_pos hco]
      rfl
    case answered =>
      rw [hexec, State.addressTwp_checkRead hg hw (.inr ((Twp.holdsQuery_iff _).2 ⟨q, _, hh⟩)),
        State.readCheckOnly_answered hh]
      rfl
    case unanswered =>
      have hasked : ∃ q stage, s.twp.held = some (.query q stage) :=
        hh.elim (fun h => ⟨q, _, h⟩) (fun h => ⟨q, _, h⟩)
      rw [hexec, State.addressTwp_checkRead hg hw (.inr ((Twp.holdsQuery_iff _).2 hasked)), State.readCheckOnly_waiting hh,
        noAnswerFrame_eq]
      rfl
    case unasked =>
      rw [hexec, State.addressTwp_checkRead hg hw (.inl hco), State.readCheckOnly_unasked ha]
      rfl
    case ignored =>
      rw [hexec, State.addressTwp_ignored hp hg]
      rfl
  case segmentEnd =>
    simp only [exec, execTwpSegmentEnd, hr]
    rfl
  case busClear =>
    simp only [exec, execBusClear, hr]
    rfl
  case clocked =>
    simp only [exec, execByteClockedOut, hr]
    rfl
  · rintro c (rfl | rfl)
    · simp only [exec, execTwpAddress, hr]
      rfl
    · simp only [exec, execTwpWriteByte, hr]
      rfl

/-! ## Written bytes -/

/-- What a lead byte comes to at a two-wire write segment (R148). -/
theorem State.leadTwp_none {s : State} {b : Byte} (h : leadKind b = none) :
    s.leadTwp b = s.refuseTwpByte b .badLead := by
  unfold State.leadTwp
  rw [h]

theorem State.leadTwp_request {s : State} {b : Byte} (h : leadKind b = some .request) :
    s.leadTwp b =
      ((s.setFront .twp { s.twp.front.take b with kind := some .request }).setAck .twp false).sendToRqu .twp .claim := by
  unfold State.leadTwp
  rw [h]

theorem State.leadTwp_select {s : State} {b : Byte} {k : FrameKind} (h : leadKind b = some k) (hk : k ≠ .request) :
    s.leadTwp b = (s.setFront .twp { s.twp.front.take b with kind := some k }).setAck .twp true := by
  unfold State.leadTwp
  rw [h]
  cases k with
  | request => exact absurd rfl hk
  | collectSelect => rfl
  | statusSelect => rfl
  | checkOnlyQuery => rfl

section LeadKinds

variable {b : Byte}

theorem leadKind_bad (h : b.toNat % 8 ≠ 0 ∨ b.toNat / 64 = 0) : leadKind b = none := by
  rw [leadKind_iff, if_pos h]

theorem leadKind_request (h : b.toNat % 8 = 0) (hk : b.toNat / 64 = 1) : leadKind b = some .request := by
  rw [leadKind_iff, if_neg (by omega), if_pos hk]

theorem leadKind_collect (h : b.toNat % 8 = 0) (hk : b.toNat / 64 = 2) : leadKind b = some .collectSelect := by
  rw [leadKind_iff, if_neg (by omega), if_neg (by omega), if_pos hk]

theorem leadKind_status (h : b.toNat % 8 = 0) (hk : b.toNat / 64 = 3) : leadKind b = some .statusSelect := by
  rw [leadKind_iff, if_neg (by omega), if_neg (by omega), if_neg (by omega)]

end LeadKinds

/-- The record of a frame of no kind yet: its lead byte alone (R123). -/
theorem Front.refusal_of_none {x : Front} (hk : x.kind = none) (reason : RefusalReason) :
    x.refusal reason = ⟨reason, operandByte x.bytes 0, 0x00⟩ := by
  unfold Front.refusal Front.lead Front.tagKind
  rw [hk]
  rfl

theorem Front.refusal_of_request {x : Front} (hk : x.kind = some .request) (reason : RefusalReason) :
    x.refusal reason = ⟨reason, operandByte x.bytes 0, operandByte x.bytes 3⟩ := by
  unfold Front.refusal Front.lead Front.tagKind
  rw [hk]
  rfl

/-- The record of a REQUEST refused at its length byte: the bytes before it tell the lead, tag and kind. -/
theorem Front.refusal_of_badLength {x : Front} {b : Byte} (hk : x.kind = some .request) (hl : x.bytes.length = 4)
    (reason : RefusalReason) :
    (x.received b).refusal reason = ⟨reason, operandByte x.bytes 0, operandByte x.bytes 3⟩ := by
  rw [Front.refusal_of_request (x := x.received b) hk]
  unfold Front.received
  dsimp only
  rw [operandByte_append_lt _ _ _ (by omega), operandByte_append_lt _ _ _ (by omega)]

theorem State.refuseTwpByte_eq {s : State} {b : Byte} {reason : RefusalReason} {lead tagKind : Byte}
    (hx : s.twp.front.check = frameCheck s.twp.front.bytes)
    (hrec : (s.twp.front.received b).refusal reason = ⟨reason, lead, tagKind⟩) :
    s.refuseTwpByte b reason =
      { s with
        twp :=
          { s.twp with
            front := { s.twp.front.received b with state := .refusing }
            sdaAck := false
            status := s.twp.status.refused reason lead tagKind }
        rqu := { s.rqu with twp := { s.rqu.twp with claim := false } } } := by
  unfold State.refuseTwpByte
  dsimp only
  rw [Front.received_take b hx, hrec]
  rfl

theorem Front.complete_iff {x : Front} {k : FrameKind} (hk : x.kind = some k) :
    x.complete = true ↔ k.length x.bytes ≤ x.bytes.length := by
  unfold Front.complete
  rw [Front.total_of_kind hk]
  exact decide_eq_true_iff

theorem Front.badLength_iff {x : Front} {k : FrameKind} (hk : x.kind = some k) (b : Byte) :
    x.badLength b = true ↔ k = .request ∧ x.bytes.length = 4 ∧ 16 < b.toNat := by
  unfold Front.badLength
  rw [decide_eq_true_iff, hk, Option.some.injEq]

section ReceiveTwp

variable {s : State} {b : Byte}

theorem State.receiveTwp_lead (hk : s.twp.front.kind = none) : s.receiveTwp b = s.leadTwp b := by
  unfold State.receiveTwp
  exact if_pos hk

variable {k : FrameKind} (hk : s.twp.front.kind = some k)

include hk

theorem State.receiveTwp_extra (hc : k.length s.twp.front.bytes ≤ s.twp.front.bytes.length) :
    s.receiveTwp b = s.refuseTwpExtra := by
  unfold State.receiveTwp
  dsimp only
  rw [if_neg (by rw [hk]; exact Option.some_ne_none k), if_pos ((Front.complete_iff hk).2 hc)]

theorem State.receiveTwp_badLength (hc : s.twp.front.bytes.length < k.length s.twp.front.bytes)
    (hl : k = .request ∧ s.twp.front.bytes.length = 4 ∧ 16 < b.toNat) :
    s.receiveTwp b = s.refuseTwpByte b .badLength := by
  unfold State.receiveTwp
  dsimp only
  rw [if_neg (by rw [hk]; exact Option.some_ne_none k), if_neg (fun h => absurd ((Front.complete_iff hk).1 h) (by omega)),
    if_pos ((Front.badLength_iff hk b).2 hl)]

theorem State.receiveTwp_takes (hc : s.twp.front.bytes.length < k.length s.twp.front.bytes)
    (hl : ¬(k = .request ∧ s.twp.front.bytes.length = 4 ∧ 16 < b.toNat)) : s.receiveTwp b = s.takeTwp b := by
  unfold State.receiveTwp
  dsimp only
  rw [if_neg (by rw [hk]; exact Option.some_ne_none k), if_neg (fun h => absurd ((Front.complete_iff hk).1 h) (by omega)),
    if_neg (fun h => hl ((Front.badLength_iff hk b).1 h))]

end ReceiveTwp

theorem State.takeTwp_eq {s : State} (b : Byte) (hx : s.twp.front.check = frameCheck s.twp.front.bytes) :
    s.takeTwp b = { s with twp := { s.twp with front := s.twp.front.received b, sdaAck := true } } := by
  unfold State.takeTwp
  rw [Front.received_take b hx]
  rfl

/-- Settles O50: a byte outside a write segment, a lead byte, and each byte that can follow one. -/
theorem twpTakesOrRefusesAByte : Obligations.TwpTakesOrRefusesAByte := by
  intro s b hr hs
  have hexec := exec_twpWriteByte hr b
  rw [State.settle_of hs] at hexec
  intro x q goes refused
  refine ⟨fun hn => ?outside, fun hx hcheck => ⟨fun hk hb => ⟨fun hl => ?badLead, fun h8 hl => ?request,
    fun h8 hl => ?collect, fun h8 hl => ?status⟩, fun k hk => ⟨fun hc => ?extra, fun hc hl => ?badLength, fun hc hl => ?takes⟩⟩⟩
  case outside =>
    rw [if_neg hn] at hexec
    exact hexec
  all_goals rw [if_pos hx] at hexec
  case badLead =>
    rw [State.receiveTwp_lead hk, State.leadTwp_none (leadKind_bad hl), State.refuseTwpByte_eq hcheck] at hexec
    · exact hexec
    · rw [Front.refusal_of_none (x := s.twp.front.received b) hk]
      unfold Front.received
      rw [show s.twp.front.bytes = [] from hb]
      rfl
  case request =>
    rw [State.receiveTwp_lead hk, State.leadTwp_request (leadKind_request h8 hl), Front.received_take b hcheck] at hexec
    exact hexec
  case collect =>
    rw [State.receiveTwp_lead hk, State.leadTwp_select (leadKind_collect h8 hl) nofun, Front.received_take b hcheck] at hexec
    exact hexec
  case status =>
    rw [State.receiveTwp_lead hk, State.leadTwp_select (leadKind_status h8 hl) nofun, Front.received_take b hcheck] at hexec
    exact hexec
  case extra =>
    rw [State.receiveTwp_extra hk hc] at hexec
    exact hexec
  case badLength =>
    obtain ⟨rfl, hlen, hb⟩ := id hl
    rw [State.receiveTwp_badLength hk hc hl, State.refuseTwpByte_eq hcheck (Front.refusal_of_badLength hk hlen _)] at hexec
    exact hexec
  case takes =>
    rw [State.receiveTwp_takes hk hc hl, State.takeTwp_eq b hcheck] at hexec
    exact hexec

end Sys2Proof.Machine

/-! SUPPORT. What a frame at its end comes to, and the ends of the two-wire port's segments. -/

namespace Sys2Proof.Machine

/-! ## A frame at its end -/

section Faults

variable {x : Front} {k : FrameKind} (hk : x.kind = some k)

include hk

theorem Front.fault_short (hl : x.bytes.length < k.length x.bytes) : x.fault = some .shortFrame :=
  (x.fault_iff k hk).trans (if_pos hl)

theorem Front.fault_extra (hl : ¬x.bytes.length < k.length x.bytes) (he : x.extra = true) : x.fault = some .badLength := by
  rw [x.fault_iff k hk, if_neg hl, if_pos he]

theorem Front.fault_check (hl : ¬x.bytes.length < k.length x.bytes) (he : x.extra = false) (hc : x.check ≠ 0) :
    x.fault = some .checkFailed := by
  rw [x.fault_iff k hk, if_neg hl, if_neg (by rw [he]; exact Bool.noConfusion), if_pos hc]

theorem Front.fault_none_iff :
    x.fault = none ↔ ¬x.bytes.length < k.length x.bytes ∧ x.extra = false ∧ x.check = 0 := by
  rw [x.fault_iff k hk]
  by_cases hl : x.bytes.length < k.length x.bytes
  · rw [if_pos hl]
    exact ⟨nofun, fun h => absurd hl h.1⟩
  by_cases he : x.extra = true
  · rw [if_neg hl, if_pos he]
    exact ⟨nofun, fun h => Bool.noConfusion (he.symm.trans h.2.1)⟩
  by_cases hc : x.check = 0
  · rw [if_neg hl, if_neg he, if_neg (not_not.2 hc)]
    exact ⟨fun _ => ⟨hl, Bool.eq_false_iff.2 he, hc⟩, fun _ => rfl⟩
  · rw [if_neg hl, if_neg he, if_pos hc]
    exact ⟨nofun, fun h => absurd h.2.2 hc⟩

/-- The record of a frame of a kind, which only a check-only query leaves without its lead byte (R123, log 11). -/
theorem Front.refusal_of_kind (hq : k ≠ .checkOnlyQuery) (reason : RefusalReason) :
    x.refusal reason = ⟨reason, operandByte x.bytes 0, if k = .request then operandByte x.bytes 3 else 0x00⟩ := by
  unfold Front.refusal Front.lead Front.tagKind
  rw [hk]
  cases k with
  | request => rfl
  | collectSelect => rfl
  | statusSelect => rfl
  | checkOnlyQuery => exact absurd rfl hq

end Faults

section JudgeRequest

variable {s : State} {p : Port}

theorem State.judgeRequest_refused {reason : RefusalReason} (h : (s.front p).fault = some reason) :
    s.judgeRequest p = s.refuseFrame p ((s.front p).refusal reason) := by
  unfold State.judgeRequest
  dsimp only
  rw [h]

variable (h : (s.front p).fault = none)

include h

theorem State.judgeRequest_badKind
    (hk : ∀ kind, kindCode kind ≠ (operandByte (s.front p).bytes 3).toNat % 32) :
    s.judgeRequest p = s.refuseFrame p ((s.front p).refusal .badKind) := by
  unfold State.judgeRequest
  dsimp only
  rw [h, parseFrame_none hk]

theorem State.judgeRequest_passed {kind : ReqKind}
    (hk : kindCode kind = (operandByte (s.front p).bytes 3).toNat % 32) :
    s.judgeRequest p =
      s.sendToRqu p (.arrival
        { slot := Fin.ofNat 8 ((operandByte (s.front p).bytes 0).toNat / 8)
          session := BitVec.ofNat 16 (operandAt (s.front p).bytes 1 2)
          tag := Fin.ofNat 8 ((operandByte (s.front p).bytes 3).toNat / 32)
          kind := kind
          operands := ((s.front p).bytes.drop 5).take (operandByte (s.front p).bytes 4).toNat }) := by
  unfold State.judgeRequest
  dsimp only
  rw [h, parseFrame_some hk]

end JudgeRequest

/-! ## The end of a write segment -/

/-- The state after a segment's end, where it holds an item for the next segment unless a STOP ended it (R146, R151). -/
def State.segmentEnded (t : State) (e : SegmentEnd) (held : Option Held) : State :=
  { t with twp := { t.twp with front := Front.idle, nacked := false, held := if e = .stop then none else held } }

section EndSegment

variable {s : State} {e : SegmentEnd}

theorem State.endSegment_idle (h : s.twp.front.state = .idle) : s.endSegment e = s.segmentEnded e s.twp.held := by
  unfold State.endSegment
  rw [h]
  cases e <;> rfl

theorem State.endSegment_frame (h : s.twp.front.state = .receiving ∨ s.twp.front.state = .refusing) :
    s.endSegment e = s.judgeTwp.segmentEnded e s.judgeTwp.twp.held := by
  unfold State.endSegment
  rcases h with h | h <;> rw [h] <;> cases e <;> rfl

theorem State.endSegment_read (h : s.twp.front.state = .presenting) :
    s.endSegment e = (s.endPresentation .twp).segmentEnded e (s.endPresentation .twp).twp.held := by
  unfold State.endSegment
  rw [h]
  cases e <;> rfl

end EndSegment

theorem Front.not_written {x : Front} (hj : x.state = .receiving ∨ x.extra = true) :
    ¬(x.state = .refusing ∧ x.extra = false) := by
  rintro ⟨hs, he⟩
  rcases hj with h | h
  · cases hs.symm.trans h
  · cases he.symm.trans h

section JudgeTwp

variable {s : State}

theorem State.judgeTwp_none (h : s.twp.front.kind = none) : s.judgeTwp = s := by
  unfold State.judgeTwp
  dsimp only
  rw [h]

/-- A refusal that was written at its byte is not written again at the end (R148). -/
theorem State.judgeTwp_written (hs : s.twp.front.state = .refusing) (he : s.twp.front.extra = false)
    (hk : s.twp.front.kind ≠ some .checkOnlyQuery) : s.judgeTwp = s := by
  unfold State.judgeTwp
  dsimp only
  split
  · rfl
  · next h => exact absurd h hk
  · exact if_pos ⟨hs, he⟩

theorem State.judgeTwp_query (h : s.twp.front.kind = some .checkOnlyQuery) : s.judgeTwp = s.judgeQuery := by
  unfold State.judgeTwp
  dsimp only
  rw [h]

variable (hj : s.twp.front.state = .receiving ∨ s.twp.front.extra = true)

include hj

theorem State.judgeTwp_request (h : s.twp.front.kind = some .request) : s.judgeTwp = s.judgeRequest .twp := by
  unfold State.judgeTwp
  dsimp only
  rw [h]
  exact if_neg (Front.not_written hj)

theorem State.judgeTwp_collect (h : s.twp.front.kind = some .collectSelect) :
    s.judgeTwp =
      s.judgeSelect (.collect (leadSlot (operandByte s.twp.front.bytes 0)) (frameSession s.twp.front.bytes)) := by
  unfold State.judgeTwp
  dsimp only
  rw [h]
  exact if_neg (Front.not_written hj)

theorem State.judgeTwp_status (h : s.twp.front.kind = some .statusSelect) : s.judgeTwp = s.judgeSelect .status := by
  unfold State.judgeTwp
  dsimp only
  rw [h]
  exact if_neg (Front.not_written hj)

end JudgeTwp

section Judgements

variable {s : State}

theorem State.judgeSelect_refused {item : Held} {reason : RefusalReason} (h : s.twp.front.fault = some reason) :
    s.judgeSelect item = s.refuseFrame .twp (s.twp.front.refusal reason) := by
  unfold State.judgeSelect
  rw [h]

theorem State.judgeSelect_held {item : Held} (h : s.twp.front.fault = none) :
    s.judgeSelect item = { s with twp := { s.twp with held := some item } } := by
  unfold State.judgeSelect
  rw [h]

/-- A request or a select that fails its checks is refused with its record (R149, R150, R152). -/
theorem State.judgeTwp_refused {k : FrameKind} {reason : RefusalReason} (hk : s.twp.front.kind = some k)
    (hq : k ≠ .checkOnlyQuery) (hj : s.twp.front.state = .receiving ∨ s.twp.front.extra = true)
    (hf : s.twp.front.fault = some reason) :
    s.judgeTwp = s.refuseFrame .twp ⟨reason, operandByte s.twp.front.bytes 0,
      if k = .request then operandByte s.twp.front.bytes 3 else 0x00⟩ := by
  rw [← Front.refusal_of_kind hk hq]
  cases k with
  | request => exact (State.judgeTwp_request hj hk).trans (State.judgeRequest_refused hf)
  | collectSelect => exact (State.judgeTwp_collect hj hk).trans (State.judgeSelect_refused hf)
  | statusSelect => exact (State.judgeTwp_status hj hk).trans (State.judgeSelect_refused hf)
  | checkOnlyQuery => exact absurd rfl hq

theorem State.judgeQuery_failed (h : s.twp.front.fault ≠ none) :
    s.judgeQuery =
      { s with twp := { s.twp with held := some (.query (parseQuery s.twp.front.bytes) (.answered .checkFailed)) } } := by
  unfold State.judgeQuery
  dsimp only
  exact if_neg fun hn => h (Option.isNone_iff_eq_none.1 hn)

theorem State.judgeQuery_waits (h : s.twp.front.fault = none) (ho : s.twp.queryOut = true) :
    s.judgeQuery = { s with twp := { s.twp with held := some (.query (parseQuery s.twp.front.bytes) .waiting) } } := by
  unfold State.judgeQuery
  dsimp only
  rw [if_pos (Option.isNone_iff_eq_none.2 h), if_pos ho]

theorem State.judgeQuery_passes (h : s.twp.front.fault = none) (ho : s.twp.queryOut = false) :
    s.judgeQuery = s.passQuery (parseQuery s.twp.front.bytes) := by
  unfold State.judgeQuery
  dsimp only
  rw [if_pos (Option.isNone_iff_eq_none.2 h), if_neg (by rw [ho]; exact Bool.noConfusion)]

end Judgements

theorem exec_twpSegmentEnd_settled {s : State} (hr : s.inReset = false) (hs : s.settled .twp) (e : SegmentEnd) :
    exec (.twpSegmentEnd e) s = .next (s.endSegment e) := by
  rw [exec_twpSegmentEnd hr, State.settle_of hs]

/-- The end of a write segment, by the state its judgement leaves. -/
theorem exec_twpSegmentEnd_judged {s t : State} (hr : s.inReset = false) (hs : s.settled .twp) (e : SegmentEnd)
    (hx : s.twp.front.state = .receiving ∨ s.twp.front.state = .refusing) (hj : s.judgeTwp = t) :
    exec (.twpSegmentEnd e) s = .next (t.segmentEnded e t.twp.held) := by
  rw [exec_twpSegmentEnd_settled hr hs, State.endSegment_frame hx, hj]

/-- Settles O51: each kind of frame, by the first check it fails. -/
theorem aWriteSegmentIsJudgedAtItsEnd : Obligations.AWriteSegmentIsJudgedAtItsEnd := by
  intro s e hr hs x ends done lead
  refine ⟨fun hi => ?idle, fun hx => ⟨fun hk => ?none, fun hw he hk => ?written, fun k hk hw => ?judged⟩⟩
  case idle =>
    show exec _ _ = _
    rw [exec_twpSegmentEnd_settled hr hs, State.endSegment_idle hi]
    rfl
  case none => exact exec_twpSegmentEnd_judged hr hs e hx (State.judgeTwp_none hk)
  case written => exact exec_twpSegmentEnd_judged hr hs e hx (State.judgeTwp_written hw he hk)
  case judged =>
    intro short passes
    have hnone : s.twp.front.fault = none ↔ passes := Front.fault_none_iff hk
    have hj (hq : k ≠ .checkOnlyQuery) : s.twp.front.state = .receiving ∨ s.twp.front.extra = true :=
      hw.imp_right fun h => h.resolve_right hq
    refine ⟨fun hq => ?refused, fun kind hreq hp hkind => ?request, fun hc hp => ?collect, fun hst hp => ?status,
      fun hquery => ?query⟩
    case refused =>
      intro refused tagKind
      have hrefused {reason : RefusalReason} (hf : s.twp.front.fault = some reason) : refused reason tagKind :=
        exec_twpSegmentEnd_judged hr hs e hx (State.judgeTwp_refused hk hq (hj hq) hf)
      refine ⟨fun hl => hrefused (Front.fault_short hk hl), fun hl he => hrefused (Front.fault_extra hk hl he),
        fun hl he hc => hrefused (Front.fault_check hk hl he hc), fun hreq hp hkind => ?_⟩
      refine exec_twpSegmentEnd_judged hr hs e hx (t := s.refuseFrame .twp ⟨.badKind, lead, tagKind⟩) ?_
      have hk' : s.twp.front.kind = some .request := hreq ▸ hk
      have hkind : ∀ kind, kindCode kind ≠ (operandByte s.twp.front.bytes 3).toNat % 32 := by
        intro kind
        have := hkind kind
        rwa [show tagKind = operandByte s.twp.front.bytes 3 from if_pos hreq] at this
      rw [State.judgeTwp_request (hj hq) hk', State.judgeRequest_badKind (p := .twp) (hnone.2 hp) hkind]
      exact congrArg _ (Front.refusal_of_kind hk hq _)
    case request =>
      have hq : k ≠ .checkOnlyQuery := by rw [hreq]; exact nofun
      have hk' : s.twp.front.kind = some .request := hreq ▸ hk
      exact exec_twpSegmentEnd_judged hr hs e hx ((State.judgeTwp_request (hj hq) hk').trans
        (State.judgeRequest_passed (p := .twp) (hnone.2 hp) hkind))
    case collect =>
      have hq : k ≠ .checkOnlyQuery := by rw [hc]; exact nofun
      have hk' : s.twp.front.kind = some .collectSelect := hc ▸ hk
      exact exec_twpSegmentEnd_judged hr hs e hx ((State.judgeTwp_collect (hj hq) hk').trans
        (State.judgeSelect_held (hnone.2 hp)))
    case status =>
      have hq : k ≠ .checkOnlyQuery := by rw [hst]; exact nofun
      have hk' : s.twp.front.kind = some .statusSelect := hst ▸ hk
      exact exec_twpSegmentEnd_judged hr hs e hx ((State.judgeTwp_status (hj hq) hk').trans
        (State.judgeSelect_held (hnone.2 hp)))
    case query =>
      have hk' : s.twp.front.kind = some .checkOnlyQuery := hquery ▸ hk
      have hquery := State.judgeTwp_query hk'
      exact ⟨fun hn => exec_twpSegmentEnd_judged hr hs e hx (hquery.trans
          (State.judgeQuery_failed fun hf => hn (hnone.1 hf))),
        fun hp ho => exec_twpSegmentEnd_judged hr hs e hx (hquery.trans (State.judgeQuery_waits (hnone.2 hp) ho)),
        fun hp ho => exec_twpSegmentEnd_judged hr hs e hx (hquery.trans (State.judgeQuery_passes (hnone.2 hp) ho))⟩

/-! ## Read segments -/

section ShiftOut

variable {x : Front}

theorem Front.nextOut_of_lt (h : x.sent < x.outgoing.length) : x.nextOut = x.outgoing[x.sent] := by
  unfold Front.nextOut
  rw [List.getD_eq_getElem?_getD, List.getElem?_eq_getElem h]
  rfl

theorem Front.advance_of_lt (h : x.sent < x.outgoing.length) : x.advance = { x with sent := x.sent + 1 } := by
  unfold Front.advance
  rw [if_pos h]

theorem Front.nextOut_of_le (h : x.outgoing.length ≤ x.sent) : x.nextOut = 0xFF := by
  unfold Front.nextOut
  rw [List.getD_eq_getElem?_getD, List.getElem?_eq_none h]
  rfl

theorem Front.advance_of_le (h : x.outgoing.length ≤ x.sent) : x.advance = x := by
  unfold Front.advance
  rw [if_neg (Nat.not_lt.2 h)]

end ShiftOut

theorem State.clockOut_nacked {s : State} (h : s.twp.nacked = true) (ack : Bool) :
    s.clockOut ack = { s with twp := { s.twp with sdaOut := 0xFF } } := by
  unfold State.clockOut
  simp only [h, if_true, Bool.true_or]

theorem State.clockOut_next {s : State} (h : s.twp.nacked = false) (ack : Bool) :
    s.clockOut ack =
      { s with twp := { s.twp with front := s.twp.front.advance, sdaOut := s.twp.front.nextOut, nacked := !ack } } := by
  unfold State.clockOut
  simp only [h, Bool.false_eq_true, if_false, Bool.false_or]

section EndPresentation

variable {s : State} {p : Port}

theorem State.endPresentation_completion (h : (s.front p).presentation = .completion) :
    s.endPresentation p =
      s.setToRqu p (s.toRqu p ++ [.collectEnd (decide ((s.front p).sent = (s.front p).outgoing.length))]) := by
  unfold State.endPresentation
  rw [h]
  rfl

theorem State.endPresentation_status (h : (s.front p).presentation = .status)
    (hf : (s.front p).sent = (s.front p).outgoing.length) :
    s.endPresentation p =
      s.setPortStatus p
        { s.portStatus p with
          resetIndication := false
          refusalUnread := (s.portStatus p).refusalUnread && (s.portStatus p).refusedSince } := by
  unfold State.endPresentation
  rw [h]
  exact if_pos (decide_eq_true hf)

theorem State.endPresentation_statusCut (h : (s.front p).presentation = .status)
    (hf : ¬(s.front p).sent = (s.front p).outgoing.length) : s.endPresentation p = s := by
  unfold State.endPresentation
  rw [h]
  exact if_neg (of_decide_eq_false (by simpa [Front.readInFull] using hf))

theorem State.endPresentation_other (h : (s.front p).presentation = .nothing ∨ (s.front p).presentation = .answer) :
    s.endPresentation p = s := by
  unfold State.endPresentation
  rcases h with h | h <;> rw [h]

end EndPresentation

/-- The end of a read segment, by what the end of its presentation leaves. -/
theorem exec_twpSegmentEnd_read {s t : State} (hr : s.inReset = false) (hs : s.settled .twp) (e : SegmentEnd)
    (hx : s.twp.front.state = .presenting) (hj : s.endPresentation .twp = t) :
    exec (.twpSegmentEnd e) s = .next (t.segmentEnded e t.twp.held) := by
  rw [exec_twpSegmentEnd_settled hr hs, State.endSegment_read hx, hj]

/-- Settles O52: each byte clocked out, and the end of each presentation. -/
theorem aReadSegmentShiftsOutAndReportsItsEnd : Obligations.AReadSegmentShiftsOutAndReportsItsEnd := by
  refine ⟨fun s ack hr hs => ?clocked, fun s e hr hs hx => ⟨fun hp => ?completion, fun hp hf => ?status, fun hp => ?kept⟩⟩
  case clocked =>
    have hexec := exec_byteClockedOut hr ack
    rw [State.settle_of hs] at hexec
    refine ⟨fun hx => ?outside, fun hx hn => ?nacked, fun hx hn hl => ?next, fun hx hn hl => ?ended⟩
    case outside => exact hexec.trans (congrArg _ (if_neg hx))
    all_goals rw [if_pos hx] at hexec
    case nacked => rw [hexec, State.clockOut_nacked hn]
    case next => rw [hexec, State.clockOut_next hn, Front.advance_of_lt hl, Front.nextOut_of_lt hl]
    case ended => rw [hexec, State.clockOut_next hn, Front.advance_of_le hl, Front.nextOut_of_le hl]
  case completion => exact exec_twpSegmentEnd_read hr hs e hx (State.endPresentation_completion (p := .twp) hp)
  case status => exact exec_twpSegmentEnd_read hr hs e hx (State.endPresentation_status (p := .twp) hp hf)
  case kept =>
    refine exec_twpSegmentEnd_read hr hs e hx ?_
    rcases hp with ⟨hp, hf⟩ | hp
    · exact State.endPresentation_statusCut (p := .twp) hp hf
    · exact State.endPresentation_other (p := .twp) hp

/-! ## Bus clear -/

/-- Settles O53: where a collect was being read out its end is reported. -/
theorem aBusClearDropsTheSegment : Obligations.ABusClearDropsTheSegment := by
  intro s hr hs x lead tagKind
  rw [exec_busClear hr, State.settle_of hs]
  unfold State.clearBus
  by_cases hp : s.twp.front.presentation = .completion
  · rw [if_pos hp, if_pos hp]
    rfl
  · rw [if_neg hp, if_neg hp, List.append_nil]
    rfl

end Sys2Proof.Machine

/-! SUPPORT. The four-wire port: the fall of SSN, each byte position of a transaction, and the rise of SSN. -/

namespace Sys2Proof.Machine

/-! ## The beginning of a transaction -/

/-- Settles O54: a fall outside reset and in it, and what is clocked outside a transaction. -/
theorem aTransactionBeginsAtTheFallOfSsn : Obligations.ATransactionBeginsAtTheFallOfSsn := by
  refine ⟨fun s high hlow => ⟨fun hr hs => ?falls, fun hr => ?inReset⟩, fun s b h => ?ignored⟩
  case falls =>
    rw [exec_ssnFall hr hlow, State.settle_of hs]
    rfl
  case inReset =>
    simp only [exec, execSsnFall, hlow, hr]
    rfl
  case ignored =>
    refine congrArg Host.Outcome.next (if_pos ?_)
    rcases h with h | h | h
    · rw [h]
      rfl
    · rw [h]
      simp
    · simp [h]

/-! ## Byte positions -/

/-- FWP has shifted out a byte. -/
def State.fwpOut (s : State) (out : Byte) : State := { s with fwp := { s.fwp with sdoOut := out } }

theorem Fwp.outByte_lead {w : Fwp} (h : w.front.bytes = []) : w.outByte = w.statusByte := by
  unfold Fwp.outByte
  exact if_pos h

theorem Fwp.outByte_presenting {w : Fwp} (h : w.front.bytes ≠ []) (hs : w.front.state = .presenting) :
    w.outByte = w.front.nextOut := by
  unfold Fwp.outByte
  rw [if_neg h, if_pos hs]

theorem Fwp.outByte_frame {w : Fwp} (h : w.front.bytes ≠ []) (hs : w.front.state ≠ .presenting) : w.outByte = 0xFF := by
  unfold Fwp.outByte
  rw [if_neg h, if_neg hs]

section ByteReceived

variable {s t : State} {b out : Byte} (hr : s.inReset = false) (hs : s.settled .fwp) (hlow : s.fwp.ssnLow = true)
  (hout : s.fwp.outByte = out)

include hr hs hlow hout

theorem exec_fwpByteReceived_refusing (hx : s.fwp.front.state = .refusing) :
    exec (.fwpByteReceived b) s = .next (s.fwpOut out) := by
  rw [exec_fwpByteReceived hr hlow (by rw [hx]; exact nofun), State.settle_of hs, ← hout]
  unfold State.clockFwp
  dsimp only
  rw [hx]
  rfl

theorem exec_fwpByteReceived_presenting (hx : s.fwp.front.state = .presenting) :
    exec (.fwpByteReceived b) s = .next ((s.fwpOut out).setFront .fwp s.fwp.front.advance) := by
  rw [exec_fwpByteReceived hr hlow (by rw [hx]; exact nofun), State.settle_of hs, ← hout]
  unfold State.clockFwp
  dsimp only
  rw [hx]
  rfl

theorem exec_fwpByteReceived_receiving (hx : s.fwp.front.state = .receiving) (h : (s.fwpOut out).receiveFwp b = t) :
    exec (.fwpByteReceived b) s = .next t := by
  rw [exec_fwpByteReceived hr hlow (by rw [hx]; exact nofun), State.settle_of hs, ← h, ← hout]
  unfold State.clockFwp
  dsimp only
  rw [hx]
  rfl

end ByteReceived

section ReceiveFwp

variable {s : State} {b : Byte}

theorem State.receiveFwp_lead (h : s.fwp.front.bytes = []) : s.receiveFwp b = s.leadFwp b := by
  unfold State.receiveFwp
  exact if_pos h

variable (h : s.fwp.front.bytes ≠ [])

include h

theorem State.receiveFwp_badLead (hk : s.fwp.front.kind = none) :
    s.receiveFwp b = s.refuseFwp (s.fwp.front.refusal .badLead) := by
  unfold State.receiveFwp
  dsimp only
  rw [if_neg h, if_pos hk]

theorem State.receiveFwp_request (hk : s.fwp.front.kind = some .request) : s.receiveFwp b = s.requestFwp b := by
  unfold State.receiveFwp
  dsimp only
  rw [if_neg h, if_neg (by rw [hk]; exact nofun), if_pos hk]

theorem State.receiveFwp_select {k : FrameKind} (hk : s.fwp.front.kind = some k) (hq : k ≠ .request) :
    s.receiveFwp b = s.selectFwp b := by
  unfold State.receiveFwp
  dsimp only
  rw [if_neg h, if_neg (by rw [hk]; exact nofun), if_neg (by rw [hk]; exact fun he => hq (Option.some.inj he))]

end ReceiveFwp

/-! ### Lead bytes -/

section LeadFwp

variable {s : State} {b : Byte}

theorem State.leadFwp_unjudged (h : b = 0xFF) : s.leadFwp b = s.setFront .fwp (s.fwp.front.take b) := by
  unfold State.leadFwp
  exact if_pos h

theorem State.leadFwp_none (hb : b ≠ 0xFF) (h : leadKind b = none) :
    s.leadFwp b = (s.setFront .fwp (s.fwp.front.take b)).refuseFwp ((s.fwp.front.take b).refusal .badLead) := by
  unfold State.leadFwp
  dsimp only
  rw [if_neg hb, h]

theorem ne_ff_of_leadKind {k : FrameKind} (h : leadKind b = some k) : b ≠ 0xFF := by
  rintro rfl
  cases h

theorem State.leadFwp_request (h : leadKind b = some .request) :
    s.leadFwp b = (s.setFront .fwp { s.fwp.front.take b with kind := some .request }).sendToRqu .fwp .claim := by
  unfold State.leadFwp
  dsimp only
  rw [if_neg (ne_ff_of_leadKind h), h]

theorem State.leadFwp_select {k : FrameKind} (h : leadKind b = some k) (hk : k ≠ .request) :
    s.leadFwp b = s.setFront .fwp { s.fwp.front.take b with kind := some k } := by
  unfold State.leadFwp
  dsimp only
  rw [if_neg (ne_ff_of_leadKind h), h]
  cases k with
  | request => exact absurd rfl hk
  | collectSelect => rfl
  | statusSelect => rfl
  | checkOnlyQuery => rfl

end LeadFwp

/-! ### Requests -/

section RequestFwp

variable {s : State} {b : Byte} (hk : s.fwp.front.kind = some .request)

include hk

theorem State.requestFwp_extra (hc : FrameKind.request.length s.fwp.front.bytes ≤ s.fwp.front.bytes.length) :
    s.requestFwp b = s.setFront .fwp { s.fwp.front with extra := true } := by
  unfold State.requestFwp
  exact if_pos ((Front.complete_iff hk).2 hc)

variable (hc : ¬FrameKind.request.length s.fwp.front.bytes ≤ s.fwp.front.bytes.length)

include hc

theorem State.requestFwp_badLength (hl : s.fwp.front.bytes.length = 4 ∧ 16 < b.toNat) :
    s.requestFwp b = (s.setFront .fwp (s.fwp.front.take b)).refuseFwp ((s.fwp.front.take b).refusal .badLength) := by
  unfold State.requestFwp
  dsimp only
  rw [if_neg fun h => hc ((Front.complete_iff hk).1 h), if_pos ((Front.badLength_iff hk b).2 ⟨rfl, hl⟩)]

theorem State.requestFwp_takes (hl : ¬(s.fwp.front.bytes.length = 4 ∧ 16 < b.toNat)) :
    s.requestFwp b = s.setFront .fwp (s.fwp.front.take b) := by
  unfold State.requestFwp
  dsimp only
  rw [if_neg fun h => hc ((Front.complete_iff hk).1 h), if_neg fun h => hl ((Front.badLength_iff hk b).1 h).2]

end RequestFwp

/-! ### Selects -/

/-- A byte does not change the length of a frame that is a select. -/
theorem FrameKind.length_select {k : FrameKind} (hk : k = .collectSelect ∨ k = .statusSelect) (l m : List Byte) :
    k.length l = k.length m := by
  rcases hk with rfl | rfl <;> rfl

/-- The byte just taken is the last of a select. -/
theorem Front.take_complete_iff {x : Front} {k : FrameKind} (hk : x.kind = some k)
    (hs : k = .collectSelect ∨ k = .statusSelect) (b : Byte) :
    (x.take b).complete = true ↔ k.length x.bytes ≤ x.bytes.length + 1 := by
  rw [Front.complete_iff (x := x.take b) hk, FrameKind.length_select hs _ x.bytes]
  unfold Front.take
  rw [List.length_append]
  exact Iff.rfl

section SelectFwp

variable {s : State} {b : Byte} {k : FrameKind} (hk : s.fwp.front.kind = some k)
  (hs : k = .collectSelect ∨ k = .statusSelect)

include hk hs

theorem State.selectFwp_takes (hl : ¬k.length s.fwp.front.bytes ≤ s.fwp.front.bytes.length + 1) :
    s.selectFwp b = s.setFront .fwp (s.fwp.front.take b) := by
  unfold State.selectFwp
  exact if_pos (Bool.eq_false_iff.2 fun h => hl ((Front.take_complete_iff hk hs b).1 h))

variable (hl : k.length s.fwp.front.bytes ≤ s.fwp.front.bytes.length + 1)

include hl

theorem Front.take_complete : ¬(s.fwp.front.take b).complete = false := by
  rw [(Front.take_complete_iff hk hs b).2 hl]
  exact Bool.noConfusion

theorem State.selectFwp_refused (hc : (s.fwp.front.take b).check ≠ 0) :
    s.selectFwp b = (s.setFront .fwp (s.fwp.front.take b)).refuseFwp ((s.fwp.front.take b).refusal .checkFailed) := by
  unfold State.selectFwp
  dsimp only
  rw [if_neg (Front.take_complete hk hs hl), if_pos hc]

theorem State.selectFwp_collect (hc : (s.fwp.front.take b).check = 0) (he : k = .collectSelect) :
    s.selectFwp b =
      ((s.setFront .fwp (s.fwp.front.take b)).setFront .fwp ((s.fwp.front.take b).present .completion [])).sendToRqu .fwp
        (.select (leadSlot (operandByte (s.fwp.front.take b).bytes 0)) (frameSession (s.fwp.front.take b).bytes)) := by
  unfold State.selectFwp
  dsimp only
  rw [if_neg (Front.take_complete hk hs hl), if_neg (not_not.2 hc),
    if_pos (show (s.fwp.front.take b).kind = _ from hk.trans (congrArg some he))]

theorem State.selectFwp_status (hc : (s.fwp.front.take b).check = 0) (he : k = .statusSelect) :
    s.selectFwp b = (s.setFront .fwp (s.fwp.front.take b)).fixStatus .fwp := by
  unfold State.selectFwp
  dsimp only
  rw [if_neg (Front.take_complete hk hs hl), if_neg (not_not.2 hc), if_neg]
  show ¬s.fwp.front.kind = _
  rw [hk, he]
  exact nofun

end SelectFwp

/-- The record of a select refused at its last byte: its lead byte alone (R162, log 11). -/
theorem Front.refusal_of_select {x : Front} {k : FrameKind} (hk : x.kind = some k)
    (hs : k = .collectSelect ∨ k = .statusSelect) (hb : x.bytes ≠ []) (b : Byte) (reason : RefusalReason) :
    (x.received b).refusal reason = ⟨reason, operandByte x.bytes 0, 0x00⟩ := by
  have hlead : operandByte (x.received b).bytes 0 = operandByte x.bytes 0 :=
    operandByte_append_lt _ _ _ (List.length_pos_iff.2 hb)
  rw [Front.refusal_of_kind (x := x.received b) hk (by rcases hs with rfl | rfl <;> exact nofun), hlead,
    if_neg (by rcases hs with rfl | rfl <;> exact nofun)]

/-- Settles O55: by the state of the front end, then by what the frame is so far. -/
theorem fwpJudgesEachByte : Obligations.FwpJudgesEachByte := by
  intro s b hr hs hlow x goes does refused
  refine ⟨fun hx hb => ?refusing, fun hx hb => ⟨fun hl => ?shiftsOut, fun hl => ?shiftedOut⟩, fun hx hcheck => ?receiving⟩
  case refusing =>
    exact exec_fwpByteReceived_refusing hr hs hlow (Fwp.outByte_frame hb (by rw [hx]; exact nofun)) hx
  case shiftsOut =>
    refine (exec_fwpByteReceived_presenting hr hs hlow (Fwp.outByte_presenting hb hx) hx).trans ?_
    rw [Front.advance_of_lt hl, Front.nextOut_of_lt hl]
    rfl
  case shiftedOut =>
    refine (exec_fwpByteReceived_presenting hr hs hlow (Fwp.outByte_presenting hb hx) hx).trans ?_
    rw [Front.advance_of_le hl, Front.nextOut_of_le hl]
    rfl
  case receiving =>
    have htake : s.fwp.front.take b = s.fwp.front.received b := Front.received_take b hcheck
    have hframe {t : State} (hb : s.fwp.front.bytes ≠ []) (h : (s.fwpOut 0xFF).receiveFwp b = t) : does t :=
      exec_fwpByteReceived_receiving hr hs hlow (Fwp.outByte_frame hb (by rw [hx]; exact nofun)) hx h
    refine ⟨fun hb hk => ?lead, fun hb hk => ?unjudged, fun hb hk => ?request, fun k hb hk hsel => ?select⟩
    case lead =>
      intro lead
      have hlead {t : State} (h : (s.fwpOut lead).leadFwp b = t) : does t :=
        exec_fwpByteReceived_receiving hr hs hlow (Fwp.outByte_lead hb) hx
          ((State.receiveFwp_lead (s := s.fwpOut lead) hb).trans h)
      refine ⟨fun hf => hlead ?_, fun hf hl => hlead ?_, fun h8 hl => hlead ?_, fun h8 hl => hlead ?_, fun h8 hl => hlead ?_⟩
      · exact (State.leadFwp_unjudged hf).trans (congrArg ((s.fwpOut lead).setFront .fwp ·) htake)
      · have hrec : (s.fwp.front.received b).refusal .badLead = ⟨.badLead, b, 0x00⟩ := by
          rw [Front.refusal_of_none (x := s.fwp.front.received b) hk]
          unfold Front.received
          rw [show s.fwp.front.bytes = [] from hb]
          rfl
        refine (State.leadFwp_none hf (leadKind_bad hl)).trans ?_
        rw [show (s.fwpOut lead).fwp.front.take b = _ from htake, hrec]
        rfl
      · refine (State.leadFwp_request (leadKind_request h8 hl)).trans ?_
        rw [show (s.fwpOut lead).fwp.front.take b = _ from htake]
        rfl
      · refine (State.leadFwp_select (leadKind_collect h8 hl) nofun).trans ?_
        rw [show (s.fwpOut lead).fwp.front.take b = _ from htake]
        rfl
      · refine (State.leadFwp_select (leadKind_status h8 hl) nofun).trans ?_
        rw [show (s.fwpOut lead).fwp.front.take b = _ from htake]
        rfl
    case unjudged =>
      have hb' : s.fwp.front.bytes ≠ [] := by rw [show s.fwp.front.bytes = _ from hb]; exact nofun
      refine hframe hb' ((State.receiveFwp_badLead (s := s.fwpOut 0xFF) hb' hk).trans ?_)
      rw [Front.refusal_of_none (x := (s.fwpOut 0xFF).fwp.front) hk,
        show (s.fwpOut 0xFF).fwp.front.bytes = _ from hb]
      rfl
    case request =>
      intro whole long
      have hwhole : whole ↔ FrameKind.request.length s.fwp.front.bytes ≤ s.fwp.front.bytes.length := by
        show s.fwp.front.bytes.length = (operandByte s.fwp.front.bytes 4).toNat + 6 ∨
            (operandByte s.fwp.front.bytes 4).toNat + 6 < s.fwp.front.bytes.length ↔
          (operandByte s.fwp.front.bytes 4).toNat + 6 ≤ s.fwp.front.bytes.length
        omega
      have hrequest {t : State} (h : (s.fwpOut 0xFF).requestFwp b = t) : does t :=
        hframe hb ((State.receiveFwp_request (s := s.fwpOut 0xFF) hb hk).trans h)
      refine ⟨fun hw => hrequest ?_, fun hw hl => hrequest ?_, fun hw hl => hrequest ?_⟩
      · exact State.requestFwp_extra (s := s.fwpOut 0xFF) hk (hwhole.1 hw)
      · refine (State.requestFwp_badLength (s := s.fwpOut 0xFF) hk (fun h => hw (hwhole.2 h)) hl).trans ?_
        rw [show (s.fwpOut 0xFF).fwp.front.take b = _ from htake, Front.refusal_of_badLength hk hl.1]
        rfl
      · refine (State.requestFwp_takes (s := s.fwpOut 0xFF) hk (fun h => hw (hwhole.2 h)) hl).trans ?_
        rw [show (s.fwpOut 0xFF).fwp.front.take b = _ from htake]
        rfl
    case select =>
      intro last y
      have hne : k ≠ .request := by rcases hsel with rfl | rfl <;> exact nofun
      have hselect {t : State} (h : (s.fwpOut 0xFF).selectFwp b = t) : does t :=
        hframe hb ((State.receiveFwp_select (s := s.fwpOut 0xFF) hb hk hne).trans h)
      have htake' : (s.fwpOut 0xFF).fwp.front.take b = s.fwp.front.received b := htake
      have hcheck {c : Byte} : (s.fwp.front.received b).check = c ↔ ((s.fwpOut 0xFF).fwp.front.take b).check = c := by
        rw [htake']
      refine ⟨fun hl => hselect ?_, fun hl hc => hselect ?_, fun hl hc he => hselect ?_, fun hl hc he => ?_⟩
      · rw [State.selectFwp_takes (s := s.fwpOut 0xFF) hk hsel hl, htake']
        rfl
      · rw [State.selectFwp_refused (s := s.fwpOut 0xFF) hk hsel hl (fun h => hc (hcheck.2 h)), htake',
          Front.refusal_of_select hk hsel hb]
        rfl
      · rw [State.selectFwp_collect (s := s.fwpOut 0xFF) hk hsel hl (hcheck.1 hc) he, htake']
        rfl
      · intro status
        refine hselect ?_
        rw [State.selectFwp_status (s := s.fwpOut 0xFF) hk hsel hl (hcheck.1 hc) he, htake']
        exact State.fixStatus_fwp _ _ (State.statusPresentation_fwp _)

/-! ## The end of a transaction -/

/-- The state after a transaction's end (R157). -/
def State.transactionEnded (t : State) : State :=
  { t with fwp := { t.fwp with front := Front.idle, sdoDriven := false, ssnLow := false } }

section SsnRise

variable {s t : State} (hr : s.inReset = false) (hs : s.settled .fwp) (hlow : s.fwp.ssnLow = true)

include hr hs hlow

theorem exec_ssnRise_idle (hx : s.fwp.front.state = .idle ∨ s.fwp.front.state = .refusing) :
    exec .ssnRise s = .next s.transactionEnded := by
  rw [exec_ssnRise hr hlow, State.settle_of hs]
  unfold State.endTransaction
  rcases hx with hx | hx <;> rw [hx] <;> rfl

theorem exec_ssnRise_judged (hx : s.fwp.front.state = .receiving) (hj : s.judgeFwp = t) :
    exec .ssnRise s = .next t.transactionEnded := by
  rw [exec_ssnRise hr hlow, State.settle_of hs, ← hj]
  unfold State.endTransaction
  rw [hx]
  rfl

theorem exec_ssnRise_read (hx : s.fwp.front.state = .presenting) (hj : s.endPresentation .fwp = t) :
    exec .ssnRise s = .next t.transactionEnded := by
  rw [exec_ssnRise hr hlow, State.settle_of hs, ← hj]
  unfold State.endTransaction
  rw [hx]
  rfl

end SsnRise

section JudgeFwp

variable {s : State}

theorem State.judgeFwp_none (h : s.fwp.front.kind = none) : s.judgeFwp = s := by
  unfold State.judgeFwp
  rw [h]

theorem State.judgeFwp_request (h : s.fwp.front.kind = some .request) : s.judgeFwp = s.judgeRequest .fwp := by
  unfold State.judgeFwp
  rw [h]

theorem State.judgeFwp_select {k : FrameKind} (h : s.fwp.front.kind = some k)
    (hs : k = .collectSelect ∨ k = .statusSelect) {reason : RefusalReason} (hf : s.fwp.front.fault = some reason) :
    s.judgeFwp = s.refuseFrame .fwp ⟨reason, operandByte s.fwp.front.bytes 0, 0x00⟩ := by
  have hrec := Front.refusal_of_kind h (by rcases hs with rfl | rfl <;> exact nofun) reason
  rw [if_neg (by rcases hs with rfl | rfl <;> exact nofun)] at hrec
  rw [← hrec]
  unfold State.judgeFwp
  rcases hs with rfl | rfl <;> rw [h] <;> dsimp only <;> rw [hf]

/-- A REQUEST that fails a check is refused with its record (R160). -/
theorem State.judgeFwp_refused (h : s.fwp.front.kind = some .request) {reason : RefusalReason}
    (hf : s.fwp.front.fault = some reason) :
    s.judgeFwp =
      s.refuseFrame .fwp ⟨reason, operandByte s.fwp.front.bytes 0, operandByte s.fwp.front.bytes 3⟩ := by
  rw [State.judgeFwp_request h, State.judgeRequest_refused (p := .fwp) hf]
  exact congrArg _ (Front.refusal_of_request h _)

end JudgeFwp

/-- Settles O56: by what the front end was doing when SSN rose. -/
theorem ssnRiseEndsTheTransaction : Obligations.SsnRiseEndsTheTransaction := by
  intro s hlow x ends done lead full
  refine ⟨fun hr => ?inReset, fun hr hs => ⟨fun hx => ?unjudged, fun hx => ?judged, fun hx => ⟨fun hp => ?completion,
    fun hp hf => ?status, fun hp hf => ?cut⟩⟩⟩
  case inReset =>
    simp only [exec, execSsnRise, hlow, hr]
    rfl
  case unjudged =>
    rcases hx with hx | hx | ⟨hx, hk⟩
    · exact exec_ssnRise_idle hr hs hlow (.inl hx)
    · exact exec_ssnRise_idle hr hs hlow (.inr hx)
    · exact exec_ssnRise_judged hr hs hlow hx (State.judgeFwp_none hk)
  case judged =>
    intro refused
    refine ⟨fun k hk hsel hl => ?select, fun hk => ?request⟩
    case select =>
      exact exec_ssnRise_judged hr hs hlow hx (State.judgeFwp_select hk hsel (Front.fault_short hk hl))
    case request =>
      intro tagKind short passes
      have hnone : s.fwp.front.fault = none ↔ passes := Front.fault_none_iff hk
      have hrefused {reason : RefusalReason} (hf : s.fwp.front.fault = some reason) : refused reason tagKind :=
        exec_ssnRise_judged hr hs hlow hx (State.judgeFwp_refused hk hf)
      refine ⟨fun hl => hrefused (Front.fault_short hk hl), fun hl he => hrefused (Front.fault_extra hk hl he),
        fun hl he hc => hrefused (Front.fault_check hk hl he hc), fun hp hkind => ?badKind, fun kind hp hkind => ?passed⟩
      case badKind =>
        refine exec_ssnRise_judged hr hs hlow hx (t := s.refuseFrame .fwp ⟨.badKind, lead, tagKind⟩) ?_
        rw [State.judgeFwp_request hk, State.judgeRequest_badKind (p := .fwp) (hnone.2 hp) hkind]
        exact congrArg _ (Front.refusal_of_request hk _)
      case passed =>
        exact exec_ssnRise_judged hr hs hlow hx ((State.judgeFwp_request hk).trans
          (State.judgeRequest_passed (p := .fwp) (hnone.2 hp) hkind))
  case completion => exact exec_ssnRise_read hr hs hlow hx (State.endPresentation_completion (p := .fwp) hp)
  case status => exact exec_ssnRise_read hr hs hlow hx (State.endPresentation_status (p := .fwp) hp hf)
  case cut => exact exec_ssnRise_read hr hs hlow hx (State.endPresentation_statusCut (p := .fwp) hp hf)

end Sys2Proof.Machine
